-- ==== Sys2Proof/Word.lean ====
section
/-! DEFINITION. The word types of the block: PCM bytes, wire words and the subframe word
(30_encoding.md R70 to R72, R77). -/

namespace Sys2Proof

/-- One byte of a PCM buffer, of a command word or of an operand (30_encoding.md R71, R86). -/
abbrev Byte := BitVec 8

/-- One wire word: 16 cells, bit 15 first on the line (20_memory.md R52, 30_encoding.md R77). -/
abbrev WireWord := BitVec 16

/-- The 32-bit subframe word: bit k is time slot k (30_encoding.md R72). -/
abbrev SubframeWord := BitVec 32

end Sys2Proof
end

