-- ==== Sys2Proof/Syntax.lean ====
section
/-! DEFINITION. The operations of the block, one constructor per row of spec/opcode_table.json,
with their operands (30_encoding.md R86, R88). -/

namespace Sys2Proof

/-- A or B: a PCM buffer, a wire buffer or a DMA channel (00_scope.md section 6, 30_encoding.md R85). -/
inductive Side where
  | A
  | B
deriving DecidableEq, Repr

/-- `other(c)` is B for A and A for B (00_scope.md R12). -/
def Side.other : Side → Side
  | .A => .B
  | .B => .A

/-- A dispatcher job, one of two kinds (30_encoding.md R84). -/
inductive Job where
  | encodeA
  | encodeB
deriving DecidableEq, Repr

/-- The descriptor of a PCM source, opaque to the block and handed to STORAGE:
"(path or handle, byte offset, length)" (44_host_interface.md R161). Numbers: log 3. -/
structure Source where
  handle : Nat
  offset : Nat
  length : Nat
deriving DecidableEq, Repr

/-- An operation request: one constructor per row of spec/opcode_table.json. Operands that the
command word does not hold are fields too (log 3). -/
inductive Instr where
  /-- `setup()`, R160 -/
  | setup
  /-- `start(sourceDescriptor)`, R161 -/
  | start (src : Source)
  /-- `stop()`, R162 -/
  | stop
  /-- `poll()`, R163 -/
  | poll
  /-- `isActive()`, R164 -/
  | isActive
  /-- `acquireFillTarget()`, R116 -/
  | acquireFillTarget
  /-- `markFilled()`, R117 -/
  | markFilled
  /-- `consumeChunk(c)`, R118 -/
  | consumeChunk (c : Side)
  /-- `encode((b, p), (c, q), byteLen)`, R101 -/
  | encode (b : Side) (p : Nat) (c : Side) (q : Nat) (byteLen : Nat)
  /-- `encode_sample(lo, hi)`, R100 -/
  | encodeSample (lo hi : Byte)
  /-- `dma_start()`, R134 -/
  | dmaStart
  /-- `dma_stop()`, R137 -/
  | dmaStop
  /-- `rearm(c)`, R136 -/
  | rearm (c : Side)
  /-- `dma_word(c)`, R131 -/
  | dmaWord (c : Side)
  /-- `irq_service(c)`, R178 -/
  | irqService (c : Side)
  /-- `push(job)`, R151 -/
  | push (j : Job)
  /-- `worker_pop()`, R152 -/
  | workerPop
  /-- `fill_write(b, i, v)`, R119 -/
  | fillWrite (b : Side) (i : Nat) (v : Byte)
deriving DecidableEq, Repr

end Sys2Proof
end

