-- ==== Sys2Proof/Config.lean ====
section
/-! DEFINITION. What an implementation fixes: the parameters of 00_scope.md R6, and the free
values, which nothing in Lean can evaluate. -/

namespace Sys2Proof

/-- What `markFilled` does when no buffer is Filling: 93_implementation_defined.md U1, decision D12. -/
inductive MarkFilledIdle where
  | noop
  | refuse
deriving DecidableEq, Repr

/-- The implementation parameters (00_scope.md R6, decisions D12 and D21). The two rates are timing
only, "no rule depends on it". -/
structure Params where
  pcmBufBytes : Nat
  wireWords : Nat
  chunkBytes : Nat
  queueDepth : Nat
  markFilledIdle : MarkFilledIdle
  cellRateHz : Nat
  sampleRateHz : Nat
deriving DecidableEq, Repr

/-- The reference values (00_scope.md R6; decisions D1, D12, D21; log 6, log 20). -/
def Config.reference : Params where
  pcmBufBytes := 8192
  wireWords := 2048
  chunkBytes := 1024
  queueDepth := 1
  markFilledIdle := .noop
  cellRateHz := 5644800
  sampleRateHz := 44100

/-! Free values: no body, so no proof can see which value it is. -/

/-- The byte a PCM buffer holds where nothing has been written since power-on: "any value"
(10_state.md R39, 93_implementation_defined.md U13; log 7). -/
opaque Config.pcmPowerOn : Side → Nat → BitVec 8

/-- The entry a wire buffer holds where nothing has been written since power-on: "any value"
(10_state.md R39, 93_implementation_defined.md U13; log 7). -/
opaque Config.wirePowerOn : Side → Nat → BitVec 16

/-- Which of the values a racing read may return the n-th drawn one is: "draw({old, new})"
(20_memory.md R61; log 8, log 9). -/
opaque Config.raceChoice : Nat → Nat

/-- The n-th drawn value of a read pointer after `stop`: "unspecified" (10_state.md R39,
93_implementation_defined.md U15; log 10). -/
opaque Config.freeRptr : Nat → Nat

/-- The byte a source delivers at a position that the plain input data does not list
(44_host_interface.md R165, 91_not_in_source.md N19; log 17). -/
opaque Config.sourceByte : Option Source → Nat → BitVec 8

end Sys2Proof
end

