-- ==== Sys2Proof/WellFormed.lean ====
section
/-! DEFINITION. Which operations the trace format can hold: each operand that is a number is
written in four bytes (log 3). -/

namespace Sys2Proof

/-- A number that four operand bytes can hold (log 3). -/
def fits32 (n : Nat) : Bool := decide (n < 2 ^ 32)

/-- A source descriptor that the operand bytes of `start` can hold (log 3). -/
def Source.wf (src : Source) : Bool := fits32 src.handle && fits32 src.offset && fits32 src.length

/-- An operation whose operands the trace format can hold (log 3). -/
def Instr.wf : Instr → Bool
  | .setup => true
  | .start src => src.wf
  | .stop => true
  | .poll => true
  | .isActive => true
  | .acquireFillTarget => true
  | .markFilled => true
  | .consumeChunk _ => true
  | .encode _ p _ q byteLen => fits32 p && fits32 q && fits32 byteLen
  | .encodeSample _ _ => true
  | .dmaStart => true
  | .dmaStop => true
  | .rearm _ => true
  | .dmaWord _ => true
  | .irqService _ => true
  | .push _ => true
  | .workerPop => true
  | .fillWrite _ i _ => fits32 i

end Sys2Proof
end

