-- ==== Sys2Proof/Decode.lean ====
section
/-! DEFINITION. The decoder of a trace of operation requests (30_encoding.md R86, R87), total on any
bytes and rejecting by name, and after it the encoder. The command word is the first byte; the
operands that the command word does not hold follow it (log 3). -/

namespace Sys2Proof

/-- Why bytes are no operation request. Raised by the decoder, reported by the step as the refusal
`badCommand`; safe, the run ends there. -/
inductive DecodeError where
  /-- operation number 0x12 to 0x7F, reserved (30_encoding.md R87) -/
  | reservedOperation (word : Byte)
  /-- bit 0 set on an operation that takes no channel operand (30_encoding.md R87) -/
  | reservedChannelBit (word : Byte)
  /-- a buffer operand byte that is neither 0 (A) nor 1 (B) (30_encoding.md R85, log 3) -/
  | badSide (b : Byte)
  /-- the trace ends before the operand bytes do (log 3) -/
  | truncated
deriving DecidableEq, Repr

/-- What the decoder answers: the operation and the bytes after it, or why not. -/
abbrev DecodeResult := Except DecodeError (Instr × List Byte)

/-- 0 = A, 1 = B (30_encoding.md R85). -/
def Side.ofBit : Bool → Side
  | false => .A
  | true => .B

/-- 0 = A, 1 = B (30_encoding.md R85). -/
def Side.bit : Side → Bool
  | .A => false
  | .B => true

/-- 0 = `EncodeA`, 1 = `EncodeB` (30_encoding.md R84). -/
def Job.ofBit : Bool → Job
  | false => .encodeA
  | true => .encodeB

/-- 0 = `EncodeA`, 1 = `EncodeB` (30_encoding.md R84). -/
def Job.bit : Job → Bool
  | .encodeA => false
  | .encodeB => true

/-- The operation number: bits 7:1 of the command word (30_encoding.md R86). -/
def opNumber (w : Byte) : Nat := w.toNat / 2

/-- The channel or buffer operand: bit 0 of the command word (30_encoding.md R86). -/
def channelBit (w : Byte) : Bool := w.toNat % 2 == 1

/-- The next operand byte. -/
def takeByte : List Byte → Except DecodeError (Byte × List Byte)
  | [] => .error .truncated
  | b :: rest => .ok (b, rest)

/-- The next operand byte, read as a buffer name (30_encoding.md R85, log 3). -/
def takeSide : List Byte → Except DecodeError (Side × List Byte)
  | [] => .error .truncated
  | b :: rest => if b = 0#8 then .ok (.A, rest) else if b = 1#8 then .ok (.B, rest) else .error (.badSide b)

/-- The next four operand bytes, read as one number, low byte first (log 3). -/
def takeNat32 : List Byte → Except DecodeError (Nat × List Byte)
  | b0 :: b1 :: b2 :: b3 :: rest =>
    .ok (b0.toNat + 256 * (b1.toNat + 256 * (b2.toNat + 256 * b3.toNat)), rest)
  | _ => .error .truncated

/-- An operation without a channel operand: bit 0 set is reserved (30_encoding.md R87). -/
def plainOp (w : Byte) (k : DecodeResult) : DecodeResult :=
  if channelBit w then .error (.reservedChannelBit w) else k

/-- The operands of `start`: handle, byte offset, length (44_host_interface.md R161, log 3). -/
def decodeStart (bs : List Byte) : DecodeResult := do
  let (handle, bs) ← takeNat32 bs
  let (offset, bs) ← takeNat32 bs
  let (length, bs) ← takeNat32 bs
  return (.start { handle := handle, offset := offset, length := length }, bs)

/-- The operands of `encode`: (b, p), (c, q), byteLen (40_frame_encoder.md R101, log 3). -/
def decodeEncode (bs : List Byte) : DecodeResult := do
  let (b, bs) ← takeSide bs
  let (p, bs) ← takeNat32 bs
  let (c, bs) ← takeSide bs
  let (q, bs) ← takeNat32 bs
  let (byteLen, bs) ← takeNat32 bs
  return (.encode b p c q byteLen, bs)

/-- The operands of `encode_sample`: lo, hi (40_frame_encoder.md R100, log 3). -/
def decodeEncodeSample (bs : List Byte) : DecodeResult := do
  let (lo, bs) ← takeByte bs
  let (hi, bs) ← takeByte bs
  return (.encodeSample lo hi, bs)

/-- The operands of `fill_write` after its command word: i, v (41_buffer_pipeline.md R119, log 3). -/
def decodeFillWrite (b : Side) (bs : List Byte) : DecodeResult := do
  let (i, bs) ← takeNat32 bs
  let (v, bs) ← takeByte bs
  return (.fillWrite b i v, bs)

/-- The operation of one command word and its operand bytes (30_encoding.md R86, R87). -/
def decodeWord (w : Byte) (bs : List Byte) : DecodeResult :=
  match opNumber w with
  | 0x00 => plainOp w (.ok (.setup, bs))
  | 0x01 => plainOp w (decodeStart bs)
  | 0x02 => plainOp w (.ok (.stop, bs))
  | 0x03 => plainOp w (.ok (.poll, bs))
  | 0x04 => plainOp w (.ok (.isActive, bs))
  | 0x05 => plainOp w (.ok (.acquireFillTarget, bs))
  | 0x06 => plainOp w (.ok (.markFilled, bs))
  | 0x07 => .ok (.consumeChunk (Side.ofBit (channelBit w)), bs)
  | 0x08 => plainOp w (decodeEncode bs)
  | 0x09 => plainOp w (decodeEncodeSample bs)
  | 0x0A => plainOp w (.ok (.dmaStart, bs))
  | 0x0B => plainOp w (.ok (.dmaStop, bs))
  | 0x0C => .ok (.rearm (Side.ofBit (channelBit w)), bs)
  | 0x0D => .ok (.dmaWord (Side.ofBit (channelBit w)), bs)
  | 0x0E => .ok (.irqService (Side.ofBit (channelBit w)), bs)
  | 0x0F => .ok (.push (Job.ofBit (channelBit w)), bs)
  | 0x10 => plainOp w (.ok (.workerPop, bs))
  | 0x11 => decodeFillWrite (Side.ofBit (channelBit w)) bs
  | _ => .error (.reservedOperation w)

/-- The decoder: the first operation request of a trace, and the bytes after it. -/
def decode : List Byte → DecodeResult
  | [] => .error .truncated
  | w :: bs => decodeWord w bs

/-! The encoder, written from the same table. -/

/-- The command word `oooo ooo c` (30_encoding.md R86). -/
def commandWord (op : Nat) (c : Bool) : Byte := BitVec.ofNat 8 (2 * op + c.toNat)

/-- A buffer name as one operand byte (30_encoding.md R85, log 3). -/
def sideByte (s : Side) : Byte := BitVec.ofNat 8 s.bit.toNat

/-- A number as four operand bytes, low byte first (log 3). -/
def nat32Bytes (n : Nat) : List Byte :=
  [BitVec.ofNat 8 n, BitVec.ofNat 8 (n / 256), BitVec.ofNat 8 (n / 65536), BitVec.ofNat 8 (n / 16777216)]

/-- The bytes of an operation request in a trace (30_encoding.md R86, log 3). -/
def encode : Instr → List Byte
  | .setup => [commandWord 0x00 false]
  | .start src =>
    commandWord 0x01 false :: (nat32Bytes src.handle ++ nat32Bytes src.offset ++ nat32Bytes src.length)
  | .stop => [commandWord 0x02 false]
  | .poll => [commandWord 0x03 false]
  | .isActive => [commandWord 0x04 false]
  | .acquireFillTarget => [commandWord 0x05 false]
  | .markFilled => [commandWord 0x06 false]
  | .consumeChunk c => [commandWord 0x07 c.bit]
  | .encode b p c q byteLen =>
    commandWord 0x08 false ::
      (sideByte b :: nat32Bytes p ++ (sideByte c :: nat32Bytes q) ++ nat32Bytes byteLen)
  | .encodeSample lo hi => [commandWord 0x09 false, lo, hi]
  | .dmaStart => [commandWord 0x0A false]
  | .dmaStop => [commandWord 0x0B false]
  | .rearm c => [commandWord 0x0C c.bit]
  | .dmaWord c => [commandWord 0x0D c.bit]
  | .irqService c => [commandWord 0x0E c.bit]
  | .push j => [commandWord 0x0F j.bit]
  | .workerPop => [commandWord 0x10 false]
  | .fillWrite b i v => commandWord 0x11 b.bit :: (nat32Bytes i ++ [v])

/-! The words of the opcode table, laid out as a trace holds them. -/

/-- The longest request: `encode`, one command byte and fourteen operand bytes (log 3). -/
def maxRequestBytes : Nat := 15

/-- The first `k` bytes of the bits `w`, bit 0 the least significant bit of the first byte. -/
def bytesOfBits : Nat → Nat → List Byte
  | 0, _ => []
  | k + 1, w => BitVec.ofNat 8 w :: bytesOfBits k (w / 256)

/-- The bytes of a table word of `nbits` bits, every bit above them 0. -/
def tableBytes (nbits w : Nat) : List Byte := bytesOfBits maxRequestBytes (w % 2 ^ nbits)

/-- The bytes of exactly the request that a table word begins; where the decoder refuses it, its
command byte alone. -/
def requestBytes (nbits w : Nat) : List Byte :=
  match decode (tableBytes nbits w) with
  | .ok (_, rest) => (tableBytes nbits w).take (maxRequestBytes - rest.length)
  | .error _ => (tableBytes nbits w).take 1

/-- The instruction the decoder reads from a word of spec/opcode_table.json. -/
def decodeTableWord (nbits w : Nat) : Option Instr :=
  match decode (tableBytes nbits w) with
  | .ok (i, _) => some i
  | .error _ => none

end Sys2Proof
end

