-- ==== Sys2Proof/Machine/State.lean ====
section
/-! DEFINITION. The state of the block as plain data (10_state.md R20 to R36), the model's own fields
beside it, the outcomes of a step, and the state after power-on reset (10_state.md R39,
70_reset_and_hazards.md R200). -/

namespace Sys2Proof.Machine

/-- Two of a kind, one for A and one for B: `ST[A]`, `ST[B]` and so on. -/
structure Pair (α : Type) where
  a : α
  b : α
deriving DecidableEq, Repr

/-- The one of a pair that a name chooses. -/
def Pair.get {α : Type} (p : Pair α) : Side → α
  | .A => p.a
  | .B => p.b

/-- The pair with the chosen one replaced. -/
def Pair.set {α : Type} (p : Pair α) (c : Side) (x : α) : Pair α :=
  match c with
  | .A => { p with a := x }
  | .B => { p with b := x }

/-- A memory: (index, value) pairs, indices strictly rising (`Memory.wf`). An index that is not listed
holds nothing written (log 7). A PCM buffer is a list of `Host.Cell`; a wire buffer holds 16-bit
entries, the only width it is accessed at (20_memory.md R54, R62). -/
abbrev Memory (α : Type) := List (Nat × α)

/-- A byte that a racing read may still return, and how many jobs had been pushed when the write that
replaced it was made (20_memory.md R58, R61; log 9). -/
structure OldByte where
  pushes : Nat
  byte : BitVec 8
deriving DecidableEq, Repr

/-- The pipeline context: `SFCNT`, `INV`, `SEL`, `CUR` (10_state.md R21 to R24). -/
structure Context where
  sfcnt : BitVec 9
  inv : Bool
  sel : Side
  cur : Nat
deriving DecidableEq, Repr

/-- The state of a PCM buffer (10_state.md R25). -/
inductive BufState where
  | stale
  | filling
  | ready
deriving DecidableEq, Repr

/-- A channel descriptor `CH[c]` (10_state.md R29); its hardwired fields are functions of `c`. -/
structure Chan where
  en : Bool
  armed : Bool
  busy : Bool
  rptr : Nat
  irqEn : Bool
deriving DecidableEq, Repr

/-- The worker state `WK` (10_state.md R33); `notStarted` is the power-on `Idle` "(worker not yet
running)" of 10_state.md R39 (log 14). -/
inductive Worker where
  | notStarted
  | idle
  | running (j : Job)
deriving DecidableEq, Repr

/-- The sticky ghost-fault flags (10_state.md R34, 60_exceptions.md R171). -/
structure Ghost where
  overrun : Bool
  underrun : Bool
  chainUnarmed : Bool
  protocol : Bool
deriving DecidableEq, Repr

/-- A read of STORAGE that is going on: the buffer it fills, and the indices written so far
(44_host_interface.md R163, R165; log 16). -/
structure Reading where
  target : Side
  written : List Nat
deriving DecidableEq, Repr

/-- What POLL is in the middle of (model's own; log 16): nothing; a read inside `poll`
(44_host_interface.md R163); `start`'s fill loop, inside a read or between two (R161); the wait for the
dispatcher of `stop` or of `dma_stop` (42_dma_transmitter.md R137). -/
inductive PollCtx where
  | free
  | inPoll (r : Reading)
  | inStart (r : Option Reading)
  | inStop
  | inDmaStop
deriving DecidableEq, Repr

/-- Where the handler stands between two of its actions (60_exceptions.md R177, R178): acknowledged, with
`rearm(c)` next; rearmed, with `push(Encode c)` next (log 36); or held in `push` (R179; log 15). -/
inductive HandlerAt where
  | acknowledged (c : Side)
  | rearmed (c : Side)
  | held (j : Job)
deriving DecidableEq, Repr

/-- What STORAGE does next with a read: it writes what is left and succeeds; it writes the listed cells and
fails, "any subset"; or it writes the source's bytes at the listed indices and goes on, so that other agents
step before it ends (44_host_interface.md R163, R165, 93_implementation_defined.md U19; log 17, log 33). -/
inductive ReadOutcome where
  | success
  | failure (cells : List Host.Cell)
  | pending (indices : List Nat)
deriving DecidableEq, Repr

/-- STORAGE: the source it is bound to, the position in it, and the input the model quantifies over,
which is what the sources hold and how the coming reads go (10_state.md R41,
44_host_interface.md R165; log 17). -/
structure Storage where
  bound : Option Source
  pos : Nat
  media : List (Option Source × List (BitVec 8))
  reads : List ReadOutcome
deriving DecidableEq, Repr

/-- The four wire words of one sample (40_frame_encoder.md R100). -/
structure Words4 where
  w0 : BitVec 16
  w1 : BitVec 16
  w2 : BitVec 16
  w3 : BitVec 16
deriving DecidableEq, Repr

/-- The result value of the last operation (00_scope.md R10, 60_exceptions.md R170; log 12). -/
inductive Result where
  /-- it returned nothing -/
  | none
  /-- its agent could not step or could not finish, and waits (log 4) -/
  | waits
  /-- `OK` -/
  | ok
  /-- `CONFIG_REJECTED` -/
  | configRejected
  /-- a fill target -/
  | buffer (b : Side)
  /-- `NO_TARGET` -/
  | noTarget
  /-- a Boolean -/
  | bool (v : Bool)
  /-- the four words of `encode_sample` -/
  | words (w : Words4)
deriving DecidableEq, Repr

/-- The state. The fields down to `line` are the block's (10_state.md R20, 60_exceptions.md R175); the
others are the model's own, each with its log entry. -/
structure State where
  /-- the parameters, changed by no step (00_scope.md R6; log 6) -/
  cfg : Params
  /-- `SFCNT`, `INV`, `SEL`, `CUR` -/
  ctx : Context
  /-- `ST[A]`, `ST[B]` -/
  st : Pair BufState
  /-- `PCM[A]`, `PCM[B]` -/
  pcm : Pair (Memory (BitVec 8))
  /-- `WIRE[A]`, `WIRE[B]` -/
  wire : Pair (Memory (BitVec 16))
  /-- `CH[A]`, `CH[B]` -/
  ch : Pair Chan
  /-- `IRQ[A]`, `IRQ[B]` -/
  irq : Pair Bool
  /-- the block's interrupt enable at the primary core (60_exceptions.md R175; log 13) -/
  intEn : Bool
  /-- `ACTIVE` -/
  active : Bool
  /-- `SETUP_DONE` -/
  setupDone : Bool
  /-- `Q` -/
  q : List Job
  /-- `WK` -/
  wk : Worker
  /-- where the running handler stands, if one runs (60_exceptions.md R177 to R179; log 15, log 36) -/
  handler : Option HandlerAt
  /-- the ghost-fault flags -/
  ghost : Ghost
  /-- `WPEND[A]`, `WPEND[B]` -/
  wpend : Pair Bool
  /-- `LINE` -/
  line : List (BitVec 16)
  /-- what POLL is in the middle of (log 16) -/
  pollCtx : PollCtx
  /-- STORAGE and its input (log 17) -/
  storage : Storage
  /-- whether other agents step after each coming action of the handler (60_exceptions.md R177; log 36) -/
  cuts : List Bool
  /-- `setup` has rejected the configuration (93_implementation_defined.md U20; log 19) -/
  rejected : Bool
  /-- the coming operation requests (10_state.md R41; log 1) -/
  trace : List (BitVec 8)
  /-- the old entries a racing DMA read may return (20_memory.md R61; log 8) -/
  wireOld : Pair (Memory (List (BitVec 16)))
  /-- the old bytes a racing encoder read may return (20_memory.md R61; log 9) -/
  pcmOld : Pair (Memory (List OldByte))
  /-- how many jobs have been pushed (20_memory.md R58; log 25) -/
  pushes : Nat
  /-- how many free values have been drawn (00_scope.md R12; log 10) -/
  draws : Nat
  /-- the result of the last operation (log 12) -/
  res : Result
deriving DecidableEq, Repr

/-- Why the machine stops with a fault. -/
inductive Fault where
  /-- `fill_write` at an index that its PCM buffer does not have (20_memory.md R50, 41_buffer_pipeline.md
  R119); raised by `fill_write`; safe: the run ends (log 27) -/
  | pcmIndex
  /-- a transfer from an entry that the wire buffer does not have (20_memory.md R50); raised by `dma_word`
  when `RPTR` is out of range, which no run reaches; safe: the run ends (log 27) -/
  | wireIndex
deriving DecidableEq, Repr

/-- Why a request has no meaning (60_exceptions.md R171): outcome (3) of 00_scope.md R10. -/
inductive Refusal where
  /-- an instruction that has no meaning yet; raised by `exec` only; safe -/
  | notModelled (mnemonic : String)
  /-- a reserved command word or a trace cut short (30_encoding.md R87); raised by the step; safe -/
  | badCommand (why : DecodeError)
  /-- `setup` a second time: "one-time" (44_host_interface.md R160); raised by `setup`; safe -/
  | setupTwice
  /-- `start` or `dma_start` before `setup` or while `ACTIVE` = 1 (R134, R161); any other operation but
  `setup`, `isActive`, `stop`, `poll` and the steps that are not enabled then, before `setup`, and those three too
  once `setup` has rejected the configuration (93_implementation_defined.md U10, U20; log 19); raised by those operations; safe -/
  | startInvalid
  /-- not both PCM buffers Ready; raised by `dma_start` (R134); safe -/
  | startNotReady
  /-- the channel is busy or already armed; raised by `rearm` (R136); safe -/
  | rearmInvalid
  /-- a second encode while a job runs: "not reentrant" (40_frame_encoder.md R103); raised by `encode`,
  `consumeChunk` and the priming of `dma_start`; safe -/
  | reentrant
  /-- the source or the destination range of `encode` is outside its buffer
  (93_implementation_defined.md U3); raised by `encode` and what contains it; safe -/
  | encodeRange
  /-- no buffer is Filling and the parameter says refuse (93_implementation_defined.md U1); raised by
  `markFilled` and the `poll` that contains it; safe -/
  | markFilledIdle
deriving DecidableEq, Repr

/-- The outcome of an operation. -/
abbrev Out := Host.Outcome State Fault Refusal

/-! The updates of the state, one per field; Sys2Proof/Laws/State.lean has their lemmas. -/

/-- `s` with its pipeline context replaced. -/
def State.setCtx (s : State) (x : Context) : State := { s with ctx := x }
/-- `s` with `ST` replaced. -/
def State.setSt (s : State) (x : Pair BufState) : State := { s with st := x }
/-- `s` with the PCM buffers replaced. -/
def State.setPcm (s : State) (x : Pair (Memory (BitVec 8))) : State := { s with pcm := x }
/-- `s` with the wire buffers replaced. -/
def State.setWire (s : State) (x : Pair (Memory (BitVec 16))) : State := { s with wire := x }
/-- `s` with the channel descriptors replaced. -/
def State.setCh (s : State) (x : Pair Chan) : State := { s with ch := x }
/-- `s` with `IRQ` replaced. -/
def State.setIrq (s : State) (x : Pair Bool) : State := { s with irq := x }
/-- `s` with the block's interrupt enable replaced. -/
def State.setIntEn (s : State) (x : Bool) : State := { s with intEn := x }
/-- `s` with `ACTIVE` replaced. -/
def State.setActive (s : State) (x : Bool) : State := { s with active := x }
/-- `s` with `SETUP_DONE` replaced. -/
def State.setSetupDone (s : State) (x : Bool) : State := { s with setupDone := x }
/-- `s` with `Q` replaced. -/
def State.setQ (s : State) (x : List Job) : State := { s with q := x }
/-- `s` with `WK` replaced. -/
def State.setWk (s : State) (x : Worker) : State := { s with wk := x }
/-- `s` with the running handler replaced. -/
def State.setHandler (s : State) (x : Option HandlerAt) : State := { s with handler := x }
/-- `s` with the ghost-fault flags replaced. -/
def State.setGhost (s : State) (x : Ghost) : State := { s with ghost := x }
/-- `s` with `WPEND` replaced. -/
def State.setWpend (s : State) (x : Pair Bool) : State := { s with wpend := x }
/-- `s` with `LINE` replaced. -/
def State.setLine (s : State) (x : List (BitVec 16)) : State := { s with line := x }
/-- `s` with what POLL is in the middle of replaced. -/
def State.setPollCtx (s : State) (x : PollCtx) : State := { s with pollCtx := x }
/-- `s` with STORAGE replaced. -/
def State.setStorage (s : State) (x : Storage) : State := { s with storage := x }
/-- `s` with the coming cuts of the handler replaced. -/
def State.setCuts (s : State) (x : List Bool) : State := { s with cuts := x }
/-- `s` with the mark of a rejected configuration replaced. -/
def State.setRejected (s : State) (x : Bool) : State := { s with rejected := x }
/-- `s` with the coming requests replaced. -/
def State.setTrace (s : State) (x : List (BitVec 8)) : State := { s with trace := x }
/-- `s` with the old wire entries replaced. -/
def State.setWireOld (s : State) (x : Pair (Memory (List (BitVec 16)))) : State := { s with wireOld := x }
/-- `s` with the old PCM bytes replaced. -/
def State.setPcmOld (s : State) (x : Pair (Memory (List OldByte))) : State := { s with pcmOld := x }
/-- `s` with the count of pushed jobs replaced. -/
def State.setPushes (s : State) (x : Nat) : State := { s with pushes := x }
/-- `s` with the count of drawn free values replaced. -/
def State.setDraws (s : State) (x : Nat) : State := { s with draws := x }
/-- `s` with the result of the last operation replaced. -/
def State.setRes (s : State) (x : Result) : State := { s with res := x }

/-- A channel descriptor at power-on: every field 0 (10_state.md R39). -/
def Chan.reset : Chan where
  en := false
  armed := false
  busy := false
  rptr := 0
  irqEn := false

/-- The machine after power-on reset (10_state.md R39, 70_reset_and_hazards.md R200). The buffers list
nothing: what they hold is unspecified (log 7). The model's own fields: log 1, 6, 8, 9, 10, 12, 16, 17, 19, 25, 36. -/
def State.reset : State where
  cfg := Config.reference
  ctx := { sfcnt := 0#9, inv := false, sel := .A, cur := 0 }
  st := { a := .stale, b := .stale }
  pcm := { a := [], b := [] }
  wire := { a := [], b := [] }
  ch := { a := Chan.reset, b := Chan.reset }
  irq := { a := false, b := false }
  intEn := false
  active := false
  setupDone := false
  q := []
  wk := .notStarted
  handler := none
  ghost := { overrun := false, underrun := false, chainUnarmed := false, protocol := false }
  wpend := { a := false, b := false }
  line := []
  pollCtx := .free
  storage := { bound := none, pos := 0, media := [], reads := [] }
  cuts := []
  rejected := false
  trace := []
  wireOld := { a := [], b := [] }
  pcmOld := { a := [], b := [] }
  pushes := 0
  draws := 0
  res := .none

end Sys2Proof.Machine
end

