-- ==== Sys2Proof/Machine/Operands.lean ====
section
/-! DEFINITION. Operand assembly (30_encoding.md R90): the sample, the subframe word, the table
indices, the lookup tables, the buffer indices, the codes of names, and the constants the encoder
reads (10_state.md R28). -/

namespace Sys2Proof.Machine

/-- The period of the subframe counter, `BLOCK_SUBFRAMES` (00_scope.md R6). -/
def blockSubframes : Nat := 384

/-- `WORDS_PER_SAMPLE` (00_scope.md R6). -/
def wordsPerSample : Nat := 4

/-- `CH[c].SIZE`, hardwired: 16 bits a transfer (10_state.md R29). -/
def transferBits : Nat := 16

/-- `PRE_Z`: block start, left channel (30_encoding.md R80). -/
def preZ : WireWord := 0xE8CC#16

/-- `PRE_X`: left channel, mid-block (30_encoding.md R80). -/
def preX : WireWord := 0xE2CC#16

/-- `PRE_Y`: right channel (30_encoding.md R80). -/
def preY : WireWord := 0xE4CC#16

/-! The two lookup tables, computed. -/

/-- The biphase-mark cells of the last `k` data bits of `b`, shifted into `w` from line level `lvl`: the
loop of 30_encoding.md R78, slot `8 - k` first. -/
def biphaseFrom (b : Byte) : Nat → Bool → WireWord → WireWord
  | 0, _, w => w
  | k + 1, lvl, w =>
    let first := !lvl
    let second := if b.getLsbD (7 - k) then !first else first
    biphaseFrom b k second (((w <<< 1 ||| (BitVec.ofBool first).setWidth 16) <<< 1) ||| (BitVec.ofBool second).setWidth 16)

/-- `BIPHASE[b]` (30_encoding.md R78). -/
def biphase (b : Byte) : WireWord := biphaseFrom b 8 false 0#16

/-- The number of ones among the `k` low bits of `n`: `POPCNT[n] = n[0] + POPCNT[n >> 1]`
(30_encoding.md R79). -/
def popcountFrom : Nat → Nat → Nat
  | 0, _ => 0
  | k + 1, n => n % 2 + popcountFrom k (n / 2)

/-- `POPCNT[b]` (30_encoding.md R79). -/
def popcnt (b : Byte) : Nat := popcountFrom 8 b.toNat

/-! The subframe word. -/

/-- `s = hi ++ lo`: the byte at the lower index is the low byte (20_memory.md R51, 30_encoding.md R71). -/
def sampleOf (lo hi : Byte) : BitVec 16 := hi ++ lo

/-- `zext_32(s) << 11` (30_encoding.md R73). -/
def placeSample (x : BitVec 16) : SubframeWord := x.setWidth 32 <<< 11

/-- The sign restore: `if sub[26] = 1 then sub[27] <- 1` (30_encoding.md R74). -/
def signRestore (sub : SubframeWord) : SubframeWord :=
  if sub.getLsbD 26 then sub ||| 0x08000000#32 else sub

/-- `par`: the population count of `lo ^ hi`, plus one for a restored sign (30_encoding.md R74, R75). -/
def parityCount (lo hi : Byte) : Nat :=
  popcnt (lo ^^^ hi) + (if (placeSample (sampleOf lo hi)).getLsbD 26 then 1 else 0)

/-- The final `sub` of a sample (40_frame_encoder.md R100). -/
def subframe (lo hi : Byte) : SubframeWord :=
  let sub := signRestore (placeSample (sampleOf lo hi))
  if parityCount lo hi % 2 = 1 then sub ||| 0x80000000#32 else sub

/-- `sub[15:8]` (30_encoding.md R82). -/
def tableIndex1 (sub : SubframeWord) : Byte := sub.extractLsb' 8 8

/-- `sub[23:16]` (30_encoding.md R82). -/
def tableIndex2 (sub : SubframeWord) : Byte := sub.extractLsb' 16 8

/-- `sub[31:24]` (30_encoding.md R82). -/
def tableIndex3 (sub : SubframeWord) : Byte := sub.extractLsb' 24 8

/-! Names and indices. -/

/-- `CH[c].SRC`, hardwired: the wire buffer of the channel's own name (10_state.md R29). -/
def chanSrc (c : Side) : Side := c

/-- The wire buffer and channel of a job (30_encoding.md R84, 43_core_dispatcher.md R152). -/
def jobChannel : Job → Side
  | .encodeA => .A
  | .encodeB => .B

/-- `Encode c` (30_encoding.md R86). -/
def jobOf : Side → Job
  | .A => .encodeA
  | .B => .encodeB

/-- The code of a buffer state, 3 reserved (10_state.md R25, 30_encoding.md R85). -/
def BufState.code : BufState → BitVec 2
  | .stale => 0#2
  | .filling => 1#2
  | .ready => 2#2

/-- The buffer state of a code; 3 is reserved and never produced (30_encoding.md R85, R87). -/
def BufState.ofCode (x : BitVec 2) : Option BufState :=
  if x = 0#2 then some .stale else if x = 1#2 then some .filling else if x = 2#2 then some .ready else none

/-- The code of a result value, where it has one (30_encoding.md R85, 60_exceptions.md R170). -/
def Result.code : Result → Option Nat
  | .none => Option.none
  | .waits => Option.none
  | .ok => some 0
  | .configRejected => some 1
  | .buffer .A => some 0
  | .buffer .B => some 1
  | .noTarget => some 2
  | .bool false => some 0
  | .bool true => some 1
  | .words _ => Option.none

end Sys2Proof.Machine
end

