-- ==== Sys2Proof/Machine/Flags.lean ====
section
/-! DEFINITION. Every flag and counter rule: `INV` (30_encoding.md R83), `SFCNT` and the preamble it
selects (30_encoding.md R81, 40_frame_encoder.md R104), the ghost flags (10_state.md R34) and the
configuration check of `setup` (00_scope.md R7). -/

namespace Sys2Proof.Machine

/-- The emitted word: `w_k <- if INV = 1 then ~t_k else t_k` (30_encoding.md R83). -/
def invert (inv : Bool) (t : WireWord) : WireWord := if inv then ~~~t else t

/-- `INV <- w_k[0]` (30_encoding.md R83). -/
def invAfter (w : WireWord) : Bool := w.getLsbD 0

/-- `(SFCNT + 1) mod 384` (40_frame_encoder.md R100, R105). -/
def nextSfcnt (n : BitVec 9) : BitVec 9 := BitVec.ofNat 9 ((n.toNat + 1) % blockSubframes)

/-- The preamble word of a subframe, by `SFCNT` before it advances (30_encoding.md R81). -/
def preamble (n : BitVec 9) : WireWord :=
  if n = 0#9 then preZ else if n.getLsbD 0 then preY else preX

/-- The names of the ghost faults (60_exceptions.md R171). -/
inductive GhostFault where
  | overrun
  | underrun
  | chainUnarmed
  | protocol
deriving DecidableEq, Repr

/-- `ghost <Fault>`: sets the named sticky flag (00_scope.md R12, 10_state.md R34). -/
def Ghost.raise (g : Ghost) : GhostFault → Ghost
  | .overrun => { g with overrun := true }
  | .underrun => { g with underrun := true }
  | .chainUnarmed => { g with chainUnarmed := true }
  | .protocol => { g with protocol := true }

/-- The state with a ghost-fault flag set. -/
def raiseGhost (f : GhostFault) (s : State) : State := s.setGhost (s.ghost.raise f)

/-- The constraints that `setup` checks (00_scope.md R7, 44_host_interface.md R160). -/
def configValid (P : Params) : Bool :=
  P.chunkBytes % 2 == 0 && P.chunkBytes != 0 && P.pcmBufBytes % P.chunkBytes == 0 &&
    P.pcmBufBytes != 0 && P.wireWords == 2 * P.chunkBytes

end Sys2Proof.Machine
end

