-- ==== Sys2Proof/Machine/Ops.lean ====
section
/-! DEFINITION. The named operations that the meanings share: memory, racing reads, the completion
interrupt from latch to return, the dispatcher queue, and which agent can step. -/

namespace Sys2Proof.Machine

/-! Outcomes. -/

/-- Goes on from a next state; a fault or a refusal ends the operation. -/
def andThen (o : Out) (f : State → Out) : Out :=
  match o with
  | .next s => f s
  | .fault r => .fault r
  | .refused r => .refused r

/-! Memory. -/

/-- The value written at an index, if one was (log 7). -/
def Memory.read? {α : Type} : Memory α → Nat → Option α
  | [], _ => none
  | (k, v) :: m, i => if i = k then some v else Memory.read? m i

/-- The memory with `v` at index `i`; the indices stay strictly rising. -/
def Memory.write {α : Type} : Memory α → Nat → α → Memory α
  | [], i, v => [(i, v)]
  | (k, x) :: m, i, v =>
    if i < k then (i, v) :: (k, x) :: m
    else if i = k then (i, v) :: m
    else (k, x) :: Memory.write m i v

/-- The canonical form of a memory: indices strictly rising. -/
def Memory.wf {α : Type} : Memory α → Bool
  | [] => true
  | (k, _) :: m => m.all (fun e => decide (k < e.1)) && Memory.wf m

/-- `PCM[b][i]`; a byte never written since power-on is a free value (00_scope.md R12, log 7). -/
def pcmByte (s : State) (b : Side) (i : Nat) : Byte :=
  (Memory.read? (s.pcm.get b) i).getD (Config.pcmPowerOn b i)

/-- `WIRE[c][j]`; an entry never written since power-on is a free value (00_scope.md R12, log 7). -/
def wireEntry (s : State) (c : Side) (j : Nat) : WireWord :=
  (Memory.read? (s.wire.get c) j).getD (Config.wirePowerOn c j)

/-- The bytes of `PCM[b][i]` that unpublished writes have replaced, oldest first (20_memory.md R61; log 9). -/
def oldBytes (s : State) (b : Side) (i : Nat) : List OldByte := (Memory.read? (s.pcmOld.get b) i).getD []

/-- The entries of `WIRE[c][j]` that writes during this transmission have replaced, oldest first
(20_memory.md R61; log 8). -/
def oldEntries (s : State) (c : Side) (j : Nat) : List WireWord := (Memory.read? (s.wireOld.get c) j).getD []

/-- `draw({old values, new value})`: with no old value there is no race and nothing is drawn
(00_scope.md R12, 20_memory.md R61; log 8, log 9). -/
def drawOf {α : Type} (olds : List α) (new : α) (s : State) : α × State :=
  match olds with
  | [] => (new, s)
  | _ :: _ => ((olds[Config.raceChoice s.draws % (olds.length + 1)]?).getD new, s.setDraws (s.draws + 1))

/-- The encoder's read of `PCM[b][i]`: where writes are not yet published it races with each of them
(20_memory.md R61; log 9). -/
def readPcm (b : Side) (i : Nat) (s : State) : Byte × State :=
  drawOf ((oldBytes s b i).map OldByte.byte) (pcmByte s b i) s

/-- The DMA's read of `WIRE[c][j]`: where the entry was rewritten during this transmission it races with each
of the writes (20_memory.md R60, R61; log 8). -/
def readWire (c : Side) (j : Nat) (s : State) : WireWord × State :=
  drawOf (oldEntries s c j) (wireEntry s c j) s

/-- Keeps the byte that a racing read may still return (log 9). -/
def keepOldPcm (b : Side) (i : Nat) (s : State) : State :=
  s.setPcmOld (s.pcmOld.set b (Memory.write (s.pcmOld.get b) i
    (oldBytes s b i ++ [{ pushes := s.pushes, byte := pcmByte s b i }])))

/-- `PCM[b][i] <- v` (00_scope.md R12). -/
def writePcm (b : Side) (i : Nat) (v : Byte) (s : State) : State :=
  let s := keepOldPcm b i s
  s.setPcm (s.pcm.set b (Memory.write (s.pcm.get b) i v))

/-- Keeps the entry that a racing read may still return, when the channel is transmitting (log 8). -/
def keepOldWire (c : Side) (j : Nat) (s : State) : State :=
  if (s.ch.get c).busy then
    s.setWireOld (s.wireOld.set c (Memory.write (s.wireOld.get c) j (oldEntries s c j ++ [wireEntry s c j])))
  else s

/-- `WIRE[c][j] <- w` (00_scope.md R12). -/
def writeWire (c : Side) (j : Nat) (w : WireWord) (s : State) : State :=
  let s := keepOldWire c j s
  s.setWire (s.wire.set c (Memory.write (s.wire.get c) j w))

/-- The `barrier()` of `markFilled`: the writes of a finished fill are ordered before the flag that publishes
them (41_buffer_pipeline.md R117, 20_memory.md R59), so that no read of them races any more. -/
def publishPcm (b : Side) (s : State) : State := s.setPcmOld (s.pcmOld.set b [])

/-- The transmission that raced with a late encode is over (log 8). -/
def endWireRace (c : Side) (s : State) : State := s.setWireOld (s.wireOld.set c [])

/-! `barrier()` (20_memory.md R58, 43_core_dispatcher.md R154; log 25): every write made before `push(j)` is
visible to the worker when it executes `j`. A write is marked with the number of jobs pushed before it; the
barrier of `push` counts the job, and the barrier of the worker's pop settles every write marked below it. -/

/-- The barrier inside `push`, before the job becomes visible in `Q`. -/
def pushBarrier (s : State) : State := s.setPushes (s.pushes + 1)

/-- The old bytes without those that a write before push number `n` replaced. -/
def settleBefore (n : Nat) (m : Memory (List OldByte)) : Memory (List OldByte) :=
  (m.map fun e => (e.1, e.2.filter fun o => decide (n ≤ o.pushes))).filter fun e => !e.2.isEmpty

/-- The barrier inside the worker's pop, after job number `n` is taken. -/
def popBarrier (n : Nat) (s : State) : State :=
  s.setPcmOld { a := settleBefore n s.pcmOld.a, b := settleBefore n s.pcmOld.b }

/-- The number of the job at the head of `Q`, counted from 1: the last one pushed stands at its tail. -/
def headNumber (s : State) : Nat := s.pushes + 1 - s.q.length

/-! Small writes, each one register of one side. -/

/-- `ST[b] <- x`. -/
def setStOf (b : Side) (x : BufState) (s : State) : State := s.setSt (s.st.set b x)

/-- `CH[c] <- x`. -/
def setChan (c : Side) (x : Chan) (s : State) : State := s.setCh (s.ch.set c x)

/-- `IRQ[c] <- x`. -/
def setIrqOf (c : Side) (x : Bool) (s : State) : State := s.setIrq (s.irq.set c x)

/-- `WPEND[c] <- x`. -/
def setWpendOf (c : Side) (x : Bool) (s : State) : State := s.setWpend (s.wpend.set c x)

/-- Both of a pair the same. -/
def both {α : Type} (x : α) : Pair α := { a := x, b := x }

/-! The completion interrupt (60_exceptions.md R172 to R179): the block's one asynchronous event. -/

/-- `latch IRQ[c]`: the completion edge sets the latch if the channel's interrupt is enabled (R173). -/
def latchCompletion (c : Side) (s : State) : State :=
  if (s.ch.get c).irqEn then setIrqOf c true s else s

/-- The interrupt of channel `c` can be taken: its latch is set, the block's interrupt is enabled, and no
handler is running (R175, R178, R179). -/
def irqTakeable (c : Side) (s : State) : Bool :=
  s.irq.get c && s.intEn && s.handler.isNone

/-- Handler entry: the block saves nothing (R177); the handler's first action acknowledges (R174, R178). -/
def takeCompletion (c : Side) (s : State) : State := setIrqOf c false s

/-- After an action of the handler: other agents step, the handler standing at `p`, where the input says so, and
else `k`, its next action, follows at once. The DMA keeps running while the handler runs, and the handler's steps
are separate from its steps (60_exceptions.md R177, decision D16; log 36). -/
def cutOr (p : HandlerAt) (k : State → Out) (s : State) : Out :=
  match s.cuts with
  | true :: cs => .next (((s.setCuts cs).setHandler (some p)).setRes .waits)
  | false :: cs => k (s.setCuts cs)
  | [] => k s

/-- The return from the handler: nothing is restored because nothing was saved (R179). -/
def returnFromHandler (s : State) : State := s.setHandler none

/-! The dispatcher queue. -/

/-- A slot of `Q` is free (43_core_dispatcher.md R150, R151). -/
def slotFree (s : State) : Bool := decide (s.q.length < s.cfg.queueDepth)

/-- The job enters `Q` at the tail, after the barrier (43_core_dispatcher.md R151). -/
def enqueue (j : Job) (s : State) : State := (pushBarrier s).setQ (s.q ++ [j])

/-- `push(j)`: with a slot free the job enters `Q` and the handler returns; with none it is held there
(43_core_dispatcher.md R151, 60_exceptions.md R178, R179; log 15). -/
def pushJob (j : Job) (s : State) : State :=
  if slotFree s then (returnFromHandler (enqueue j s)).setRes .none
  else (s.setHandler (some (.held j))).setRes .waits

/-- A slot freed by `worker_pop` lifts a held `push` (43_core_dispatcher.md R151, R152; log 15). -/
def liftHeldPush (s : State) : State :=
  match s.handler with
  | some (.held j) => if slotFree s then returnFromHandler (enqueue j s) else s
  | some (.acknowledged _) => s
  | some (.rearmed _) => s
  | none => s

/-! Which agent can step. -/

/-- The operation's agent cannot step now, or not to the operation's end: it waits, and only the
result says so (log 4). -/
def waits (s : State) : Out := .next (s.setRes .waits)

/-- An operation of the primary core other than its handler's own, of which it issues none while the handler runs
or is held in `push` (60_exceptions.md R177, R179, 70_reset_and_hazards.md R207; log 15, log 36). -/
def onPrimary (s : State) (k : State → Out) : Out := if s.handler.isNone then k s else waits s

/-- POLL runs: no handler runs and no earlier POLL operation is unfinished (60_exceptions.md
R179, R180; log 15, log 16). -/
def pollRuns (s : State) : Bool := s.handler.isNone && decide (s.pollCtx = .free)

/-- An operation that POLL issues (30_encoding.md R86, column "issued by"). -/
def onPoll (s : State) (k : State → Out) : Out := if pollRuns s then k s else waits s

/-- An operation that is refused before a `setup` that succeeded (70_reset_and_hazards.md R201,
93_implementation_defined.md U10, U20; log 19). -/
def afterSetup (s : State) (k : State → Out) : Out := if s.setupDone then k s else .refused .startInvalid

/-- The host's operations that are spared before `setup` are not spared once it has rejected the configuration
(93_implementation_defined.md U20, 70_reset_and_hazards.md R212; log 19). -/
def spared (s : State) : Bool := s.setupDone || !s.rejected

/-- `isActive`, `stop` or `poll`, which are refused only after a rejected configuration
(93_implementation_defined.md U10, U20; log 19). -/
def unlessRejected (s : State) (k : State → Out) : Out := if spared s then k s else .refused .startInvalid

/-- A job is being run (10_state.md R33). -/
def jobRunning (s : State) : Bool :=
  match s.wk with
  | .running _ => true
  | .idle => false
  | .notStarted => false

/-- A second encode while a job runs is refused: "not reentrant" (40_frame_encoder.md R103; log 28). -/
def encoderFree (s : State) (k : State → Out) : Out :=
  if jobRunning s then .refused .reentrant else k s

/-! Fetching the next request. -/

/-- What the trace offers next. -/
inductive Fetched where
  /-- no agent is scheduled (log 2) -/
  | idle
  /-- the next bytes are no request (30_encoding.md R87) -/
  | bad (why : DecodeError)
  /-- a request, and the state after its bytes are taken from the trace -/
  | request (i : Instr) (s : State)

/-- The next request of the trace (10_state.md R41; log 1). -/
def fetch (s : State) : Fetched :=
  match s.trace with
  | [] => .idle
  | w :: bs =>
    match decode (w :: bs) with
    | .ok (i, rest) => .request i (s.setTrace rest)
    | .error e => .bad e

end Sys2Proof.Machine
end

