-- ==== Sys2Proof/Machine/FrameEncoder.lean ====
section
/-! DEFINITION. FrameEncoder: `encode_sample` and `encode` (40_frame_encoder.md). -/

namespace Sys2Proof.Machine

/-- `encode_sample(lo, hi)` on the pipeline context: the four words, and the context with `INV` and
`SFCNT` as they are after it (40_frame_encoder.md R100). -/
def encodeSample (x : Context) (lo hi : Byte) : Words4 × Context :=
  let sub := subframe lo hi
  let w0 := invert x.inv (preamble x.sfcnt)
  let w1 := invert (invAfter w0) (biphase (tableIndex1 sub))
  let w2 := invert (invAfter w1) (biphase (tableIndex2 sub))
  let w3 := invert (invAfter w2) (biphase (tableIndex3 sub))
  ({ w0 := w0, w1 := w1, w2 := w2, w3 := w3 },
    { x with inv := invAfter w3, sfcnt := nextSfcnt x.sfcnt })

/-- The four stores of one sample's words (40_frame_encoder.md R101). -/
def storeWords (c : Side) (q : Nat) (w : Words4) (s : State) : State :=
  writeWire c (q + 3) w.w3 (writeWire c (q + 2) w.w2 (writeWire c (q + 1) w.w1 (writeWire c q w.w0 s)))

/-- One turn of the loop of `encode`: two byte reads, low byte first, one `encode_sample`, four stores
(40_frame_encoder.md R101, 20_memory.md R54). -/
def encodeStep (b : Side) (p : Nat) (c : Side) (q : Nat) (s : State) : State :=
  let lo := readPcm b p s
  let hi := readPcm b (p + 1) lo.2
  let e := encodeSample hi.2.ctx lo.1 hi.1
  storeWords c q e.1 (hi.2.setCtx e.2)

/-- The loop of `encode` over `n` samples, in increasing index order (40_frame_encoder.md R101). -/
def encodeLoop (b c : Side) : Nat → Nat → Nat → State → State
  | 0, _, _, s => s
  | n + 1, p, q, s => encodeLoop b c n (p + 2) (q + wordsPerSample) (encodeStep b p c q s)

/-- The ranges that `encode` reads and writes are inside their buffers (93_implementation_defined.md U3). -/
def encodeInRange (P : Params) (p q n : Nat) : Bool :=
  decide (p + 2 * n ≤ P.pcmBufBytes) && decide (q + wordsPerSample * n ≤ P.wireWords)

/-- `encode((b, p), (c, q), byteLen)` (40_frame_encoder.md R101): a trailing odd byte is ignored, a length
without a sample does nothing, a range outside a buffer is refused (log 21). -/
def encodeRange (b : Side) (p : Nat) (c : Side) (q : Nat) (byteLen : Nat) (s : State) : Out :=
  let n := byteLen / 2
  if n = 0 then .next s
  else if encodeInRange s.cfg p q n then .next (encodeLoop b c n p q s)
  else .refused .encodeRange

/-- `encode_sample(lo, hi)`: it returns the four words; the caller stores them. It is total in its operands
(40_frame_encoder.md R100, 30_encoding.md R87); before `setup` it is refused as every operation but three is
(93_implementation_defined.md U10; log 19). -/
def execEncodeSample (lo hi : Byte) (s : State) : Out :=
  afterSetup s fun s =>
    let e := encodeSample s.ctx lo hi
    .next ((s.setCtx e.2).setRes (.words e.1))

/-- `encode(sourceBytes, destPatterns, byteLen)` (40_frame_encoder.md R101, R103). -/
def execEncode (b : Side) (p : Nat) (c : Side) (q : Nat) (byteLen : Nat) (s : State) : Out :=
  afterSetup s fun s => encoderFree s fun s =>
    andThen (encodeRange b p c q byteLen s) fun s => .next (s.setRes .none)

end Sys2Proof.Machine
end

