-- ==== Sys2Proof/Machine/BufferPipeline.lean ====
section
/-! DEFINITION. BufferPipeline: `acquireFillTarget`, `markFilled`, `consumeChunk`, `fill_write`
(41_buffer_pipeline.md). -/

namespace Sys2Proof.Machine

/-- The first buffer in the order A, B that is in state `x` (41_buffer_pipeline.md R115). -/
def firstIn (x : BufState) (st : Pair BufState) : Option Side :=
  if st.a = x then some .A else if st.b = x then some .B else none

/-- The first Stale buffer becomes Filling (41_buffer_pipeline.md R116). -/
def claimTarget (s : State) : Option Side × State :=
  match firstIn .stale s.st with
  | some b => (some b, setStOf b .filling s)
  | none => (none, s)

/-- `acquireFillTarget()`: called while a buffer is Filling it still does what its text says, and the
model marks `F_PROTOCOL` (41_buffer_pipeline.md R116, decision D13). The rule calls its reads of `ST` and its
write separate accesses; here they are one step (DESIGN CHOICE, log 5). -/
def acquireTarget (s : State) : Option Side × State :=
  claimTarget (if firstIn .filling s.st = none then s else raiseGhost .protocol s)

/-- The first Filling buffer becomes Ready, and its bytes are published before the flag
(41_buffer_pipeline.md R117, 20_memory.md R59). -/
def markReady (b : Side) (s : State) : State := setStOf b .ready (publishPcm b s)

/-- `markFilled` as every caller runs it: with no buffer Filling, a no-op or a refusal as the parameter says
(41_buffer_pipeline.md R117, decision D12; log 20). -/
def markFirstFilling (s : State) : Option State :=
  match firstIn .filling s.st with
  | some b => some (markReady b s)
  | none =>
    match s.cfg.markFilledIdle with
    | .noop => some s
    | .refuse => none

/-- The end of `consumeChunk`: the cursor advances; at the buffer's end `SEL` flips, `CUR` is 0, and last
the exhausted buffer goes to Stale whatever it was (41_buffer_pipeline.md R118, decisions D27, D31). -/
def advanceCursor (s : State) : State :=
  let b := s.ctx.sel
  let cur := s.ctx.cur + s.cfg.chunkBytes
  if cur = s.cfg.pcmBufBytes then
    setStOf b .stale (s.setCtx { s.ctx with sel := b.other, cur := 0 })
  else s.setCtx { s.ctx with cur := cur }

/-- `consumeChunk(c)`: encode the next chunk of the active buffer into `WIRE[c]`, without a check that
the buffer is Ready (41_buffer_pipeline.md R118, decision D14). -/
def consume (c : Side) (s : State) : Out :=
  let b := s.ctx.sel
  let s := if s.st.get b = .ready then s else raiseGhost .underrun s
  andThen (encodeRange b s.ctx.cur c 0 s.cfg.chunkBytes s) fun s =>
    .next (setWpendOf c false (advanceCursor s))

/-- `fill_write(b, i, v)` at an index the buffer has (41_buffer_pipeline.md R119). -/
def storeFill (b : Side) (i : Nat) (v : Byte) (s : State) : State :=
  writePcm b i v (if s.st.get b = .filling then s else raiseGhost .protocol s)

/-- `acquireFillTarget()` (41_buffer_pipeline.md R116). -/
def execAcquireFillTarget (s : State) : Out :=
  onPoll s fun s => afterSetup s fun s =>
    match acquireTarget s with
    | (some b, s) => .next (s.setRes (.buffer b))
    | (none, s) => .next (s.setRes .noTarget)

/-- `markFilled()` (41_buffer_pipeline.md R117). -/
def execMarkFilled (s : State) : Out :=
  onPoll s fun s => afterSetup s fun s =>
    match markFirstFilling s with
    | some s => .next (s.setRes .none)
    | none => .refused .markFilledIdle

/-- `consumeChunk(c)` (41_buffer_pipeline.md R118). -/
def execConsumeChunk (c : Side) (s : State) : Out :=
  afterSetup s fun s => encoderFree s fun s => andThen (consume c s) fun s => .next (s.setRes .none)

/-- `fill_write(b, i, v)` by STORAGE; an index the buffer does not have is a fault
(41_buffer_pipeline.md R119; log 27). -/
def execFillWrite (b : Side) (i : Nat) (v : Byte) (s : State) : Out :=
  afterSetup s fun s =>
    if i < s.cfg.pcmBufBytes then .next ((storeFill b i v s).setRes .none) else .fault .pcmIndex

end Sys2Proof.Machine
end

