-- ==== Sys2Proof/Machine/CoreDispatcher.lean ====
section
/-! DEFINITION. CoreDispatcher: `push` and `worker_pop` (43_core_dispatcher.md). -/

namespace Sys2Proof.Machine

/-- The worker runs one job from its start to its end (43_core_dispatcher.md R152, 10_state.md R33). -/
def runJob (j : Job) (s : State) : Out :=
  andThen (consume (jobChannel j) (s.setWk (.running j))) fun s => .next (s.setWk .idle)

/-- `push(Encode c)`; while a handler runs, or is held in an earlier `push`, no other is issued
(43_core_dispatcher.md R151, 60_exceptions.md R179). -/
def execPush (j : Job) (s : State) : Out :=
  afterSetup s fun s => onPrimary s fun s => .next (pushJob j s)

/-- `worker_pop()`: one turn of the worker loop; with the worker not idle or the queue empty the worker
has no step (43_core_dispatcher.md R152). Taking the job frees the slot, which lifts a held `push`. -/
def execWorkerPop (s : State) : Out :=
  match s.wk, s.q with
  | .idle, j :: js =>
    andThen (runJob j (popBarrier (headNumber s) (liftHeldPush (s.setQ js)))) fun s => .next (s.setRes .none)
  | .idle, [] => waits s
  | .notStarted, _ => waits s
  | .running _, _ => waits s

end Sys2Proof.Machine
end

