-- ==== Sys2Proof/Machine/DmaTransmitter.lean ====
section
/-! DEFINITION. DmaTransmitter: `dma_word` with `complete` and `trigger`, `dma_start`, `rearm`,
`dma_stop` (42_dma_transmitter.md). -/

namespace Sys2Proof.Machine

/-- `emit(w)`: the word joins `LINE` (00_scope.md R12, 42_dma_transmitter.md R131). -/
def emit (w : WireWord) (s : State) : State := s.setLine (s.line ++ [w])

/-- The start of an armed channel's transmission, at entry 0 (42_dma_transmitter.md R133). -/
def startChannel (d : Side) (s : State) : State :=
  setChan d { s.ch.get d with armed := false, busy := true, rptr := 0 } s

/-- `trigger(d)`: a disabled channel ends the chain; one not rearmed ends it with `F_CHAIN_UNARMED`; one
whose wire buffer still waits for its encode goes on with `F_OVERRUN` (42_dma_transmitter.md R133). -/
def trigger (d : Side) (s : State) : State :=
  if (s.ch.get d).en = false then s
  else if (s.ch.get d).armed = false then raiseGhost .chainUnarmed s
  else if s.wpend.get d then startChannel d (raiseGhost .overrun s)
  else startChannel d s

/-- `complete(c)`: the latch and the chain trigger happen in the step of the last word
(42_dma_transmitter.md R132). -/
def complete (c : Side) (s : State) : State :=
  let s := setChan c { s.ch.get c with busy := false } s
  let s := endWireRace c (setWpendOf c true s)
  trigger c.other (latchCompletion c s)

/-- `dma_word(c)` enabled: `CH[c].EN` = 1 and `CH[c].BUSY` = 1 (42_dma_transmitter.md R131). -/
def dmaEnabled (c : Side) (s : State) : Bool := (s.ch.get c).en && (s.ch.get c).busy

/-- One transfer of channel `c`, and its completion if it was the last (42_dma_transmitter.md R131). The read
pointer of a completed channel stays at `WIRE_WORDS` (10_state.md R35), where 93_implementation_defined.md U15
lets it be any value (log 34). -/
def transferWord (c : Side) (s : State) : State :=
  let r := readWire c (s.ch.get c).rptr s
  let s := emit r.1 r.2
  let s := setChan c { s.ch.get c with rptr := (s.ch.get c).rptr + 1 } s
  if (s.ch.get c).rptr = s.cfg.wireWords then complete c s else s

/-- The encoder state a start begins from, cold or not (42_dma_transmitter.md R134, S6). -/
def coldContext : Context where
  sfcnt := 0#9
  inv := false
  sel := .A
  cur := 0

/-- A descriptor loaded at entry 0 and enabled (10_state.md R29, 42_dma_transmitter.md R134; log 11). -/
def loadedChan (x : Chan) : Chan := { x with en := true, armed := true, rptr := 0 }

/-- The end of `dma_start`, after the priming (42_dma_transmitter.md R134). -/
def launch (s : State) : State :=
  let s := s.setIrq (both false)
  let s := s.setCh { a := loadedChan s.ch.a, b := loadedChan s.ch.b }
  trigger .A (s.setActive true)

/-- The start of `dma_start`: the cold-start encoder state, an empty `LINE`, nothing pending
(42_dma_transmitter.md R134). -/
def coldStart (s : State) : State :=
  (((s.setCtx coldContext).setLine []).setWpend (both false)).setWireOld (both [])

/-- `dma_start()` (42_dma_transmitter.md R134): priming runs on the calling core; two refusals. -/
def startTransmitter (s : State) : Out :=
  if s.setupDone = false ∨ s.active = true then .refused .startInvalid
  else if s.st.a ≠ .ready ∨ s.st.b ≠ .ready then .refused .startNotReady
  else
    encoderFree s fun s =>
      andThen (consume .A (coldStart s)) fun s =>
        andThen (consume .B s) fun s => .next (launch s)

/-- A channel disabled and idle; its read pointer afterwards is unspecified, within its range
(42_dma_transmitter.md R137, 10_state.md R39; log 10). -/
def stoppedChan (P : Params) (n : Nat) (x : Chan) : Chan :=
  { x with en := false, armed := false, busy := false, rptr := Config.freeRptr n % (P.wireWords + 1) }

/-- The first half of `dma_stop`, with the block's interrupt masked around it (42_dma_transmitter.md R137). -/
def disableChannels (s : State) : State :=
  let enabled := s.intEn
  let s := s.setIntEn false
  let s := s.setCh { a := stoppedChan s.cfg s.draws s.ch.a, b := stoppedChan s.cfg (s.draws + 1) s.ch.b }
  let s := (s.setDraws (s.draws + 2)).setWireOld (both [])
  (s.setIrq (both false)).setIntEn enabled

/-- The second half of `dma_stop`, once the dispatcher is quiet (42_dma_transmitter.md R137). -/
def releaseBuffers (s : State) : State :=
  ((s.setSt (both .stale)).setWpend (both false)).setActive false

/-- The dispatcher is quiet: "`Q` = [] and `WK` = `Idle`" (42_dma_transmitter.md R137). -/
def dispatcherQuiet (s : State) : Bool := s.q.isEmpty && !jobRunning s

/-- The wait of a stop and its end: with a job outstanding POLL stays in the wait, and a later request of the
same stop asks again; `k` is what follows the release of the buffers (42_dma_transmitter.md R137,
70_reset_and_hazards.md R209, R215, 93_implementation_defined.md U21; log 32). -/
def endStop (wait : PollCtx) (k : State → State) (s : State) : Out :=
  if dispatcherQuiet s then .next (((k (releaseBuffers s)).setPollCtx .free).setRes .none)
  else .next ((s.setPollCtx wait).setRes .waits)

/-- `rearm(c)` of an idle channel (42_dma_transmitter.md R136). -/
def rearmChannel (c : Side) (s : State) : State := setChan c { s.ch.get c with armed := true } s

/-- The channel is idle, the only state `rearm` takes (42_dma_transmitter.md R130, R136). -/
def rearmable (c : Side) (s : State) : Bool := !(s.ch.get c).busy && !(s.ch.get c).armed

/-- `dma_word(c)`: one transfer where it is enabled; a channel that is not busy or not enabled transfers
nothing (42_dma_transmitter.md R131; log 4, log 27). -/
def execDmaWord (c : Side) (s : State) : Out :=
  if dmaEnabled c s then
    if (s.ch.get c).rptr < s.cfg.wireWords then .next ((transferWord c s).setRes .none)
    else .fault .wireIndex
  else waits s

/-- `dma_start()` (42_dma_transmitter.md R134). -/
def execDmaStart (s : State) : Out :=
  onPoll s fun s => andThen (startTransmitter s) fun s => .next (s.setRes .none)

/-- `dma_stop()`: begun, or asked again in its wait (42_dma_transmitter.md R137; log 32). -/
def execDmaStop (s : State) : Out :=
  onPrimary s fun s =>
    match s.pollCtx with
    | .free => afterSetup s fun s => endStop .inDmaStop id (disableChannels s)
    | .inDmaStop => endStop .inDmaStop id s
    | .inPoll _ => waits s
    | .inStart _ => waits s
    | .inStop => waits s

/-- `rearm(c)`: it sets `ARMED` and never triggers (42_dma_transmitter.md R136). While a handler runs
or is held in `push`, no other is issued (60_exceptions.md R179; log 15). -/
def execRearm (c : Side) (s : State) : Out :=
  afterSetup s fun s => onPrimary s fun s =>
    if rearmable c s then .next ((rearmChannel c s).setRes .none) else .refused .rearmInvalid

end Sys2Proof.Machine
end

