-- ==== Sys2Proof/Machine/HostInterface.lean ====
section
/-! DEFINITION. The host-facing operations `setup`, `start`, `stop`, `poll`, `isActive` and the storage
read inside `poll` (44_host_interface.md). -/

namespace Sys2Proof.Machine

/-! STORAGE (44_host_interface.md R165). -/

/-- The byte a source delivers at a position: as the plain input data lists it, and a free value beyond
(44_host_interface.md R165, 91_not_in_source.md N19; log 17). -/
def sourceByteAt (g : Storage) (i : Nat) : Byte :=
  (((g.media.lookup g.bound).getD [])[i]?).getD (Config.sourceByte g.bound i)

/-- What `fill_write` number `i` of a read stores: byte `i` from the position on (44_host_interface.md R165). -/
def sourceCell (g : Storage) (i : Nat) : Host.Cell := (i, sourceByteAt g (g.pos + i))

/-- The `fill_write` steps of a read into buffer `t`; a listed index outside the buffer is passed over
(44_host_interface.md R165; log 33). -/
def storeCells (t : Side) : List Host.Cell → State → State
  | [], s => s
  | (i, v) :: cells, s => storeCells t cells (if i < s.cfg.pcmBufBytes then storeFill t i v s else s)

/-- The indices that a read has still to write, "in any order": the highest first (44_host_interface.md R165). -/
def unwritten (n : Nat) (written : List Nat) : List Nat :=
  ((List.range n).reverse).filter fun i => !written.contains i

/-- How a `poll`, or a part of it, ends: it returns a Boolean, its read goes on, or its `markFilled` is
refused. -/
inductive Polled where
  | did (v : Bool)
  | pending (r : Reading)
  | refused
deriving DecidableEq, Repr

/-- The coming reads without the first. -/
def nextReads (reads : List ReadOutcome) (s : State) : State := s.setStorage { s.storage with reads := reads }

/-- The position after a successful read (44_host_interface.md R165). -/
def advanceSource (s : State) : State :=
  s.setStorage { s.storage with pos := s.storage.pos + s.cfg.pcmBufBytes }

/-- A read of `poll` from where it stands, and what follows it: `markFilled` and true, or false with `ST[t]`
left Filling, or the read goes on (44_host_interface.md R163, R165, decision D25). With no outcome left in the
input every read fails (log 17). -/
def readInto (r : Reading) (s : State) : Polled × State :=
  match s.storage.reads with
  | [] => (.did false, s)
  | .failure cells :: reads => (.did false, storeCells r.target cells (nextReads reads s))
  | .pending is :: reads =>
    (.pending { r with written := r.written ++ is },
      storeCells r.target (is.map (sourceCell s.storage)) (nextReads reads s))
  | .success :: reads =>
    let cells := (unwritten s.cfg.pcmBufBytes r.written).map (sourceCell s.storage)
    match markFirstFilling (advanceSource (storeCells r.target cells (nextReads reads s))) with
    | some s => (.did true, s)
    | none => (.refused, s)

/-- The beginning of a read into buffer `t`. -/
def newReading (t : Side) : Reading := { target := t, written := [] }

/-- `poll()` up to its end or to a read that goes on: retry the buffer left Filling, else claim the first Stale
one, and read into it (44_host_interface.md R163; log 23). -/
def pollOnce (s : State) : Polled × State :=
  match firstIn .filling s.st with
  | some t => readInto (newReading t) s
  | none =>
    match claimTarget s with
    | (some t, s) => readInto (newReading t) s
    | (none, s) => (.did false, s)

/-- Both PCM buffers are Ready (44_host_interface.md R161). -/
def bothReady (s : State) : Bool := decide (s.st.a = .ready) && decide (s.st.b = .ready)

/-- Where the fill loop of `start` stands: both buffers Ready, or inside a read or waiting for STORAGE, or its
`markFilled` is refused. -/
inductive FillEnd where
  | ready
  | waiting (r : Option Reading)
  | refused
deriving DecidableEq, Repr

/-- The fill loop of `start`, at most `k` polls (44_host_interface.md R161). Each poll that finds a buffer
not Ready uses up one read outcome, and with none left a poll changes nothing more (log 16). -/
def fillLoop : Nat → State → FillEnd × State
  | 0, s => (.waiting none, s)
  | k + 1, s =>
    if bothReady s then (.ready, s)
    else
      match pollOnce s with
      | (.did _, s) => fillLoop k s
      | (.pending r, s) => (.waiting (some r), s)
      | (.refused, s) => (.refused, s)

/-- The fill loop from its test on. -/
def fillBuffers (s : State) : FillEnd × State := fillLoop (s.storage.reads.length + 1) s

/-- The fill loop from where it stands, inside a read or between two. -/
def resumeFill (r : Option Reading) (s : State) : FillEnd × State :=
  match r with
  | none => fillBuffers s
  | some r =>
    match readInto r s with
    | (.did _, s) => fillBuffers s
    | (.pending r, s) => (.waiting (some r), s)
    | (.refused, s) => (.refused, s)

/-- STORAGE bound to a source at its first byte (44_host_interface.md R161). -/
def bindSource (src : Source) (s : State) : State :=
  s.setStorage { s.storage with bound := some src, pos := 0 }

/-- STORAGE unbound (44_host_interface.md R162). -/
def unbindSource (s : State) : State := s.setStorage { s.storage with bound := none, pos := 0 }

/-! The operations. -/

/-- A descriptor as `setup` leaves it (44_host_interface.md R160). -/
def setupChan : Chan where
  en := false
  armed := false
  busy := false
  rptr := 0
  irqEn := true

/-- The effects of a `setup` whose configuration is accepted (44_host_interface.md R160). -/
def configure (s : State) : State :=
  let s := (s.setCh (both setupChan)).setIrq (both false)
  let s := (s.setQ []).setWk .idle
  (s.setIntEn true).setSetupDone true

/-- `setup()`; that a configuration was rejected is remembered for the refusals that follow it
(44_host_interface.md R160, 93_implementation_defined.md U20; log 19). -/
def execSetup (s : State) : Out :=
  onPoll s fun s =>
    if s.setupDone then .refused .setupTwice
    else if configValid s.cfg then .next ((configure s).setRes .ok)
    else .next ((s.setRejected true).setRes .configRejected)

/-- What follows the fill loop of `start`: `dma_start`, or POLL stays in the loop (44_host_interface.md R161;
log 16). -/
def endStart : FillEnd × State → Out
  | (.ready, s) => andThen (startTransmitter s) fun s => .next ((s.setPollCtx .free).setRes .none)
  | (.waiting r, s) => .next ((s.setPollCtx (.inStart r)).setRes .waits)
  | (.refused, _) => .refused .markFilledIdle

/-- `start(sourceDescriptor)`: begun, or, with the same source, gone on with (44_host_interface.md R161;
log 16). -/
def execStart (src : Source) (s : State) : Out :=
  onPrimary s fun s =>
    match s.pollCtx with
    | .free =>
      if s.setupDone = false ∨ s.active = true then .refused .startInvalid
      else endStart (fillBuffers (bindSource src s))
    | .inStart r => if s.storage.bound = some src then endStart (resumeFill r s) else waits s
    | .inPoll _ => waits s
    | .inStop => waits s
    | .inDmaStop => waits s

/-- `stop()`: begun, or asked again in its wait; harmless before `setup`, refused after a rejected configuration (44_host_interface.md R162,
70_reset_and_hazards.md R201, R212; log 19, log 32). -/
def execStop (s : State) : Out :=
  onPrimary s fun s =>
    match s.pollCtx with
    | .free => unlessRejected s fun s => endStop .inStop unbindSource (disableChannels s)
    | .inStop => endStop .inStop unbindSource s
    | .inPoll _ => waits s
    | .inStart _ => waits s
    | .inDmaStop => waits s

/-- What a `poll` answers: its Boolean, or nothing yet while its read goes on (44_host_interface.md R163;
log 16). -/
def endPoll : Polled × State → Out
  | (.did v, s) => .next ((s.setPollCtx .free).setRes (.bool v))
  | (.pending r, s) => .next ((s.setPollCtx (.inPoll r)).setRes .waits)
  | (.refused, _) => .refused .markFilledIdle

/-- `poll()`: begun, or gone on with inside its read; refused after a rejected configuration (44_host_interface.md R163,
70_reset_and_hazards.md R212; log 16, log 19). -/
def execPoll (s : State) : Out :=
  onPrimary s fun s =>
    match s.pollCtx with
    | .free => unlessRejected s fun s => endPoll (pollOnce s)
    | .inPoll r => endPoll (readInto r s)
    | .inStart _ => waits s
    | .inStop => waits s
    | .inDmaStop => waits s

/-- `isActive()`; refused after a rejected configuration (44_host_interface.md R164, 70_reset_and_hazards.md
R212; log 19). -/
def execIsActive (s : State) : Out :=
  onPoll s fun s => unlessRejected s fun s => .next (s.setRes (.bool s.active))

end Sys2Proof.Machine
end

