-- ==== Sys2Proof/Machine/Interrupt.lean ====
section
/-! DEFINITION. The completion interrupt's handler: `irq_service` (60_exceptions.md R176 to R179). -/

namespace Sys2Proof.Machine

/-- The handler's last action: `push(Encode c)`, and the return (60_exceptions.md R178, R179). -/
def handlerPush (c : Side) (s : State) : Out := .next (pushJob (jobOf c) s)

/-- The handler's second action, `rearm(c)`, and what follows it (60_exceptions.md R178). -/
def handlerRearm (c : Side) (s : State) : Out :=
  if rearmable c s then cutOr (.rearmed c) (handlerPush c) (rearmChannel c s) else .refused .rearmInvalid

/-- `irq_service(c)`: acknowledge, rearm, push, return; `c` is a latched channel chosen by nobody
(60_exceptions.md R176, R178). With the interrupt not takeable the handler is not entered (R175; log 4). A handler
that other agents' steps have cut goes on with its next action; it does not nest (R177, R179; log 36). -/
def execIrqService (c : Side) (s : State) : Out :=
  match s.handler with
  | none =>
    if irqTakeable c s then cutOr (.acknowledged c) (handlerRearm c) (takeCompletion c s) else waits s
  | some (.acknowledged d) => if c = d then handlerRearm c s else waits s
  | some (.rearmed d) => if c = d then handlerPush c s else waits s
  | some (.held _) => waits s

end Sys2Proof.Machine
end

