-- ==== Sys2Proof/Machine/Dispatch.lean ====
section
/-! DEFINITION. One arm per operation of spec/opcode_table.json, each a call of its own meaning. -/

namespace Sys2Proof.Machine

/-- The effect of one operation. -/
def exec (i : Instr) (s : State) : Host.Outcome State Fault Refusal :=
  match i with
  | .setup => Sys2Proof.Machine.execSetup s
  | .start src => Sys2Proof.Machine.execStart src s
  | .stop => Sys2Proof.Machine.execStop s
  | .poll => Sys2Proof.Machine.execPoll s
  | .isActive => Sys2Proof.Machine.execIsActive s
  | .acquireFillTarget => Sys2Proof.Machine.execAcquireFillTarget s
  | .markFilled => Sys2Proof.Machine.execMarkFilled s
  | .consumeChunk c => Sys2Proof.Machine.execConsumeChunk c s
  | .encode b p c q byteLen => Sys2Proof.Machine.execEncode b p c q byteLen s
  | .encodeSample lo hi => Sys2Proof.Machine.execEncodeSample lo hi s
  | .dmaStart => Sys2Proof.Machine.execDmaStart s
  | .dmaStop => Sys2Proof.Machine.execDmaStop s
  | .rearm c => Sys2Proof.Machine.execRearm c s
  | .dmaWord c => Sys2Proof.Machine.execDmaWord c s
  | .irqService c => Sys2Proof.Machine.execIrqService c s
  | .push j => Sys2Proof.Machine.execPush j s
  | .workerPop => Sys2Proof.Machine.execWorkerPop s
  | .fillWrite b k v => Sys2Proof.Machine.execFillWrite b k v s

end Sys2Proof.Machine
end

