-- ==== Sys2Proof/Machine/Step.lean ====
section
/-! DEFINITION. One step: the next request of the trace is taken and carried out; with no request left
no agent steps and nothing changes (00_scope.md R8, 10_state.md R41; log 1, log 2). -/

namespace Sys2Proof.Machine

/-- One step of the block. -/
def step (s : State) : Host.Outcome State Fault Refusal :=
  match fetch s with
  | .idle => .next s
  | .bad why => .refused (.badCommand why)
  | .request i s => exec i s

/-- `s` with the request of a table word as the next of the trace (log 1). -/
def State.withFetchWord (s : State) (nbits w : Nat) : State :=
  s.setTrace (requestBytes nbits w ++ s.trace)

end Sys2Proof.Machine
end

