-- ==== Sys2Proof/Machine/Receiver.lean ====
section
/-! DEFINITION. What the line shows: the cells of the words (30_encoding.md R77), the decoding view of a
receiver (30_encoding.md R91), the encoding of a byte stream sample by sample (42_dma_transmitter.md R138),
the schedule of the steady state (42_dma_transmitter.md R139), and what holds between `LINE`, the wire buffers
and the bytes consumed (42_dma_transmitter.md R138). No step uses this file; the statements do. -/

namespace Sys2Proof.Machine

/-- Cell `n` of a wire word: bit `15 - n`, cell 0 first on the line (20_memory.md R52, 30_encoding.md R77). -/
def cell (w : WireWord) (n : Nat) : Bool := w.getLsbD (15 - n)

/-- The cells of a word in line order (20_memory.md R52). -/
def wordCells (w : WireWord) : List Bool := (List.range 16).map (cell w)

/-- The cells of the line history in line order (00_scope.md R9). -/
def lineCells (line : List WireWord) : List Bool := line.flatMap wordCells

/-- Slot `m` of a data word is a 1 when its two cells differ (30_encoding.md R77, R91). -/
def slotOfWord (w : WireWord) (m : Nat) : Bool := cell w (2 * m) != cell w (2 * m + 1)

/-- The word of a subframe that holds time slots `8k` to `8k + 7`. -/
def Words4.word (w : Words4) : Nat → WireWord
  | 0 => w.w0
  | 1 => w.w1
  | 2 => w.w2
  | _ => w.w3

/-- Time slot `k` of a subframe, 4 ≤ k ≤ 31 (30_encoding.md R91). -/
def Words4.slot (w : Words4) (k : Nat) : Bool := slotOfWord (w.word (k / 8)) (k % 8)

/-- The line level before the first cell of slot `k` of a subframe, for 4 ≤ k ≤ 31. -/
def Words4.levelBefore (w : Words4) (k : Nat) : Bool :=
  if k % 8 = 0 then cell (w.word (k / 8 - 1)) 15 else cell (w.word (k / 8)) (2 * (k % 8) - 1)

/-- The first cell of slot `k` differs from the cell before it (30_encoding.md R77, R91). -/
def Words4.transitionAt (w : Words4) (k : Nat) : Bool :=
  cell (w.word (k / 8)) (2 * (k % 8)) != w.levelBefore k

/-- How many of the slots 4 to 31 are a 1 (30_encoding.md R91). -/
def Words4.ones (w : Words4) : Nat := ((List.range 28).filter (fun k => w.slot (k + 4))).length

/-- The four words in line order. -/
def Words4.toList (w : Words4) : List WireWord := [w.w0, w.w1, w.w2, w.w3]

/-- The encoding of a byte stream, sample by sample, four words each (42_dma_transmitter.md R138), and the
context after it; a trailing odd byte is ignored (40_frame_encoder.md R101). -/
def encodeStream (x : Context) : List Byte → List WireWord × Context
  | lo :: hi :: bytes =>
    let e := encodeSample x lo hi
    let r := encodeStream e.2 bytes
    (e.1.toList ++ r.1, r.2)
  | [_] => ([], x)
  | [] => ([], x)

/-- `n` bytes of PCM buffer `b` from index `p` on (30_encoding.md R90). -/
def pcmBytes (s : State) (b : Side) (p n : Nat) : List Byte :=
  (List.range n).map (fun i => pcmByte s b (p + i))

/-- `n` entries of wire buffer `c` from index `q` on. -/
def wireEntries (s : State) (c : Side) (q n : Nat) : List WireWord :=
  (List.range n).map (fun j => wireEntry s c (q + j))

/-- Bytes that an encode may have read from PCM buffer `b` from index `p` on: each is the byte the buffer
holds or, where writes of it are not published, one that they replaced (20_memory.md R61; log 9). -/
def ReadsAs (s : State) (b : Side) (p : Nat) (bytes : List Byte) : Prop :=
  ∀ i < bytes.length, bytes[i]? = some (pcmByte s b (p + i)) ∨
    ∃ old ∈ oldBytes s b (p + i), bytes[i]? = some old.byte

/-- From `s` to `t`, `n` samples of `PCM[b]` from index `p` on were encoded into `WIRE[c]` from entry `q` on
(40_frame_encoder.md R101, R102): the words, `SFCNT`, `INV`, and every other wire entry as it was. -/
def Encoded (s t : State) (b : Side) (p : Nat) (c : Side) (q n : Nat) : Prop :=
  (∃ bytes : List Byte, bytes.length = 2 * n ∧ ReadsAs s b p bytes ∧
    wireEntries t c q (4 * n) = (encodeStream s.ctx bytes).1) ∧
  t.ctx.sfcnt = (if n = 0 then s.ctx.sfcnt else BitVec.ofNat 9 ((s.ctx.sfcnt.toNat + n) % 384)) ∧
  t.ctx.inv = s.ctx.inv ∧
  ∀ c' j, c' ≠ c ∨ j < q ∨ q + 4 * n ≤ j → wireEntry t c' j = wireEntry s c' j

/-- From `s` to `t`, entries `lo` to `hi - 1` of `WIRE[c]` were written: while the channel is busy each entry
replaced is kept for racing reads, after those kept already (20_memory.md R61; log 8). -/
def KeepsReplaced (s t : State) (c : Side) (lo hi : Nat) : Prop :=
  (∀ c' j, oldEntries t c' j = if c' = c ∧ lo ≤ j ∧ j < hi ∧ (s.ch.get c).busy = true then
    oldEntries s c j ++ [wireEntry s c j] else oldEntries s c' j) ∧
  ((s.ch.get c).busy = false → t.wireOld = s.wireOld)

/-- `n` calls of `poll`, one after the other. -/
def repeatPoll : Nat → State → Out
  | 0, s => .next s
  | n + 1, s => andThen (execPoll s) (repeatPoll n)

/-- The channel whose turn it is to send, by the words sent: `WIRE[A]` when their number of whole buffers is
even, `WIRE[B]` when it is odd (42_dma_transmitter.md R138). -/
def sendingChannel (s : State) : Side := if s.line.length / s.cfg.wireWords % 2 = 0 then .A else .B

/-- The re-encode of the channel that is not sending, where its buffer was sent: its completion is latched and not
served, or its handler has acknowledged it, or it is rearmed and its job is about to be pushed, is held in `push`, or
is in `Q` (60_exceptions.md R178). Where its buffer is encoded, it is rearmed, there is no job and no handler runs. -/
def ReencodeUnderWay (s : State) (o : Side) : Prop :=
  let x := s.ch.get o
  if s.wpend.get o then
    (s.irq.get o = true ∧ x.armed = false ∧ s.q = [] ∧ s.handler = none) ∨
    (s.irq.get o = false ∧ x.armed = false ∧ s.q = [] ∧ s.handler = some (.acknowledged o)) ∨
    (s.irq.get o = false ∧ x.armed = true ∧ (s.q = [] ∧ s.handler = some (.rearmed o) ∨
      s.q = [] ∧ s.handler = some (.held (jobOf o)) ∨ s.q = [jobOf o] ∧ s.handler = none))
  else s.irq.get o = false ∧ x.armed = true ∧ s.q = [] ∧ s.handler = none

/-- While both channels are enabled and `bytes` have been consumed since `dma_start`: what was sent, what is left
of the buffer being sent, and the other buffer where it is encoded, are together the encoding of `bytes`; the
context stands at their end (42_dma_transmitter.md R138, 41_buffer_pipeline.md R121). -/
def Sending (s : State) (bytes : List Byte) : Prop :=
  let d := sendingChannel s
  let sent := s.line.length % s.cfg.wireWords
  (s.ch.get d).busy = true ∧ (s.ch.get d).rptr = sent ∧ s.irq.get d = false ∧ s.wpend.get d = false ∧
    s.wireOld.get d = [] ∧ ReencodeUnderWay s d.other ∧
    s.line ++ wireEntries s d sent (s.cfg.wireWords - sent) ++
      (if s.wpend.get d.other then [] else wireEntries s d.other 0 s.cfg.wireWords) =
        (encodeStream coldContext bytes).1 ∧
    bytes.length % s.cfg.chunkBytes = 0 ∧ s.ctx.cur = bytes.length % s.cfg.pcmBufBytes ∧
    s.ctx.sel = (if bytes.length / s.cfg.pcmBufBytes % 2 = 0 then .A else .B) ∧
    s.ctx.sfcnt.toNat = bytes.length / 2 % 384 ∧ s.ctx.inv = false

/-- `LINE` carries the encoding of `bytes`, the PCM bytes consumed since `dma_start`, from its first word on; with
the channels disabled no job is left but those a stop waits for (42_dma_transmitter.md R137, R138). -/
def LineCarries (s : State) (bytes : List Byte) : Prop :=
  s.line <+: (encodeStream coldContext bytes).1 ∧ s.ch.a.en = s.ch.b.en ∧
    (s.ch.a.en = true → Sending s bytes) ∧
    (s.ch.a.en = false → s.irq = { a := false, b := false } ∧
      (s.pollCtx = .inStop ∨ s.pollCtx = .inDmaStop ∨ s.q = [] ∧ s.handler = none))

/-- The operations that the host and the agents issue by themselves; the others are issued inside them
(30_encoding.md R86, column "issued by"). -/
def issuedByAgent : Instr → Bool
  | .setup => true
  | .start _ => true
  | .stop => true
  | .poll => true
  | .isActive => true
  | .acquireFillTarget => true
  | .markFilled => true
  | .consumeChunk _ => false
  | .encode _ _ _ _ _ => false
  | .encodeSample _ _ => false
  | .dmaStart => true
  | .dmaStop => true
  | .rearm _ => false
  | .dmaWord _ => true
  | .irqService _ => true
  | .push _ => false
  | .workerPop => true
  | .fillWrite _ _ _ => true

/-- The requests of half a chain cycle in steady state: channel `c` sends its `W` words, its completion is
served, the worker runs the job (42_dma_transmitter.md R139). -/
def halfCycle (W : Nat) (c : Side) : List Byte :=
  List.replicate W (commandWord 0x0D c.bit) ++ [commandWord 0x0E c.bit, commandWord 0x10 false]

/-- `n` half cycles, the channels in turn, from `c` on (42_dma_transmitter.md R139). -/
def halfCycles (W : Nat) : Nat → Side → List Byte
  | 0, _ => []
  | n + 1, c => halfCycle W c ++ halfCycles W n c.other

end Sys2Proof.Machine
end

