-- ==== Sys2Proof/Safety.lean ====
section
/-! DEFINITION. What counts as a good state: no ghost fault (00_scope.md R10), the end of a run
(70_reset_and_hazards.md R218), and the invariants of the block (10_state.md R29, R37). -/

namespace Sys2Proof.Safety

open Sys2Proof.Machine

/-- No ghost-fault flag is set (10_state.md R34, 70_reset_and_hazards.md R217). -/
abbrev NoGhostFault (s : State) : Prop :=
  s.ghost.overrun = false ∧ s.ghost.underrun = false ∧ s.ghost.chainUnarmed = false ∧
    s.ghost.protocol = false

/-- A channel that is disabled, not armed and not busy. -/
abbrev ChannelOff (x : Chan) : Prop := x.en = false ∧ x.armed = false ∧ x.busy = false

/-- The end state of a run (70_reset_and_hazards.md R218): `stop` has returned and nothing is in flight. -/
abbrev RunEnded (s : State) : Prop :=
  s.active = false ∧ s.st.a = .stale ∧ s.st.b = .stale ∧ ChannelOff s.ch.a ∧ ChannelOff s.ch.b ∧
    s.irq.a = false ∧ s.irq.b = false ∧ s.q = [] ∧ jobRunning s = false ∧ s.handler = none ∧
    s.pollCtx = .free

/-- A memory of old values in canonical form: an index that is listed has at least one. -/
abbrev OldValuesCanonical {α : Type} (m : Memory (List α)) : Prop := Memory.wf m ∧ ∀ e ∈ m, e.2 ≠ []

/-- Every memory is in canonical form. -/
abbrev MemoriesCanonical (s : State) : Prop :=
  Memory.wf s.pcm.a ∧ Memory.wf s.pcm.b ∧ Memory.wf s.wire.a ∧ Memory.wf s.wire.b ∧
    OldValuesCanonical s.pcmOld.a ∧ OldValuesCanonical s.pcmOld.b ∧ OldValuesCanonical s.wireOld.a ∧
    OldValuesCanonical s.wireOld.b

/-- Every listed index is below the memory's size. -/
abbrev IndicesBelow {α : Type} (m : Memory α) (n : Nat) : Prop := ∀ e ∈ m, e.1 < n

/-- No memory lists an index that its buffer does not have (20_memory.md R50). -/
abbrev MemoriesInRange (s : State) : Prop :=
  IndicesBelow s.pcm.a s.cfg.pcmBufBytes ∧ IndicesBelow s.pcm.b s.cfg.pcmBufBytes ∧
    IndicesBelow s.wire.a s.cfg.wireWords ∧ IndicesBelow s.wire.b s.cfg.wireWords

/-- The pipeline context: `SFCNT` below 384 and `INV` 0 at every sample boundary (10_state.md R21, R22, R37,
40_frame_encoder.md R102), `CUR` a multiple of the chunk below the buffer's end (10_state.md R24, R37). -/
abbrev ContextLegal (s : State) : Prop :=
  s.ctx.sfcnt.toNat < 384 ∧ s.ctx.inv = false ∧
    (configValid s.cfg = true → s.ctx.cur % s.cfg.chunkBytes = 0 ∧ s.ctx.cur < s.cfg.pcmBufBytes)

/-- One channel: busy only while enabled, enabled only while active, never armed and busy at once, its read
pointer within its buffer (10_state.md R29, 42_dma_transmitter.md R130). -/
abbrev ChannelLegal (s : State) (x : Chan) : Prop :=
  (x.busy = true → x.en = true ∧ x.rptr < s.cfg.wireWords) ∧ (x.en = true → s.active = true) ∧
    ¬(x.armed = true ∧ x.busy = true) ∧ x.rptr ≤ s.cfg.wireWords

/-- Both channels, at most one of them busy (10_state.md R29, R37). -/
abbrev ChannelsLegal (s : State) : Prop :=
  ChannelLegal s s.ch.a ∧ ChannelLegal s s.ch.b ∧ ¬(s.ch.a.busy = true ∧ s.ch.b.busy = true)

/-- `setup` comes first: active only after it, what it checks, starts and enables holds after it, and before it
nothing is queued, and a rejected configuration is never set up (44_host_interface.md R160, 60_exceptions.md R175,
70_reset_and_hazards.md R201, R212). -/
abbrev SetupLegal (s : State) : Prop :=
  (s.active = true → s.setupDone = true) ∧ (s.setupDone = true → configValid s.cfg = true) ∧
    (s.setupDone = true → s.wk = .idle) ∧ (s.setupDone = false → s.wk = .notStarted) ∧
    (s.setupDone = true → s.ch.a.irqEn = true ∧ s.ch.b.irqEn = true) ∧ s.intEn = s.setupDone ∧
    (s.setupDone = false → s.q = [] ∧ s.handler = none) ∧
    (s.rejected = true → s.setupDone = false ∧ configValid s.cfg = false ∧ s.pollCtx = .free)

/-- The handler is held in `push` (60_exceptions.md R179). -/
def handlerHeld (s : State) : Bool :=
  match s.handler with
  | some (.held _) => true
  | some (.acknowledged _) => false
  | some (.rearmed _) => false
  | none => false

/-- The queue is within its depth, and the handler is held in `push` only while it is full
(43_core_dispatcher.md R150, R151). -/
abbrev QueueLegal (s : State) : Prop :=
  s.q.length ≤ s.cfg.queueDepth ∧ (handlerHeld s = true → slotFree s = false)

/-- At most one PCM buffer is Filling, and a Ready one holds no unpublished byte, unless the host broke its
duties (10_state.md R37, 70_reset_and_hazards.md R211). -/
abbrev BuffersLegal (s : State) : Prop :=
  s.ghost.protocol = false →
    ¬(s.st.a = .filling ∧ s.st.b = .filling) ∧ (s.st.a = .ready → s.pcmOld.a = []) ∧
      (s.st.b = .ready → s.pcmOld.b = [])

/-- No kept byte is marked with more jobs than have been pushed (20_memory.md R58; log 25). -/
abbrev MarksLegal (s : State) : Prop :=
  (∀ e ∈ s.pcmOld.a, ∀ o ∈ e.2, o.pushes ≤ s.pushes) ∧ ∀ e ∈ s.pcmOld.b, ∀ o ∈ e.2, o.pushes ≤ s.pushes

/-- POLL is in the fill loop of `start`. -/
def inStart (s : State) : Bool :=
  match s.pollCtx with
  | .inStart _ => true
  | .free => false
  | .inPoll _ => false
  | .inStop => false
  | .inDmaStop => false

/-- What POLL is in the middle of fits the rest: in `start` the block is set up and not active, in a stop's wait
it is set up and both channels are disabled (44_host_interface.md R161, 42_dma_transmitter.md R137). -/
abbrev PollLegal (s : State) : Prop :=
  (inStart s = true → s.setupDone = true ∧ s.active = false) ∧
    (s.pollCtx = .inStop ∨ s.pollCtx = .inDmaStop → s.setupDone = true ∧ s.ch.a.en = false ∧ s.ch.b.en = false)

/-- Wire entries race only while their channel transmits (20_memory.md R60, R61; log 8). -/
abbrev RacesLegal (s : State) : Prop :=
  (s.ch.a.busy = false → s.wireOld.a = []) ∧ (s.ch.b.busy = false → s.wireOld.b = [])

/-- The invariants of the block (10_state.md R29, R37 and the rules named at each part). -/
abbrev Inv (s : State) : Prop :=
  MemoriesCanonical s ∧ MemoriesInRange s ∧ ContextLegal s ∧ ChannelsLegal s ∧ SetupLegal s ∧
    QueueLegal s ∧ BuffersLegal s ∧ RacesLegal s ∧ PollLegal s ∧ MarksLegal s

/-! Which operations may write which state (10_state.md R38), as far as several statements name the same ones. -/

/-- `start` or `dma_start`. -/
abbrev IsStart (i : Instr) : Prop := i = .dmaStart ∨ ∃ src, i = .start src

/-- `stop` or `dma_stop`. -/
abbrev IsStop (i : Instr) : Prop := i = .dmaStop ∨ i = .stop

/-- `consumeChunk`, or `worker_pop`, which runs it (43_core_dispatcher.md R152). -/
abbrev Consumes (i : Instr) : Prop := i = .workerPop ∨ ∃ c, i = .consumeChunk c

/-- The operations that run `encode_sample`: alone, in an `encode`, in a job or in the priming
(30_encoding.md R89). -/
abbrev Encodes (i : Instr) : Prop :=
  IsStart i ∨ Consumes i ∨ (∃ lo hi, i = .encodeSample lo hi) ∨ ∃ b p c q n, i = .encode b p c q n

/-- `poll`, or `start`, which contains it (44_host_interface.md R161). -/
abbrev Polls (i : Instr) : Prop := i = .poll ∨ ∃ src, i = .start src

end Sys2Proof.Safety
end

