-- ==== Sys2Proof/Certificates/Slice0/Obligations.lean ====
section
/-! DEFINITION. The statements for the provers, family by family: encoding, the encoder, the PCM buffers,
the channels, the dispatcher, the host operations, the interrupt, the whole machine, the stream. -/

open Sys2Proof
open Sys2Proof.Machine

/-! Encoding and the step. -/

/-- Decoding an encoded well-formed request gives it back and leaves the bytes after it
(30_encoding.md R86; the operand bytes are the model's, log 3). -/
def Obligations.DecodeEncodeRoundTrip : Prop :=
  ∀ (i : Instr) (rest : List Byte), i.wf = true → decode (encode i ++ rest) = .ok (i, rest)

/-- A request has one spelling: what the decoder reads is the encoding of what it answers
(30_encoding.md R86, R87; the operand bytes are the model's, log 3). -/
def Obligations.EncodeDecodeRoundTrip : Prop :=
  ∀ (bs rest : List Byte) (i : Instr), decode bs = .ok (i, rest) → bs = encode i ++ rest ∧ i.wf = true

/-- The 24 valid command words of 30_encoding.md R86, operands that the word does not hold being 0. -/
def Obligations.CommandWordsDecode : Prop :=
  decodeTableWord 8 0x00 = some .setup ∧
  decodeTableWord 8 0x02 = some (.start { handle := 0, offset := 0, length := 0 }) ∧
  decodeTableWord 8 0x04 = some .stop ∧ decodeTableWord 8 0x06 = some .poll ∧
  decodeTableWord 8 0x08 = some .isActive ∧ decodeTableWord 8 0x0A = some .acquireFillTarget ∧
  decodeTableWord 8 0x0C = some .markFilled ∧ decodeTableWord 8 0x0E = some (.consumeChunk .A) ∧
  decodeTableWord 8 0x0F = some (.consumeChunk .B) ∧ decodeTableWord 8 0x10 = some (.encode .A 0 .A 0 0) ∧
  decodeTableWord 8 0x12 = some (.encodeSample 0#8 0#8) ∧ decodeTableWord 8 0x14 = some .dmaStart ∧
  decodeTableWord 8 0x16 = some .dmaStop ∧ decodeTableWord 8 0x18 = some (.rearm .A) ∧
  decodeTableWord 8 0x19 = some (.rearm .B) ∧ decodeTableWord 8 0x1A = some (.dmaWord .A) ∧
  decodeTableWord 8 0x1B = some (.dmaWord .B) ∧ decodeTableWord 8 0x1C = some (.irqService .A) ∧
  decodeTableWord 8 0x1D = some (.irqService .B) ∧ decodeTableWord 8 0x1E = some (.push .encodeA) ∧
  decodeTableWord 8 0x1F = some (.push .encodeB) ∧ decodeTableWord 8 0x20 = some .workerPop ∧
  decodeTableWord 8 0x22 = some (.fillWrite .A 0 0#8) ∧ decodeTableWord 8 0x23 = some (.fillWrite .B 0 0#8)

/-- 30_encoding.md R87: reserved command words are refused by the decoder and by the step, code 3 is no
buffer state, and after `setup` (before it: log 19) no pair of bytes is refused by the encoder. -/
def Obligations.ReservedWordsRefused : Prop :=
  (∀ (s : State) (w : Byte) (bs : List Byte),
    (0x12 ≤ w.toNat / 2 ∨ w ∈ [0x01#8, 0x03#8, 0x05#8, 0x07#8, 0x09#8, 0x0B#8, 0x0D#8, 0x11#8, 0x13#8,
      0x15#8, 0x17#8, 0x21#8]) →
    (∃ why, decode (w :: bs) = .error why) ∧
    (s.trace = w :: bs → ∃ why, step s = .refused (.badCommand why))) ∧
  (BufState.ofCode 3#2 = none ∧ ∀ x : BufState, x.code ≠ 3#2) ∧
  ∀ (lo hi : Byte) (s : State), s.setupDone = true → ∃ t, exec (.encodeSample lo hi) s = .next t

/-- A step runs the request that the trace's next bytes decode to, at the state whose trace is the bytes
after it (10_state.md R41; the trace is the model's schedule, log 1). -/
def Obligations.StepRunsRequest : Prop :=
  ∀ (s : State) (i : Instr) (rest : List Byte),
    decode s.trace = .ok (i, rest) → step s = exec i { s with trace := rest }

/-- With no request left no agent steps and nothing changes: the model's choice (log 2). -/
def Obligations.EmptyTraceIdles : Prop :=
  ∀ s : State, s.trace = [] → step s = .next s

/-- A table word placed with `withFetchWord` is the request that the next step runs, at the state as it was
(30_encoding.md R86; log 1). -/
def Obligations.PlacedWordRuns : Prop :=
  ∀ (s : State) (nbits w : Nat) (i : Instr),
    decodeTableWord nbits w = some i → step (s.withFetchWord nbits w) = exec i s

/-! The encoder. -/

/-- The properties of the tables that 30_encoding.md R78 to R80 derive: an entry of BIPHASE spells its byte
slot by slot, begins with 1, ends in the parity of the byte, and is no preamble word nor its complement. -/
def Obligations.TableProperties : Prop :=
  (∀ b : Byte, ∀ m < 8, slotOfWord (biphase b) m = b.getLsbD m) ∧
  (∀ b : Byte, (biphase b).getLsbD 15 = true ∧ (biphase b).getLsbD 0 = (popcnt b % 2 == 1)) ∧
  (∀ b : Byte, biphase b ∉ [preZ, preX, preY, ~~~preZ, ~~~preX, ~~~preY]) ∧
  (preZ = 0xE8CC#16 ∧ preX = 0xE2CC#16 ∧ preY = 0xE4CC#16) ∧
  popcnt 0#8 = 0 ∧ ∀ b : Byte, popcnt b = b.toNat % 2 + popcnt (b >>> 1)

/-- `encode_sample(lo, hi)`, 40_frame_encoder.md R100: its command word, and on every state after `setup` (before it: log 19) the four words of
the pseudocode, the counter, and `INV`, whose final value equals its initial value. Nothing else changes. -/
def Obligations.EncodeSampleResult : Prop :=
  decodeTableWord 8 0x12 = some (.encodeSample 0#8 0#8) ∧ ∀ (lo hi : Byte) (s : State), s.setupDone = true →
    let x : BitVec 32 := (hi ++ lo : BitVec 16).setWidth 32 <<< 11
    let restored : BitVec 32 := if x.getLsbD 26 then x ||| 0x08000000#32 else x
    let par : Nat := popcnt (lo ^^^ hi) + (if x.getLsbD 26 then 1 else 0)
    let sub : BitVec 32 := if par % 2 = 1 then restored ||| 0x80000000#32 else restored
    let t0 : BitVec 16 :=
      if s.ctx.sfcnt = 0#9 then 0xE8CC#16 else if s.ctx.sfcnt.getLsbD 0 then 0xE4CC#16 else 0xE2CC#16
    let t1 : BitVec 16 := biphase (sub.extractLsb' 8 8)
    let t2 : BitVec 16 := biphase (sub.extractLsb' 16 8)
    let t3 : BitVec 16 := biphase (sub.extractLsb' 24 8)
    let w0 : BitVec 16 := if s.ctx.inv then ~~~t0 else t0
    let w1 : BitVec 16 := if w0.getLsbD 0 then ~~~t1 else t1
    let w2 : BitVec 16 := if w1.getLsbD 0 then ~~~t2 else t2
    let w3 : BitVec 16 := if w2.getLsbD 0 then ~~~t3 else t3
    w3.getLsbD 0 = s.ctx.inv ∧
    exec (.encodeSample lo hi) s = .next { s with
      ctx := { s.ctx with sfcnt := BitVec.ofNat 9 ((s.ctx.sfcnt.toNat + 1) % 384) }
      res := .words { w0 := w0, w1 := w1, w2 := w2, w3 := w3 } }

/-- What 40_frame_encoder.md R107 derives, with 30_encoding.md R91: a receiver that looks at transitions recovers the
sample, its sign copy, the zero slots and even parity, for every sample, counter and inversion flag; it sees a
preamble, a transition at every slot's start, and a 20-bit or 24-bit sample of half the nominal scaling. Before
`setup`: log 19. -/
def Obligations.ReceiverRecoversSample : Prop :=
  ∀ (lo hi : Byte) (s : State), s.setupDone = true → ∃ (t : State) (w : Words4),
    exec (.encodeSample lo hi) s = .next t ∧ t.res = .words w ∧
    (∀ j < 16, w.slot (11 + j) = (hi ++ lo : BitVec 16).getLsbD j) ∧
    w.slot 27 = (hi ++ lo : BitVec 16).getLsbD 15 ∧
    (∀ k, (4 ≤ k ∧ k ≤ 10) ∨ (28 ≤ k ∧ k ≤ 30) → w.slot k = false) ∧
    w.ones % 2 = 0 ∧
    (∀ k, 4 ≤ k → k ≤ 31 → w.transitionAt k = true) ∧
    (w.w0 ∈ [0xE8CC#16, 0xE2CC#16, 0xE4CC#16] ∨ ~~~w.w0 ∈ [0xE8CC#16, 0xE2CC#16, 0xE4CC#16]) ∧
    (∀ j < 20, w.slot (8 + j) = (((hi ++ lo : BitVec 16).signExtend 20) <<< 3).getLsbD j) ∧
    ∀ j < 24, w.slot (4 + j) = (((hi ++ lo : BitVec 16).signExtend 24) <<< 7).getLsbD j

/-- `encode((b, p), (c, q), byteLen)` where its ranges are inside the buffers, or its length holds no sample
(40_frame_encoder.md R101): it completes; the words, the context and the frame. After `setup`, log 19; the kept
entries and the count of draws are the model's own (log 8, log 9, log 10). -/
def Obligations.EncodeWritesWords : Prop :=
  ∀ (b : Side) (p : Nat) (c : Side) (q byteLen : Nat) (s : State),
    s.setupDone = true → jobRunning s = false →
    (byteLen / 2 = 0 ∨
      p + 2 * (byteLen / 2) ≤ s.cfg.pcmBufBytes ∧ q + 4 * (byteLen / 2) ≤ s.cfg.wireWords) →
    ∃ t, exec (.encode b p c q byteLen) s = .next t ∧
      Encoded s t b p c q (byteLen / 2) ∧ KeepsReplaced s t c q (q + 4 * (byteLen / 2)) ∧
      (s.pcmOld.get b = [] → t.draws = s.draws) ∧
      t = { s with
        ctx := { s.ctx with sfcnt := t.ctx.sfcnt }, wire := t.wire, wireOld := t.wireOld,
        draws := t.draws, res := .none }

/-- Where `encode` is refused after `setup` (before it: log 19): a second encode while a job runs
(40_frame_encoder.md R103), and a range outside its buffer (93_implementation_defined.md U3). -/
def Obligations.EncodeRefusals : Prop :=
  (∀ (s : State) (j : Job), s.setupDone = true → s.wk = .running j →
    (∀ b p c q n, exec (.encode b p c q n) s = .refused .reentrant) ∧
    ∀ c, exec (.consumeChunk c) s = .refused .reentrant) ∧
  ∀ (b : Side) (p : Nat) (c : Side) (q byteLen : Nat) (s : State),
    s.setupDone = true → jobRunning s = false → 2 ≤ byteLen →
    (s.cfg.pcmBufBytes < p + 2 * (byteLen / 2) ∨ s.cfg.wireWords < q + 4 * (byteLen / 2)) →
    exec (.encode b p c q byteLen) s = .refused .encodeRange

/-- The encoding of a stream that begins with `SFCNT` 0 and `INV` 0 (40_frame_encoder.md R104): four words a
sample, the counter modulo 384, `INV` 0 again, and sample n preceded by Z, Y or X as n says. -/
def Obligations.PreambleSequence : Prop :=
  ∀ (x : Context) (bytes : List Byte), x.sfcnt = 0#9 → x.inv = false →
    (encodeStream x bytes).1.length = 4 * (bytes.length / 2) ∧
    (encodeStream x bytes).2.sfcnt.toNat = (bytes.length / 2) % 384 ∧
    (encodeStream x bytes).2.inv = false ∧
    ∀ n, 2 * n + 1 < bytes.length → (encodeStream x bytes).1[4 * n]? =
      some (if n % 384 = 0 then 0xE8CC#16 else if n % 2 = 1 then 0xE4CC#16 else 0xE2CC#16)

/-- The zero-input stream, which 40_frame_encoder.md R108 derives: n zero samples from the cold-start context, and the
first words of `WIRE[A]` after `dma_start` on two buffers of zero bytes. -/
def Obligations.ZeroInputStream : Prop :=
  (∀ n : Nat, (encodeStream coldContext (List.replicate (2 * n) 0#8)).1 = (List.range n).flatMap fun k =>
    [if k % 384 = 0 then 0xE8CC#16 else if k % 2 = 1 then 0xE4CC#16 else 0xE2CC#16,
      0xCCCC#16, 0xCCCC#16, 0xCCCC#16]) ∧
  ∀ s : State, pollRuns s = true → jobRunning s = false → s.setupDone = true → s.active = false →
    s.st.a = .ready → s.st.b = .ready → configValid s.cfg = true →
    s.pcmOld = { a := [], b := [] } →
    (∀ b, ∀ i < s.cfg.pcmBufBytes, pcmByte s b i = 0#8) →
    ∃ t, exec .dmaStart s = .next t ∧
      wireEntries t .A 0 4 = [0xE8CC#16, 0xCCCC#16, 0xCCCC#16, 0xCCCC#16]

/-! The PCM buffers. -/

/-- `acquireFillTarget()`, 41_buffer_pipeline.md R116: its command word, A before B, `NO_TARGET` when neither is
Stale, and `F_PROTOCOL` when a buffer is Filling already. After `setup`; before it: log 19. -/
def Obligations.AcquireFillTarget : Prop :=
  decodeTableWord 8 0x0A = some .acquireFillTarget ∧ ∀ s : State, pollRuns s = true → s.setupDone = true →
    let g := if s.st.a = .filling ∨ s.st.b = .filling then { s.ghost with protocol := true } else s.ghost
    (s.st.a = .stale → exec .acquireFillTarget s = .next { s with
      ghost := g, st := { a := .filling, b := s.st.b }, res := .buffer .A }) ∧
    (s.st.a ≠ .stale → s.st.b = .stale → exec .acquireFillTarget s = .next { s with
      ghost := g, st := { a := s.st.a, b := .filling }, res := .buffer .B }) ∧
    (s.st.a ≠ .stale → s.st.b ≠ .stale → exec .acquireFillTarget s = .next { s with
      ghost := g, res := .noTarget })

/-- `markFilled()`, 41_buffer_pipeline.md R117: the first Filling buffer in the order A, B becomes Ready; none
Filling is a no-op under the default of the parameter, a refusal under the other value
(93_implementation_defined.md U1). The bytes it publishes race no more: `pcmOld`, log 9. Before `setup`: log 19. -/
def Obligations.MarkFilled : Prop :=
  ∀ s : State, pollRuns s = true → s.setupDone = true →
    (s.st.a = .filling → exec .markFilled s = .next { s with
      st := { a := .ready, b := s.st.b }, pcmOld := { a := [], b := s.pcmOld.b }, res := .none }) ∧
    (s.st.a ≠ .filling → s.st.b = .filling → exec .markFilled s = .next { s with
      st := { a := s.st.a, b := .ready }, pcmOld := { a := s.pcmOld.a, b := [] }, res := .none }) ∧
    (s.st.a ≠ .filling → s.st.b ≠ .filling → s.cfg.markFilledIdle = .noop →
      exec .markFilled s = .next { s with res := .none }) ∧
    (s.st.a ≠ .filling → s.st.b ≠ .filling → s.cfg.markFilledIdle = .refuse →
      exec .markFilled s = .refused .markFilledIdle)

/-- `consumeChunk(c)`, 41_buffer_pipeline.md R118, with a configuration that `setup` accepts and the cursor
within its buffer: one encode of a chunk from the active buffer into all of `WIRE[c]`, the cursor, at the
buffer's end the selector and Stale, `F_UNDERRUN` when the buffer is not Ready, and nothing else but the model's
own kept entries and count of draws (log 8, log 9, log 10). Before `setup`: log 19. -/
def Obligations.ConsumeChunk : Prop :=
  ∀ (c : Side) (s : State), s.setupDone = true → jobRunning s = false → configValid s.cfg = true →
    s.ctx.cur + s.cfg.chunkBytes ≤ s.cfg.pcmBufBytes →
    ∃ t, exec (.consumeChunk c) s = .next t ∧
      Encoded s t s.ctx.sel s.ctx.cur c 0 (s.cfg.chunkBytes / 2) ∧ KeepsReplaced s t c 0 s.cfg.wireWords ∧
      (s.pcmOld.get s.ctx.sel = [] → t.draws = s.draws) ∧
      t = { s with
        ghost := if s.st.get s.ctx.sel = .ready then s.ghost else { s.ghost with underrun := true }
        ctx := if s.ctx.cur + s.cfg.chunkBytes = s.cfg.pcmBufBytes then
            { sfcnt := t.ctx.sfcnt, inv := s.ctx.inv, sel := s.ctx.sel.other, cur := 0 }
          else { sfcnt := t.ctx.sfcnt, inv := s.ctx.inv, sel := s.ctx.sel, cur := s.ctx.cur + s.cfg.chunkBytes }
        st := if s.ctx.cur + s.cfg.chunkBytes = s.cfg.pcmBufBytes then s.st.set s.ctx.sel .stale else s.st
        wire := t.wire, wireOld := t.wireOld, draws := t.draws
        wpend := s.wpend.set c false, res := .none }

/-- `fill_write(b, i, v)`, 41_buffer_pipeline.md R119, at an index the buffer has: that byte, `F_PROTOCOL` if
the buffer is not Filling, and nothing else. The byte replaced is kept for racing reads, marked with the jobs
pushed before (20_memory.md R58, R61; log 9). Before `setup`: log 19. -/
def Obligations.FillWrite : Prop :=
  ∀ (b : Side) (i : Nat) (v : Byte) (s : State), s.setupDone = true → i < s.cfg.pcmBufBytes →
    ∃ t, exec (.fillWrite b i v) s = .next t ∧
      (∀ b' i', pcmByte t b' i' = if b' = b ∧ i' = i then v else pcmByte s b' i') ∧
      (∀ b' i', oldBytes t b' i' = if b' = b ∧ i' = i then
        oldBytes s b i ++ [{ pushes := s.pushes, byte := pcmByte s b i }] else oldBytes s b' i') ∧
      t = { s with
        ghost := if s.st.get b = .filling then s.ghost else { s.ghost with protocol := true }
        pcm := t.pcm, pcmOld := t.pcmOld, res := .none }

/-- `fill_write` at an index its buffer does not have stops: the model's fault (log 27; before `setup` log 19). -/
def Obligations.FillWriteOutside : Prop :=
  ∀ (b : Side) (i : Nat) (v : Byte) (s : State), s.setupDone = true → s.cfg.pcmBufBytes ≤ i →
    exec (.fillWrite b i v) s = .fault .pcmIndex

/-! The channels. -/

/-- `dma_word(c)` that is not the channel's last, 42_dma_transmitter.md R131 and 20_memory.md R61: the entry at
`RPTR` joins `LINE`, or where it races one that a write of this transmission replaced; `RPTR` advances; nothing
else (log 8, log 10). -/
def Obligations.DmaWordMidBuffer : Prop :=
  ∀ (c : Side) (s : State), (s.ch.get c).en = true → (s.ch.get c).busy = true →
    (s.ch.get c).rptr + 1 < s.cfg.wireWords →
    ∃ (w : WireWord) (n : Nat),
      (w = wireEntry s c (s.ch.get c).rptr ∨ w ∈ oldEntries s c (s.ch.get c).rptr) ∧
      (oldEntries s c (s.ch.get c).rptr = [] → w = wireEntry s c (s.ch.get c).rptr ∧ n = s.draws) ∧
      exec (.dmaWord c) s = .next { s with
        line := s.line ++ [w]
        ch := s.ch.set c { s.ch.get c with rptr := (s.ch.get c).rptr + 1 }
        draws := n, res := .none }

/-- `dma_word(c)` that transfers the last entry, with `complete` and `trigger` in the same step
(42_dma_transmitter.md R131, R132, R133): the other channel disabled, not rearmed, or started. `wireOld` and the
count of draws are the model's own (log 8, log 10); `RPTR` after it: log 34. -/
def Obligations.DmaWordLast : Prop :=
  ∀ (c : Side) (s : State), (s.ch.get c).en = true → (s.ch.get c).busy = true →
    (s.ch.get c).rptr + 1 = s.cfg.wireWords →
    ∃ (w : WireWord) (n : Nat),
      (w = wireEntry s c (s.ch.get c).rptr ∨ w ∈ oldEntries s c (s.ch.get c).rptr) ∧
      (oldEntries s c (s.ch.get c).rptr = [] → w = wireEntry s c (s.ch.get c).rptr ∧ n = s.draws) ∧
      let done : State := { s with
        line := s.line ++ [w]
        ch := s.ch.set c { s.ch.get c with rptr := s.cfg.wireWords, busy := false }
        wpend := s.wpend.set c true
        irq := if (s.ch.get c).irqEn then s.irq.set c true else s.irq
        wireOld := s.wireOld.set c [], draws := n, res := .none }
      ((s.ch.get c.other).en = false → exec (.dmaWord c) s = .next done) ∧
      ((s.ch.get c.other).en = true → (s.ch.get c.other).armed = false →
        exec (.dmaWord c) s = .next { done with ghost := { s.ghost with chainUnarmed := true } }) ∧
      ((s.ch.get c.other).en = true → (s.ch.get c.other).armed = true →
        exec (.dmaWord c) s = .next { done with
          ghost := if s.wpend.get c.other then { s.ghost with overrun := true } else s.ghost
          ch := done.ch.set c.other
            { s.ch.get c.other with armed := false, busy := true, rptr := 0 } })

/-- `dma_start()` where it is valid, 42_dma_transmitter.md R134 and the column "value after `start()`" of
10_state.md R39: the first two chunks of the PCM stream are encoded from `SFCNT` 0 into `WIRE[A]` and `WIRE[B]`,
channel A is busy, channel B armed, and what else it sets; nothing else changes but the model's own kept entries
and count of draws (log 8, log 9, log 10). -/
def Obligations.DmaStart : Prop :=
  ∀ s : State, pollRuns s = true → jobRunning s = false → s.setupDone = true → s.active = false →
    s.st.a = .ready → s.st.b = .ready → configValid s.cfg = true →
    let chunk := s.cfg.chunkBytes
    let one : Bool := s.cfg.pcmBufBytes = chunk
    let two : Bool := s.cfg.pcmBufBytes = 2 * chunk
    ∃ (t : State) (bytes0 bytes1 : List Byte), exec .dmaStart s = .next t ∧
      bytes0.length = chunk ∧ ReadsAs s .A 0 bytes0 ∧
      bytes1.length = chunk ∧ ReadsAs s (if one then .B else .A) (if one then 0 else chunk) bytes1 ∧
      wireEntries t .A 0 s.cfg.wireWords ++ wireEntries t .B 0 s.cfg.wireWords =
        (encodeStream { sfcnt := 0#9, inv := false, sel := .A, cur := 0 } (bytes0 ++ bytes1)).1 ∧
      (∀ c j, s.cfg.wireWords ≤ j → wireEntry t c j = wireEntry s c j) ∧
      (∀ c j, oldEntries t c j =
        if (s.ch.get c).busy = true ∧ j < s.cfg.wireWords then [wireEntry s c j] else []) ∧
      (s.ch.a.busy = false → s.ch.b.busy = false → t.wireOld = { a := [], b := [] }) ∧
      (s.pcmOld = { a := [], b := [] } → t.draws = s.draws) ∧
      t = { s with
        ctx := { sfcnt := BitVec.ofNat 9 (chunk % 384), inv := false, sel := if two then .B else .A,
                 cur := if one ∨ two then 0 else 2 * chunk }
        st := if one then { a := .stale, b := .stale } else if two then { a := .stale, b := .ready } else s.st
        ch := { a := { s.ch.a with en := true, armed := false, busy := true, rptr := 0 },
                b := { s.ch.b with en := true, armed := true, rptr := 0 } }
        irq := { a := false, b := false }, wpend := { a := false, b := false }
        line := [], active := true
        wire := t.wire, wireOld := t.wireOld, draws := t.draws, res := .none }

/-- `dma_start()` and `start` where they are not valid are refused (42_dma_transmitter.md R134,
44_host_interface.md R161): before `setup` or while active, and `dma_start` with a buffer that is not Ready. -/
def Obligations.StartRefusals : Prop :=
  (∀ (s : State) (src : Source), pollRuns s = true → (s.setupDone = false ∨ s.active = true) →
    exec .dmaStart s = .refused .startInvalid ∧ exec (.start src) s = .refused .startInvalid) ∧
  ∀ s : State, pollRuns s = true → s.setupDone = true → s.active = false →
    (s.st.a ≠ .ready ∨ s.st.b ≠ .ready) → exec .dmaStart s = .refused .startNotReady

/-- `rearm(c)`, 42_dma_transmitter.md R136: its command words; an idle channel becomes armed and nothing else
changes; a busy or armed one is refused. After `setup` (log 19) and with no handler running (log 15, log 36). -/
def Obligations.Rearm : Prop :=
  decodeTableWord 8 0x18 = some (.rearm .A) ∧ decodeTableWord 8 0x19 = some (.rearm .B) ∧ ∀ (c : Side) (s : State),
    s.setupDone = true → s.handler = none →
    ((s.ch.get c).busy = false → (s.ch.get c).armed = false →
      exec (.rearm c) s = .next { s with
        ch := s.ch.set c { s.ch.get c with armed := true }, res := .none }) ∧
    ((s.ch.get c).busy = true ∨ (s.ch.get c).armed = true → exec (.rearm c) s = .refused .rearmInvalid)

/-- `dma_stop()` and `stop()` with no job outstanding (42_dma_transmitter.md R137, 44_host_interface.md R162):
both channels disabled and idle, the latches clear, both buffers Stale, `ACTIVE` 0; the read pointers are
unspecified within their range (10_state.md R39; log 10), everything else is as it was. `dma_stop` before `setup`,
and both after a rejected configuration: log 19. -/
def Obligations.StopIdleDispatcher : Prop :=
  ∀ s : State, pollRuns s = true → s.q = [] → jobRunning s = false →
    ∃ ra rb : Nat, ra ≤ s.cfg.wireWords ∧ rb ≤ s.cfg.wireWords ∧
      let stopped : State := { s with
        ch := { a := { s.ch.a with en := false, armed := false, busy := false, rptr := ra },
                b := { s.ch.b with en := false, armed := false, busy := false, rptr := rb } }
        irq := { a := false, b := false }, st := { a := .stale, b := .stale }
        wpend := { a := false, b := false }, active := false
        wireOld := { a := [], b := [] }, draws := s.draws + 2, res := .none }
      (s.setupDone = true → exec .dmaStop s = .next stopped) ∧
      (spared s = true → exec .stop s = .next { stopped with storage := { s.storage with bound := none, pos := 0 } })

/-- `dma_stop()` and `stop()` in every state that `setup` leads to: asked, the queued jobs carried out by the
worker, and asked again, the run is over (42_dma_transmitter.md R137, 70_reset_and_hazards.md R203, R218; that the
wait is a hold which the next request of the stop ends is the model's form, log 32). -/
def Obligations.StopDrainsAndEnds : Prop :=
  ∀ (s : State) (i : Instr) (rest : List Byte), Safety.Inv s → s.setupDone = true → pollRuns s = true →
    Safety.IsStop i → s.trace = encode i ++ List.replicate s.q.length (commandWord 0x10 false) ++ encode i ++ rest →
    ∃ t, Sys2Proof.core.run (s.q.length + 2) s = .next t ∧ t.trace = rest ∧ Safety.RunEnded t ∧ t.wk = .idle ∧
      t.ctx.sfcnt.toNat = (s.ctx.sfcnt.toNat + s.q.length * (s.cfg.chunkBytes / 2)) % 384 ∧
      t.ctx.inv = false ∧ t.line = s.line ∧ t.pcm = s.pcm ∧ t.setupDone = true ∧ t.intEn = s.intEn ∧
      t.wpend = { a := false, b := false }

/-- The wait of `dma_stop()` and `stop()`: with a job outstanding the channels are off at once, and POLL stays in the
wait, whenever the stop is asked again, until the worker has carried the jobs out; once "`Q` = [] and `WK` =
`Idle`" it ends with the writes of 42_dma_transmitter.md R137 (70_reset_and_hazards.md R209, R215; the form of the
wait is the model's, log 32). -/
def Obligations.StopWaitsForWorker : Prop :=
  ∀ (s : State) (i : Instr) (wait : PollCtx), (i = .stop ∧ wait = .inStop ∨ i = .dmaStop ∧ wait = .inDmaStop) →
    s.handler = none →
    (s.setupDone = true → (s.q ≠ [] ∨ jobRunning s = true) → s.pollCtx = .free →
      ∃ t, exec i s = .next t ∧ t.pollCtx = wait ∧ t.res = .waits ∧ t.q = s.q ∧ t.wk = s.wk ∧
        t.st = s.st ∧ t.active = s.active ∧ t.wpend = s.wpend ∧ Safety.ChannelOff t.ch.a ∧
        Safety.ChannelOff t.ch.b ∧ t.irq = { a := false, b := false }) ∧
    ((s.q ≠ [] ∨ jobRunning s = true) → s.pollCtx = wait → exec i s = .next { s with res := .waits }) ∧
    (s.q = [] → jobRunning s = false → s.pollCtx = wait →
      exec i s = .next { s with
        st := { a := .stale, b := .stale }, wpend := { a := false, b := false }, active := false
        storage := if i = .stop then { s.storage with bound := none, pos := 0 } else s.storage
        pollCtx := .free, res := .none })

/-! The dispatcher. -/

/-- `push(j)`, 43_core_dispatcher.md R151: with a slot free the job enters at the tail; with none the handler
is held (the held handler's form is the model's, log 15; the count of pushed jobs stands for its barrier, log 25;
before `setup`: log 19). -/
def Obligations.Push : Prop :=
  ∀ (j : Job) (s : State), s.setupDone = true → s.handler = none →
    (s.q.length < s.cfg.queueDepth →
      exec (.push j) s = .next { s with q := s.q ++ [j], pushes := s.pushes + 1, res := .none }) ∧
    (s.cfg.queueDepth ≤ s.q.length →
      exec (.push j) s = .next { s with handler := some (.held j), res := .waits })

/-- `worker_pop()`, 43_core_dispatcher.md R152: the head of the queue is taken, which lifts a held `push`, the
barrier settles what was written before the job was pushed (log 25), and the job's `consumeChunk` runs to its end;
`WK` is Idle again. -/
def Obligations.WorkerPop : Prop :=
  ∀ (s : State) (j : Job) (js : List Job), s.setupDone = true → s.wk = .idle → s.q = j :: js →
    configValid s.cfg = true → s.ctx.cur + s.cfg.chunkBytes ≤ s.cfg.pcmBufBytes →
    let settled : State := { s with pcmOld :=
      { a := settleBefore (s.pushes - js.length) s.pcmOld.a, b := settleBefore (s.pushes - js.length) s.pcmOld.b } }
    let taken : State :=
      match s.handler with
      | none | some (.acknowledged _) | some (.rearmed _) => { settled with q := js }
      | some (.held k) =>
        if js.length < s.cfg.queueDepth then
          { settled with q := js ++ [k], handler := none, pushes := s.pushes + 1 }
        else { settled with q := js }
    let c : Side := match j with | .encodeA => .A | .encodeB => .B
    ∃ t, exec (.consumeChunk c) taken = .next t ∧ exec .workerPop s = .next t ∧ t.wk = .idle

/-- The barriers (20_memory.md R58, 43_core_dispatcher.md R154): every byte written before `push(j)` is visible to
the worker when it executes `j`, published or not. Pushed behind a queue, the job, when its turn comes, encodes the
bytes that the buffer held at the push. How the barriers are counted is the model's form, log 25. -/
def Obligations.PushedWritesVisible : Prop :=
  ∀ (s : State) (j : Job) (rest : List Byte), Safety.Inv s → s.setupDone = true → s.handler = none →
    s.q.length < s.cfg.queueDepth →
    s.trace = encode (.push j) ++ List.replicate (s.q.length + 1) (commandWord 0x10 false) ++ rest →
    ∃ t u, Sys2Proof.core.run (s.q.length + 1) s = .next t ∧ t.q = [j] ∧ step t = .next u ∧ u.trace = rest ∧
      wireEntries u (jobChannel j) 0 s.cfg.wireWords =
        (encodeStream t.ctx (pcmBytes s t.ctx.sel t.ctx.cur s.cfg.chunkBytes)).1

/-! The host operations. -/

/-- `setup()`, 44_host_interface.md R160: refused a second time, rejected on a configuration that breaks the
constraints (with nothing configured; the mark that remembers it is the model's own, log 19), else everything it
configures, and `OK`. -/
def Obligations.Setup : Prop :=
  ∀ s : State, pollRuns s = true →
    let P := s.cfg
    let bad : Prop := P.chunkBytes % 2 = 1 ∨ P.chunkBytes = 0 ∨ P.pcmBufBytes % P.chunkBytes ≠ 0 ∨
      P.pcmBufBytes = 0 ∨ P.wireWords ≠ 2 * P.chunkBytes
    let off : Chan := { en := false, armed := false, busy := false, rptr := 0, irqEn := true }
    (s.setupDone = true → exec .setup s = .refused .setupTwice) ∧
    (s.setupDone = false → bad → exec .setup s = .next { s with rejected := true, res := .configRejected }) ∧
    (s.setupDone = false → ¬bad → exec .setup s = .next { s with
      ch := { a := off, b := off }, irq := { a := false, b := false }, q := [], wk := .idle,
      intEn := true, setupDone := true, res := .ok })

/-- Before a `setup` that succeeded (70_reset_and_hazards.md R201, R212, 93_implementation_defined.md U10, U20; log 19):
the operations that need the block set up are refused; `isActive`, `stop` and `poll` answer as long as no configuration
was rejected, and are refused after that, and `setup` rejects it again. -/
def Obligations.BeforeSetupRefused : Prop :=
  ∀ s : State, s.setupDone = false →
    (∀ c, exec (.consumeChunk c) s = .refused .startInvalid ∧ exec (.rearm c) s = .refused .startInvalid) ∧
    (∀ b p c q n, exec (.encode b p c q n) s = .refused .startInvalid) ∧
    (∀ j, exec (.push j) s = .refused .startInvalid) ∧
    (∀ b k v, exec (.fillWrite b k v) s = .refused .startInvalid) ∧
    (∀ lo hi, exec (.encodeSample lo hi) s = .refused .startInvalid) ∧
    (pollRuns s = true → (∀ i ∈ [Instr.acquireFillTarget, .markFilled, .dmaStart, .dmaStop],
        exec i s = .refused .startInvalid) ∧
      (∀ src, exec (.start src) s = .refused .startInvalid) ∧
      (s.rejected = false → exec .isActive s = .next { s with res := .bool s.active } ∧
        (s.q = [] → jobRunning s = false → ∃ t, exec .stop s = .next t ∧ t.res = .none) ∧
        ∃ t, exec .poll s = .next t) ∧
      (s.rejected = true → (∀ i ∈ [Instr.isActive, .stop, .poll], exec i s = .refused .startInvalid) ∧
        (configValid s.cfg = false → exec .setup s = .next { s with res := .configRejected })))

/-- `start(src)` where STORAGE, failures between, succeeds as often as a buffer is not Ready: STORAGE is bound,
`poll` is called until both buffers are Ready, and the rest is `dma_start` (44_host_interface.md R161,
70_reset_and_hazards.md R204). -/
def Obligations.StartFillsThenLaunches : Prop :=
  ∀ (s : State) (src : Source) (front rest : List ReadOutcome),
    pollRuns s = true → jobRunning s = false → s.setupDone = true → s.active = false → configValid s.cfg = true →
    s.storage.reads = front ++ rest → (∀ r ∈ front, r = .success ∨ ∃ cells, r = .failure cells) →
    (front.filter fun r => decide (r = .success)).length =
      (if s.st.a = .ready then 0 else 1) + (if s.st.b = .ready then 0 else 1) →
    (front = [] ∨ front.getLast? = some .success) →
    ∃ v t : State,
      repeatPoll front.length { s with storage := { s.storage with bound := some src, pos := 0 } } = .next v ∧
      v.st = { a := .ready, b := .ready } ∧ v.storage.reads = rest ∧
      exec .dmaStart v = .next t ∧ exec (.start src) s = .next t ∧ t.active = true

/-- `start(src)` as a loop: begun, it binds STORAGE and stands before its first test; while a buffer is not Ready it
is the `poll` that it stands in or begins, and then `start` again; with both Ready it is `dma_start`
(44_host_interface.md R161; the form of the loop between steps is the model's, log 16). -/
def Obligations.StartIsItsLoop : Prop :=
  (∀ (s : State) (src : Source), pollRuns s = true → s.setupDone = true → s.active = false →
    let bound : State := { s with storage := { s.storage with bound := some src, pos := 0 } }
    exec (.start src) s = exec (.start src) { bound with pollCtx := .inStart none } ∧
    (s.st = { a := .ready, b := .ready } → exec (.start src) s = exec .dmaStart bound)) ∧
  ∀ (s : State) (src : Source) (x : Option Reading), s.handler = none → s.pollCtx = .inStart x →
    s.storage.bound = some src →
    (x = none → s.st = { a := .ready, b := .ready } →
      exec (.start src) s = exec .dmaStart { s with pollCtx := .free }) ∧
    (x ≠ none ∨ s.st ≠ { a := .ready, b := .ready } →
      let inside : PollCtx := match x with | none => .free | some r => .inPoll r
      (∀ u r, exec .poll { s with pollCtx := inside } = .next u → u.pollCtx = .inPoll r →
        exec (.start src) s = .next { u with pollCtx := .inStart (some r) }) ∧
      (∀ u, exec .poll { s with pollCtx := inside } = .next u → u.pollCtx = .free →
        exec (.start src) s = exec (.start src) { u with pollCtx := .inStart none }))

/-- `start(src)` while storage keeps failing does not reach `ACTIVE` = 1, begun or gone on with: POLL stays in the fill
loop, in which no other operation of POLL takes place (HeldHandlerStopsPrimaryCore), and where it stays the same holds
of the next `start` of that source, for as long as no read succeeds; 44_host_interface.md R161; the model's form of it
is log 16, log 17. -/
def Obligations.StartWaitsForStorage : Prop :=
  ∀ (s : State) (src : Source), s.active = false → s.handler = none →
    (s.pollCtx = .free ∧ s.setupDone = true ∨ s.pollCtx = .inStart none ∧ s.storage.bound = some src ∨
      ∃ r, s.pollCtx = .inStart (some r) ∧ s.storage.bound = some src ∧ s.st.get r.target = .filling) →
    (s.st.a ≠ .ready ∨ s.st.b ≠ .ready) → (∀ r ∈ s.storage.reads, ∃ cells, r = .failure cells) →
    ∃ t, exec (.start src) s = .next t ∧ t.pollCtx = .inStart none ∧ t.res = .waits ∧ t.active = false ∧
      t.handler = none ∧ t.storage.bound = some src ∧ t.storage.reads = [] ∧ (t.st.a ≠ .ready ∨ t.st.b ≠ .ready) ∧
      t.ch = s.ch ∧ t.line = s.line ∧ t.ctx = s.ctx ∧ t.wire = s.wire ∧ t.ghost = s.ghost

/-- `poll()` with no target, 44_host_interface.md R163: false, and no change. After a rejected configuration:
log 19. -/
def Obligations.PollNoTarget : Prop :=
  ∀ s : State, pollRuns s = true → spared s = true → s.st = { a := .ready, b := .ready } →
    exec .poll s = .next { s with res := .bool false }

/-- `poll()` whose read succeeds (44_host_interface.md R163, R165), begun, or gone on with inside its read: the buffer
left Filling or else the first Stale one is Ready with the source's next `PCM_BUF_BYTES` bytes, those written before
as they stand; the position advances, and the result is true. No `F_PROTOCOL` is marked. What the source holds is
`sourceByteAt`, log 17, and how a read is gone on with, log 16; the bytes are published, log 9; that A is the target
when both are Filling is log 23. After a rejected configuration: log 19. -/
def Obligations.PollFills : Prop :=
  ∀ (s : State) (b : Side) (written : List Nat) (reads : List ReadOutcome), s.handler = none →
    (s.pollCtx = .free ∧ spared s = true ∧ written = [] ∧
        (firstIn .filling s.st = some b ∨ firstIn .filling s.st = none ∧ firstIn .stale s.st = some b) ∨
      s.pollCtx = .inPoll { target := b, written := written } ∧ firstIn .filling s.st = some b) →
    s.storage.reads = .success :: reads →
    ∃ t, exec .poll s = .next t ∧
      (∀ i < s.cfg.pcmBufBytes, pcmByte t b i =
        if i ∈ written then pcmByte s b i else sourceByteAt s.storage (s.storage.pos + i)) ∧
      (∀ b' i, b' ≠ b ∨ s.cfg.pcmBufBytes ≤ i → pcmByte t b' i = pcmByte s b' i) ∧
      t = { s with
        st := s.st.set b .ready, pcm := t.pcm, pcmOld := s.pcmOld.set b []
        storage := { s.storage with reads := reads, pos := s.storage.pos + s.cfg.pcmBufBytes }
        pollCtx := .free, res := .bool true }

/-- `poll()` whose read fails (44_host_interface.md R163, R165), begun, or gone on with inside its read: false, the
target stays Filling, any subset of its bytes may have been overwritten, and the other buffer is as it was. The cells
a failed read wrote are listed (log 33); a byte replaced is kept for racing reads (log 9); with no outcome left in the
input a read fails (log 17); how a read is gone on with is log 16; A is the target when both are Filling (log 23).
After a rejected configuration: log 19. -/
def Obligations.PollReadFails : Prop :=
  ∀ (s : State) (b : Side) (cells : List Host.Cell), s.handler = none →
    (s.pollCtx = .free ∧ spared s = true ∧
        (firstIn .filling s.st = some b ∨ firstIn .filling s.st = none ∧ firstIn .stale s.st = some b) ∨
      (∃ r, s.pollCtx = .inPoll r ∧ r.target = b) ∧ s.st.get b = .filling) →
    (s.storage.reads = [] ∧ cells = [] ∨ ∃ reads, s.storage.reads = .failure cells :: reads) →
    ∃ t, exec .poll s = .next t ∧
      (∀ i, pcmByte t b.other i = pcmByte s b.other i ∧ oldBytes t b.other i = oldBytes s b.other i) ∧
      (∀ i, (s.cfg.pcmBufBytes ≤ i ∨ ∀ e ∈ cells, e.1 ≠ i) →
        pcmByte t b i = pcmByte s b i ∧ oldBytes t b i = oldBytes s b i) ∧
      (∀ i < s.cfg.pcmBufBytes, (∃ e ∈ cells, e.1 = i) → (i, pcmByte t b i) ∈ cells ∧
        ∃ mids : List Byte, (∀ v ∈ mids, (i, v) ∈ cells) ∧ oldBytes t b i = oldBytes s b i ++
          (pcmByte s b i :: mids).map fun v => { pushes := s.pushes, byte := v }) ∧
      t = { s with
        st := s.st.set b .filling, pcm := t.pcm, pcmOld := t.pcmOld
        storage := { s.storage with reads := s.storage.reads.tail }, pollCtx := .free, res := .bool false }

/-- `poll()` whose read does not end in this step (44_host_interface.md R163, R165, 60_exceptions.md R177): its
target is Filling and holds the source's bytes at the indices written so far, and POLL is inside it. Begun or gone
on with; where the target is Filling no `F_PROTOCOL` is marked. The form is the model's (log 16, log 17; log 23 for
the target; after a rejected configuration log 19). A byte replaced is kept for racing reads, once for each time its
index is written (20_memory.md R61; log 9). -/
def Obligations.PollReadGoesOn : Prop :=
  ∀ (s u : State) (r : Reading) (is : List Nat) (reads : List ReadOutcome), s.handler = none →
    (s.pollCtx = .inPoll r ∧ u = s ∨ s.pollCtx = .free ∧ spared s = true ∧ u = { s with st := s.st.set r.target .filling } ∧
      r.written = [] ∧ (firstIn .filling s.st = some r.target ∨
        firstIn .filling s.st = none ∧ firstIn .stale s.st = some r.target)) →
    u.st.get r.target = .filling → s.storage.reads = .pending is :: reads →
    ∃ t, exec .poll s = .next t ∧
      (∀ i, pcmByte t r.target i = if i ∈ is ∧ i < s.cfg.pcmBufBytes then
        sourceByteAt s.storage (s.storage.pos + i) else pcmByte s r.target i) ∧
      (∀ i, oldBytes t r.target i = oldBytes s r.target i ++
        if i ∈ is ∧ i < s.cfg.pcmBufBytes then
          (pcmByte s r.target i :: List.replicate (is.count i - 1) (sourceByteAt s.storage (s.storage.pos + i))).map
            fun v => { pushes := s.pushes, byte := v }
        else []) ∧
      (∀ i, pcmByte t r.target.other i = pcmByte s r.target.other i ∧
        oldBytes t r.target.other i = oldBytes s r.target.other i) ∧
      t = { u with
        pcm := t.pcm, pcmOld := t.pcmOld, storage := { s.storage with reads := reads }
        pollCtx := .inPoll { target := r.target, written := r.written ++ is }, res := .waits }

/-- A `poll` cut in two steps inside its read and finished ends as the `poll` in one step (44_host_interface.md
R163, R165: the bytes come in any order): the same bytes, and otherwise the same state. After a rejected
configuration: log 19. -/
def Obligations.SplitPollIsWholePoll : Prop :=
  ∀ (s : State) (is : List Nat) (reads : List ReadOutcome), pollRuns s = true → spared s = true →
    s.st ≠ { a := .ready, b := .ready } → s.storage.reads = .pending is :: .success :: reads →
    ∃ u t t' : State, exec .poll s = .next u ∧ exec .poll u = .next t ∧
      exec .poll { s with storage := { s.storage with reads := .success :: reads } } = .next t' ∧
      t.res = .bool true ∧ (∀ b i, pcmByte t b i = pcmByte t' b i) ∧ t = { t' with pcm := t.pcm }

/-- `isActive()`, 44_host_interface.md R164: it returns `ACTIVE` and writes nothing. After a rejected configuration:
log 19. -/
def Obligations.IsActive : Prop :=
  ∀ s : State, pollRuns s = true → spared s = true → exec .isActive s = .next { s with res := .bool s.active }

/-! The interrupt. -/

/-- `irq_service(c)`, 60_exceptions.md R178, where it is enabled and the channel is idle: acknowledge, rearm,
push, return; with the queue full it is held in `push` after the rearm (the held handler's form is log 15; the count
of pushed jobs is log 25). After each of its first two actions other agents may step (R177, decision D16): then the
handler stands there, and the next `irq_service(c)` goes on with the next action. Where it is cut is an input (log 36). -/
def Obligations.IrqService : Prop :=
  ∀ (c : Side) (s : State),
    let j : Job := match c with | .A => .encodeA | .B => .encodeB
    let acked : State := { s with irq := s.irq.set c false }
    let rearmed : State → State := fun x => { x with ch := x.ch.set c { x.ch.get c with armed := true } }
    let pushed : State → State := fun x =>
      if x.q.length < x.cfg.queueDepth then
        { x with q := x.q ++ [j], pushes := x.pushes + 1, handler := none, res := .none }
      else { x with handler := some (.held j), res := .waits }
    let cutAt : HandlerAt → State → List Bool → State := fun p x cs =>
      { x with cuts := cs, handler := some p, res := .waits }
    ((s.ch.get c).busy = false → (s.ch.get c).armed = false →
      (s.irq.get c = true → s.intEn = true → s.handler = none →
        ((∀ b ∈ s.cuts.take 2, b = false) →
          exec (.irqService c) s = .next (pushed { rearmed acked with cuts := s.cuts.drop 2 })) ∧
        (∀ cs, s.cuts = true :: cs → exec (.irqService c) s = .next (cutAt (.acknowledged c) acked cs)) ∧
        ∀ cs, s.cuts = false :: true :: cs →
          exec (.irqService c) s = .next (cutAt (.rearmed c) (rearmed acked) cs)) ∧
      (s.handler = some (.acknowledged c) →
        ((∀ b ∈ s.cuts.take 1, b = false) →
          exec (.irqService c) s = .next (pushed { rearmed s with cuts := s.cuts.drop 1 })) ∧
        ∀ cs, s.cuts = true :: cs → exec (.irqService c) s = .next (cutAt (.rearmed c) (rearmed s) cs))) ∧
    (s.handler = some (.rearmed c) → exec (.irqService c) s = .next (pushed s))

/-- `irq_service(c)` of a channel that is busy or armed ends in the refusal of its `rearm` (42_dma_transmitter.md
R136), entered or gone on with (log 36). -/
def Obligations.IrqServiceNotIdle : Prop :=
  ∀ (c : Side) (s : State), ((s.ch.get c).busy = true ∨ (s.ch.get c).armed = true) →
    (s.irq.get c = true → s.intEn = true → s.handler = none → s.cuts.head? ≠ some true →
      exec (.irqService c) s = .refused .rearmInvalid) ∧
    (s.handler = some (.acknowledged c) → exec (.irqService c) s = .refused .rearmInvalid)

/-- While a handler runs, between its actions or held in `push`, POLL does not run, no second handler starts and no
other `push` or `rearm` is issued (60_exceptions.md R177, R179, 70_reset_and_hazards.md R207); while POLL is inside an
operation, it carries out no other one (R180). Only the result says so (log 4, log 15, log 16, log 36). -/
def Obligations.HeldHandlerStopsPrimaryCore : Prop :=
  (∀ (s : State) (h : HandlerAt) (i : Instr), s.handler = some h →
    (i ∈ [.setup, .stop, .poll, .isActive, .acquireFillTarget, .markFilled, .dmaStart, .dmaStop] ∨
      (∃ src, i = .start src) ∨ (∃ c, i = .irqService c ∧ h ≠ .acknowledged c ∧ h ≠ .rearmed c) ∨
      s.setupDone = true ∧ ((∃ k, i = .push k) ∨ ∃ c, i = .rearm c)) →
    exec i s = .next { s with res := .waits }) ∧
  ∀ s : State, s.pollCtx ≠ .free →
    (∀ i ∈ [Instr.setup, .isActive, .acquireFillTarget, .markFilled, .dmaStart],
      exec i s = .next { s with res := .waits }) ∧
    ((∀ r, s.pollCtx ≠ .inPoll r) → exec .poll s = .next { s with res := .waits }) ∧
    (s.pollCtx ≠ .inStop → exec .stop s = .next { s with res := .waits }) ∧
    (s.pollCtx ≠ .inDmaStop → exec .dmaStop s = .next { s with res := .waits }) ∧
    ∀ src, ((∀ r, s.pollCtx ≠ .inStart r) ∨ s.storage.bound ≠ some src) →
      exec (.start src) s = .next { s with res := .waits }

/-- An agent whose step is not enabled waits (42_dma_transmitter.md R131, 43_core_dispatcher.md R152,
60_exceptions.md R178, R179); that only the result changes is the model's form of it (log 4, log 36). -/
def Obligations.DisabledStepsWait : Prop :=
  (∀ (c : Side) (s : State), (s.ch.get c).en = false ∨ (s.ch.get c).busy = false →
    exec (.dmaWord c) s = .next { s with res := .waits }) ∧
  (∀ s : State, s.wk ≠ .idle ∨ s.q = [] → exec .workerPop s = .next { s with res := .waits }) ∧
  ∀ (c : Side) (s : State), s.handler = none ∧ (s.irq.get c = false ∨ s.intEn = false) ∨
      (s.handler ≠ none ∧ s.handler ≠ some (.acknowledged c) ∧ s.handler ≠ some (.rearmed c)) →
    exec (.irqService c) s = .next { s with res := .waits }

/-! The whole machine. -/

/-- Power-on reset, 70_reset_and_hazards.md R200 and the power-on column of 10_state.md R39: every register; the
four buffers hold free values (log 7). That `WK` has a name of its own, `notStarted`, while the worker is "not yet
running" is the model's (log 14). -/
def Obligations.ResetState : Prop :=
  let s := State.reset
  s.ctx = { sfcnt := 0#9, inv := false, sel := .A, cur := 0 } ∧ s.st = { a := .stale, b := .stale } ∧
  (∀ c, s.ch.get c = { en := false, armed := false, busy := false, rptr := 0, irqEn := false }) ∧
  s.irq = { a := false, b := false } ∧ s.intEn = false ∧ s.active = false ∧ s.setupDone = false ∧
  s.q = [] ∧ s.wk = .notStarted ∧ Safety.NoGhostFault s ∧ s.wpend = { a := false, b := false } ∧
  s.line = [] ∧ (∀ b i, pcmByte s b i = Config.pcmPowerOn b i) ∧
  ∀ c j, wireEntry s c j = Config.wirePowerOn c j

/-- The invariants of the block hold after reset (10_state.md R37), and nothing has been consumed or sent. -/
def Obligations.ResetMeetsInvariant : Prop := Safety.Inv State.reset ∧ LineCarries State.reset []

/-- Every step keeps the invariants of the block (10_state.md R29, R37): the canonical memories and their
ranges, the context, the channels, what `setup` establishes, the queue, the buffers and the races. -/
def Obligations.StepKeepsInvariant : Prop :=
  ∀ s t : State, Safety.Inv s → step s = .next t → Safety.Inv t

/-- The ghost-fault flags are sticky (10_state.md R34), and each is set only by the operations that
60_exceptions.md R171 names, inside a job where that runs one, and inside a read that is gone on with
(44_host_interface.md R165). -/
def Obligations.GhostFaultsStickyAndSourced : Prop :=
  ∀ (i : Instr) (s t : State), exec i s = .next t →
    (s.ghost.overrun = true → t.ghost.overrun = true) ∧
    (s.ghost.underrun = true → t.ghost.underrun = true) ∧
    (s.ghost.chainUnarmed = true → t.ghost.chainUnarmed = true) ∧
    (s.ghost.protocol = true → t.ghost.protocol = true) ∧
    (t.ghost.overrun ≠ s.ghost.overrun ∨ t.ghost.chainUnarmed ≠ s.ghost.chainUnarmed → ∃ c, i = .dmaWord c) ∧
    (t.ghost.underrun ≠ s.ghost.underrun → Safety.Consumes i) ∧
    (t.ghost.protocol ≠ s.ghost.protocol → i = .acquireFillTarget ∨ (∃ b k v, i = .fillWrite b k v) ∨
      Safety.Polls i ∧ s.pollCtx ≠ .free)

/-- `LINE` is empty after reset and after a completed `start`, `emit` appends, nothing removes, as 10_state.md R36
derives. -/
def Obligations.LineOnlyGrows : Prop :=
  State.reset.line = [] ∧
  (∀ (i : Instr) (s t : State), exec i s = .next t →
    t.line = s.line ∨ (∃ c w, i = .dmaWord c ∧ t.line = s.line ++ [w]) ∨
    (Safety.IsStart i ∧ t.line = [] ∧ t.active = true)) ∧
  ∀ (i : Instr) (s t : State), exec i s = .next t → Safety.IsStart i → t.res = .none → t.line = []

/-- Who writes `ACTIVE` and `SETUP_DONE` (10_state.md R31): 0 after reset; `ACTIVE` becomes 1 by a start and 0 by
a stop only, `SETUP_DONE` becomes 1 by `setup` only and never 0; a start that does not wait leaves `ACTIVE` 1, and
`isActive` returns it (after a rejected configuration: log 19). -/
def Obligations.ActiveAndSetupDoneWriters : Prop :=
  State.reset.active = false ∧ State.reset.setupDone = false ∧
  (∀ s : State, pollRuns s = true → spared s = true → ∃ t, exec .isActive s = .next t ∧ t.res = .bool s.active) ∧
  ∀ (i : Instr) (s t : State), exec i s = .next t →
    (s.active = false → t.active = true → Safety.IsStart i) ∧
    (s.active = true → t.active = false → Safety.IsStop i) ∧
    (t.setupDone ≠ s.setupDone → i = .setup ∧ t.setupDone = true ∧ t.res = .ok) ∧
    (i = .setup → t.res = .ok → t.setupDone = true) ∧
    (Safety.IsStart i → t.res = .none → t.active = true) ∧
    (Safety.IsStop i → t.res = .none → t.active = false)

/-- The transition table of `ST[b]` (41_buffer_pipeline.md R115), operation by operation: an operation that
moves `ST[b]` is one of these. `poll` and `start` contain the first two rows, `start` and `dma_start` the third
in their priming. That A is the target when both are Filling is log 23. -/
def Obligations.BufferTransitions : Prop :=
  ∀ (i : Instr) (s t : State) (b : Side), exec i s = .next t → t.st.get b ≠ s.st.get b →
    (i = .acquireFillTarget ∧ firstIn .stale s.st = some b ∧ t.st.get b = .filling) ∨
    (i = .markFilled ∧ firstIn .filling s.st = some b ∧ t.st.get b = .ready) ∨
    (i = .poll ∧ (t.st.get b = .filling ∨ t.st.get b = .ready) ∧
      (firstIn .filling s.st = some b ∨ firstIn .filling s.st = none ∧ firstIn .stale s.st = some b)) ∨
    (Safety.Consumes i ∧ b = s.ctx.sel ∧ s.ctx.cur + s.cfg.chunkBytes = s.cfg.pcmBufBytes ∧
      t.st.get b = .stale ∧ (s.st.get b = .ready ∨ t.ghost.underrun = true)) ∨
    (i = .dmaStart ∧ s.st.get b = .ready ∧ t.st.get b = .stale) ∨
    ((∃ src, i = .start src) ∧ (t.st.get b = .filling → s.st.get b = .stale) ∧
      (t.st.get b = .ready → s.st.get b = .stale ∨ s.st.get b = .filling) ∧
      (t.st.get b = .stale → t.active = true)) ∨
    (Safety.IsStop i ∧ t.st.get b = .stale)

/-- Who may write which state (10_state.md R38, R34, and the "written by" column of R29), for every operation on
every state; parameters and the coming requests are written by none (00_scope.md R6; log 1, log 6). The fields of
the model's own are among them (logs 8, 9, 10, 15, 16, 17, 19, 25, 36). -/
def Obligations.OwnershipOfState : Prop :=
  ∀ (i : Instr) (s t : State), exec i s = .next t →
    (t.ctx ≠ s.ctx ∨ t.wire ≠ s.wire → Safety.Encodes i) ∧
    (t.pcm ≠ s.pcm → Safety.Polls i ∨ ∃ b k v, i = .fillWrite b k v) ∧
    (∀ c, (t.ch.get c).en ≠ (s.ch.get c).en → i = .setup ∨ Safety.IsStart i ∨ Safety.IsStop i) ∧
    (∀ c, (t.ch.get c).armed ≠ (s.ch.get c).armed → i = .setup ∨ Safety.IsStart i ∨ Safety.IsStop i ∨
      i = .rearm c ∨ i = .irqService c ∨ i = .dmaWord c.other) ∧
    (∀ c, (t.ch.get c).busy ≠ (s.ch.get c).busy ∨ (t.ch.get c).rptr ≠ (s.ch.get c).rptr →
      i = .setup ∨ Safety.IsStart i ∨ Safety.IsStop i ∨ ∃ d, i = .dmaWord d) ∧
    (∀ c, (t.ch.get c).irqEn ≠ (s.ch.get c).irqEn → i = .setup) ∧
    (t.q ≠ s.q → i = .setup ∨ i = .workerPop ∨ (∃ j, i = .push j) ∨ ∃ c, i = .irqService c) ∧
    (t.wk ≠ s.wk → i = .setup) ∧
    (t.rejected ≠ s.rejected → i = .setup ∧ t.rejected = true ∧ t.res = .configRejected) ∧
    (t.intEn ≠ s.intEn → i = .setup) ∧
    (∀ c, s.wpend.get c = false → t.wpend.get c = true → i = .dmaWord c) ∧
    (∀ c, s.wpend.get c = true → t.wpend.get c = false →
      Safety.IsStart i ∨ Safety.IsStop i ∨ i = .consumeChunk c ∨ i = .workerPop ∧ s.q.head? = some (jobOf c)) ∧
    (t.handler ≠ s.handler ∨ t.pushes ≠ s.pushes →
      i = .workerPop ∨ (∃ j, i = .push j) ∨ ∃ c, i = .irqService c) ∧
    (t.cuts ≠ s.cuts → ∃ c, i = .irqService c) ∧
    (t.pollCtx ≠ s.pollCtx → Safety.Polls i ∨ Safety.IsStop i) ∧
    (t.storage ≠ s.storage → Safety.Polls i ∨ i = .stop) ∧
    (t.pcmOld ≠ s.pcmOld → Safety.Polls i ∨ i = .markFilled ∨ i = .workerPop ∨ ∃ b k v, i = .fillWrite b k v) ∧
    (t.wireOld ≠ s.wireOld ∨ t.draws ≠ s.draws → Safety.Encodes i ∨ Safety.IsStop i ∨ ∃ c, i = .dmaWord c) ∧
    t.cfg = s.cfg ∧ t.trace = s.trace

/-- The interrupt latches (10_state.md R30, 60_exceptions.md R173, R174): `IRQ[c]` is set only by a transfer of
channel `c` with `CH[c].IRQ_EN` = 1 that leaves it idle, and cleared only by its own handler, by `setup`, by a
start and by a stop. -/
def Obligations.InterruptLatchWriters : Prop :=
  ∀ (i : Instr) (s t : State) (c : Side), exec i s = .next t →
    (s.irq.get c = false → t.irq.get c = true →
      i = .dmaWord c ∧ (s.ch.get c).irqEn = true ∧ (s.ch.get c).busy = true ∧ (t.ch.get c).busy = false) ∧
    (s.irq.get c = true → t.irq.get c = false →
      i = .irqService c ∨ i = .setup ∨ Safety.IsStart i ∨ Safety.IsStop i)

/-- What `start` re-initialises, whatever came before it (70_reset_and_hazards.md R202): two states that agree on
the parameters, the PCM bytes and whether a completion may latch reach the same context, line, latches, pending
bits, descriptors and wire buffers. -/
def Obligations.RestartForgetsThePast : Prop :=
  ∀ s s' t t' : State, s.cfg = s'.cfg → configValid s.cfg = true →
    s.pcmOld = { a := [], b := [] } → s'.pcmOld = { a := [], b := [] } →
    (∀ b, ∀ i < s.cfg.pcmBufBytes, pcmByte s b i = pcmByte s' b i) →
    (∀ c, (s.ch.get c).irqEn = (s'.ch.get c).irqEn ∧ (s.ch.get c).busy = false ∧ (s'.ch.get c).busy = false) →
    exec .dmaStart s = .next t → t.res = .none → exec .dmaStart s' = .next t' → t'.res = .none →
    t.ctx = t'.ctx ∧ t.line = [] ∧ t'.line = [] ∧ t.irq = t'.irq ∧ t.wpend = t'.wpend ∧ t.ch = t'.ch ∧
      t.st = t'.st ∧ t.active = t'.active ∧ t.ghost = s.ghost ∧ t'.ghost = s'.ghost ∧
      ∀ c, ∀ j < s.cfg.wireWords, wireEntry t c j = wireEntry t' c j

/-! The stream. -/

/-- A triggered channel sends the entries of its wire buffer in index order, once each, with nothing between
them, and then completes: its latch, its pending bit, and the start of the other channel
(42_dma_transmitter.md R130, R131, R132). -/
def Obligations.WholeBufferSent : Prop :=
  ∀ (c : Side) (s : State) (rest : List Byte), 0 < s.cfg.wireWords →
    (s.ch.get c).en = true → (s.ch.get c).busy = true → (s.ch.get c).rptr = 0 → s.wireOld.get c = [] →
    s.trace = List.replicate s.cfg.wireWords (commandWord 0x0D c.bit) ++ rest →
    ∃ t : State, Sys2Proof.core.run s.cfg.wireWords s = .next t ∧
      t.line = s.line ++ wireEntries s c 0 s.cfg.wireWords ∧ t.trace = rest ∧
      (t.ch.get c).busy = false ∧ t.wpend.get c = true ∧
      ((s.ch.get c).irqEn = true → t.irq.get c = true) ∧
      ((s.ch.get c.other).en = true → (s.ch.get c.other).armed = true →
        t.ch.get c.other = { s.ch.get c.other with armed := false, busy := true, rptr := 0 }) ∧
      t.wire = s.wire ∧ t.ctx = s.ctx ∧ t.st = s.st ∧ t.q = s.q

/-- One half of a chain cycle in steady state (42_dma_transmitter.md R139): channel `c` sends its buffer and hands
over, its completion is served in one step (log 36), the worker encodes the next chunk into the buffer just sent; no
ghost fault, and the roles of the channels are exchanged. -/
def Obligations.ChainHalfCycle : Prop :=
  ∀ (c : Side) (s : State) (rest : List Byte), Safety.Inv s → s.active = true → s.handler = none →
    (∀ x ∈ s.cuts, x = false) → s.q = [] → 1 ≤ s.cfg.queueDepth → s.irq = { a := false, b := false } →
    s.wpend = { a := false, b := false } → s.wireOld.get c = [] →
    (s.ch.get c).busy = true → (s.ch.get c).rptr = 0 →
    (s.ch.get c.other).en = true → (s.ch.get c.other).armed = true →
    s.st.get s.ctx.sel = .ready → s.pcmOld.get s.ctx.sel = [] →
    s.trace = halfCycle s.cfg.wireWords c ++ rest →
    ∃ t : State, Sys2Proof.core.run (s.cfg.wireWords + 2) s = .next t ∧ t.trace = rest ∧
      t.line = s.line ++ wireEntries s c 0 s.cfg.wireWords ∧
      wireEntries t c 0 s.cfg.wireWords =
        (encodeStream s.ctx (pcmBytes s s.ctx.sel s.ctx.cur s.cfg.chunkBytes)).1 ∧
      wireEntries t c.other 0 s.cfg.wireWords = wireEntries s c.other 0 s.cfg.wireWords ∧
      t.ghost = s.ghost ∧ t.wpend = s.wpend ∧ t.irq = s.irq ∧ t.q = [] ∧ t.handler = none ∧ t.cuts = s.cuts.drop 2 ∧
      t.wk = .idle ∧
      (t.ch.get c.other).busy = true ∧ (t.ch.get c.other).rptr = 0 ∧ t.wireOld.get c.other = [] ∧
      (t.ch.get c).en = true ∧ (t.ch.get c).armed = true ∧ (t.ch.get c).busy = false

/-- The stream the rules produce (42_dma_transmitter.md R138) in one schedule, that of the steady state with each
handler in one step (log 36), and for the two fills that are Ready at `dma_start`: there `LINE` after n buffers is the
encoding, sample by sample from `SFCNT` 0 and `INV` 0, of the first n chunks of the PCM stream, fill of A then fill of
B, and no ghost fault is raised. For every schedule: StepKeepsStream. -/
def Obligations.LineIsEncodingOfTheStream : Prop :=
  ∀ (s : State) (n : Nat) (rest : List Byte), Safety.Inv s → s.setupDone = true → s.active = false →
    pollRuns s = true → (∀ x ∈ s.cuts, x = false) → s.q = [] → 1 ≤ s.cfg.queueDepth →
    s.st = { a := .ready, b := .ready } → s.pcmOld = { a := [], b := [] } →
    (n + 2) * s.cfg.chunkBytes ≤ 2 * s.cfg.pcmBufBytes →
    s.trace = encode .dmaStart ++ halfCycles s.cfg.wireWords n .A ++ rest →
    ∃ t : State, Sys2Proof.core.run (1 + n * (s.cfg.wireWords + 2)) s = .next t ∧ t.trace = rest ∧
      t.ghost = s.ghost ∧
      t.line = (encodeStream { sfcnt := 0#9, inv := false, sel := .A, cur := 0 }
        ((pcmBytes s .A 0 s.cfg.pcmBufBytes ++ pcmBytes s .B 0 s.cfg.pcmBufBytes).take
          (n * s.cfg.chunkBytes))).1

/-- A Ready buffer's bytes stay what they were while no `F_PROTOCOL` is marked (70_reset_and_hazards.md R211): they
are the fill that `markFilled` completed until the consumer has left them. -/
def Obligations.ReadyBytesStay : Prop :=
  ∀ (i : Instr) (s t : State) (b : Side), exec i s = .next t → s.st.get b = .ready → t.ghost.protocol = false →
    ∀ j, pcmByte t b j = pcmByte s b j

/-- The stream the rules produce (42_dma_transmitter.md R138), for every schedule of the host and the agents: while no
ghost fault is marked, every step keeps `LINE`, the wire buffers and the bytes consumed in the relation `LineCarries`. A
start begins it with the first two chunks, a job adds the chunk at the cursor of the active buffer, which it finds
Ready, and nothing else moves it; so `LINE` is always the beginning of the encoding of the bytes consumed, in order,
with no word missing, repeated or reordered. -/
def Obligations.StepKeepsStream : Prop :=
  ∀ (s t : State) (bytes : List Byte), Safety.Inv s → LineCarries s bytes →
    (∀ i rest, decode s.trace = .ok (i, rest) → issuedByAgent i = true) →
    step s = .next t → Safety.NoGhostFault t →
    ∃ bytes', LineCarries t bytes' ∧
      (bytes' = bytes ∨
        (s.st.get s.ctx.sel = .ready ∧ bytes' = bytes ++ pcmBytes s s.ctx.sel s.ctx.cur s.cfg.chunkBytes) ∨
        (s.active = false ∧ t.active = true ∧ bytes' =
          (pcmBytes t .A 0 s.cfg.pcmBufBytes ++ pcmBytes t .B 0 s.cfg.pcmBufBytes).take (2 * s.cfg.chunkBytes)))
end

