-- ==== Sys2Proof/Laws/State.lean ====
section
/-! SUPPORT. One lemma per field per update of the state, true by rfl, and the lemmas of `Pair`. -/

namespace Sys2Proof.Machine

@[simp] theorem Pair.get_A {α : Type} (p : Pair α) : p.get .A = p.a := rfl
@[simp] theorem Pair.get_B {α : Type} (p : Pair α) : p.get .B = p.b := rfl
@[simp] theorem Pair.set_A {α : Type} (p : Pair α) (x : α) : p.set .A x = { p with a := x } := rfl
@[simp] theorem Pair.set_B {α : Type} (p : Pair α) (x : α) : p.set .B x = { p with b := x } := rfl
@[simp] theorem Pair.get_set_same {α : Type} (p : Pair α) (c : Side) (x : α) : (p.set c x).get c = x := by
  cases c <;> rfl
@[simp] theorem Pair.get_set_other {α : Type} (p : Pair α) (c : Side) (x : α) :
    (p.set c x).get c.other = p.get c.other := by cases c <;> rfl
theorem Pair.get_set_ne {α : Type} (p : Pair α) {c d : Side} (h : d ≠ c) (x : α) :
    (p.set c x).get d = p.get d := by cases c <;> cases d <;> first | rfl | exact absurd rfl h
theorem Pair.ext_get {α : Type} {p p' : Pair α} (h : ∀ c, p.get c = p'.get c) : p = p' := by
  cases p; cases p'; exact congr (congrArg _ (h .A)) (h .B)
@[simp] theorem Pair.set_get_self {α : Type} (p : Pair α) (c : Side) : p.set c (p.get c) = p := by
  cases c <;> rfl
@[simp] theorem Pair.set_set {α : Type} (p : Pair α) (c : Side) (x y : α) :
    (p.set c x).set c y = p.set c y := by cases c <;> rfl
@[simp] theorem Side.other_other (c : Side) : c.other.other = c := by cases c <;> rfl
@[simp] theorem Side.other_ne (c : Side) : c.other ≠ c := by cases c <;> decide
@[simp] theorem Side.ne_other (c : Side) : c ≠ c.other := by cases c <;> decide
theorem Side.eq_or_eq_other (c d : Side) : d = c ∨ d = c.other := by cases c <;> cases d <;> decide


/-! `setCtx` -/
@[simp] theorem State.cfg_setCtx (s : State) (x : Context) : (s.setCtx x).cfg = s.cfg := rfl
@[simp] theorem State.ctx_setCtx (s : State) (x : Context) : (s.setCtx x).ctx = x := rfl
@[simp] theorem State.st_setCtx (s : State) (x : Context) : (s.setCtx x).st = s.st := rfl
@[simp] theorem State.pcm_setCtx (s : State) (x : Context) : (s.setCtx x).pcm = s.pcm := rfl
@[simp] theorem State.wire_setCtx (s : State) (x : Context) : (s.setCtx x).wire = s.wire := rfl
@[simp] theorem State.ch_setCtx (s : State) (x : Context) : (s.setCtx x).ch = s.ch := rfl
@[simp] theorem State.irq_setCtx (s : State) (x : Context) : (s.setCtx x).irq = s.irq := rfl
@[simp] theorem State.intEn_setCtx (s : State) (x : Context) : (s.setCtx x).intEn = s.intEn := rfl
@[simp] theorem State.active_setCtx (s : State) (x : Context) : (s.setCtx x).active = s.active := rfl
@[simp] theorem State.setupDone_setCtx (s : State) (x : Context) : (s.setCtx x).setupDone = s.setupDone := rfl
@[simp] theorem State.q_setCtx (s : State) (x : Context) : (s.setCtx x).q = s.q := rfl
@[simp] theorem State.wk_setCtx (s : State) (x : Context) : (s.setCtx x).wk = s.wk := rfl
@[simp] theorem State.handler_setCtx (s : State) (x : Context) : (s.setCtx x).handler = s.handler := rfl
@[simp] theorem State.ghost_setCtx (s : State) (x : Context) : (s.setCtx x).ghost = s.ghost := rfl
@[simp] theorem State.wpend_setCtx (s : State) (x : Context) : (s.setCtx x).wpend = s.wpend := rfl
@[simp] theorem State.line_setCtx (s : State) (x : Context) : (s.setCtx x).line = s.line := rfl
@[simp] theorem State.pollCtx_setCtx (s : State) (x : Context) : (s.setCtx x).pollCtx = s.pollCtx := rfl
@[simp] theorem State.storage_setCtx (s : State) (x : Context) : (s.setCtx x).storage = s.storage := rfl
@[simp] theorem State.cuts_setCtx (s : State) (x : Context) : (s.setCtx x).cuts = s.cuts := rfl
@[simp] theorem State.rejected_setCtx (s : State) (x : Context) : (s.setCtx x).rejected = s.rejected := rfl
@[simp] theorem State.trace_setCtx (s : State) (x : Context) : (s.setCtx x).trace = s.trace := rfl
@[simp] theorem State.wireOld_setCtx (s : State) (x : Context) : (s.setCtx x).wireOld = s.wireOld := rfl
@[simp] theorem State.pcmOld_setCtx (s : State) (x : Context) : (s.setCtx x).pcmOld = s.pcmOld := rfl
@[simp] theorem State.pushes_setCtx (s : State) (x : Context) : (s.setCtx x).pushes = s.pushes := rfl
@[simp] theorem State.draws_setCtx (s : State) (x : Context) : (s.setCtx x).draws = s.draws := rfl
@[simp] theorem State.res_setCtx (s : State) (x : Context) : (s.setCtx x).res = s.res := rfl
@[simp] theorem State.setCtx_self (s : State) : s.setCtx s.ctx = s := rfl
@[simp] theorem State.setCtx_setCtx (s : State) (x y : Context) : (s.setCtx x).setCtx y = s.setCtx y := rfl

/-! `setSt` -/
@[simp] theorem State.cfg_setSt (s : State) (x : Pair BufState) : (s.setSt x).cfg = s.cfg := rfl
@[simp] theorem State.ctx_setSt (s : State) (x : Pair BufState) : (s.setSt x).ctx = s.ctx := rfl
@[simp] theorem State.st_setSt (s : State) (x : Pair BufState) : (s.setSt x).st = x := rfl
@[simp] theorem State.pcm_setSt (s : State) (x : Pair BufState) : (s.setSt x).pcm = s.pcm := rfl
@[simp] theorem State.wire_setSt (s : State) (x : Pair BufState) : (s.setSt x).wire = s.wire := rfl
@[simp] theorem State.ch_setSt (s : State) (x : Pair BufState) : (s.setSt x).ch = s.ch := rfl
@[simp] theorem State.irq_setSt (s : State) (x : Pair BufState) : (s.setSt x).irq = s.irq := rfl
@[simp] theorem State.intEn_setSt (s : State) (x : Pair BufState) : (s.setSt x).intEn = s.intEn := rfl
@[simp] theorem State.active_setSt (s : State) (x : Pair BufState) : (s.setSt x).active = s.active := rfl
@[simp] theorem State.setupDone_setSt (s : State) (x : Pair BufState) : (s.setSt x).setupDone = s.setupDone := rfl
@[simp] theorem State.q_setSt (s : State) (x : Pair BufState) : (s.setSt x).q = s.q := rfl
@[simp] theorem State.wk_setSt (s : State) (x : Pair BufState) : (s.setSt x).wk = s.wk := rfl
@[simp] theorem State.handler_setSt (s : State) (x : Pair BufState) : (s.setSt x).handler = s.handler := rfl
@[simp] theorem State.ghost_setSt (s : State) (x : Pair BufState) : (s.setSt x).ghost = s.ghost := rfl
@[simp] theorem State.wpend_setSt (s : State) (x : Pair BufState) : (s.setSt x).wpend = s.wpend := rfl
@[simp] theorem State.line_setSt (s : State) (x : Pair BufState) : (s.setSt x).line = s.line := rfl
@[simp] theorem State.pollCtx_setSt (s : State) (x : Pair BufState) : (s.setSt x).pollCtx = s.pollCtx := rfl
@[simp] theorem State.storage_setSt (s : State) (x : Pair BufState) : (s.setSt x).storage = s.storage := rfl
@[simp] theorem State.cuts_setSt (s : State) (x : Pair BufState) : (s.setSt x).cuts = s.cuts := rfl
@[simp] theorem State.rejected_setSt (s : State) (x : Pair BufState) : (s.setSt x).rejected = s.rejected := rfl
@[simp] theorem State.trace_setSt (s : State) (x : Pair BufState) : (s.setSt x).trace = s.trace := rfl
@[simp] theorem State.wireOld_setSt (s : State) (x : Pair BufState) : (s.setSt x).wireOld = s.wireOld := rfl
@[simp] theorem State.pcmOld_setSt (s : State) (x : Pair BufState) : (s.setSt x).pcmOld = s.pcmOld := rfl
@[simp] theorem State.pushes_setSt (s : State) (x : Pair BufState) : (s.setSt x).pushes = s.pushes := rfl
@[simp] theorem State.draws_setSt (s : State) (x : Pair BufState) : (s.setSt x).draws = s.draws := rfl
@[simp] theorem State.res_setSt (s : State) (x : Pair BufState) : (s.setSt x).res = s.res := rfl
@[simp] theorem State.setSt_self (s : State) : s.setSt s.st = s := rfl
@[simp] theorem State.setSt_setSt (s : State) (x y : Pair BufState) : (s.setSt x).setSt y = s.setSt y := rfl

/-! `setPcm` -/
@[simp] theorem State.cfg_setPcm (s : State) (x : Pair (Memory (BitVec 8))) : (s.setPcm x).cfg = s.cfg := rfl
@[simp] theorem State.ctx_setPcm (s : State) (x : Pair (Memory (BitVec 8))) : (s.setPcm x).ctx = s.ctx := rfl
@[simp] theorem State.st_setPcm (s : State) (x : Pair (Memory (BitVec 8))) : (s.setPcm x).st = s.st := rfl
@[simp] theorem State.pcm_setPcm (s : State) (x : Pair (Memory (BitVec 8))) : (s.setPcm x).pcm = x := rfl
@[simp] theorem State.wire_setPcm (s : State) (x : Pair (Memory (BitVec 8))) : (s.setPcm x).wire = s.wire := rfl
@[simp] theorem State.ch_setPcm (s : State) (x : Pair (Memory (BitVec 8))) : (s.setPcm x).ch = s.ch := rfl
@[simp] theorem State.irq_setPcm (s : State) (x : Pair (Memory (BitVec 8))) : (s.setPcm x).irq = s.irq := rfl
@[simp] theorem State.intEn_setPcm (s : State) (x : Pair (Memory (BitVec 8))) : (s.setPcm x).intEn = s.intEn := rfl
@[simp] theorem State.active_setPcm (s : State) (x : Pair (Memory (BitVec 8))) : (s.setPcm x).active = s.active := rfl
@[simp] theorem State.setupDone_setPcm (s : State) (x : Pair (Memory (BitVec 8))) : (s.setPcm x).setupDone = s.setupDone := rfl
@[simp] theorem State.q_setPcm (s : State) (x : Pair (Memory (BitVec 8))) : (s.setPcm x).q = s.q := rfl
@[simp] theorem State.wk_setPcm (s : State) (x : Pair (Memory (BitVec 8))) : (s.setPcm x).wk = s.wk := rfl
@[simp] theorem State.handler_setPcm (s : State) (x : Pair (Memory (BitVec 8))) : (s.setPcm x).handler = s.handler := rfl
@[simp] theorem State.ghost_setPcm (s : State) (x : Pair (Memory (BitVec 8))) : (s.setPcm x).ghost = s.ghost := rfl
@[simp] theorem State.wpend_setPcm (s : State) (x : Pair (Memory (BitVec 8))) : (s.setPcm x).wpend = s.wpend := rfl
@[simp] theorem State.line_setPcm (s : State) (x : Pair (Memory (BitVec 8))) : (s.setPcm x).line = s.line := rfl
@[simp] theorem State.pollCtx_setPcm (s : State) (x : Pair (Memory (BitVec 8))) : (s.setPcm x).pollCtx = s.pollCtx := rfl
@[simp] theorem State.storage_setPcm (s : State) (x : Pair (Memory (BitVec 8))) : (s.setPcm x).storage = s.storage := rfl
@[simp] theorem State.cuts_setPcm (s : State) (x : Pair (Memory (BitVec 8))) : (s.setPcm x).cuts = s.cuts := rfl
@[simp] theorem State.rejected_setPcm (s : State) (x : Pair (Memory (BitVec 8))) : (s.setPcm x).rejected = s.rejected := rfl
@[simp] theorem State.trace_setPcm (s : State) (x : Pair (Memory (BitVec 8))) : (s.setPcm x).trace = s.trace := rfl
@[simp] theorem State.wireOld_setPcm (s : State) (x : Pair (Memory (BitVec 8))) : (s.setPcm x).wireOld = s.wireOld := rfl
@[simp] theorem State.pcmOld_setPcm (s : State) (x : Pair (Memory (BitVec 8))) : (s.setPcm x).pcmOld = s.pcmOld := rfl
@[simp] theorem State.pushes_setPcm (s : State) (x : Pair (Memory (BitVec 8))) : (s.setPcm x).pushes = s.pushes := rfl
@[simp] theorem State.draws_setPcm (s : State) (x : Pair (Memory (BitVec 8))) : (s.setPcm x).draws = s.draws := rfl
@[simp] theorem State.res_setPcm (s : State) (x : Pair (Memory (BitVec 8))) : (s.setPcm x).res = s.res := rfl
@[simp] theorem State.setPcm_self (s : State) : s.setPcm s.pcm = s := rfl
@[simp] theorem State.setPcm_setPcm (s : State) (x y : Pair (Memory (BitVec 8))) : (s.setPcm x).setPcm y = s.setPcm y := rfl

/-! `setWire` -/
@[simp] theorem State.cfg_setWire (s : State) (x : Pair (Memory (BitVec 16))) : (s.setWire x).cfg = s.cfg := rfl
@[simp] theorem State.ctx_setWire (s : State) (x : Pair (Memory (BitVec 16))) : (s.setWire x).ctx = s.ctx := rfl
@[simp] theorem State.st_setWire (s : State) (x : Pair (Memory (BitVec 16))) : (s.setWire x).st = s.st := rfl
@[simp] theorem State.pcm_setWire (s : State) (x : Pair (Memory (BitVec 16))) : (s.setWire x).pcm = s.pcm := rfl
@[simp] theorem State.wire_setWire (s : State) (x : Pair (Memory (BitVec 16))) : (s.setWire x).wire = x := rfl
@[simp] theorem State.ch_setWire (s : State) (x : Pair (Memory (BitVec 16))) : (s.setWire x).ch = s.ch := rfl
@[simp] theorem State.irq_setWire (s : State) (x : Pair (Memory (BitVec 16))) : (s.setWire x).irq = s.irq := rfl
@[simp] theorem State.intEn_setWire (s : State) (x : Pair (Memory (BitVec 16))) : (s.setWire x).intEn = s.intEn := rfl
@[simp] theorem State.active_setWire (s : State) (x : Pair (Memory (BitVec 16))) : (s.setWire x).active = s.active := rfl
@[simp] theorem State.setupDone_setWire (s : State) (x : Pair (Memory (BitVec 16))) : (s.setWire x).setupDone = s.setupDone := rfl
@[simp] theorem State.q_setWire (s : State) (x : Pair (Memory (BitVec 16))) : (s.setWire x).q = s.q := rfl
@[simp] theorem State.wk_setWire (s : State) (x : Pair (Memory (BitVec 16))) : (s.setWire x).wk = s.wk := rfl
@[simp] theorem State.handler_setWire (s : State) (x : Pair (Memory (BitVec 16))) : (s.setWire x).handler = s.handler := rfl
@[simp] theorem State.ghost_setWire (s : State) (x : Pair (Memory (BitVec 16))) : (s.setWire x).ghost = s.ghost := rfl
@[simp] theorem State.wpend_setWire (s : State) (x : Pair (Memory (BitVec 16))) : (s.setWire x).wpend = s.wpend := rfl
@[simp] theorem State.line_setWire (s : State) (x : Pair (Memory (BitVec 16))) : (s.setWire x).line = s.line := rfl
@[simp] theorem State.pollCtx_setWire (s : State) (x : Pair (Memory (BitVec 16))) : (s.setWire x).pollCtx = s.pollCtx := rfl
@[simp] theorem State.storage_setWire (s : State) (x : Pair (Memory (BitVec 16))) : (s.setWire x).storage = s.storage := rfl
@[simp] theorem State.cuts_setWire (s : State) (x : Pair (Memory (BitVec 16))) : (s.setWire x).cuts = s.cuts := rfl
@[simp] theorem State.rejected_setWire (s : State) (x : Pair (Memory (BitVec 16))) : (s.setWire x).rejected = s.rejected := rfl
@[simp] theorem State.trace_setWire (s : State) (x : Pair (Memory (BitVec 16))) : (s.setWire x).trace = s.trace := rfl
@[simp] theorem State.wireOld_setWire (s : State) (x : Pair (Memory (BitVec 16))) : (s.setWire x).wireOld = s.wireOld := rfl
@[simp] theorem State.pcmOld_setWire (s : State) (x : Pair (Memory (BitVec 16))) : (s.setWire x).pcmOld = s.pcmOld := rfl
@[simp] theorem State.pushes_setWire (s : State) (x : Pair (Memory (BitVec 16))) : (s.setWire x).pushes = s.pushes := rfl
@[simp] theorem State.draws_setWire (s : State) (x : Pair (Memory (BitVec 16))) : (s.setWire x).draws = s.draws := rfl
@[simp] theorem State.res_setWire (s : State) (x : Pair (Memory (BitVec 16))) : (s.setWire x).res = s.res := rfl
@[simp] theorem State.setWire_self (s : State) : s.setWire s.wire = s := rfl
@[simp] theorem State.setWire_setWire (s : State) (x y : Pair (Memory (BitVec 16))) : (s.setWire x).setWire y = s.setWire y := rfl

/-! `setCh` -/
@[simp] theorem State.cfg_setCh (s : State) (x : Pair Chan) : (s.setCh x).cfg = s.cfg := rfl
@[simp] theorem State.ctx_setCh (s : State) (x : Pair Chan) : (s.setCh x).ctx = s.ctx := rfl
@[simp] theorem State.st_setCh (s : State) (x : Pair Chan) : (s.setCh x).st = s.st := rfl
@[simp] theorem State.pcm_setCh (s : State) (x : Pair Chan) : (s.setCh x).pcm = s.pcm := rfl
@[simp] theorem State.wire_setCh (s : State) (x : Pair Chan) : (s.setCh x).wire = s.wire := rfl
@[simp] theorem State.ch_setCh (s : State) (x : Pair Chan) : (s.setCh x).ch = x := rfl
@[simp] theorem State.irq_setCh (s : State) (x : Pair Chan) : (s.setCh x).irq = s.irq := rfl
@[simp] theorem State.intEn_setCh (s : State) (x : Pair Chan) : (s.setCh x).intEn = s.intEn := rfl
@[simp] theorem State.active_setCh (s : State) (x : Pair Chan) : (s.setCh x).active = s.active := rfl
@[simp] theorem State.setupDone_setCh (s : State) (x : Pair Chan) : (s.setCh x).setupDone = s.setupDone := rfl
@[simp] theorem State.q_setCh (s : State) (x : Pair Chan) : (s.setCh x).q = s.q := rfl
@[simp] theorem State.wk_setCh (s : State) (x : Pair Chan) : (s.setCh x).wk = s.wk := rfl
@[simp] theorem State.handler_setCh (s : State) (x : Pair Chan) : (s.setCh x).handler = s.handler := rfl
@[simp] theorem State.ghost_setCh (s : State) (x : Pair Chan) : (s.setCh x).ghost = s.ghost := rfl
@[simp] theorem State.wpend_setCh (s : State) (x : Pair Chan) : (s.setCh x).wpend = s.wpend := rfl
@[simp] theorem State.line_setCh (s : State) (x : Pair Chan) : (s.setCh x).line = s.line := rfl
@[simp] theorem State.pollCtx_setCh (s : State) (x : Pair Chan) : (s.setCh x).pollCtx = s.pollCtx := rfl
@[simp] theorem State.storage_setCh (s : State) (x : Pair Chan) : (s.setCh x).storage = s.storage := rfl
@[simp] theorem State.cuts_setCh (s : State) (x : Pair Chan) : (s.setCh x).cuts = s.cuts := rfl
@[simp] theorem State.rejected_setCh (s : State) (x : Pair Chan) : (s.setCh x).rejected = s.rejected := rfl
@[simp] theorem State.trace_setCh (s : State) (x : Pair Chan) : (s.setCh x).trace = s.trace := rfl
@[simp] theorem State.wireOld_setCh (s : State) (x : Pair Chan) : (s.setCh x).wireOld = s.wireOld := rfl
@[simp] theorem State.pcmOld_setCh (s : State) (x : Pair Chan) : (s.setCh x).pcmOld = s.pcmOld := rfl
@[simp] theorem State.pushes_setCh (s : State) (x : Pair Chan) : (s.setCh x).pushes = s.pushes := rfl
@[simp] theorem State.draws_setCh (s : State) (x : Pair Chan) : (s.setCh x).draws = s.draws := rfl
@[simp] theorem State.res_setCh (s : State) (x : Pair Chan) : (s.setCh x).res = s.res := rfl
@[simp] theorem State.setCh_self (s : State) : s.setCh s.ch = s := rfl
@[simp] theorem State.setCh_setCh (s : State) (x y : Pair Chan) : (s.setCh x).setCh y = s.setCh y := rfl

/-! `setIrq` -/
@[simp] theorem State.cfg_setIrq (s : State) (x : Pair Bool) : (s.setIrq x).cfg = s.cfg := rfl
@[simp] theorem State.ctx_setIrq (s : State) (x : Pair Bool) : (s.setIrq x).ctx = s.ctx := rfl
@[simp] theorem State.st_setIrq (s : State) (x : Pair Bool) : (s.setIrq x).st = s.st := rfl
@[simp] theorem State.pcm_setIrq (s : State) (x : Pair Bool) : (s.setIrq x).pcm = s.pcm := rfl
@[simp] theorem State.wire_setIrq (s : State) (x : Pair Bool) : (s.setIrq x).wire = s.wire := rfl
@[simp] theorem State.ch_setIrq (s : State) (x : Pair Bool) : (s.setIrq x).ch = s.ch := rfl
@[simp] theorem State.irq_setIrq (s : State) (x : Pair Bool) : (s.setIrq x).irq = x := rfl
@[simp] theorem State.intEn_setIrq (s : State) (x : Pair Bool) : (s.setIrq x).intEn = s.intEn := rfl
@[simp] theorem State.active_setIrq (s : State) (x : Pair Bool) : (s.setIrq x).active = s.active := rfl
@[simp] theorem State.setupDone_setIrq (s : State) (x : Pair Bool) : (s.setIrq x).setupDone = s.setupDone := rfl
@[simp] theorem State.q_setIrq (s : State) (x : Pair Bool) : (s.setIrq x).q = s.q := rfl
@[simp] theorem State.wk_setIrq (s : State) (x : Pair Bool) : (s.setIrq x).wk = s.wk := rfl
@[simp] theorem State.handler_setIrq (s : State) (x : Pair Bool) : (s.setIrq x).handler = s.handler := rfl
@[simp] theorem State.ghost_setIrq (s : State) (x : Pair Bool) : (s.setIrq x).ghost = s.ghost := rfl
@[simp] theorem State.wpend_setIrq (s : State) (x : Pair Bool) : (s.setIrq x).wpend = s.wpend := rfl
@[simp] theorem State.line_setIrq (s : State) (x : Pair Bool) : (s.setIrq x).line = s.line := rfl
@[simp] theorem State.pollCtx_setIrq (s : State) (x : Pair Bool) : (s.setIrq x).pollCtx = s.pollCtx := rfl
@[simp] theorem State.storage_setIrq (s : State) (x : Pair Bool) : (s.setIrq x).storage = s.storage := rfl
@[simp] theorem State.cuts_setIrq (s : State) (x : Pair Bool) : (s.setIrq x).cuts = s.cuts := rfl
@[simp] theorem State.rejected_setIrq (s : State) (x : Pair Bool) : (s.setIrq x).rejected = s.rejected := rfl
@[simp] theorem State.trace_setIrq (s : State) (x : Pair Bool) : (s.setIrq x).trace = s.trace := rfl
@[simp] theorem State.wireOld_setIrq (s : State) (x : Pair Bool) : (s.setIrq x).wireOld = s.wireOld := rfl
@[simp] theorem State.pcmOld_setIrq (s : State) (x : Pair Bool) : (s.setIrq x).pcmOld = s.pcmOld := rfl
@[simp] theorem State.pushes_setIrq (s : State) (x : Pair Bool) : (s.setIrq x).pushes = s.pushes := rfl
@[simp] theorem State.draws_setIrq (s : State) (x : Pair Bool) : (s.setIrq x).draws = s.draws := rfl
@[simp] theorem State.res_setIrq (s : State) (x : Pair Bool) : (s.setIrq x).res = s.res := rfl
@[simp] theorem State.setIrq_self (s : State) : s.setIrq s.irq = s := rfl
@[simp] theorem State.setIrq_setIrq (s : State) (x y : Pair Bool) : (s.setIrq x).setIrq y = s.setIrq y := rfl

/-! `setIntEn` -/
@[simp] theorem State.cfg_setIntEn (s : State) (x : Bool) : (s.setIntEn x).cfg = s.cfg := rfl
@[simp] theorem State.ctx_setIntEn (s : State) (x : Bool) : (s.setIntEn x).ctx = s.ctx := rfl
@[simp] theorem State.st_setIntEn (s : State) (x : Bool) : (s.setIntEn x).st = s.st := rfl
@[simp] theorem State.pcm_setIntEn (s : State) (x : Bool) : (s.setIntEn x).pcm = s.pcm := rfl
@[simp] theorem State.wire_setIntEn (s : State) (x : Bool) : (s.setIntEn x).wire = s.wire := rfl
@[simp] theorem State.ch_setIntEn (s : State) (x : Bool) : (s.setIntEn x).ch = s.ch := rfl
@[simp] theorem State.irq_setIntEn (s : State) (x : Bool) : (s.setIntEn x).irq = s.irq := rfl
@[simp] theorem State.intEn_setIntEn (s : State) (x : Bool) : (s.setIntEn x).intEn = x := rfl
@[simp] theorem State.active_setIntEn (s : State) (x : Bool) : (s.setIntEn x).active = s.active := rfl
@[simp] theorem State.setupDone_setIntEn (s : State) (x : Bool) : (s.setIntEn x).setupDone = s.setupDone := rfl
@[simp] theorem State.q_setIntEn (s : State) (x : Bool) : (s.setIntEn x).q = s.q := rfl
@[simp] theorem State.wk_setIntEn (s : State) (x : Bool) : (s.setIntEn x).wk = s.wk := rfl
@[simp] theorem State.handler_setIntEn (s : State) (x : Bool) : (s.setIntEn x).handler = s.handler := rfl
@[simp] theorem State.ghost_setIntEn (s : State) (x : Bool) : (s.setIntEn x).ghost = s.ghost := rfl
@[simp] theorem State.wpend_setIntEn (s : State) (x : Bool) : (s.setIntEn x).wpend = s.wpend := rfl
@[simp] theorem State.line_setIntEn (s : State) (x : Bool) : (s.setIntEn x).line = s.line := rfl
@[simp] theorem State.pollCtx_setIntEn (s : State) (x : Bool) : (s.setIntEn x).pollCtx = s.pollCtx := rfl
@[simp] theorem State.storage_setIntEn (s : State) (x : Bool) : (s.setIntEn x).storage = s.storage := rfl
@[simp] theorem State.cuts_setIntEn (s : State) (x : Bool) : (s.setIntEn x).cuts = s.cuts := rfl
@[simp] theorem State.rejected_setIntEn (s : State) (x : Bool) : (s.setIntEn x).rejected = s.rejected := rfl
@[simp] theorem State.trace_setIntEn (s : State) (x : Bool) : (s.setIntEn x).trace = s.trace := rfl
@[simp] theorem State.wireOld_setIntEn (s : State) (x : Bool) : (s.setIntEn x).wireOld = s.wireOld := rfl
@[simp] theorem State.pcmOld_setIntEn (s : State) (x : Bool) : (s.setIntEn x).pcmOld = s.pcmOld := rfl
@[simp] theorem State.pushes_setIntEn (s : State) (x : Bool) : (s.setIntEn x).pushes = s.pushes := rfl
@[simp] theorem State.draws_setIntEn (s : State) (x : Bool) : (s.setIntEn x).draws = s.draws := rfl
@[simp] theorem State.res_setIntEn (s : State) (x : Bool) : (s.setIntEn x).res = s.res := rfl
@[simp] theorem State.setIntEn_self (s : State) : s.setIntEn s.intEn = s := rfl
@[simp] theorem State.setIntEn_setIntEn (s : State) (x y : Bool) : (s.setIntEn x).setIntEn y = s.setIntEn y := rfl

/-! `setActive` -/
@[simp] theorem State.cfg_setActive (s : State) (x : Bool) : (s.setActive x).cfg = s.cfg := rfl
@[simp] theorem State.ctx_setActive (s : State) (x : Bool) : (s.setActive x).ctx = s.ctx := rfl
@[simp] theorem State.st_setActive (s : State) (x : Bool) : (s.setActive x).st = s.st := rfl
@[simp] theorem State.pcm_setActive (s : State) (x : Bool) : (s.setActive x).pcm = s.pcm := rfl
@[simp] theorem State.wire_setActive (s : State) (x : Bool) : (s.setActive x).wire = s.wire := rfl
@[simp] theorem State.ch_setActive (s : State) (x : Bool) : (s.setActive x).ch = s.ch := rfl
@[simp] theorem State.irq_setActive (s : State) (x : Bool) : (s.setActive x).irq = s.irq := rfl
@[simp] theorem State.intEn_setActive (s : State) (x : Bool) : (s.setActive x).intEn = s.intEn := rfl
@[simp] theorem State.active_setActive (s : State) (x : Bool) : (s.setActive x).active = x := rfl
@[simp] theorem State.setupDone_setActive (s : State) (x : Bool) : (s.setActive x).setupDone = s.setupDone := rfl
@[simp] theorem State.q_setActive (s : State) (x : Bool) : (s.setActive x).q = s.q := rfl
@[simp] theorem State.wk_setActive (s : State) (x : Bool) : (s.setActive x).wk = s.wk := rfl
@[simp] theorem State.handler_setActive (s : State) (x : Bool) : (s.setActive x).handler = s.handler := rfl
@[simp] theorem State.ghost_setActive (s : State) (x : Bool) : (s.setActive x).ghost = s.ghost := rfl
@[simp] theorem State.wpend_setActive (s : State) (x : Bool) : (s.setActive x).wpend = s.wpend := rfl
@[simp] theorem State.line_setActive (s : State) (x : Bool) : (s.setActive x).line = s.line := rfl
@[simp] theorem State.pollCtx_setActive (s : State) (x : Bool) : (s.setActive x).pollCtx = s.pollCtx := rfl
@[simp] theorem State.storage_setActive (s : State) (x : Bool) : (s.setActive x).storage = s.storage := rfl
@[simp] theorem State.cuts_setActive (s : State) (x : Bool) : (s.setActive x).cuts = s.cuts := rfl
@[simp] theorem State.rejected_setActive (s : State) (x : Bool) : (s.setActive x).rejected = s.rejected := rfl
@[simp] theorem State.trace_setActive (s : State) (x : Bool) : (s.setActive x).trace = s.trace := rfl
@[simp] theorem State.wireOld_setActive (s : State) (x : Bool) : (s.setActive x).wireOld = s.wireOld := rfl
@[simp] theorem State.pcmOld_setActive (s : State) (x : Bool) : (s.setActive x).pcmOld = s.pcmOld := rfl
@[simp] theorem State.pushes_setActive (s : State) (x : Bool) : (s.setActive x).pushes = s.pushes := rfl
@[simp] theorem State.draws_setActive (s : State) (x : Bool) : (s.setActive x).draws = s.draws := rfl
@[simp] theorem State.res_setActive (s : State) (x : Bool) : (s.setActive x).res = s.res := rfl
@[simp] theorem State.setActive_self (s : State) : s.setActive s.active = s := rfl
@[simp] theorem State.setActive_setActive (s : State) (x y : Bool) : (s.setActive x).setActive y = s.setActive y := rfl

/-! `setSetupDone` -/
@[simp] theorem State.cfg_setSetupDone (s : State) (x : Bool) : (s.setSetupDone x).cfg = s.cfg := rfl
@[simp] theorem State.ctx_setSetupDone (s : State) (x : Bool) : (s.setSetupDone x).ctx = s.ctx := rfl
@[simp] theorem State.st_setSetupDone (s : State) (x : Bool) : (s.setSetupDone x).st = s.st := rfl
@[simp] theorem State.pcm_setSetupDone (s : State) (x : Bool) : (s.setSetupDone x).pcm = s.pcm := rfl
@[simp] theorem State.wire_setSetupDone (s : State) (x : Bool) : (s.setSetupDone x).wire = s.wire := rfl
@[simp] theorem State.ch_setSetupDone (s : State) (x : Bool) : (s.setSetupDone x).ch = s.ch := rfl
@[simp] theorem State.irq_setSetupDone (s : State) (x : Bool) : (s.setSetupDone x).irq = s.irq := rfl
@[simp] theorem State.intEn_setSetupDone (s : State) (x : Bool) : (s.setSetupDone x).intEn = s.intEn := rfl
@[simp] theorem State.active_setSetupDone (s : State) (x : Bool) : (s.setSetupDone x).active = s.active := rfl
@[simp] theorem State.setupDone_setSetupDone (s : State) (x : Bool) : (s.setSetupDone x).setupDone = x := rfl
@[simp] theorem State.q_setSetupDone (s : State) (x : Bool) : (s.setSetupDone x).q = s.q := rfl
@[simp] theorem State.wk_setSetupDone (s : State) (x : Bool) : (s.setSetupDone x).wk = s.wk := rfl
@[simp] theorem State.handler_setSetupDone (s : State) (x : Bool) : (s.setSetupDone x).handler = s.handler := rfl
@[simp] theorem State.ghost_setSetupDone (s : State) (x : Bool) : (s.setSetupDone x).ghost = s.ghost := rfl
@[simp] theorem State.wpend_setSetupDone (s : State) (x : Bool) : (s.setSetupDone x).wpend = s.wpend := rfl
@[simp] theorem State.line_setSetupDone (s : State) (x : Bool) : (s.setSetupDone x).line = s.line := rfl
@[simp] theorem State.pollCtx_setSetupDone (s : State) (x : Bool) : (s.setSetupDone x).pollCtx = s.pollCtx := rfl
@[simp] theorem State.storage_setSetupDone (s : State) (x : Bool) : (s.setSetupDone x).storage = s.storage := rfl
@[simp] theorem State.cuts_setSetupDone (s : State) (x : Bool) : (s.setSetupDone x).cuts = s.cuts := rfl
@[simp] theorem State.rejected_setSetupDone (s : State) (x : Bool) : (s.setSetupDone x).rejected = s.rejected := rfl
@[simp] theorem State.trace_setSetupDone (s : State) (x : Bool) : (s.setSetupDone x).trace = s.trace := rfl
@[simp] theorem State.wireOld_setSetupDone (s : State) (x : Bool) : (s.setSetupDone x).wireOld = s.wireOld := rfl
@[simp] theorem State.pcmOld_setSetupDone (s : State) (x : Bool) : (s.setSetupDone x).pcmOld = s.pcmOld := rfl
@[simp] theorem State.pushes_setSetupDone (s : State) (x : Bool) : (s.setSetupDone x).pushes = s.pushes := rfl
@[simp] theorem State.draws_setSetupDone (s : State) (x : Bool) : (s.setSetupDone x).draws = s.draws := rfl
@[simp] theorem State.res_setSetupDone (s : State) (x : Bool) : (s.setSetupDone x).res = s.res := rfl
@[simp] theorem State.setSetupDone_self (s : State) : s.setSetupDone s.setupDone = s := rfl
@[simp] theorem State.setSetupDone_setSetupDone (s : State) (x y : Bool) : (s.setSetupDone x).setSetupDone y = s.setSetupDone y := rfl

/-! `setQ` -/
@[simp] theorem State.cfg_setQ (s : State) (x : List Job) : (s.setQ x).cfg = s.cfg := rfl
@[simp] theorem State.ctx_setQ (s : State) (x : List Job) : (s.setQ x).ctx = s.ctx := rfl
@[simp] theorem State.st_setQ (s : State) (x : List Job) : (s.setQ x).st = s.st := rfl
@[simp] theorem State.pcm_setQ (s : State) (x : List Job) : (s.setQ x).pcm = s.pcm := rfl
@[simp] theorem State.wire_setQ (s : State) (x : List Job) : (s.setQ x).wire = s.wire := rfl
@[simp] theorem State.ch_setQ (s : State) (x : List Job) : (s.setQ x).ch = s.ch := rfl
@[simp] theorem State.irq_setQ (s : State) (x : List Job) : (s.setQ x).irq = s.irq := rfl
@[simp] theorem State.intEn_setQ (s : State) (x : List Job) : (s.setQ x).intEn = s.intEn := rfl
@[simp] theorem State.active_setQ (s : State) (x : List Job) : (s.setQ x).active = s.active := rfl
@[simp] theorem State.setupDone_setQ (s : State) (x : List Job) : (s.setQ x).setupDone = s.setupDone := rfl
@[simp] theorem State.q_setQ (s : State) (x : List Job) : (s.setQ x).q = x := rfl
@[simp] theorem State.wk_setQ (s : State) (x : List Job) : (s.setQ x).wk = s.wk := rfl
@[simp] theorem State.handler_setQ (s : State) (x : List Job) : (s.setQ x).handler = s.handler := rfl
@[simp] theorem State.ghost_setQ (s : State) (x : List Job) : (s.setQ x).ghost = s.ghost := rfl
@[simp] theorem State.wpend_setQ (s : State) (x : List Job) : (s.setQ x).wpend = s.wpend := rfl
@[simp] theorem State.line_setQ (s : State) (x : List Job) : (s.setQ x).line = s.line := rfl
@[simp] theorem State.pollCtx_setQ (s : State) (x : List Job) : (s.setQ x).pollCtx = s.pollCtx := rfl
@[simp] theorem State.storage_setQ (s : State) (x : List Job) : (s.setQ x).storage = s.storage := rfl
@[simp] theorem State.cuts_setQ (s : State) (x : List Job) : (s.setQ x).cuts = s.cuts := rfl
@[simp] theorem State.rejected_setQ (s : State) (x : List Job) : (s.setQ x).rejected = s.rejected := rfl
@[simp] theorem State.trace_setQ (s : State) (x : List Job) : (s.setQ x).trace = s.trace := rfl
@[simp] theorem State.wireOld_setQ (s : State) (x : List Job) : (s.setQ x).wireOld = s.wireOld := rfl
@[simp] theorem State.pcmOld_setQ (s : State) (x : List Job) : (s.setQ x).pcmOld = s.pcmOld := rfl
@[simp] theorem State.pushes_setQ (s : State) (x : List Job) : (s.setQ x).pushes = s.pushes := rfl
@[simp] theorem State.draws_setQ (s : State) (x : List Job) : (s.setQ x).draws = s.draws := rfl
@[simp] theorem State.res_setQ (s : State) (x : List Job) : (s.setQ x).res = s.res := rfl
@[simp] theorem State.setQ_self (s : State) : s.setQ s.q = s := rfl
@[simp] theorem State.setQ_setQ (s : State) (x y : List Job) : (s.setQ x).setQ y = s.setQ y := rfl

/-! `setWk` -/
@[simp] theorem State.cfg_setWk (s : State) (x : Worker) : (s.setWk x).cfg = s.cfg := rfl
@[simp] theorem State.ctx_setWk (s : State) (x : Worker) : (s.setWk x).ctx = s.ctx := rfl
@[simp] theorem State.st_setWk (s : State) (x : Worker) : (s.setWk x).st = s.st := rfl
@[simp] theorem State.pcm_setWk (s : State) (x : Worker) : (s.setWk x).pcm = s.pcm := rfl
@[simp] theorem State.wire_setWk (s : State) (x : Worker) : (s.setWk x).wire = s.wire := rfl
@[simp] theorem State.ch_setWk (s : State) (x : Worker) : (s.setWk x).ch = s.ch := rfl
@[simp] theorem State.irq_setWk (s : State) (x : Worker) : (s.setWk x).irq = s.irq := rfl
@[simp] theorem State.intEn_setWk (s : State) (x : Worker) : (s.setWk x).intEn = s.intEn := rfl
@[simp] theorem State.active_setWk (s : State) (x : Worker) : (s.setWk x).active = s.active := rfl
@[simp] theorem State.setupDone_setWk (s : State) (x : Worker) : (s.setWk x).setupDone = s.setupDone := rfl
@[simp] theorem State.q_setWk (s : State) (x : Worker) : (s.setWk x).q = s.q := rfl
@[simp] theorem State.wk_setWk (s : State) (x : Worker) : (s.setWk x).wk = x := rfl
@[simp] theorem State.handler_setWk (s : State) (x : Worker) : (s.setWk x).handler = s.handler := rfl
@[simp] theorem State.ghost_setWk (s : State) (x : Worker) : (s.setWk x).ghost = s.ghost := rfl
@[simp] theorem State.wpend_setWk (s : State) (x : Worker) : (s.setWk x).wpend = s.wpend := rfl
@[simp] theorem State.line_setWk (s : State) (x : Worker) : (s.setWk x).line = s.line := rfl
@[simp] theorem State.pollCtx_setWk (s : State) (x : Worker) : (s.setWk x).pollCtx = s.pollCtx := rfl
@[simp] theorem State.storage_setWk (s : State) (x : Worker) : (s.setWk x).storage = s.storage := rfl
@[simp] theorem State.cuts_setWk (s : State) (x : Worker) : (s.setWk x).cuts = s.cuts := rfl
@[simp] theorem State.rejected_setWk (s : State) (x : Worker) : (s.setWk x).rejected = s.rejected := rfl
@[simp] theorem State.trace_setWk (s : State) (x : Worker) : (s.setWk x).trace = s.trace := rfl
@[simp] theorem State.wireOld_setWk (s : State) (x : Worker) : (s.setWk x).wireOld = s.wireOld := rfl
@[simp] theorem State.pcmOld_setWk (s : State) (x : Worker) : (s.setWk x).pcmOld = s.pcmOld := rfl
@[simp] theorem State.pushes_setWk (s : State) (x : Worker) : (s.setWk x).pushes = s.pushes := rfl
@[simp] theorem State.draws_setWk (s : State) (x : Worker) : (s.setWk x).draws = s.draws := rfl
@[simp] theorem State.res_setWk (s : State) (x : Worker) : (s.setWk x).res = s.res := rfl
@[simp] theorem State.setWk_self (s : State) : s.setWk s.wk = s := rfl
@[simp] theorem State.setWk_setWk (s : State) (x y : Worker) : (s.setWk x).setWk y = s.setWk y := rfl

/-! `setHandler` -/
@[simp] theorem State.cfg_setHandler (s : State) (x : Option HandlerAt) : (s.setHandler x).cfg = s.cfg := rfl
@[simp] theorem State.ctx_setHandler (s : State) (x : Option HandlerAt) : (s.setHandler x).ctx = s.ctx := rfl
@[simp] theorem State.st_setHandler (s : State) (x : Option HandlerAt) : (s.setHandler x).st = s.st := rfl
@[simp] theorem State.pcm_setHandler (s : State) (x : Option HandlerAt) : (s.setHandler x).pcm = s.pcm := rfl
@[simp] theorem State.wire_setHandler (s : State) (x : Option HandlerAt) : (s.setHandler x).wire = s.wire := rfl
@[simp] theorem State.ch_setHandler (s : State) (x : Option HandlerAt) : (s.setHandler x).ch = s.ch := rfl
@[simp] theorem State.irq_setHandler (s : State) (x : Option HandlerAt) : (s.setHandler x).irq = s.irq := rfl
@[simp] theorem State.intEn_setHandler (s : State) (x : Option HandlerAt) : (s.setHandler x).intEn = s.intEn := rfl
@[simp] theorem State.active_setHandler (s : State) (x : Option HandlerAt) : (s.setHandler x).active = s.active := rfl
@[simp] theorem State.setupDone_setHandler (s : State) (x : Option HandlerAt) : (s.setHandler x).setupDone = s.setupDone := rfl
@[simp] theorem State.q_setHandler (s : State) (x : Option HandlerAt) : (s.setHandler x).q = s.q := rfl
@[simp] theorem State.wk_setHandler (s : State) (x : Option HandlerAt) : (s.setHandler x).wk = s.wk := rfl
@[simp] theorem State.handler_setHandler (s : State) (x : Option HandlerAt) : (s.setHandler x).handler = x := rfl
@[simp] theorem State.ghost_setHandler (s : State) (x : Option HandlerAt) : (s.setHandler x).ghost = s.ghost := rfl
@[simp] theorem State.wpend_setHandler (s : State) (x : Option HandlerAt) : (s.setHandler x).wpend = s.wpend := rfl
@[simp] theorem State.line_setHandler (s : State) (x : Option HandlerAt) : (s.setHandler x).line = s.line := rfl
@[simp] theorem State.pollCtx_setHandler (s : State) (x : Option HandlerAt) : (s.setHandler x).pollCtx = s.pollCtx := rfl
@[simp] theorem State.storage_setHandler (s : State) (x : Option HandlerAt) : (s.setHandler x).storage = s.storage := rfl
@[simp] theorem State.cuts_setHandler (s : State) (x : Option HandlerAt) : (s.setHandler x).cuts = s.cuts := rfl
@[simp] theorem State.rejected_setHandler (s : State) (x : Option HandlerAt) : (s.setHandler x).rejected = s.rejected := rfl
@[simp] theorem State.trace_setHandler (s : State) (x : Option HandlerAt) : (s.setHandler x).trace = s.trace := rfl
@[simp] theorem State.wireOld_setHandler (s : State) (x : Option HandlerAt) : (s.setHandler x).wireOld = s.wireOld := rfl
@[simp] theorem State.pcmOld_setHandler (s : State) (x : Option HandlerAt) : (s.setHandler x).pcmOld = s.pcmOld := rfl
@[simp] theorem State.pushes_setHandler (s : State) (x : Option HandlerAt) : (s.setHandler x).pushes = s.pushes := rfl
@[simp] theorem State.draws_setHandler (s : State) (x : Option HandlerAt) : (s.setHandler x).draws = s.draws := rfl
@[simp] theorem State.res_setHandler (s : State) (x : Option HandlerAt) : (s.setHandler x).res = s.res := rfl
@[simp] theorem State.setHandler_self (s : State) : s.setHandler s.handler = s := rfl
@[simp] theorem State.setHandler_setHandler (s : State) (x y : Option HandlerAt) : (s.setHandler x).setHandler y = s.setHandler y := rfl

/-! `setGhost` -/
@[simp] theorem State.cfg_setGhost (s : State) (x : Ghost) : (s.setGhost x).cfg = s.cfg := rfl
@[simp] theorem State.ctx_setGhost (s : State) (x : Ghost) : (s.setGhost x).ctx = s.ctx := rfl
@[simp] theorem State.st_setGhost (s : State) (x : Ghost) : (s.setGhost x).st = s.st := rfl
@[simp] theorem State.pcm_setGhost (s : State) (x : Ghost) : (s.setGhost x).pcm = s.pcm := rfl
@[simp] theorem State.wire_setGhost (s : State) (x : Ghost) : (s.setGhost x).wire = s.wire := rfl
@[simp] theorem State.ch_setGhost (s : State) (x : Ghost) : (s.setGhost x).ch = s.ch := rfl
@[simp] theorem State.irq_setGhost (s : State) (x : Ghost) : (s.setGhost x).irq = s.irq := rfl
@[simp] theorem State.intEn_setGhost (s : State) (x : Ghost) : (s.setGhost x).intEn = s.intEn := rfl
@[simp] theorem State.active_setGhost (s : State) (x : Ghost) : (s.setGhost x).active = s.active := rfl
@[simp] theorem State.setupDone_setGhost (s : State) (x : Ghost) : (s.setGhost x).setupDone = s.setupDone := rfl
@[simp] theorem State.q_setGhost (s : State) (x : Ghost) : (s.setGhost x).q = s.q := rfl
@[simp] theorem State.wk_setGhost (s : State) (x : Ghost) : (s.setGhost x).wk = s.wk := rfl
@[simp] theorem State.handler_setGhost (s : State) (x : Ghost) : (s.setGhost x).handler = s.handler := rfl
@[simp] theorem State.ghost_setGhost (s : State) (x : Ghost) : (s.setGhost x).ghost = x := rfl
@[simp] theorem State.wpend_setGhost (s : State) (x : Ghost) : (s.setGhost x).wpend = s.wpend := rfl
@[simp] theorem State.line_setGhost (s : State) (x : Ghost) : (s.setGhost x).line = s.line := rfl
@[simp] theorem State.pollCtx_setGhost (s : State) (x : Ghost) : (s.setGhost x).pollCtx = s.pollCtx := rfl
@[simp] theorem State.storage_setGhost (s : State) (x : Ghost) : (s.setGhost x).storage = s.storage := rfl
@[simp] theorem State.cuts_setGhost (s : State) (x : Ghost) : (s.setGhost x).cuts = s.cuts := rfl
@[simp] theorem State.rejected_setGhost (s : State) (x : Ghost) : (s.setGhost x).rejected = s.rejected := rfl
@[simp] theorem State.trace_setGhost (s : State) (x : Ghost) : (s.setGhost x).trace = s.trace := rfl
@[simp] theorem State.wireOld_setGhost (s : State) (x : Ghost) : (s.setGhost x).wireOld = s.wireOld := rfl
@[simp] theorem State.pcmOld_setGhost (s : State) (x : Ghost) : (s.setGhost x).pcmOld = s.pcmOld := rfl
@[simp] theorem State.pushes_setGhost (s : State) (x : Ghost) : (s.setGhost x).pushes = s.pushes := rfl
@[simp] theorem State.draws_setGhost (s : State) (x : Ghost) : (s.setGhost x).draws = s.draws := rfl
@[simp] theorem State.res_setGhost (s : State) (x : Ghost) : (s.setGhost x).res = s.res := rfl
@[simp] theorem State.setGhost_self (s : State) : s.setGhost s.ghost = s := rfl
@[simp] theorem State.setGhost_setGhost (s : State) (x y : Ghost) : (s.setGhost x).setGhost y = s.setGhost y := rfl

/-! `setWpend` -/
@[simp] theorem State.cfg_setWpend (s : State) (x : Pair Bool) : (s.setWpend x).cfg = s.cfg := rfl
@[simp] theorem State.ctx_setWpend (s : State) (x : Pair Bool) : (s.setWpend x).ctx = s.ctx := rfl
@[simp] theorem State.st_setWpend (s : State) (x : Pair Bool) : (s.setWpend x).st = s.st := rfl
@[simp] theorem State.pcm_setWpend (s : State) (x : Pair Bool) : (s.setWpend x).pcm = s.pcm := rfl
@[simp] theorem State.wire_setWpend (s : State) (x : Pair Bool) : (s.setWpend x).wire = s.wire := rfl
@[simp] theorem State.ch_setWpend (s : State) (x : Pair Bool) : (s.setWpend x).ch = s.ch := rfl
@[simp] theorem State.irq_setWpend (s : State) (x : Pair Bool) : (s.setWpend x).irq = s.irq := rfl
@[simp] theorem State.intEn_setWpend (s : State) (x : Pair Bool) : (s.setWpend x).intEn = s.intEn := rfl
@[simp] theorem State.active_setWpend (s : State) (x : Pair Bool) : (s.setWpend x).active = s.active := rfl
@[simp] theorem State.setupDone_setWpend (s : State) (x : Pair Bool) : (s.setWpend x).setupDone = s.setupDone := rfl
@[simp] theorem State.q_setWpend (s : State) (x : Pair Bool) : (s.setWpend x).q = s.q := rfl
@[simp] theorem State.wk_setWpend (s : State) (x : Pair Bool) : (s.setWpend x).wk = s.wk := rfl
@[simp] theorem State.handler_setWpend (s : State) (x : Pair Bool) : (s.setWpend x).handler = s.handler := rfl
@[simp] theorem State.ghost_setWpend (s : State) (x : Pair Bool) : (s.setWpend x).ghost = s.ghost := rfl
@[simp] theorem State.wpend_setWpend (s : State) (x : Pair Bool) : (s.setWpend x).wpend = x := rfl
@[simp] theorem State.line_setWpend (s : State) (x : Pair Bool) : (s.setWpend x).line = s.line := rfl
@[simp] theorem State.pollCtx_setWpend (s : State) (x : Pair Bool) : (s.setWpend x).pollCtx = s.pollCtx := rfl
@[simp] theorem State.storage_setWpend (s : State) (x : Pair Bool) : (s.setWpend x).storage = s.storage := rfl
@[simp] theorem State.cuts_setWpend (s : State) (x : Pair Bool) : (s.setWpend x).cuts = s.cuts := rfl
@[simp] theorem State.rejected_setWpend (s : State) (x : Pair Bool) : (s.setWpend x).rejected = s.rejected := rfl
@[simp] theorem State.trace_setWpend (s : State) (x : Pair Bool) : (s.setWpend x).trace = s.trace := rfl
@[simp] theorem State.wireOld_setWpend (s : State) (x : Pair Bool) : (s.setWpend x).wireOld = s.wireOld := rfl
@[simp] theorem State.pcmOld_setWpend (s : State) (x : Pair Bool) : (s.setWpend x).pcmOld = s.pcmOld := rfl
@[simp] theorem State.pushes_setWpend (s : State) (x : Pair Bool) : (s.setWpend x).pushes = s.pushes := rfl
@[simp] theorem State.draws_setWpend (s : State) (x : Pair Bool) : (s.setWpend x).draws = s.draws := rfl
@[simp] theorem State.res_setWpend (s : State) (x : Pair Bool) : (s.setWpend x).res = s.res := rfl
@[simp] theorem State.setWpend_self (s : State) : s.setWpend s.wpend = s := rfl
@[simp] theorem State.setWpend_setWpend (s : State) (x y : Pair Bool) : (s.setWpend x).setWpend y = s.setWpend y := rfl

/-! `setLine` -/
@[simp] theorem State.cfg_setLine (s : State) (x : List (BitVec 16)) : (s.setLine x).cfg = s.cfg := rfl
@[simp] theorem State.ctx_setLine (s : State) (x : List (BitVec 16)) : (s.setLine x).ctx = s.ctx := rfl
@[simp] theorem State.st_setLine (s : State) (x : List (BitVec 16)) : (s.setLine x).st = s.st := rfl
@[simp] theorem State.pcm_setLine (s : State) (x : List (BitVec 16)) : (s.setLine x).pcm = s.pcm := rfl
@[simp] theorem State.wire_setLine (s : State) (x : List (BitVec 16)) : (s.setLine x).wire = s.wire := rfl
@[simp] theorem State.ch_setLine (s : State) (x : List (BitVec 16)) : (s.setLine x).ch = s.ch := rfl
@[simp] theorem State.irq_setLine (s : State) (x : List (BitVec 16)) : (s.setLine x).irq = s.irq := rfl
@[simp] theorem State.intEn_setLine (s : State) (x : List (BitVec 16)) : (s.setLine x).intEn = s.intEn := rfl
@[simp] theorem State.active_setLine (s : State) (x : List (BitVec 16)) : (s.setLine x).active = s.active := rfl
@[simp] theorem State.setupDone_setLine (s : State) (x : List (BitVec 16)) : (s.setLine x).setupDone = s.setupDone := rfl
@[simp] theorem State.q_setLine (s : State) (x : List (BitVec 16)) : (s.setLine x).q = s.q := rfl
@[simp] theorem State.wk_setLine (s : State) (x : List (BitVec 16)) : (s.setLine x).wk = s.wk := rfl
@[simp] theorem State.handler_setLine (s : State) (x : List (BitVec 16)) : (s.setLine x).handler = s.handler := rfl
@[simp] theorem State.ghost_setLine (s : State) (x : List (BitVec 16)) : (s.setLine x).ghost = s.ghost := rfl
@[simp] theorem State.wpend_setLine (s : State) (x : List (BitVec 16)) : (s.setLine x).wpend = s.wpend := rfl
@[simp] theorem State.line_setLine (s : State) (x : List (BitVec 16)) : (s.setLine x).line = x := rfl
@[simp] theorem State.pollCtx_setLine (s : State) (x : List (BitVec 16)) : (s.setLine x).pollCtx = s.pollCtx := rfl
@[simp] theorem State.storage_setLine (s : State) (x : List (BitVec 16)) : (s.setLine x).storage = s.storage := rfl
@[simp] theorem State.cuts_setLine (s : State) (x : List (BitVec 16)) : (s.setLine x).cuts = s.cuts := rfl
@[simp] theorem State.rejected_setLine (s : State) (x : List (BitVec 16)) : (s.setLine x).rejected = s.rejected := rfl
@[simp] theorem State.trace_setLine (s : State) (x : List (BitVec 16)) : (s.setLine x).trace = s.trace := rfl
@[simp] theorem State.wireOld_setLine (s : State) (x : List (BitVec 16)) : (s.setLine x).wireOld = s.wireOld := rfl
@[simp] theorem State.pcmOld_setLine (s : State) (x : List (BitVec 16)) : (s.setLine x).pcmOld = s.pcmOld := rfl
@[simp] theorem State.pushes_setLine (s : State) (x : List (BitVec 16)) : (s.setLine x).pushes = s.pushes := rfl
@[simp] theorem State.draws_setLine (s : State) (x : List (BitVec 16)) : (s.setLine x).draws = s.draws := rfl
@[simp] theorem State.res_setLine (s : State) (x : List (BitVec 16)) : (s.setLine x).res = s.res := rfl
@[simp] theorem State.setLine_self (s : State) : s.setLine s.line = s := rfl
@[simp] theorem State.setLine_setLine (s : State) (x y : List (BitVec 16)) : (s.setLine x).setLine y = s.setLine y := rfl

/-! `setPollCtx` -/
@[simp] theorem State.cfg_setPollCtx (s : State) (x : PollCtx) : (s.setPollCtx x).cfg = s.cfg := rfl
@[simp] theorem State.ctx_setPollCtx (s : State) (x : PollCtx) : (s.setPollCtx x).ctx = s.ctx := rfl
@[simp] theorem State.st_setPollCtx (s : State) (x : PollCtx) : (s.setPollCtx x).st = s.st := rfl
@[simp] theorem State.pcm_setPollCtx (s : State) (x : PollCtx) : (s.setPollCtx x).pcm = s.pcm := rfl
@[simp] theorem State.wire_setPollCtx (s : State) (x : PollCtx) : (s.setPollCtx x).wire = s.wire := rfl
@[simp] theorem State.ch_setPollCtx (s : State) (x : PollCtx) : (s.setPollCtx x).ch = s.ch := rfl
@[simp] theorem State.irq_setPollCtx (s : State) (x : PollCtx) : (s.setPollCtx x).irq = s.irq := rfl
@[simp] theorem State.intEn_setPollCtx (s : State) (x : PollCtx) : (s.setPollCtx x).intEn = s.intEn := rfl
@[simp] theorem State.active_setPollCtx (s : State) (x : PollCtx) : (s.setPollCtx x).active = s.active := rfl
@[simp] theorem State.setupDone_setPollCtx (s : State) (x : PollCtx) : (s.setPollCtx x).setupDone = s.setupDone := rfl
@[simp] theorem State.q_setPollCtx (s : State) (x : PollCtx) : (s.setPollCtx x).q = s.q := rfl
@[simp] theorem State.wk_setPollCtx (s : State) (x : PollCtx) : (s.setPollCtx x).wk = s.wk := rfl
@[simp] theorem State.handler_setPollCtx (s : State) (x : PollCtx) : (s.setPollCtx x).handler = s.handler := rfl
@[simp] theorem State.ghost_setPollCtx (s : State) (x : PollCtx) : (s.setPollCtx x).ghost = s.ghost := rfl
@[simp] theorem State.wpend_setPollCtx (s : State) (x : PollCtx) : (s.setPollCtx x).wpend = s.wpend := rfl
@[simp] theorem State.line_setPollCtx (s : State) (x : PollCtx) : (s.setPollCtx x).line = s.line := rfl
@[simp] theorem State.pollCtx_setPollCtx (s : State) (x : PollCtx) : (s.setPollCtx x).pollCtx = x := rfl
@[simp] theorem State.storage_setPollCtx (s : State) (x : PollCtx) : (s.setPollCtx x).storage = s.storage := rfl
@[simp] theorem State.cuts_setPollCtx (s : State) (x : PollCtx) : (s.setPollCtx x).cuts = s.cuts := rfl
@[simp] theorem State.rejected_setPollCtx (s : State) (x : PollCtx) : (s.setPollCtx x).rejected = s.rejected := rfl
@[simp] theorem State.trace_setPollCtx (s : State) (x : PollCtx) : (s.setPollCtx x).trace = s.trace := rfl
@[simp] theorem State.wireOld_setPollCtx (s : State) (x : PollCtx) : (s.setPollCtx x).wireOld = s.wireOld := rfl
@[simp] theorem State.pcmOld_setPollCtx (s : State) (x : PollCtx) : (s.setPollCtx x).pcmOld = s.pcmOld := rfl
@[simp] theorem State.pushes_setPollCtx (s : State) (x : PollCtx) : (s.setPollCtx x).pushes = s.pushes := rfl
@[simp] theorem State.draws_setPollCtx (s : State) (x : PollCtx) : (s.setPollCtx x).draws = s.draws := rfl
@[simp] theorem State.res_setPollCtx (s : State) (x : PollCtx) : (s.setPollCtx x).res = s.res := rfl
@[simp] theorem State.setPollCtx_self (s : State) : s.setPollCtx s.pollCtx = s := rfl
@[simp] theorem State.setPollCtx_setPollCtx (s : State) (x y : PollCtx) : (s.setPollCtx x).setPollCtx y = s.setPollCtx y := rfl

/-! `setStorage` -/
@[simp] theorem State.cfg_setStorage (s : State) (x : Storage) : (s.setStorage x).cfg = s.cfg := rfl
@[simp] theorem State.ctx_setStorage (s : State) (x : Storage) : (s.setStorage x).ctx = s.ctx := rfl
@[simp] theorem State.st_setStorage (s : State) (x : Storage) : (s.setStorage x).st = s.st := rfl
@[simp] theorem State.pcm_setStorage (s : State) (x : Storage) : (s.setStorage x).pcm = s.pcm := rfl
@[simp] theorem State.wire_setStorage (s : State) (x : Storage) : (s.setStorage x).wire = s.wire := rfl
@[simp] theorem State.ch_setStorage (s : State) (x : Storage) : (s.setStorage x).ch = s.ch := rfl
@[simp] theorem State.irq_setStorage (s : State) (x : Storage) : (s.setStorage x).irq = s.irq := rfl
@[simp] theorem State.intEn_setStorage (s : State) (x : Storage) : (s.setStorage x).intEn = s.intEn := rfl
@[simp] theorem State.active_setStorage (s : State) (x : Storage) : (s.setStorage x).active = s.active := rfl
@[simp] theorem State.setupDone_setStorage (s : State) (x : Storage) : (s.setStorage x).setupDone = s.setupDone := rfl
@[simp] theorem State.q_setStorage (s : State) (x : Storage) : (s.setStorage x).q = s.q := rfl
@[simp] theorem State.wk_setStorage (s : State) (x : Storage) : (s.setStorage x).wk = s.wk := rfl
@[simp] theorem State.handler_setStorage (s : State) (x : Storage) : (s.setStorage x).handler = s.handler := rfl
@[simp] theorem State.ghost_setStorage (s : State) (x : Storage) : (s.setStorage x).ghost = s.ghost := rfl
@[simp] theorem State.wpend_setStorage (s : State) (x : Storage) : (s.setStorage x).wpend = s.wpend := rfl
@[simp] theorem State.line_setStorage (s : State) (x : Storage) : (s.setStorage x).line = s.line := rfl
@[simp] theorem State.pollCtx_setStorage (s : State) (x : Storage) : (s.setStorage x).pollCtx = s.pollCtx := rfl
@[simp] theorem State.storage_setStorage (s : State) (x : Storage) : (s.setStorage x).storage = x := rfl
@[simp] theorem State.cuts_setStorage (s : State) (x : Storage) : (s.setStorage x).cuts = s.cuts := rfl
@[simp] theorem State.rejected_setStorage (s : State) (x : Storage) : (s.setStorage x).rejected = s.rejected := rfl
@[simp] theorem State.trace_setStorage (s : State) (x : Storage) : (s.setStorage x).trace = s.trace := rfl
@[simp] theorem State.wireOld_setStorage (s : State) (x : Storage) : (s.setStorage x).wireOld = s.wireOld := rfl
@[simp] theorem State.pcmOld_setStorage (s : State) (x : Storage) : (s.setStorage x).pcmOld = s.pcmOld := rfl
@[simp] theorem State.pushes_setStorage (s : State) (x : Storage) : (s.setStorage x).pushes = s.pushes := rfl
@[simp] theorem State.draws_setStorage (s : State) (x : Storage) : (s.setStorage x).draws = s.draws := rfl
@[simp] theorem State.res_setStorage (s : State) (x : Storage) : (s.setStorage x).res = s.res := rfl
@[simp] theorem State.setStorage_self (s : State) : s.setStorage s.storage = s := rfl
@[simp] theorem State.setStorage_setStorage (s : State) (x y : Storage) : (s.setStorage x).setStorage y = s.setStorage y := rfl

/-! `setCuts` -/
@[simp] theorem State.cfg_setCuts (s : State) (x : List Bool) : (s.setCuts x).cfg = s.cfg := rfl
@[simp] theorem State.ctx_setCuts (s : State) (x : List Bool) : (s.setCuts x).ctx = s.ctx := rfl
@[simp] theorem State.st_setCuts (s : State) (x : List Bool) : (s.setCuts x).st = s.st := rfl
@[simp] theorem State.pcm_setCuts (s : State) (x : List Bool) : (s.setCuts x).pcm = s.pcm := rfl
@[simp] theorem State.wire_setCuts (s : State) (x : List Bool) : (s.setCuts x).wire = s.wire := rfl
@[simp] theorem State.ch_setCuts (s : State) (x : List Bool) : (s.setCuts x).ch = s.ch := rfl
@[simp] theorem State.irq_setCuts (s : State) (x : List Bool) : (s.setCuts x).irq = s.irq := rfl
@[simp] theorem State.intEn_setCuts (s : State) (x : List Bool) : (s.setCuts x).intEn = s.intEn := rfl
@[simp] theorem State.active_setCuts (s : State) (x : List Bool) : (s.setCuts x).active = s.active := rfl
@[simp] theorem State.setupDone_setCuts (s : State) (x : List Bool) : (s.setCuts x).setupDone = s.setupDone := rfl
@[simp] theorem State.q_setCuts (s : State) (x : List Bool) : (s.setCuts x).q = s.q := rfl
@[simp] theorem State.wk_setCuts (s : State) (x : List Bool) : (s.setCuts x).wk = s.wk := rfl
@[simp] theorem State.handler_setCuts (s : State) (x : List Bool) : (s.setCuts x).handler = s.handler := rfl
@[simp] theorem State.ghost_setCuts (s : State) (x : List Bool) : (s.setCuts x).ghost = s.ghost := rfl
@[simp] theorem State.wpend_setCuts (s : State) (x : List Bool) : (s.setCuts x).wpend = s.wpend := rfl
@[simp] theorem State.line_setCuts (s : State) (x : List Bool) : (s.setCuts x).line = s.line := rfl
@[simp] theorem State.pollCtx_setCuts (s : State) (x : List Bool) : (s.setCuts x).pollCtx = s.pollCtx := rfl
@[simp] theorem State.storage_setCuts (s : State) (x : List Bool) : (s.setCuts x).storage = s.storage := rfl
@[simp] theorem State.cuts_setCuts (s : State) (x : List Bool) : (s.setCuts x).cuts = x := rfl
@[simp] theorem State.rejected_setCuts (s : State) (x : List Bool) : (s.setCuts x).rejected = s.rejected := rfl
@[simp] theorem State.trace_setCuts (s : State) (x : List Bool) : (s.setCuts x).trace = s.trace := rfl
@[simp] theorem State.wireOld_setCuts (s : State) (x : List Bool) : (s.setCuts x).wireOld = s.wireOld := rfl
@[simp] theorem State.pcmOld_setCuts (s : State) (x : List Bool) : (s.setCuts x).pcmOld = s.pcmOld := rfl
@[simp] theorem State.pushes_setCuts (s : State) (x : List Bool) : (s.setCuts x).pushes = s.pushes := rfl
@[simp] theorem State.draws_setCuts (s : State) (x : List Bool) : (s.setCuts x).draws = s.draws := rfl
@[simp] theorem State.res_setCuts (s : State) (x : List Bool) : (s.setCuts x).res = s.res := rfl
@[simp] theorem State.setCuts_self (s : State) : s.setCuts s.cuts = s := rfl
@[simp] theorem State.setCuts_setCuts (s : State) (x y : List Bool) : (s.setCuts x).setCuts y = s.setCuts y := rfl

/-! `setRejected` -/
@[simp] theorem State.cfg_setRejected (s : State) (x : Bool) : (s.setRejected x).cfg = s.cfg := rfl
@[simp] theorem State.ctx_setRejected (s : State) (x : Bool) : (s.setRejected x).ctx = s.ctx := rfl
@[simp] theorem State.st_setRejected (s : State) (x : Bool) : (s.setRejected x).st = s.st := rfl
@[simp] theorem State.pcm_setRejected (s : State) (x : Bool) : (s.setRejected x).pcm = s.pcm := rfl
@[simp] theorem State.wire_setRejected (s : State) (x : Bool) : (s.setRejected x).wire = s.wire := rfl
@[simp] theorem State.ch_setRejected (s : State) (x : Bool) : (s.setRejected x).ch = s.ch := rfl
@[simp] theorem State.irq_setRejected (s : State) (x : Bool) : (s.setRejected x).irq = s.irq := rfl
@[simp] theorem State.intEn_setRejected (s : State) (x : Bool) : (s.setRejected x).intEn = s.intEn := rfl
@[simp] theorem State.active_setRejected (s : State) (x : Bool) : (s.setRejected x).active = s.active := rfl
@[simp] theorem State.setupDone_setRejected (s : State) (x : Bool) : (s.setRejected x).setupDone = s.setupDone := rfl
@[simp] theorem State.q_setRejected (s : State) (x : Bool) : (s.setRejected x).q = s.q := rfl
@[simp] theorem State.wk_setRejected (s : State) (x : Bool) : (s.setRejected x).wk = s.wk := rfl
@[simp] theorem State.handler_setRejected (s : State) (x : Bool) : (s.setRejected x).handler = s.handler := rfl
@[simp] theorem State.ghost_setRejected (s : State) (x : Bool) : (s.setRejected x).ghost = s.ghost := rfl
@[simp] theorem State.wpend_setRejected (s : State) (x : Bool) : (s.setRejected x).wpend = s.wpend := rfl
@[simp] theorem State.line_setRejected (s : State) (x : Bool) : (s.setRejected x).line = s.line := rfl
@[simp] theorem State.pollCtx_setRejected (s : State) (x : Bool) : (s.setRejected x).pollCtx = s.pollCtx := rfl
@[simp] theorem State.storage_setRejected (s : State) (x : Bool) : (s.setRejected x).storage = s.storage := rfl
@[simp] theorem State.cuts_setRejected (s : State) (x : Bool) : (s.setRejected x).cuts = s.cuts := rfl
@[simp] theorem State.rejected_setRejected (s : State) (x : Bool) : (s.setRejected x).rejected = x := rfl
@[simp] theorem State.trace_setRejected (s : State) (x : Bool) : (s.setRejected x).trace = s.trace := rfl
@[simp] theorem State.wireOld_setRejected (s : State) (x : Bool) : (s.setRejected x).wireOld = s.wireOld := rfl
@[simp] theorem State.pcmOld_setRejected (s : State) (x : Bool) : (s.setRejected x).pcmOld = s.pcmOld := rfl
@[simp] theorem State.pushes_setRejected (s : State) (x : Bool) : (s.setRejected x).pushes = s.pushes := rfl
@[simp] theorem State.draws_setRejected (s : State) (x : Bool) : (s.setRejected x).draws = s.draws := rfl
@[simp] theorem State.res_setRejected (s : State) (x : Bool) : (s.setRejected x).res = s.res := rfl
@[simp] theorem State.setRejected_self (s : State) : s.setRejected s.rejected = s := rfl
@[simp] theorem State.setRejected_setRejected (s : State) (x y : Bool) : (s.setRejected x).setRejected y = s.setRejected y := rfl

/-! `setTrace` -/
@[simp] theorem State.cfg_setTrace (s : State) (x : List (BitVec 8)) : (s.setTrace x).cfg = s.cfg := rfl
@[simp] theorem State.ctx_setTrace (s : State) (x : List (BitVec 8)) : (s.setTrace x).ctx = s.ctx := rfl
@[simp] theorem State.st_setTrace (s : State) (x : List (BitVec 8)) : (s.setTrace x).st = s.st := rfl
@[simp] theorem State.pcm_setTrace (s : State) (x : List (BitVec 8)) : (s.setTrace x).pcm = s.pcm := rfl
@[simp] theorem State.wire_setTrace (s : State) (x : List (BitVec 8)) : (s.setTrace x).wire = s.wire := rfl
@[simp] theorem State.ch_setTrace (s : State) (x : List (BitVec 8)) : (s.setTrace x).ch = s.ch := rfl
@[simp] theorem State.irq_setTrace (s : State) (x : List (BitVec 8)) : (s.setTrace x).irq = s.irq := rfl
@[simp] theorem State.intEn_setTrace (s : State) (x : List (BitVec 8)) : (s.setTrace x).intEn = s.intEn := rfl
@[simp] theorem State.active_setTrace (s : State) (x : List (BitVec 8)) : (s.setTrace x).active = s.active := rfl
@[simp] theorem State.setupDone_setTrace (s : State) (x : List (BitVec 8)) : (s.setTrace x).setupDone = s.setupDone := rfl
@[simp] theorem State.q_setTrace (s : State) (x : List (BitVec 8)) : (s.setTrace x).q = s.q := rfl
@[simp] theorem State.wk_setTrace (s : State) (x : List (BitVec 8)) : (s.setTrace x).wk = s.wk := rfl
@[simp] theorem State.handler_setTrace (s : State) (x : List (BitVec 8)) : (s.setTrace x).handler = s.handler := rfl
@[simp] theorem State.ghost_setTrace (s : State) (x : List (BitVec 8)) : (s.setTrace x).ghost = s.ghost := rfl
@[simp] theorem State.wpend_setTrace (s : State) (x : List (BitVec 8)) : (s.setTrace x).wpend = s.wpend := rfl
@[simp] theorem State.line_setTrace (s : State) (x : List (BitVec 8)) : (s.setTrace x).line = s.line := rfl
@[simp] theorem State.pollCtx_setTrace (s : State) (x : List (BitVec 8)) : (s.setTrace x).pollCtx = s.pollCtx := rfl
@[simp] theorem State.storage_setTrace (s : State) (x : List (BitVec 8)) : (s.setTrace x).storage = s.storage := rfl
@[simp] theorem State.cuts_setTrace (s : State) (x : List (BitVec 8)) : (s.setTrace x).cuts = s.cuts := rfl
@[simp] theorem State.rejected_setTrace (s : State) (x : List (BitVec 8)) : (s.setTrace x).rejected = s.rejected := rfl
@[simp] theorem State.trace_setTrace (s : State) (x : List (BitVec 8)) : (s.setTrace x).trace = x := rfl
@[simp] theorem State.wireOld_setTrace (s : State) (x : List (BitVec 8)) : (s.setTrace x).wireOld = s.wireOld := rfl
@[simp] theorem State.pcmOld_setTrace (s : State) (x : List (BitVec 8)) : (s.setTrace x).pcmOld = s.pcmOld := rfl
@[simp] theorem State.pushes_setTrace (s : State) (x : List (BitVec 8)) : (s.setTrace x).pushes = s.pushes := rfl
@[simp] theorem State.draws_setTrace (s : State) (x : List (BitVec 8)) : (s.setTrace x).draws = s.draws := rfl
@[simp] theorem State.res_setTrace (s : State) (x : List (BitVec 8)) : (s.setTrace x).res = s.res := rfl
@[simp] theorem State.setTrace_self (s : State) : s.setTrace s.trace = s := rfl
@[simp] theorem State.setTrace_setTrace (s : State) (x y : List (BitVec 8)) : (s.setTrace x).setTrace y = s.setTrace y := rfl

/-! `setWireOld` -/
@[simp] theorem State.cfg_setWireOld (s : State) (x : Pair (Memory (List (BitVec 16)))) : (s.setWireOld x).cfg = s.cfg := rfl
@[simp] theorem State.ctx_setWireOld (s : State) (x : Pair (Memory (List (BitVec 16)))) : (s.setWireOld x).ctx = s.ctx := rfl
@[simp] theorem State.st_setWireOld (s : State) (x : Pair (Memory (List (BitVec 16)))) : (s.setWireOld x).st = s.st := rfl
@[simp] theorem State.pcm_setWireOld (s : State) (x : Pair (Memory (List (BitVec 16)))) : (s.setWireOld x).pcm = s.pcm := rfl
@[simp] theorem State.wire_setWireOld (s : State) (x : Pair (Memory (List (BitVec 16)))) : (s.setWireOld x).wire = s.wire := rfl
@[simp] theorem State.ch_setWireOld (s : State) (x : Pair (Memory (List (BitVec 16)))) : (s.setWireOld x).ch = s.ch := rfl
@[simp] theorem State.irq_setWireOld (s : State) (x : Pair (Memory (List (BitVec 16)))) : (s.setWireOld x).irq = s.irq := rfl
@[simp] theorem State.intEn_setWireOld (s : State) (x : Pair (Memory (List (BitVec 16)))) : (s.setWireOld x).intEn = s.intEn := rfl
@[simp] theorem State.active_setWireOld (s : State) (x : Pair (Memory (List (BitVec 16)))) : (s.setWireOld x).active = s.active := rfl
@[simp] theorem State.setupDone_setWireOld (s : State) (x : Pair (Memory (List (BitVec 16)))) : (s.setWireOld x).setupDone = s.setupDone := rfl
@[simp] theorem State.q_setWireOld (s : State) (x : Pair (Memory (List (BitVec 16)))) : (s.setWireOld x).q = s.q := rfl
@[simp] theorem State.wk_setWireOld (s : State) (x : Pair (Memory (List (BitVec 16)))) : (s.setWireOld x).wk = s.wk := rfl
@[simp] theorem State.handler_setWireOld (s : State) (x : Pair (Memory (List (BitVec 16)))) : (s.setWireOld x).handler = s.handler := rfl
@[simp] theorem State.ghost_setWireOld (s : State) (x : Pair (Memory (List (BitVec 16)))) : (s.setWireOld x).ghost = s.ghost := rfl
@[simp] theorem State.wpend_setWireOld (s : State) (x : Pair (Memory (List (BitVec 16)))) : (s.setWireOld x).wpend = s.wpend := rfl
@[simp] theorem State.line_setWireOld (s : State) (x : Pair (Memory (List (BitVec 16)))) : (s.setWireOld x).line = s.line := rfl
@[simp] theorem State.pollCtx_setWireOld (s : State) (x : Pair (Memory (List (BitVec 16)))) : (s.setWireOld x).pollCtx = s.pollCtx := rfl
@[simp] theorem State.storage_setWireOld (s : State) (x : Pair (Memory (List (BitVec 16)))) : (s.setWireOld x).storage = s.storage := rfl
@[simp] theorem State.cuts_setWireOld (s : State) (x : Pair (Memory (List (BitVec 16)))) : (s.setWireOld x).cuts = s.cuts := rfl
@[simp] theorem State.rejected_setWireOld (s : State) (x : Pair (Memory (List (BitVec 16)))) : (s.setWireOld x).rejected = s.rejected := rfl
@[simp] theorem State.trace_setWireOld (s : State) (x : Pair (Memory (List (BitVec 16)))) : (s.setWireOld x).trace = s.trace := rfl
@[simp] theorem State.wireOld_setWireOld (s : State) (x : Pair (Memory (List (BitVec 16)))) : (s.setWireOld x).wireOld = x := rfl
@[simp] theorem State.pcmOld_setWireOld (s : State) (x : Pair (Memory (List (BitVec 16)))) : (s.setWireOld x).pcmOld = s.pcmOld := rfl
@[simp] theorem State.pushes_setWireOld (s : State) (x : Pair (Memory (List (BitVec 16)))) : (s.setWireOld x).pushes = s.pushes := rfl
@[simp] theorem State.draws_setWireOld (s : State) (x : Pair (Memory (List (BitVec 16)))) : (s.setWireOld x).draws = s.draws := rfl
@[simp] theorem State.res_setWireOld (s : State) (x : Pair (Memory (List (BitVec 16)))) : (s.setWireOld x).res = s.res := rfl
@[simp] theorem State.setWireOld_self (s : State) : s.setWireOld s.wireOld = s := rfl
@[simp] theorem State.setWireOld_setWireOld (s : State) (x y : Pair (Memory (List (BitVec 16)))) : (s.setWireOld x).setWireOld y = s.setWireOld y := rfl

/-! `setPcmOld` -/
@[simp] theorem State.cfg_setPcmOld (s : State) (x : Pair (Memory (List OldByte))) : (s.setPcmOld x).cfg = s.cfg := rfl
@[simp] theorem State.ctx_setPcmOld (s : State) (x : Pair (Memory (List OldByte))) : (s.setPcmOld x).ctx = s.ctx := rfl
@[simp] theorem State.st_setPcmOld (s : State) (x : Pair (Memory (List OldByte))) : (s.setPcmOld x).st = s.st := rfl
@[simp] theorem State.pcm_setPcmOld (s : State) (x : Pair (Memory (List OldByte))) : (s.setPcmOld x).pcm = s.pcm := rfl
@[simp] theorem State.wire_setPcmOld (s : State) (x : Pair (Memory (List OldByte))) : (s.setPcmOld x).wire = s.wire := rfl
@[simp] theorem State.ch_setPcmOld (s : State) (x : Pair (Memory (List OldByte))) : (s.setPcmOld x).ch = s.ch := rfl
@[simp] theorem State.irq_setPcmOld (s : State) (x : Pair (Memory (List OldByte))) : (s.setPcmOld x).irq = s.irq := rfl
@[simp] theorem State.intEn_setPcmOld (s : State) (x : Pair (Memory (List OldByte))) : (s.setPcmOld x).intEn = s.intEn := rfl
@[simp] theorem State.active_setPcmOld (s : State) (x : Pair (Memory (List OldByte))) : (s.setPcmOld x).active = s.active := rfl
@[simp] theorem State.setupDone_setPcmOld (s : State) (x : Pair (Memory (List OldByte))) : (s.setPcmOld x).setupDone = s.setupDone := rfl
@[simp] theorem State.q_setPcmOld (s : State) (x : Pair (Memory (List OldByte))) : (s.setPcmOld x).q = s.q := rfl
@[simp] theorem State.wk_setPcmOld (s : State) (x : Pair (Memory (List OldByte))) : (s.setPcmOld x).wk = s.wk := rfl
@[simp] theorem State.handler_setPcmOld (s : State) (x : Pair (Memory (List OldByte))) : (s.setPcmOld x).handler = s.handler := rfl
@[simp] theorem State.ghost_setPcmOld (s : State) (x : Pair (Memory (List OldByte))) : (s.setPcmOld x).ghost = s.ghost := rfl
@[simp] theorem State.wpend_setPcmOld (s : State) (x : Pair (Memory (List OldByte))) : (s.setPcmOld x).wpend = s.wpend := rfl
@[simp] theorem State.line_setPcmOld (s : State) (x : Pair (Memory (List OldByte))) : (s.setPcmOld x).line = s.line := rfl
@[simp] theorem State.pollCtx_setPcmOld (s : State) (x : Pair (Memory (List OldByte))) : (s.setPcmOld x).pollCtx = s.pollCtx := rfl
@[simp] theorem State.storage_setPcmOld (s : State) (x : Pair (Memory (List OldByte))) : (s.setPcmOld x).storage = s.storage := rfl
@[simp] theorem State.cuts_setPcmOld (s : State) (x : Pair (Memory (List OldByte))) : (s.setPcmOld x).cuts = s.cuts := rfl
@[simp] theorem State.rejected_setPcmOld (s : State) (x : Pair (Memory (List OldByte))) : (s.setPcmOld x).rejected = s.rejected := rfl
@[simp] theorem State.trace_setPcmOld (s : State) (x : Pair (Memory (List OldByte))) : (s.setPcmOld x).trace = s.trace := rfl
@[simp] theorem State.wireOld_setPcmOld (s : State) (x : Pair (Memory (List OldByte))) : (s.setPcmOld x).wireOld = s.wireOld := rfl
@[simp] theorem State.pcmOld_setPcmOld (s : State) (x : Pair (Memory (List OldByte))) : (s.setPcmOld x).pcmOld = x := rfl
@[simp] theorem State.pushes_setPcmOld (s : State) (x : Pair (Memory (List OldByte))) : (s.setPcmOld x).pushes = s.pushes := rfl
@[simp] theorem State.draws_setPcmOld (s : State) (x : Pair (Memory (List OldByte))) : (s.setPcmOld x).draws = s.draws := rfl
@[simp] theorem State.res_setPcmOld (s : State) (x : Pair (Memory (List OldByte))) : (s.setPcmOld x).res = s.res := rfl
@[simp] theorem State.setPcmOld_self (s : State) : s.setPcmOld s.pcmOld = s := rfl
@[simp] theorem State.setPcmOld_setPcmOld (s : State) (x y : Pair (Memory (List OldByte))) : (s.setPcmOld x).setPcmOld y = s.setPcmOld y := rfl

/-! `setPushes` -/
@[simp] theorem State.cfg_setPushes (s : State) (x : Nat) : (s.setPushes x).cfg = s.cfg := rfl
@[simp] theorem State.ctx_setPushes (s : State) (x : Nat) : (s.setPushes x).ctx = s.ctx := rfl
@[simp] theorem State.st_setPushes (s : State) (x : Nat) : (s.setPushes x).st = s.st := rfl
@[simp] theorem State.pcm_setPushes (s : State) (x : Nat) : (s.setPushes x).pcm = s.pcm := rfl
@[simp] theorem State.wire_setPushes (s : State) (x : Nat) : (s.setPushes x).wire = s.wire := rfl
@[simp] theorem State.ch_setPushes (s : State) (x : Nat) : (s.setPushes x).ch = s.ch := rfl
@[simp] theorem State.irq_setPushes (s : State) (x : Nat) : (s.setPushes x).irq = s.irq := rfl
@[simp] theorem State.intEn_setPushes (s : State) (x : Nat) : (s.setPushes x).intEn = s.intEn := rfl
@[simp] theorem State.active_setPushes (s : State) (x : Nat) : (s.setPushes x).active = s.active := rfl
@[simp] theorem State.setupDone_setPushes (s : State) (x : Nat) : (s.setPushes x).setupDone = s.setupDone := rfl
@[simp] theorem State.q_setPushes (s : State) (x : Nat) : (s.setPushes x).q = s.q := rfl
@[simp] theorem State.wk_setPushes (s : State) (x : Nat) : (s.setPushes x).wk = s.wk := rfl
@[simp] theorem State.handler_setPushes (s : State) (x : Nat) : (s.setPushes x).handler = s.handler := rfl
@[simp] theorem State.ghost_setPushes (s : State) (x : Nat) : (s.setPushes x).ghost = s.ghost := rfl
@[simp] theorem State.wpend_setPushes (s : State) (x : Nat) : (s.setPushes x).wpend = s.wpend := rfl
@[simp] theorem State.line_setPushes (s : State) (x : Nat) : (s.setPushes x).line = s.line := rfl
@[simp] theorem State.pollCtx_setPushes (s : State) (x : Nat) : (s.setPushes x).pollCtx = s.pollCtx := rfl
@[simp] theorem State.storage_setPushes (s : State) (x : Nat) : (s.setPushes x).storage = s.storage := rfl
@[simp] theorem State.cuts_setPushes (s : State) (x : Nat) : (s.setPushes x).cuts = s.cuts := rfl
@[simp] theorem State.rejected_setPushes (s : State) (x : Nat) : (s.setPushes x).rejected = s.rejected := rfl
@[simp] theorem State.trace_setPushes (s : State) (x : Nat) : (s.setPushes x).trace = s.trace := rfl
@[simp] theorem State.wireOld_setPushes (s : State) (x : Nat) : (s.setPushes x).wireOld = s.wireOld := rfl
@[simp] theorem State.pcmOld_setPushes (s : State) (x : Nat) : (s.setPushes x).pcmOld = s.pcmOld := rfl
@[simp] theorem State.pushes_setPushes (s : State) (x : Nat) : (s.setPushes x).pushes = x := rfl
@[simp] theorem State.draws_setPushes (s : State) (x : Nat) : (s.setPushes x).draws = s.draws := rfl
@[simp] theorem State.res_setPushes (s : State) (x : Nat) : (s.setPushes x).res = s.res := rfl
@[simp] theorem State.setPushes_self (s : State) : s.setPushes s.pushes = s := rfl
@[simp] theorem State.setPushes_setPushes (s : State) (x y : Nat) : (s.setPushes x).setPushes y = s.setPushes y := rfl

/-! `setDraws` -/
@[simp] theorem State.cfg_setDraws (s : State) (x : Nat) : (s.setDraws x).cfg = s.cfg := rfl
@[simp] theorem State.ctx_setDraws (s : State) (x : Nat) : (s.setDraws x).ctx = s.ctx := rfl
@[simp] theorem State.st_setDraws (s : State) (x : Nat) : (s.setDraws x).st = s.st := rfl
@[simp] theorem State.pcm_setDraws (s : State) (x : Nat) : (s.setDraws x).pcm = s.pcm := rfl
@[simp] theorem State.wire_setDraws (s : State) (x : Nat) : (s.setDraws x).wire = s.wire := rfl
@[simp] theorem State.ch_setDraws (s : State) (x : Nat) : (s.setDraws x).ch = s.ch := rfl
@[simp] theorem State.irq_setDraws (s : State) (x : Nat) : (s.setDraws x).irq = s.irq := rfl
@[simp] theorem State.intEn_setDraws (s : State) (x : Nat) : (s.setDraws x).intEn = s.intEn := rfl
@[simp] theorem State.active_setDraws (s : State) (x : Nat) : (s.setDraws x).active = s.active := rfl
@[simp] theorem State.setupDone_setDraws (s : State) (x : Nat) : (s.setDraws x).setupDone = s.setupDone := rfl
@[simp] theorem State.q_setDraws (s : State) (x : Nat) : (s.setDraws x).q = s.q := rfl
@[simp] theorem State.wk_setDraws (s : State) (x : Nat) : (s.setDraws x).wk = s.wk := rfl
@[simp] theorem State.handler_setDraws (s : State) (x : Nat) : (s.setDraws x).handler = s.handler := rfl
@[simp] theorem State.ghost_setDraws (s : State) (x : Nat) : (s.setDraws x).ghost = s.ghost := rfl
@[simp] theorem State.wpend_setDraws (s : State) (x : Nat) : (s.setDraws x).wpend = s.wpend := rfl
@[simp] theorem State.line_setDraws (s : State) (x : Nat) : (s.setDraws x).line = s.line := rfl
@[simp] theorem State.pollCtx_setDraws (s : State) (x : Nat) : (s.setDraws x).pollCtx = s.pollCtx := rfl
@[simp] theorem State.storage_setDraws (s : State) (x : Nat) : (s.setDraws x).storage = s.storage := rfl
@[simp] theorem State.cuts_setDraws (s : State) (x : Nat) : (s.setDraws x).cuts = s.cuts := rfl
@[simp] theorem State.rejected_setDraws (s : State) (x : Nat) : (s.setDraws x).rejected = s.rejected := rfl
@[simp] theorem State.trace_setDraws (s : State) (x : Nat) : (s.setDraws x).trace = s.trace := rfl
@[simp] theorem State.wireOld_setDraws (s : State) (x : Nat) : (s.setDraws x).wireOld = s.wireOld := rfl
@[simp] theorem State.pcmOld_setDraws (s : State) (x : Nat) : (s.setDraws x).pcmOld = s.pcmOld := rfl
@[simp] theorem State.pushes_setDraws (s : State) (x : Nat) : (s.setDraws x).pushes = s.pushes := rfl
@[simp] theorem State.draws_setDraws (s : State) (x : Nat) : (s.setDraws x).draws = x := rfl
@[simp] theorem State.res_setDraws (s : State) (x : Nat) : (s.setDraws x).res = s.res := rfl
@[simp] theorem State.setDraws_self (s : State) : s.setDraws s.draws = s := rfl
@[simp] theorem State.setDraws_setDraws (s : State) (x y : Nat) : (s.setDraws x).setDraws y = s.setDraws y := rfl

/-! `setRes` -/
@[simp] theorem State.cfg_setRes (s : State) (x : Result) : (s.setRes x).cfg = s.cfg := rfl
@[simp] theorem State.ctx_setRes (s : State) (x : Result) : (s.setRes x).ctx = s.ctx := rfl
@[simp] theorem State.st_setRes (s : State) (x : Result) : (s.setRes x).st = s.st := rfl
@[simp] theorem State.pcm_setRes (s : State) (x : Result) : (s.setRes x).pcm = s.pcm := rfl
@[simp] theorem State.wire_setRes (s : State) (x : Result) : (s.setRes x).wire = s.wire := rfl
@[simp] theorem State.ch_setRes (s : State) (x : Result) : (s.setRes x).ch = s.ch := rfl
@[simp] theorem State.irq_setRes (s : State) (x : Result) : (s.setRes x).irq = s.irq := rfl
@[simp] theorem State.intEn_setRes (s : State) (x : Result) : (s.setRes x).intEn = s.intEn := rfl
@[simp] theorem State.active_setRes (s : State) (x : Result) : (s.setRes x).active = s.active := rfl
@[simp] theorem State.setupDone_setRes (s : State) (x : Result) : (s.setRes x).setupDone = s.setupDone := rfl
@[simp] theorem State.q_setRes (s : State) (x : Result) : (s.setRes x).q = s.q := rfl
@[simp] theorem State.wk_setRes (s : State) (x : Result) : (s.setRes x).wk = s.wk := rfl
@[simp] theorem State.handler_setRes (s : State) (x : Result) : (s.setRes x).handler = s.handler := rfl
@[simp] theorem State.ghost_setRes (s : State) (x : Result) : (s.setRes x).ghost = s.ghost := rfl
@[simp] theorem State.wpend_setRes (s : State) (x : Result) : (s.setRes x).wpend = s.wpend := rfl
@[simp] theorem State.line_setRes (s : State) (x : Result) : (s.setRes x).line = s.line := rfl
@[simp] theorem State.pollCtx_setRes (s : State) (x : Result) : (s.setRes x).pollCtx = s.pollCtx := rfl
@[simp] theorem State.storage_setRes (s : State) (x : Result) : (s.setRes x).storage = s.storage := rfl
@[simp] theorem State.cuts_setRes (s : State) (x : Result) : (s.setRes x).cuts = s.cuts := rfl
@[simp] theorem State.rejected_setRes (s : State) (x : Result) : (s.setRes x).rejected = s.rejected := rfl
@[simp] theorem State.trace_setRes (s : State) (x : Result) : (s.setRes x).trace = s.trace := rfl
@[simp] theorem State.wireOld_setRes (s : State) (x : Result) : (s.setRes x).wireOld = s.wireOld := rfl
@[simp] theorem State.pcmOld_setRes (s : State) (x : Result) : (s.setRes x).pcmOld = s.pcmOld := rfl
@[simp] theorem State.pushes_setRes (s : State) (x : Result) : (s.setRes x).pushes = s.pushes := rfl
@[simp] theorem State.draws_setRes (s : State) (x : Result) : (s.setRes x).draws = s.draws := rfl
@[simp] theorem State.res_setRes (s : State) (x : Result) : (s.setRes x).res = x := rfl
@[simp] theorem State.setRes_self (s : State) : s.setRes s.res = s := rfl
@[simp] theorem State.setRes_setRes (s : State) (x y : Result) : (s.setRes x).setRes y = s.setRes y := rfl

end Sys2Proof.Machine
end

