-- ==== Sys2Proof/Laws/Memory.lean ====
section
/-! SUPPORT. Read after write, the canonical form, and the range of a memory. -/

namespace Sys2Proof.Machine

variable {α : Type}

@[simp] theorem Memory.read?_nil (i : Nat) : Memory.read? ([] : Memory α) i = none := rfl

theorem Memory.read?_write_same (m : Memory α) (i : Nat) (v : α) :
    Memory.read? (Memory.write m i v) i = some v := by
  induction m with
  | nil => simp [Memory.write, Memory.read?]
  | cons e m ih =>
    obtain ⟨k, x⟩ := e
    by_cases h1 : i < k
    · simp [Memory.write, Memory.read?, h1]
    · by_cases h2 : i = k
      · simp [Memory.write, Memory.read?, h2]
      · simp [Memory.write, Memory.read?, h1, h2, ih]

theorem Memory.read?_write_ne (m : Memory α) {i j : Nat} (v : α) (h : j ≠ i) :
    Memory.read? (Memory.write m i v) j = Memory.read? m j := by
  induction m with
  | nil => simp [Memory.write, Memory.read?, h]
  | cons e m ih =>
    obtain ⟨k, x⟩ := e
    by_cases h1 : i < k
    · simp [Memory.write, Memory.read?, h1, h]
    · by_cases h2 : i = k
      · subst h2; simp [Memory.write, Memory.read?, h]
      · simp [Memory.write, Memory.read?, h1, h2, ih]

/-- Reading after a write: the written value at its index, and elsewhere what was there. -/
theorem Memory.read?_write (m : Memory α) (i j : Nat) (v : α) :
    Memory.read? (Memory.write m i v) j = if j = i then some v else Memory.read? m j := by
  split
  · next h => rw [h, Memory.read?_write_same]
  · next h => exact Memory.read?_write_ne m v h

/-- The indices of a written memory are the old ones and the written one. -/
theorem Memory.mem_write {m : Memory α} {i : Nat} {v : α} {e : Nat × α}
    (h : e ∈ Memory.write m i v) : e = (i, v) ∨ e ∈ m := by
  induction m with
  | nil => simpa [Memory.write] using h
  | cons c m ih =>
    obtain ⟨k, x⟩ := c
    simp only [Memory.write] at h
    split at h
    · simpa using h
    · split at h
      · rcases List.mem_cons.mp h with h | h
        · exact .inl h
        · exact .inr (List.mem_cons_of_mem _ h)
      · rcases List.mem_cons.mp h with h | h
        · exact .inr (h ▸ List.mem_cons_self)
        · exact (ih h).imp id (List.mem_cons_of_mem _)

theorem Memory.wf_cons {k : Nat} {x : α} {m : Memory α} :
    Memory.wf ((k, x) :: m) = true ↔ (∀ e ∈ m, k < e.1) ∧ Memory.wf m = true := by
  simp [Memory.wf, List.all_eq_true]

/-- A write keeps the canonical form. -/
theorem Memory.wf_write {m : Memory α} (i : Nat) (v : α) (h : Memory.wf m = true) :
    Memory.wf (Memory.write m i v) = true := by
  induction m with
  | nil => simp [Memory.write, Memory.wf]
  | cons e m ih =>
    obtain ⟨k, x⟩ := e
    obtain ⟨hk, hm⟩ := Memory.wf_cons.mp h
    simp only [Memory.write]
    split
    · next h1 =>
      refine Memory.wf_cons.mpr ⟨?_, h⟩
      intro e he
      rcases List.mem_cons.mp he with rfl | he
      · exact h1
      · exact Nat.lt_trans h1 (hk e he)
    · split
      · next h2 => subst h2; exact Memory.wf_cons.mpr ⟨hk, hm⟩
      · next h1 h2 =>
        refine Memory.wf_cons.mpr ⟨?_, ih hm⟩
        intro e he
        rcases Memory.mem_write he with rfl | he
        · exact lt_of_le_of_ne (Nat.not_lt.mp h1) (Ne.symm h2)
        · exact hk e he

/-- A write inside a memory's range keeps the range. -/
theorem Memory.below_write {m : Memory α} {n i : Nat} (v : α) (hi : i < n)
    (h : Safety.IndicesBelow m n) : Safety.IndicesBelow (Memory.write m i v) n := by
  intro e he
  rcases Memory.mem_write he with rfl | he
  · exact hi
  · exact h e he

theorem Memory.wf_filter {m : Memory α} (p : Nat × α → Bool) (h : Memory.wf m = true) :
    Memory.wf (m.filter p) = true := by
  induction m with
  | nil => rfl
  | cons e m ih =>
    obtain ⟨k, x⟩ := e
    obtain ⟨hk, hm⟩ := Memory.wf_cons.mp h
    by_cases hp : p (k, x)
    · rw [List.filter_cons_of_pos hp]
      exact Memory.wf_cons.mpr ⟨fun e he => hk e (List.mem_filter.mp he).1, ih hm⟩
    · rw [List.filter_cons_of_neg hp]
      exact ih hm

theorem Memory.wf_append {m n : Memory α} (hm : Memory.wf m = true) (hn : Memory.wf n = true)
    (h : ∀ e ∈ m, ∀ e' ∈ n, e.1 < e'.1) : Memory.wf (m ++ n) = true := by
  induction m with
  | nil => exact hn
  | cons e m ih =>
    obtain ⟨k, x⟩ := e
    obtain ⟨hk, hm⟩ := Memory.wf_cons.mp hm
    refine Memory.wf_cons.mpr ⟨?_, ih hm fun e he => h e (List.mem_cons_of_mem _ he)⟩
    intro e he
    rcases List.mem_append.mp he with he | he
    · exact hk e he
    · exact h _ List.mem_cons_self e he

/-- An index that no entry has is not listed. -/
theorem Memory.read?_none {m : Memory α} {i : Nat} (h : ∀ e ∈ m, i ≠ e.1) : Memory.read? m i = none := by
  induction m with
  | nil => rfl
  | cons e m ih =>
    obtain ⟨k, x⟩ := e
    have hk : i ≠ k := h (k, x) List.mem_cons_self
    simp only [Memory.read?, hk, if_false]
    exact ih fun e he => h e (List.mem_cons_of_mem _ he)

theorem Memory.read?_append (m n : Memory α) (i : Nat) :
    Memory.read? (m ++ n) i = (Memory.read? m i).or (Memory.read? n i) := by
  induction m with
  | nil => rfl
  | cons e m ih =>
    obtain ⟨k, x⟩ := e
    by_cases h : i = k <;> simp [Memory.read?, h, ih]

theorem Memory.read?_filter_pos (m : Memory α) (p : Nat → Bool) {i : Nat} (hi : p i = true) :
    Memory.read? (m.filter fun e => p e.1) i = Memory.read? m i := by
  induction m with
  | nil => rfl
  | cons e m ih =>
    obtain ⟨k, x⟩ := e
    by_cases h : i = k
    · subst h; simp [Memory.read?, hi]
    · by_cases hp : p k <;> simp [Memory.read?, hp, h, ih]

end Sys2Proof.Machine
end

