-- ==== Sys2Proof/Laws/Ops.lean ====
section
/-! SUPPORT. What each shared operation of Machine/Ops.lean can do, said once. -/

namespace Sys2Proof.Machine

@[simp] theorem andThen_next (s : State) (f : State → Out) : andThen (.next s) f = f s := rfl
@[simp] theorem andThen_fault (r : Fault) (f : State → Out) : andThen (.fault r) f = .fault r := rfl
@[simp] theorem andThen_refused (r : Refusal) (f : State → Out) : andThen (.refused r) f = .refused r := rfl

/-- A sequence answers a next state when both of its parts do. -/
theorem andThen_eq_next {o : Out} {f : State → Out} {t : State} :
    andThen o f = .next t ↔ ∃ s, o = .next s ∧ f s = .next t := by
  cases o <;> simp

theorem next_inj {s t : State} : (Host.Outcome.next s : Out) = .next t ↔ s = t :=
  ⟨fun h => Host.Outcome.next.inj h, fun h => h ▸ rfl⟩

/-- A POLL operation that answers a next state ran, or it waited and changed only the result. -/
theorem onPoll_eq_next {s t : State} {k : State → Out} (h : onPoll s k = .next t) :
    (pollRuns s = true ∧ k s = .next t) ∨ (pollRuns s = false ∧ t = s.setRes .waits) := by
  unfold onPoll at h
  split at h
  · next hp => exact .inl ⟨hp, h⟩
  · next hp => exact .inr ⟨by simpa using hp, (next_inj.mp h).symm⟩

theorem onPoll_runs {s : State} {k : State → Out} (h : pollRuns s = true) : onPoll s k = k s := by
  simp [onPoll, h]

theorem pollRuns_iff {s : State} : pollRuns s = true ↔ s.handler = none ∧ s.pollCtx = .free := by
  simp [pollRuns, Option.isNone_iff_eq_none]

/-- An operation of the primary core that answers a next state ran, or a handler runs and it changed only
the result. -/
theorem onPrimary_eq_next {s t : State} {k : State → Out} (h : onPrimary s k = .next t) :
    (s.handler = none ∧ k s = .next t) ∨ (s.handler ≠ none ∧ t = s.setRes .waits) := by
  unfold onPrimary at h
  split at h
  · next hp => exact .inl ⟨by simpa [Option.isNone_iff_eq_none] using hp, h⟩
  · next hp => exact .inr ⟨by simpa [Option.isNone_iff_eq_none] using hp, (next_inj.mp h).symm⟩

theorem onPrimary_runs {s : State} {k : State → Out} (h : s.handler = none) : onPrimary s k = k s := by
  simp [onPrimary, h]

theorem afterSetup_eq_next {s t : State} {k : State → Out} (h : afterSetup s k = .next t) :
    s.setupDone = true ∧ k s = .next t := by
  unfold afterSetup at h
  split at h
  · next hd => exact ⟨hd, h⟩
  · cases h

theorem afterSetup_done {s : State} {k : State → Out} (h : s.setupDone = true) : afterSetup s k = k s := by
  simp [afterSetup, h]

theorem afterSetup_before {s : State} {k : State → Out} (h : s.setupDone = false) :
    afterSetup s k = .refused .startInvalid := by simp [afterSetup, h]

theorem unlessRejected_eq_next {s t : State} {k : State → Out} (h : unlessRejected s k = .next t) :
    spared s = true ∧ k s = .next t := by
  unfold unlessRejected at h
  split at h
  · next hd => exact ⟨hd, h⟩
  · cases h

theorem unlessRejected_spared {s : State} {k : State → Out} (h : spared s = true) : unlessRejected s k = k s := by
  simp [unlessRejected, h]

theorem unlessRejected_refused {s : State} {k : State → Out} (h : spared s = false) :
    unlessRejected s k = .refused .startInvalid := by simp [unlessRejected, h]

theorem spared_iff {s : State} : spared s = true ↔ s.setupDone = true ∨ s.rejected = false := by
  simp [spared]

theorem encoderFree_eq_next {s t : State} {k : State → Out} (h : encoderFree s k = .next t) :
    jobRunning s = false ∧ k s = .next t := by
  unfold encoderFree at h
  split at h
  · cases h
  · next hj => exact ⟨by simpa using hj, h⟩

theorem encoderFree_free {s : State} {k : State → Out} (h : jobRunning s = false) :
    encoderFree s k = k s := by simp [encoderFree, h]

/-! Memory. -/

/-- A draw answers the new value or one of the old ones, and changes nothing but the count of draws, which it
advances only where there is an old value. -/
theorem drawOf_cases {α : Type} (olds : List α) (new : α) (s : State) :
    ((drawOf olds new s).1 = new ∨ (drawOf olds new s).1 ∈ olds) ∧
    ∃ n, (drawOf olds new s).2 = s.setDraws n ∧ (olds = [] → n = s.draws) := by
  cases olds with
  | nil => exact ⟨.inl rfl, s.draws, rfl, fun _ => rfl⟩
  | cons x xs =>
    refine ⟨?_, s.draws + 1, rfl, fun h => by cases h⟩
    simp only [drawOf]
    cases h : (x :: xs)[Config.raceChoice s.draws % ((x :: xs).length + 1)]? with
    | none => exact .inl rfl
    | some y => exact .inr (List.mem_of_getElem? h)

/-- A racing or plain read of a PCM byte changes nothing but the count of drawn values. -/
theorem readPcm_state (b : Side) (i : Nat) (s : State) :
    ∃ n, (readPcm b i s).2 = s.setDraws n :=
  (drawOf_cases _ _ s).2.imp fun _ h => h.1

/-- A read of a PCM byte answers the byte held, or an old one where a write is not published; only the draws
counter moves, and only in the second case. -/
theorem readPcm_reads (b : Side) (i : Nat) (s : State) :
    ((readPcm b i s).1 = pcmByte s b i ∨ ∃ old ∈ oldBytes s b i, (readPcm b i s).1 = old.byte) ∧
    ∃ n, (readPcm b i s).2 = s.setDraws n ∧ (s.pcmOld.get b = [] → n = s.draws) := by
  obtain ⟨h1, n, h2, h3⟩ := drawOf_cases ((oldBytes s b i).map OldByte.byte) (pcmByte s b i) s
  refine ⟨h1.imp id fun h => ?_, n, h2, fun h => h3 (by simp [oldBytes, h])⟩
  obtain ⟨o, ho, e⟩ := List.mem_map.mp h
  exact ⟨o, ho, e.symm⟩

/-- Where every write is published, a read gives the byte that the buffer holds, and changes nothing. -/
theorem readPcm_published {b : Side} {i : Nat} {s : State} (h : s.pcmOld.get b = []) :
    readPcm b i s = (pcmByte s b i, s) := by
  simp [readPcm, oldBytes, h, drawOf]

/-- Where no entry races, a transfer reads the entry that the buffer holds, and changes nothing. -/
theorem readWire_settled {c : Side} {j : Nat} {s : State} (h : s.wireOld.get c = []) :
    readWire c j s = (wireEntry s c j, s) := by
  simp [readWire, oldEntries, h, drawOf]

/-- A racing or plain read of a wire entry changes nothing but the count of drawn values. -/
theorem readWire_state (c : Side) (j : Nat) (s : State) :
    ∃ n, (readWire c j s).2 = s.setDraws n :=
  (drawOf_cases _ _ s).2.imp fun _ h => h.1

/-- A transfer reads the entry held, or one that a write of this transmission replaced. -/
theorem readWire_reads (c : Side) (j : Nat) (s : State) :
    ((readWire c j s).1 = wireEntry s c j ∨ (readWire c j s).1 ∈ oldEntries s c j) ∧
    ∃ n, (readWire c j s).2 = s.setDraws n ∧ (oldEntries s c j = [] → n = s.draws) :=
  drawOf_cases _ _ s

/-- A store of one PCM byte changes that byte and the kept old bytes of its buffer. -/
theorem writePcm_eq (b : Side) (i : Nat) (v : Byte) (s : State) :
    writePcm b i v s =
      (s.setPcmOld (s.pcmOld.set b (Memory.write (s.pcmOld.get b) i
        (oldBytes s b i ++ [{ pushes := s.pushes, byte := pcmByte s b i }])))).setPcm
        (s.pcm.set b (Memory.write (s.pcm.get b) i v)) := rfl

/-- Reading a PCM byte after a store of one. -/
theorem pcmByte_writePcm (s : State) (b b' : Side) (i i' : Nat) (v : Byte) :
    pcmByte (writePcm b i v s) b' i' = if b' = b ∧ i' = i then v else pcmByte s b' i' := by
  rw [writePcm_eq]
  by_cases hb : b' = b
  · subst hb
    by_cases hi : i' = i <;> simp [pcmByte, Memory.read?_write, hi]
  · simp [pcmByte, Pair.get_set_ne _ hb, hb]

/-- The kept bytes after a store of one: the replaced byte joins those of its index. -/
theorem oldBytes_writePcm (s : State) (b b' : Side) (i i' : Nat) (v : Byte) :
    oldBytes (writePcm b i v s) b' i' =
      if b' = b ∧ i' = i then oldBytes s b i ++ [{ pushes := s.pushes, byte := pcmByte s b i }]
      else oldBytes s b' i' := by
  rw [writePcm_eq]
  by_cases hb : b' = b
  · subst hb
    by_cases hi : i' = i <;> simp [oldBytes, Memory.read?_write, hi]
  · simp [oldBytes, Pair.get_set_ne _ hb, hb]

/-- A store of one wire entry changes that entry, and the kept old entries of its buffer only while the
channel transmits. -/
theorem writeWire_eq (c : Side) (j : Nat) (w : WireWord) (s : State) :
    ∃ O, writeWire c j w s =
      (s.setWireOld (s.wireOld.set c O)).setWire (s.wire.set c (Memory.write (s.wire.get c) j w)) ∧
      O = if (s.ch.get c).busy then Memory.write (s.wireOld.get c) j (oldEntries s c j ++ [wireEntry s c j])
        else s.wireOld.get c := by
  unfold writeWire keepOldWire
  split
  · exact ⟨_, rfl, rfl⟩
  · exact ⟨s.wireOld.get c, by simp, rfl⟩

/-- Reading a wire entry after a store of one. -/
theorem wireEntry_writeWire (s : State) (c c' : Side) (j j' : Nat) (w : WireWord) :
    wireEntry (writeWire c j w s) c' j' = if c' = c ∧ j' = j then w else wireEntry s c' j' := by
  obtain ⟨O, h, -⟩ := writeWire_eq c j w s
  rw [h]
  by_cases hc : c' = c
  · subst hc
    by_cases hj : j' = j <;> simp [wireEntry, Memory.read?_write, hj]
  · simp [wireEntry, Pair.get_set_ne _ hc, hc]

/-- The kept entries after a store of one: while the channel transmits the replaced entry joins those of its
index. -/
theorem oldEntries_writeWire (s : State) (c c' : Side) (j j' : Nat) (w : WireWord) :
    oldEntries (writeWire c j w s) c' j' =
      if c' = c ∧ j' = j ∧ (s.ch.get c).busy = true then oldEntries s c j ++ [wireEntry s c j]
      else oldEntries s c' j' := by
  obtain ⟨O, h, hO⟩ := writeWire_eq c j w s
  rw [h, hO]
  by_cases hc : c' = c
  · subst hc
    by_cases hb : (s.ch.get c').busy = true
    · by_cases hj : j' = j <;> simp [oldEntries, Memory.read?_write, hj, hb]
    · simp [hb, oldEntries]
  · simp [oldEntries, Pair.get_set_ne _ hc, hc]

/-- In a memory with rising indices, the settled old bytes at an index are those marked high enough. -/
theorem read?_settleBefore {n i : Nat} {m : Memory (List OldByte)} (h : Memory.wf m = true) :
    (Memory.read? (settleBefore n m) i).getD [] =
      ((Memory.read? m i).getD []).filter fun o => decide (n ≤ o.pushes) := by
  induction m with
  | nil => rfl
  | cons e m ih =>
    obtain ⟨k, l⟩ := e
    obtain ⟨hk, hm⟩ := Memory.wf_cons.mp h
    have ih := ih hm
    have e : settleBefore n ((k, l) :: m) =
        if (l.filter fun o => decide (n ≤ o.pushes)).isEmpty then settleBefore n m
        else (k, l.filter fun o => decide (n ≤ o.pushes)) :: settleBefore n m := by
      unfold settleBefore
      by_cases hl : (l.filter fun o => decide (n ≤ o.pushes)).isEmpty = true
      · rw [if_pos hl, List.map_cons, List.filter_cons_of_neg (by simp [hl])]
      · rw [if_neg hl, List.map_cons, List.filter_cons_of_pos (by simp [hl])]
    by_cases hi : i = k
    · subst hi
      have hnone : Memory.read? m i = none := Memory.read?_none fun e he => Nat.ne_of_lt (hk e he)
      rw [hnone] at ih
      by_cases hl : (l.filter fun o => decide (n ≤ o.pushes)).isEmpty = true
      · rw [e, if_pos hl, ih]; simp [Memory.read?, List.isEmpty_iff.mp hl]
      · rw [e, if_neg hl]; simp [Memory.read?]
    · by_cases hl : (l.filter fun o => decide (n ≤ o.pushes)).isEmpty = true
      · rw [e, if_pos hl, ih]; simp [Memory.read?, hi]
      · rw [e, if_neg hl]; simp only [Memory.read?, hi, if_false]; exact ih

/-- What the barrier of the worker's pop leaves of the kept bytes: those replaced after job `n` was pushed
(20_memory.md R58). -/
theorem oldBytes_popBarrier {n : Nat} {s : State} (b : Side) (i : Nat)
    (h : Memory.wf (s.pcmOld.get b) = true) :
    oldBytes (popBarrier n s) b i = (oldBytes s b i).filter fun o => decide (n ≤ o.pushes) := by
  cases b <;> exact read?_settleBefore h

/-- A settled memory of old bytes is canonical, and holds no more than before. -/
theorem settleBefore_wf {n : Nat} {m : Memory (List OldByte)} (h : Memory.wf m = true) :
    Safety.OldValuesCanonical (settleBefore n m) := by
  refine ⟨Memory.wf_filter _ ?_, fun e he => ?_⟩
  · induction m with
    | nil => rfl
    | cons e m ih =>
      obtain ⟨hk, hm⟩ := Memory.wf_cons.mp h
      refine Memory.wf_cons.mpr ⟨fun e' he' => ?_, ih hm⟩
      obtain ⟨x, hx, rfl⟩ := List.mem_map.mp he'
      exact hk x hx
  · have := (List.mem_filter.mp he).2
    intro h0; simp [h0] at this

theorem mem_settleBefore {n : Nat} {m : Memory (List OldByte)} {e : Nat × List OldByte}
    (h : e ∈ settleBefore n m) : ∃ x ∈ m, x.1 = e.1 ∧ ∀ o ∈ e.2, o ∈ x.2 := by
  obtain ⟨h1, -⟩ := List.mem_filter.mp h
  obtain ⟨x, hx, rfl⟩ := List.mem_map.mp h1
  exact ⟨x, hx, rfl, fun o ho => (List.mem_filter.mp ho).1⟩

/-! The interrupt and the queue. -/

/-- The completion edge sets the latch of its channel, or leaves all as it is. -/
theorem latchCompletion_eq (c : Side) (s : State) :
    latchCompletion c s = s.setIrq (if (s.ch.get c).irqEn then s.irq.set c true else s.irq) := by
  unfold latchCompletion setIrqOf
  split <;> simp

/-- `push` with a slot free appends the job and leaves no handler running; without one it holds. -/
theorem pushJob_cases (j : Job) (s : State) :
    (slotFree s = true ∧
      pushJob j s = (((s.setPushes (s.pushes + 1)).setQ (s.q ++ [j])).setHandler none).setRes .none) ∨
    (slotFree s = false ∧ pushJob j s = (s.setHandler (some (.held j))).setRes .waits) := by
  unfold pushJob
  split
  · next h => exact .inl ⟨h, rfl⟩
  · next h => exact .inr ⟨by simpa using h, rfl⟩

/-- A freed slot lifts a held `push`, if there is one and a slot is free. -/
theorem liftHeldPush_cases (s : State) :
    (∃ j, s.handler = some (.held j) ∧ slotFree s = true ∧
      liftHeldPush s = ((s.setPushes (s.pushes + 1)).setQ (s.q ++ [j])).setHandler none) ∨
    (((∀ j, s.handler ≠ some (.held j)) ∨ slotFree s = false) ∧ liftHeldPush s = s) := by
  unfold liftHeldPush
  split
  · next j h =>
    split
    · next hs => exact .inl ⟨j, h, hs, rfl⟩
    · next hs => exact .inr ⟨.inr (by simpa using hs), rfl⟩
  all_goals next h => exact .inr ⟨.inl (by simp [h]), rfl⟩

/-- After an action the handler is cut, or its next action follows; either uses up at most one entry of the input. -/
theorem cutOr_cases (p : HandlerAt) (k : State → Out) (s : State) :
    (∃ cs, s.cuts = true :: cs ∧ cutOr p k s = .next (((s.setCuts cs).setHandler (some p)).setRes .waits)) ∨
    (∃ cs, s.cuts = false :: cs ∧ cutOr p k s = k (s.setCuts cs)) ∨ (s.cuts = [] ∧ cutOr p k s = k s) := by
  unfold cutOr
  split
  · next cs h => exact .inl ⟨cs, h, rfl⟩
  · next cs h => exact .inr (.inl ⟨cs, h, rfl⟩)
  · next h => exact .inr (.inr ⟨h, rfl⟩)

/-- Raising a ghost fault changes the ghost flags only. -/
theorem raiseGhost_eq (f : GhostFault) (s : State) : raiseGhost f s = s.setGhost (s.ghost.raise f) := rfl

/-- A raised flag stays raised. -/
theorem Ghost.raise_mono (g : Ghost) (f : GhostFault) :
    (g.overrun = true → (g.raise f).overrun = true) ∧ (g.underrun = true → (g.raise f).underrun = true) ∧
    (g.chainUnarmed = true → (g.raise f).chainUnarmed = true) ∧
    (g.protocol = true → (g.raise f).protocol = true) := by
  cases f <;> simp [Ghost.raise]

end Sys2Proof.Machine
end

