-- ==== Sys2Proof/Laws/FrameEncoder.lean ====
section
/-! SUPPORT. What the encode loop can do, said once: which entries it writes, what it leaves alone. -/

namespace Sys2Proof.Machine

/-- What an encode into `WIRE[c]` entries `lo` to `hi - 1` may change of a state: those entries, the kept
old entries of that buffer while its channel transmits, `SFCNT`, `INV`, and the count of drawn values. -/
structure EncodeEffect (c : Side) (lo hi : Nat) (s t : State) : Prop where
  eq : t = ((((s.setWire (s.wire.set c (t.wire.get c))).setWireOld (s.wireOld.set c (t.wireOld.get c))).setCtx
    { s.ctx with sfcnt := t.ctx.sfcnt, inv := t.ctx.inv }).setDraws t.draws)
  outside : ∀ j, j < lo ∨ hi ≤ j → Memory.read? (t.wire.get c) j = Memory.read? (s.wire.get c) j
  inside : ∀ j, lo ≤ j → j < hi → (Memory.read? (t.wire.get c) j).isSome
  canonical : Memory.wf (s.wire.get c) = true → Memory.wf (t.wire.get c) = true
  canonicalOld : Safety.OldValuesCanonical (s.wireOld.get c) → Safety.OldValuesCanonical (t.wireOld.get c)
  below : ∀ n, hi ≤ n → Safety.IndicesBelow (s.wire.get c) n → Safety.IndicesBelow (t.wire.get c) n
  idle : (s.ch.get c).busy = false → t.wireOld.get c = s.wireOld.get c
  kept : ∀ j, oldEntries t c j = if lo ≤ j ∧ j < hi ∧ (s.ch.get c).busy = true then
    oldEntries s c j ++ [wireEntry s c j] else oldEntries s c j

/-- The kept old entries of an encode's own buffer decide those of both. -/
theorem EncodeEffect.oldEntries_other {c : Side} {lo hi : Nat} {s t : State} (h : EncodeEffect c lo hi s t)
    {c' : Side} (hc : c' ≠ c) (j : Nat) : oldEntries t c' j = oldEntries s c' j := by
  rw [h.eq]
  simp [oldEntries, Pair.get_set_ne _ hc]

theorem EncodeEffect.refl (c : Side) (lo : Nat) (s : State) : EncodeEffect c lo lo s s where
  eq := by simp only [Pair.set_get_self]; rfl
  outside := fun _ _ => rfl
  inside := fun j h1 h2 => absurd h2 (Nat.not_lt.mpr h1)
  canonical := id
  canonicalOld := id
  below := fun _ _ h => h
  idle := fun _ => rfl
  kept := fun j => (if_neg fun h => by omega).symm

/-- Two encodes, one after the other over adjoining entries. -/
theorem EncodeEffect.trans {c : Side} {lo mid hi : Nat} {s t u : State} (hlm : lo ≤ mid) (hmh : mid ≤ hi)
    (h1 : EncodeEffect c lo mid s t) (h2 : EncodeEffect c mid hi t u) : EncodeEffect c lo hi s u where
  eq := by
    have e1 := h1.eq
    have e2 := h2.eq
    generalize u.wire.get c = W at e2 ⊢
    generalize u.wireOld.get c = O at e2 ⊢
    generalize u.ctx.sfcnt = x at e2 ⊢
    generalize u.ctx.inv = y at e2 ⊢
    generalize u.draws = n at e2 ⊢
    rw [e2, e1]
    simp [State.setWire, State.setWireOld, State.setCtx, State.setDraws]
  outside := by
    intro j hj
    rw [h2.outside j (by omega), h1.outside j (by omega)]
  inside := by
    intro j hj1 hj2
    by_cases h : mid ≤ j
    · exact h2.inside j h hj2
    · rw [h2.outside j (.inl (by omega))]; exact h1.inside j hj1 (by omega)
  canonical := fun h => h2.canonical (h1.canonical h)
  canonicalOld := fun h => h2.canonicalOld (h1.canonicalOld h)
  below := fun n hn h => h2.below n hn (h1.below n (by omega) h)
  idle := by
    intro h
    have hc : t.ch = s.ch := by rw [h1.eq]; rfl
    rw [h2.idle (by rw [hc]; exact h), h1.idle h]
  kept := by
    intro j
    have hc : t.ch = s.ch := by rw [h1.eq]; rfl
    rw [h2.kept j, h1.kept j, hc]
    by_cases hb : (s.ch.get c).busy = true
    · by_cases h : mid ≤ j
      · by_cases h' : j < hi
        · rw [if_pos ⟨h, h', hb⟩, if_neg (by omega), if_pos ⟨by omega, h', hb⟩]
          have := h1.outside j (.inr h)
          simp [wireEntry, this]
        · rw [if_neg (by omega), if_neg (by omega), if_neg (by omega)]
      · rw [if_neg (by omega)]
        by_cases h' : lo ≤ j
        · rw [if_pos ⟨h', by omega, hb⟩, if_pos ⟨h', by omega, hb⟩]
        · rw [if_neg (by omega), if_neg (by omega)]
    · simp [hb]

/-- One store of an entry. -/
theorem writeWire_effect (c : Side) (j : Nat) (w : WireWord) (s : State) :
    EncodeEffect c j (j + 1) s (writeWire c j w s) := by
  obtain ⟨O, h, hO⟩ := writeWire_eq c j w s
  have hk := fun i => oldEntries_writeWire s c c j i w
  rw [h] at hk ⊢
  exact {
    eq := by simp [State.setWire, State.setWireOld, State.setCtx, State.setDraws]
    outside := by
      intro i hi
      simp only [State.wire_setWire, Pair.get_set_same]
      exact Memory.read?_write_ne _ _ (by omega)
    inside := by
      intro i h1 h2
      have : i = j := by omega
      simp [this, Memory.read?_write]
    canonical := by
      intro hw
      simpa using Memory.wf_write j w hw
    canonicalOld := by
      intro hw
      simp only [State.wireOld_setWire, State.wireOld_setWireOld, Pair.get_set_same]
      rw [hO]
      split
      · refine ⟨Memory.wf_write _ _ hw.1, fun e he => ?_⟩
        rcases Memory.mem_write he with rfl | he
        · simp
        · exact hw.2 e he
      · exact hw
    below := by
      intro n hn hb
      simpa using Memory.below_write w (by omega) hb
    idle := by
      intro hb
      simp [hO, hb]
    kept := by
      intro i
      rw [hk i]
      by_cases hi : i = j
      · subst hi; simp
      · rw [if_neg (by simp [hi]), if_neg (by omega)] }

/-- The four stores of a sample. -/
theorem storeWords_effect (c : Side) (q : Nat) (w : Words4) (s : State) :
    EncodeEffect c q (q + 4) s (storeWords c q w s) :=
  (((writeWire_effect c q w.w0 s).trans (by omega) (by omega) (writeWire_effect c (q + 1) w.w1 _)).trans
    (by omega) (by omega) (writeWire_effect c (q + 2) w.w2 _)).trans
    (by omega) (by omega) (writeWire_effect c (q + 3) w.w3 _)

/-- A change of `SFCNT`, `INV` and the count of drawn values alone. -/
theorem context_effect (c : Side) (lo : Nat) (s : State) (x : BitVec 9) (y : Bool) (n : Nat) :
    EncodeEffect c lo lo s ((s.setDraws n).setCtx { s.ctx with sfcnt := x, inv := y }) where
  eq := by simp [State.setWire, State.setWireOld, State.setCtx, State.setDraws]
  outside := fun _ _ => rfl
  inside := fun j h1 h2 => absurd h2 (Nat.not_lt.mpr h1)
  canonical := id
  canonicalOld := id
  below := fun _ _ h => h
  idle := fun _ => rfl
  kept := fun j => (if_neg fun h => by omega).symm

/-- One turn of the loop stores four entries. -/
theorem encodeStep_effect (b : Side) (p : Nat) (c : Side) (q : Nat) (s : State) :
    EncodeEffect c q (q + 4) s (encodeStep b p c q s) := by
  obtain ⟨n, hn⟩ := readPcm_state b p s
  obtain ⟨m, hm⟩ := readPcm_state b (p + 1) (readPcm b p s).2
  have key : encodeStep b p c q s =
      storeWords c q
        (encodeSample (readPcm b (p + 1) (readPcm b p s).2).2.ctx (readPcm b p s).1
          (readPcm b (p + 1) (readPcm b p s).2).1).1
        ((readPcm b (p + 1) (readPcm b p s).2).2.setCtx
          (encodeSample (readPcm b (p + 1) (readPcm b p s).2).2.ctx (readPcm b p s).1
            (readPcm b (p + 1) (readPcm b p s).2).1).2) := rfl
  rw [key]
  generalize readPcm b p s = lo at hn hm ⊢
  generalize readPcm b (p + 1) lo.2 = hi at hm ⊢
  rw [hn] at hm
  have hs : hi.2 = s.setDraws m := hm
  rw [hs]
  generalize hW : (encodeSample (s.setDraws m).ctx lo.1 hi.1).1 = W
  exact (context_effect c q s (encodeSample s.ctx lo.1 hi.1).2.sfcnt
    (encodeSample s.ctx lo.1 hi.1).2.inv m).trans (Nat.le_refl q) (by omega) (storeWords_effect c q W _)

/-- The loop over `n` samples stores `4 * n` entries. -/
theorem encodeLoop_effect (b c : Side) (n p q : Nat) (s : State) :
    EncodeEffect c q (q + 4 * n) s (encodeLoop b c n p q s) := by
  induction n generalizing p q s with
  | zero => exact EncodeEffect.refl c q s
  | succ n ih =>
    have h := (encodeStep_effect b p c q s).trans (by omega) (by omega) (ih (p + 2) (q + 4) _)
    rwa [show q + 4 + 4 * n = q + 4 * (n + 1) by omega] at h

/-- What `encode` can answer: a next state that differs by an encode's effect, or the range refusal. -/
theorem encodeRange_cases (b : Side) (p : Nat) (c : Side) (q byteLen : Nat) (s : State) :
    (∃ t, encodeRange b p c q byteLen s = .next t ∧ EncodeEffect c q (q + 4 * (byteLen / 2)) s t ∧
      (byteLen / 2 = 0 ∨
        p + 2 * (byteLen / 2) ≤ s.cfg.pcmBufBytes ∧ q + 4 * (byteLen / 2) ≤ s.cfg.wireWords)) ∨
    encodeRange b p c q byteLen s = .refused .encodeRange := by
  unfold encodeRange
  by_cases h0 : byteLen / 2 = 0
  · refine .inl ⟨s, by simp [h0], ?_, .inl h0⟩
    rw [h0]; exact EncodeEffect.refl c q s
  · by_cases hr : encodeInRange s.cfg p q (byteLen / 2) = true
    · refine .inl ⟨_, by simp [h0, hr], encodeLoop_effect b c _ p q s, .inr ?_⟩
      simp only [encodeInRange, Bool.and_eq_true, decide_eq_true_eq] at hr
      exact hr
    · exact .inr (by simp [h0, hr])

/-! The context. -/

@[simp] theorem encodeSample_sel (x : Context) (lo hi : Byte) : (encodeSample x lo hi).2.sel = x.sel := rfl
@[simp] theorem encodeSample_cur (x : Context) (lo hi : Byte) : (encodeSample x lo hi).2.cur = x.cur := rfl
@[simp] theorem encodeSample_sfcnt (x : Context) (lo hi : Byte) :
    (encodeSample x lo hi).2.sfcnt = nextSfcnt x.sfcnt := rfl

/-- The counter after a sample, as a number. -/
theorem nextSfcnt_toNat (n : BitVec 9) : (nextSfcnt n).toNat = (n.toNat + 1) % 384 := by
  have h : (n.toNat + 1) % 384 < 384 := Nat.mod_lt _ (by decide)
  simp only [nextSfcnt, blockSubframes, BitVec.toNat_ofNat]
  omega

theorem storeWords_ctx (c : Side) (q : Nat) (w : Words4) (s : State) : (storeWords c q w s).ctx = s.ctx := by
  have h : ∀ (j : Nat) (x : WireWord) (s : State), (writeWire c j x s).ctx = s.ctx := by
    intro j x s
    obtain ⟨O, h, -⟩ := writeWire_eq c j x s
    rw [h]; rfl
  simp only [storeWords, h]

/-- The context after one turn of the loop is that of one `encode_sample` of the bytes read. -/
theorem encodeStep_ctx (b : Side) (p : Nat) (c : Side) (q : Nat) (s : State) :
    (encodeStep b p c q s).ctx =
      (encodeSample s.ctx (readPcm b p s).1 (readPcm b (p + 1) (readPcm b p s).2).1).2 := by
  obtain ⟨n, hn⟩ := readPcm_state b p s
  obtain ⟨m, hm⟩ := readPcm_state b (p + 1) (readPcm b p s).2
  simp only [encodeStep, storeWords_ctx, State.ctx_setCtx]
  rw [hm, hn]
  rfl

end Sys2Proof.Machine
end

