-- ==== Sys2Proof/Laws/BufferPipeline.lean ====
section
/-! SUPPORT. What the buffer operations, `consumeChunk` and the worker's jobs can do, said once. -/

namespace Sys2Proof.Machine

/-- The first buffer in a state, in the order A, B. -/
theorem firstIn_eq_some {x : BufState} {st : Pair BufState} {b : Side} (h : firstIn x st = some b) :
    st.get b = x ∧ (b = .B → st.a ≠ x) := by
  unfold firstIn at h
  split at h
  · next ha => cases h; exact ⟨ha, by simp⟩
  · next ha =>
    split at h
    · next hb => cases h; exact ⟨hb, fun _ => ha⟩
    · cases h

theorem firstIn_eq_none {x : BufState} {st : Pair BufState} :
    firstIn x st = none ↔ st.a ≠ x ∧ st.b ≠ x := by
  unfold firstIn
  split
  · next h => simp [h]
  · next h => split <;> simp_all

/-- A claim takes the first Stale buffer, or finds none and changes nothing. -/
theorem claimTarget_cases (s : State) :
    (∃ b, firstIn .stale s.st = some b ∧ claimTarget s = (some b, s.setSt (s.st.set b .filling))) ∨
    (firstIn .stale s.st = none ∧ claimTarget s = (none, s)) := by
  unfold claimTarget
  split
  · next b h => exact .inl ⟨b, h, rfl⟩
  · next h => exact .inr ⟨h, rfl⟩

/-- A buffer becomes Ready with its bytes published; nothing else changes. -/
theorem markReady_eq (b : Side) (s : State) :
    markReady b s = (s.setPcmOld (s.pcmOld.set b [])).setSt (s.st.set b .ready) := rfl

/-- The cursor within its buffer: only `CUR` changes. -/
theorem advanceCursor_within {s : State} (h : s.ctx.cur + s.cfg.chunkBytes ≠ s.cfg.pcmBufBytes) :
    advanceCursor s = s.setCtx { s.ctx with cur := s.ctx.cur + s.cfg.chunkBytes } := by
  simp [advanceCursor, h]

/-- The cursor at its buffer's end: `SEL` flips, `CUR` is 0, and the exhausted buffer is Stale. -/
theorem advanceCursor_end {s : State} (h : s.ctx.cur + s.cfg.chunkBytes = s.cfg.pcmBufBytes) :
    advanceCursor s =
      (s.setCtx { s.ctx with sel := s.ctx.sel.other, cur := 0 }).setSt (s.st.set s.ctx.sel .stale) := by
  simp [advanceCursor, h, setStOf]

/-- The state `consumeChunk` encodes from: `F_UNDERRUN` is marked if the active buffer is not Ready. -/
def underrunMarked (s : State) : State :=
  if s.st.get s.ctx.sel = .ready then s else raiseGhost .underrun s

theorem underrunMarked_eq (s : State) :
    underrunMarked s = s.setGhost (if s.st.get s.ctx.sel = .ready then s.ghost else s.ghost.raise .underrun) := by
  unfold underrunMarked
  split <;> rfl

/-- What `consumeChunk` can answer: the effect of one encode from the marked state, then the cursor and the
pending bit; or the range refusal. -/
theorem consume_cases (c : Side) (s : State) :
    (∃ v, EncodeEffect c 0 (4 * (s.cfg.chunkBytes / 2)) (underrunMarked s) v ∧
      encodeRange s.ctx.sel s.ctx.cur c 0 s.cfg.chunkBytes (underrunMarked s) = .next v ∧
      consume c s = .next ((advanceCursor v).setWpend ((advanceCursor v).wpend.set c false)) ∧
      (s.cfg.chunkBytes / 2 = 0 ∨ s.ctx.cur + 2 * (s.cfg.chunkBytes / 2) ≤ s.cfg.pcmBufBytes ∧
        4 * (s.cfg.chunkBytes / 2) ≤ s.cfg.wireWords)) ∨
    consume c s = .refused .encodeRange := by
  have hc : consume c s = andThen (encodeRange s.ctx.sel (underrunMarked s).ctx.cur c 0
      (underrunMarked s).cfg.chunkBytes (underrunMarked s)) fun s => .next (setWpendOf c false (advanceCursor s)) := rfl
  have hx : (underrunMarked s).ctx = s.ctx := by rw [underrunMarked_eq]; rfl
  have hg : (underrunMarked s).cfg = s.cfg := by rw [underrunMarked_eq]; rfl
  rw [hx, hg] at hc
  rcases encodeRange_cases s.ctx.sel s.ctx.cur c 0 s.cfg.chunkBytes (underrunMarked s) with
    ⟨v, hv, he, hr⟩ | h
  · rw [Nat.zero_add] at he hr
    rw [hg] at hr
    exact .inl ⟨v, he, hv, by rw [hc, hv]; rfl, hr⟩
  · exact .inr (by rw [hc, h]; rfl)

/-- A job runs as one `consumeChunk` with `WK` running, and leaves the worker idle. -/
theorem runJob_eq_next {j : Job} {s t : State} (h : runJob j s = .next t) :
    ∃ u, consume (jobChannel j) (s.setWk (.running j)) = .next u ∧ t = u.setWk .idle := by
  obtain ⟨u, hu, ht⟩ := andThen_eq_next.mp h
  exact ⟨u, hu, (next_inj.mp ht).symm⟩

end Sys2Proof.Machine
end

