-- ==== Sys2Proof/Laws/CoreDispatcher.lean ====
section
/-! SUPPORT. What the encoder, a job and a start do does not depend on the worker state or on the last
result, so those may be set before or after. -/

namespace Sys2Proof.Machine

/-- The outcome with its next state changed. -/
theorem andThen_assoc (o : Out) (f g : State → Out) :
    andThen (andThen o f) g = andThen o fun s => andThen (f s) g := by
  cases o <;> rfl

theorem readPcm_setWk (b : Side) (i : Nat) (s : State) (w : Worker) :
    readPcm b i (s.setWk w) = ((readPcm b i s).1, (readPcm b i s).2.setWk w) := by
  show drawOf ((oldBytes s b i).map OldByte.byte) (pcmByte s b i) (s.setWk w) = _
  unfold readPcm
  cases (oldBytes s b i).map OldByte.byte <;> rfl

theorem readPcm_setRes (b : Side) (i : Nat) (s : State) (r : Result) :
    readPcm b i (s.setRes r) = ((readPcm b i s).1, (readPcm b i s).2.setRes r) := by
  show drawOf ((oldBytes s b i).map OldByte.byte) (pcmByte s b i) (s.setRes r) = _
  unfold readPcm
  cases (oldBytes s b i).map OldByte.byte <;> rfl

theorem writeWire_setWk (c : Side) (j : Nat) (v : WireWord) (s : State) (w : Worker) :
    writeWire c j v (s.setWk w) = (writeWire c j v s).setWk w := by
  unfold writeWire keepOldWire
  rw [State.ch_setWk]
  by_cases h : (s.ch.get c).busy = true
  · rw [if_pos h, if_pos h]; rfl
  · rw [if_neg h, if_neg h]; rfl

theorem writeWire_setRes (c : Side) (j : Nat) (v : WireWord) (s : State) (r : Result) :
    writeWire c j v (s.setRes r) = (writeWire c j v s).setRes r := by
  unfold writeWire keepOldWire
  rw [State.ch_setRes]
  by_cases h : (s.ch.get c).busy = true
  · rw [if_pos h, if_pos h]; rfl
  · rw [if_neg h, if_neg h]; rfl

theorem encodeStep_setWk (b : Side) (p : Nat) (c : Side) (q : Nat) (s : State) (w : Worker) :
    encodeStep b p c q (s.setWk w) = (encodeStep b p c q s).setWk w := by
  simp only [encodeStep, storeWords, readPcm_setWk, ← writeWire_setWk]
  rfl

theorem encodeStep_setRes (b : Side) (p : Nat) (c : Side) (q : Nat) (s : State) (r : Result) :
    encodeStep b p c q (s.setRes r) = (encodeStep b p c q s).setRes r := by
  simp only [encodeStep, storeWords, readPcm_setRes, ← writeWire_setRes]
  rfl

theorem encodeLoop_setWk (b c : Side) (n p q : Nat) (s : State) (w : Worker) :
    encodeLoop b c n p q (s.setWk w) = (encodeLoop b c n p q s).setWk w := by
  induction n generalizing p q s with
  | zero => rfl
  | succ n ih => simp only [encodeLoop, encodeStep_setWk, ih]

theorem encodeLoop_setRes (b c : Side) (n p q : Nat) (s : State) (r : Result) :
    encodeLoop b c n p q (s.setRes r) = (encodeLoop b c n p q s).setRes r := by
  induction n generalizing p q s with
  | zero => rfl
  | succ n ih => simp only [encodeLoop, encodeStep_setRes, ih]

theorem advanceCursor_setWk (s : State) (w : Worker) :
    advanceCursor (s.setWk w) = (advanceCursor s).setWk w := by
  unfold advanceCursor
  rw [State.ctx_setWk, State.cfg_setWk]
  by_cases h : s.ctx.cur + s.cfg.chunkBytes = s.cfg.pcmBufBytes
  · rw [if_pos h, if_pos h]; rfl
  · rw [if_neg h, if_neg h]; rfl

theorem advanceCursor_setRes (s : State) (r : Result) :
    advanceCursor (s.setRes r) = (advanceCursor s).setRes r := by
  unfold advanceCursor
  rw [State.ctx_setRes, State.cfg_setRes]
  by_cases h : s.ctx.cur + s.cfg.chunkBytes = s.cfg.pcmBufBytes
  · rw [if_pos h, if_pos h]; rfl
  · rw [if_neg h, if_neg h]; rfl

/-- `consumeChunk` does not read the worker state. -/
theorem consume_setWk (c : Side) (s : State) (w : Worker) :
    consume c (s.setWk w) = andThen (consume c s) fun t => .next (t.setWk w) := by
  have hu : underrunMarked (s.setWk w) = (underrunMarked s).setWk w := by
    simp only [underrunMarked_eq]; rfl
  have hc : ∀ s, consume c s = andThen (encodeRange s.ctx.sel (underrunMarked s).ctx.cur c 0
      (underrunMarked s).cfg.chunkBytes (underrunMarked s)) fun s =>
        .next (setWpendOf c false (advanceCursor s)) := fun _ => rfl
  rw [hc, hc, hu, andThen_assoc]
  simp only [encodeRange, State.ctx_setWk, State.cfg_setWk, encodeLoop_setWk]
  split
  · simp only [andThen_next, advanceCursor_setWk]; rfl
  · split
    · simp only [andThen_next, advanceCursor_setWk]; rfl
    · rfl

/-- `consumeChunk` does not read the last result. -/
theorem consume_setRes (c : Side) (s : State) (r : Result) :
    consume c (s.setRes r) = andThen (consume c s) fun t => .next (t.setRes r) := by
  have hu : underrunMarked (s.setRes r) = (underrunMarked s).setRes r := by
    simp only [underrunMarked_eq]; rfl
  have hc : ∀ s, consume c s = andThen (encodeRange s.ctx.sel (underrunMarked s).ctx.cur c 0
      (underrunMarked s).cfg.chunkBytes (underrunMarked s)) fun s =>
        .next (setWpendOf c false (advanceCursor s)) := fun _ => rfl
  rw [hc, hc, hu, andThen_assoc]
  simp only [encodeRange, State.ctx_setRes, State.cfg_setRes, encodeLoop_setRes]
  split
  · simp only [andThen_next, advanceCursor_setRes]; rfl
  · split
    · simp only [andThen_next, advanceCursor_setRes]; rfl
    · rfl

/-- A job from an idle worker is one `consumeChunk`: `WK` is Idle before it and after it. -/
theorem runJob_idle {j : Job} {s : State} (h : s.wk = .idle) : runJob j s = consume (jobChannel j) s := by
  unfold runJob
  rw [consume_setWk, andThen_assoc]
  rcases consume_cases (jobChannel j) s with ⟨v, he, -, hc, -⟩ | hc
  · rw [hc]
    have hw : v.wk = .idle := by rw [he.eq, underrunMarked_eq]; exact h
    have ha : (advanceCursor v).wk = .idle := by unfold advanceCursor; dsimp only; split <;> exact hw
    simp only [andThen_next, State.setWk_setWk]
    rw [← ha]; rfl
  · rw [hc]; rfl

theorem trigger_setRes (d : Side) (s : State) (r : Result) :
    trigger d (s.setRes r) = (trigger d s).setRes r := by
  have e : ∀ b : Bool, (if b then startChannel d (raiseGhost .overrun (s.setRes r))
      else startChannel d (s.setRes r)) =
      (if b then startChannel d (raiseGhost .overrun s) else startChannel d s).setRes r := by
    intro b; cases b <;> rfl
  unfold trigger
  rw [State.ch_setRes, State.wpend_setRes]
  by_cases h : (s.ch.get d).en = false
  · rw [if_pos h, if_pos h]
  · rw [if_neg h, if_neg h]
    by_cases g : (s.ch.get d).armed = false
    · rw [if_pos g, if_pos g]; rfl
    · rw [if_neg g, if_neg g]; exact e _

theorem launch_setRes (s : State) (r : Result) : launch (s.setRes r) = (launch s).setRes r :=
  trigger_setRes .A (((s.setIrq (both false)).setCh
    { a := loadedChan s.ch.a, b := loadedChan s.ch.b }).setActive true) r

/-- `dma_start` does not read the last result. -/
theorem startTransmitter_setRes (s : State) (r : Result) :
    startTransmitter (s.setRes r) = andThen (startTransmitter s) fun t => .next (t.setRes r) := by
  have hc : coldStart (s.setRes r) = (coldStart s).setRes r := rfl
  have hj : jobRunning (s.setRes r) = jobRunning s := rfl
  unfold startTransmitter
  rw [State.setupDone_setRes, State.active_setRes, State.st_setRes]
  by_cases h : s.setupDone = false ∨ s.active = true
  · rw [if_pos h, if_pos h]; rfl
  rw [if_neg h, if_neg h]
  by_cases g : s.st.a ≠ .ready ∨ s.st.b ≠ .ready
  · rw [if_pos g, if_pos g]; rfl
  rw [if_neg g, if_neg g]
  unfold encoderFree
  rw [hj]
  by_cases k : jobRunning s = true
  · rw [if_pos k, if_pos k]; rfl
  rw [if_neg k, if_neg k]
  dsimp only
  rw [hc, consume_setRes, andThen_assoc, andThen_assoc]
  cases consume .A (coldStart s) with
  | next t =>
    simp only [andThen_next, consume_setRes, andThen_assoc]
    cases consume .B t with
    | next u => simp only [andThen_next, launch_setRes]
    | fault x => rfl
    | refused x => rfl
  | fault x => rfl
  | refused x => rfl

end Sys2Proof.Machine
end

