-- ==== Sys2Proof/Laws/Decode.lean ====
section
/-! SUPPORT. The operand readers of the decoder against the writers of the encoder. -/

namespace Sys2Proof

theorem takeNat32_nat32Bytes (n : Nat) (h : n < 2 ^ 32) (rest : List Byte) :
    takeNat32 (nat32Bytes n ++ rest) = .ok (n, rest) := by
  simp only [nat32Bytes, List.cons_append, List.nil_append, takeNat32, BitVec.toNat_ofNat]
  congr 2
  omega

theorem takeSide_sideByte (c : Side) (rest : List Byte) : takeSide (sideByte c :: rest) = .ok (c, rest) := by
  cases c <;> rfl

@[simp] theorem Side.bit_ofBit (c : Bool) : (Side.ofBit c).bit = c := by cases c <;> rfl
@[simp] theorem Side.ofBit_bit (c : Side) : Side.ofBit c.bit = c := by cases c <;> rfl
@[simp] theorem Job.bit_ofBit (c : Bool) : (Job.ofBit c).bit = c := by cases c <;> rfl
@[simp] theorem Job.ofBit_bit (j : Job) : Job.ofBit j.bit = j := by cases j <;> rfl

/-- A command word is its operation number and its channel bit (30_encoding.md R86). -/
theorem commandWord_fields (w : Byte) : commandWord (opNumber w) (channelBit w) = w := by
  unfold commandWord opNumber channelBit
  rw [← BitVec.toNat_inj, BitVec.toNat_ofNat]
  have := w.isLt
  rcases Nat.mod_two_eq_zero_or_one w.toNat with h | h <;> simp [h] <;> omega

end Sys2Proof
end

