-- ==== Sys2Proof/Laws/Dispatch.lean ====
section
/-! SUPPORT. What `exec` and the step call, so that no proof unfolds them. -/

namespace Sys2Proof.Machine

@[simp] theorem exec_setup (s : State) : exec .setup s = execSetup s := rfl
@[simp] theorem exec_start (src : Source) (s : State) : exec (.start src) s = execStart src s := rfl
@[simp] theorem exec_stop (s : State) : exec .stop s = execStop s := rfl
@[simp] theorem exec_poll (s : State) : exec .poll s = execPoll s := rfl
@[simp] theorem exec_isActive (s : State) : exec .isActive s = execIsActive s := rfl
@[simp] theorem exec_acquireFillTarget (s : State) : exec .acquireFillTarget s = execAcquireFillTarget s := rfl
@[simp] theorem exec_markFilled (s : State) : exec .markFilled s = execMarkFilled s := rfl
@[simp] theorem exec_consumeChunk (c : Side) (s : State) : exec (.consumeChunk c) s = execConsumeChunk c s := rfl
@[simp] theorem exec_encode (b : Side) (p : Nat) (c : Side) (q byteLen : Nat) (s : State) :
    exec (.encode b p c q byteLen) s = execEncode b p c q byteLen s := rfl
@[simp] theorem exec_encodeSample (lo hi : Byte) (s : State) :
    exec (.encodeSample lo hi) s = execEncodeSample lo hi s := rfl
@[simp] theorem exec_dmaStart (s : State) : exec .dmaStart s = execDmaStart s := rfl
@[simp] theorem exec_dmaStop (s : State) : exec .dmaStop s = execDmaStop s := rfl
@[simp] theorem exec_rearm (c : Side) (s : State) : exec (.rearm c) s = execRearm c s := rfl
@[simp] theorem exec_dmaWord (c : Side) (s : State) : exec (.dmaWord c) s = execDmaWord c s := rfl
@[simp] theorem exec_irqService (c : Side) (s : State) : exec (.irqService c) s = execIrqService c s := rfl
@[simp] theorem exec_push (j : Job) (s : State) : exec (.push j) s = execPush j s := rfl
@[simp] theorem exec_workerPop (s : State) : exec .workerPop s = execWorkerPop s := rfl
@[simp] theorem exec_fillWrite (b : Side) (i : Nat) (v : Byte) (s : State) :
    exec (.fillWrite b i v) s = execFillWrite b i v s := rfl

/-- A step that answers a next state idled on an empty trace or ran a request. -/
theorem step_cases {s t : State} (h : step s = .next t) :
    (s.trace = [] ∧ t = s) ∨ ∃ i rest, decode s.trace = .ok (i, rest) ∧ exec i (s.setTrace rest) = .next t := by
  unfold step at h
  split at h
  · next hf =>
    refine .inl ⟨?_, by cases h; rfl⟩
    unfold fetch at hf
    split at hf
    · assumption
    · split at hf <;> cases hf
  · cases h
  · next i u hf =>
    unfold fetch at hf
    split at hf
    · cases hf
    · next w bs hw =>
      split at hf
      · next i' rest hd =>
        cases hf
        exact .inr ⟨_, _, by rw [hw]; exact hd, h⟩
      · cases hf

end Sys2Proof.Machine
end

