-- ==== Sys2Proof/Laws/DmaTransmitter.lean ====
section
/-! SUPPORT. What the channel operations can do, said once. -/

namespace Sys2Proof.Machine

/-- A trigger does nothing, marks `F_CHAIN_UNARMED`, or starts the channel at entry 0, marking `F_OVERRUN`
when its wire buffer still waits for its encode. -/
theorem trigger_cases (d : Side) (s : State) :
    ((s.ch.get d).en = false ∧ trigger d s = s) ∨
    ((s.ch.get d).en = true ∧ (s.ch.get d).armed = false ∧
      trigger d s = s.setGhost (s.ghost.raise .chainUnarmed)) ∨
    ((s.ch.get d).en = true ∧ (s.ch.get d).armed = true ∧
      trigger d s = (s.setGhost (if s.wpend.get d then s.ghost.raise .overrun else s.ghost)).setCh
        (s.ch.set d { s.ch.get d with armed := false, busy := true, rptr := 0 })) := by
  unfold trigger
  split
  · next h => exact .inl ⟨h, rfl⟩
  · next h =>
    split
    · next h2 => exact .inr (.inl ⟨by simpa using h, h2, rfl⟩)
    · next h2 =>
      refine .inr (.inr ⟨by simpa using h, by simpa using h2, ?_⟩)
      split <;> rfl

/-- A completion: the channel is idle, its wire buffer pending, its race over, its latch set if enabled, and
then the other channel is triggered. -/
theorem complete_eq (c : Side) (s : State) :
    complete c s = trigger c.other
      ((((s.setCh (s.ch.set c { s.ch.get c with busy := false })).setWpend (s.wpend.set c true)).setWireOld
        (s.wireOld.set c [])).setIrq (if (s.ch.get c).irqEn then s.irq.set c true else s.irq)) := by
  unfold complete
  simp only [latchCompletion_eq]
  simp [setChan, setWpendOf, endWireRace]

/-- One transfer that is not the channel's last. -/
theorem transferWord_more {c : Side} {s : State} (h : (s.ch.get c).rptr + 1 ≠ s.cfg.wireWords) :
    ∃ w n, transferWord c s = ((s.setDraws n).setLine (s.line ++ [w])).setCh
      (s.ch.set c { s.ch.get c with rptr := (s.ch.get c).rptr + 1 }) ∧
      w = (readWire c (s.ch.get c).rptr s).1 := by
  obtain ⟨n, hn⟩ := readWire_state c (s.ch.get c).rptr s
  refine ⟨_, n, ?_, rfl⟩
  simp [transferWord, hn, emit, setChan, h]

/-- The channel's last transfer: the word, the pointer at the end, and the completion. -/
theorem transferWord_last {c : Side} {s : State} (h : (s.ch.get c).rptr + 1 = s.cfg.wireWords) :
    ∃ w n, transferWord c s = complete c (((s.setDraws n).setLine (s.line ++ [w])).setCh
      (s.ch.set c { s.ch.get c with rptr := (s.ch.get c).rptr + 1 })) ∧
      w = (readWire c (s.ch.get c).rptr s).1 := by
  obtain ⟨n, hn⟩ := readWire_state c (s.ch.get c).rptr s
  refine ⟨_, n, ?_, rfl⟩
  simp [transferWord, hn, emit, setChan, h]

end Sys2Proof.Machine
end

