-- ==== Sys2Proof/Laws/HostInterface.lean ====
section
/-! SUPPORT. What the stores of a read, a read of STORAGE, a `poll` and the fill loop can do, said once. -/

namespace Sys2Proof.Machine

/-- A store of a fill: the byte, and `F_PROTOCOL` where the buffer is not Filling. -/
theorem storeFill_eq (b : Side) (i : Nat) (v : Byte) (s : State) :
    storeFill b i v s =
      (writePcm b i v s).setGhost (if s.st.get b = .filling then s.ghost else s.ghost.raise .protocol) := by
  unfold storeFill
  split <;> rfl

/-- The cells of a list that lie inside the buffer. -/
def cellsInside (n : Nat) (cells : List Host.Cell) : List Host.Cell := cells.filter fun e => decide (e.1 < n)

theorem mem_cellsInside {n : Nat} {cells : List Host.Cell} {e : Host.Cell} :
    e ∈ cellsInside n cells ↔ e ∈ cells ∧ e.1 < n := by simp [cellsInside]

/-- The stores of a read change the buffers, the kept bytes and, where the buffer is not Filling,
`F_PROTOCOL`. -/
theorem storeCells_frame (t : Side) (cells : List Host.Cell) (s : State) :
    storeCells t cells s = { s with
      pcm := (storeCells t cells s).pcm, pcmOld := (storeCells t cells s).pcmOld,
      ghost := if s.st.get t = .filling ∨ cellsInside s.cfg.pcmBufBytes cells = [] then s.ghost
        else s.ghost.raise .protocol } := by
  induction cells generalizing s with
  | nil => simp [storeCells, cellsInside]
  | cons c cells ih =>
    obtain ⟨k, v⟩ := c
    by_cases hk : k < s.cfg.pcmBufBytes
    · have e : storeCells t ((k, v) :: cells) s = storeCells t cells (storeFill t k v s) := by
        show storeCells t cells (if k < s.cfg.pcmBufBytes then storeFill t k v s else s) = _
        rw [if_pos hk]
      have hne : cellsInside s.cfg.pcmBufBytes ((k, v) :: cells) ≠ [] := by simp [cellsInside, hk]
      rw [e]
      generalize hT : storeCells t cells (storeFill t k v s) = T
      have hi := ih (storeFill t k v s)
      rw [hT, storeFill_eq, writePcm_eq] at hi
      rw [hi]
      by_cases hf : s.st.get t = .filling
      · simp [hf, State.setGhost, State.setPcm, State.setPcmOld]
      · simp [hf, hne, State.setGhost, State.setPcm, State.setPcmOld, Ghost.raise]
    · have e : storeCells t ((k, v) :: cells) s = storeCells t cells s := by
        show storeCells t cells (if k < s.cfg.pcmBufBytes then storeFill t k v s else s) = _
        rw [if_neg hk]
      have hc : cellsInside s.cfg.pcmBufBytes ((k, v) :: cells) = cellsInside s.cfg.pcmBufBytes cells := by
        simp [cellsInside, hk]
      rw [e, hc]
      exact ih s

/-- The bytes after the stores of a read: an index that no cell names is as it was; at a named one stands a cell's
value, and what stood there in turn is kept. -/
theorem storeCells_bytes (t : Side) (cells : List Host.Cell) (s : State) (i : Nat) :
    (pcmByte (storeCells t cells s) t.other i = pcmByte s t.other i ∧
      oldBytes (storeCells t cells s) t.other i = oldBytes s t.other i) ∧
    ((∀ e ∈ cellsInside s.cfg.pcmBufBytes cells, e.1 ≠ i) →
      pcmByte (storeCells t cells s) t i = pcmByte s t i ∧
      oldBytes (storeCells t cells s) t i = oldBytes s t i) ∧
    ((∃ e ∈ cellsInside s.cfg.pcmBufBytes cells, e.1 = i) →
      (i, pcmByte (storeCells t cells s) t i) ∈ cellsInside s.cfg.pcmBufBytes cells ∧
      ∃ mids : List Byte, (∀ v ∈ mids, (i, v) ∈ cellsInside s.cfg.pcmBufBytes cells) ∧
        oldBytes (storeCells t cells s) t i = oldBytes s t i ++
          (pcmByte s t i :: mids).map fun v => { pushes := s.pushes, byte := v }) := by
  induction cells generalizing s with
  | nil => exact ⟨⟨rfl, rfl⟩, fun _ => ⟨rfl, rfl⟩, fun ⟨e, he, _⟩ => by simp [cellsInside] at he⟩
  | cons c cells ih =>
    obtain ⟨k, v⟩ := c
    by_cases hk : k < s.cfg.pcmBufBytes
    · have e : storeCells t ((k, v) :: cells) s = storeCells t cells (storeFill t k v s) := by
        show storeCells t cells (if k < s.cfg.pcmBufBytes then storeFill t k v s else s) = _
        rw [if_pos hk]
      have hp : ∀ b j, pcmByte (storeFill t k v s) b j = if b = t ∧ j = k then v else pcmByte s b j := fun b j => by
        rw [storeFill_eq]; exact pcmByte_writePcm s t b k j v
      have ho : ∀ b j, oldBytes (storeFill t k v s) b j = if b = t ∧ j = k then
          oldBytes s t k ++ [{ pushes := s.pushes, byte := pcmByte s t k }] else oldBytes s b j := fun b j => by
        rw [storeFill_eq]; exact oldBytes_writePcm s t b k j v
      have hcfg : (storeFill t k v s).cfg = s.cfg := by rw [storeFill_eq]; rfl
      have hpush : (storeFill t k v s).pushes = s.pushes := by rw [storeFill_eq]; rfl
      have hin : cellsInside s.cfg.pcmBufBytes ((k, v) :: cells) = (k, v) :: cellsInside s.cfg.pcmBufBytes cells := by
        simp [cellsInside, hk]
      obtain ⟨⟨i1, i2⟩, i3, i4⟩ := ih (storeFill t k v s)
      rw [hcfg] at i3 i4
      rw [hpush] at i4
      rw [e, hin]
      refine ⟨⟨by rw [i1, hp]; simp, by rw [i2, ho]; simp⟩, fun h => ?_, fun h => ?_⟩
      · obtain ⟨a, b⟩ := i3 fun e he => h e (List.mem_cons_of_mem _ he)
        have hki : i ≠ k := fun hh => h _ List.mem_cons_self hh.symm
        exact ⟨by rw [a, hp]; simp [hki], by rw [b, ho]; simp [hki]⟩
      · by_cases hlater : ∃ e ∈ cellsInside s.cfg.pcmBufBytes cells, e.1 = i
        · obtain ⟨a, mids, hm, b⟩ := i4 hlater
          refine ⟨List.mem_cons_of_mem _ a, ?_⟩
          by_cases hki : i = k
          · subst hki
            refine ⟨v :: mids, ?_, ?_⟩
            · intro x hx
              rcases List.mem_cons.mp hx with rfl | hx
              · exact List.mem_cons_self
              · exact List.mem_cons_of_mem _ (hm x hx)
            · rw [b, ho, hp]; simp
          · refine ⟨mids, fun x hx => List.mem_cons_of_mem _ (hm x hx), ?_⟩
            rw [b, ho, hp]; simp [hki]
        · have hki : i = k := by
            obtain ⟨e, he, hei⟩ := h
            rcases List.mem_cons.mp he with rfl | he
            · exact hei.symm
            · exact absurd ⟨e, he, hei⟩ hlater
          subst hki
          obtain ⟨a, b⟩ := i3 fun e he hei => hlater ⟨e, he, hei⟩
          refine ⟨by rw [a, hp]; simp, [], by simp, ?_⟩
          rw [b, ho]; simp
    · have e : storeCells t ((k, v) :: cells) s = storeCells t cells s := by
        show storeCells t cells (if k < s.cfg.pcmBufBytes then storeFill t k v s else s) = _
        rw [if_neg hk]
      have hc : cellsInside s.cfg.pcmBufBytes ((k, v) :: cells) = cellsInside s.cfg.pcmBufBytes cells := by
        simp [cellsInside, hk]
      rw [e, hc]
      exact ih s

/-- The bytes after the stores of a read that writes the source's bytes at some indices. -/
theorem pcmByte_storeSource (t : Side) (is : List Nat) (g : Storage) (s : State) (i : Nat) :
    pcmByte (storeCells t (is.map (sourceCell g)) s) t i =
      if i ∈ is ∧ i < s.cfg.pcmBufBytes then sourceByteAt g (g.pos + i) else pcmByte s t i := by
  obtain ⟨-, h1, h2⟩ := storeCells_bytes t (is.map (sourceCell g)) s i
  split
  · next h =>
    obtain ⟨hm, -⟩ := h2 ⟨sourceCell g i, mem_cellsInside.mpr ⟨List.mem_map_of_mem h.1, h.2⟩, rfl⟩
    obtain ⟨j, -, hj⟩ := List.mem_map.mp (mem_cellsInside.mp hm).1
    obtain ⟨h3, h4⟩ := Prod.mk.inj hj
    rw [← h4, h3]
  · next h =>
    refine (h1 fun e he hei => h ?_).1
    obtain ⟨he, hb⟩ := mem_cellsInside.mp he
    obtain ⟨j, hj, rfl⟩ := List.mem_map.mp he
    exact ⟨hei ▸ hj, hei ▸ hb⟩

theorem mem_unwritten {n i : Nat} {written : List Nat} : i ∈ unwritten n written ↔ i < n ∧ i ∉ written := by
  simp [unwritten]

/-- `markFilled` publishes the first Filling buffer, or finds none and does nothing or is refused. -/
theorem markFirstFilling_cases (s : State) :
    (∃ b, firstIn .filling s.st = some b ∧ markFirstFilling s = some (markReady b s)) ∨
    (firstIn .filling s.st = none ∧ s.cfg.markFilledIdle = .noop ∧ markFirstFilling s = some s) ∨
    (firstIn .filling s.st = none ∧ s.cfg.markFilledIdle = .refuse ∧ markFirstFilling s = none) := by
  unfold markFirstFilling
  split
  · next b h => exact .inl ⟨b, h, rfl⟩
  · next h => cases hm : s.cfg.markFilledIdle <;> simp [h]

/-- A `poll` reads into its target, the buffer left Filling or else the first Stale one, or has none. -/
theorem pollOnce_cases (s : State) :
    (∃ b, (firstIn .filling s.st = some b ∨ firstIn .filling s.st = none ∧ firstIn .stale s.st = some b) ∧
      pollOnce s = readInto (newReading b) (s.setSt (s.st.set b .filling))) ∨
    (firstIn .filling s.st = none ∧ firstIn .stale s.st = none ∧ pollOnce s = (.did false, s)) := by
  unfold pollOnce
  cases hf : firstIn .filling s.st with
  | some b =>
    refine .inl ⟨b, .inl rfl, ?_⟩
    rw [← (firstIn_eq_some hf).1, Pair.set_get_self]; rfl
  | none =>
    unfold claimTarget
    cases hs : firstIn .stale s.st with
    | some b => exact .inl ⟨b, .inr ⟨rfl, rfl⟩, rfl⟩
    | none => exact .inr ⟨rfl, rfl, rfl⟩

theorem bothReady_iff (s : State) : bothReady s = true ↔ s.st.a = .ready ∧ s.st.b = .ready := by
  simp [bothReady]

/-! A relation that every part of a fill keeps, it and the whole: the way to an invariant of `poll` and
`start`. -/

/-- What the parts of a read do: it takes an outcome, stores cells, moves the position, and marks filled. -/
structure FillKeeps (R : State → State → Prop) : Prop where
  refl : ∀ s, R s s
  trans : ∀ s t u, R s t → R t u → R s u
  storage : ∀ s g, R s (s.setStorage g)
  store : ∀ s t i v, i < s.cfg.pcmBufBytes → R s (storeFill t i v s)
  mark : ∀ s b, firstIn .filling s.st = some b → R s (markReady b s)
  claim : ∀ s b, firstIn .filling s.st = none → firstIn .stale s.st = some b → R s (setStOf b .filling s)

variable {R : State → State → Prop}

theorem FillKeeps.storeCells (h : FillKeeps R) (t : Side) (cells : List Host.Cell) (s : State) :
    R s (storeCells t cells s) := by
  induction cells generalizing s with
  | nil => exact h.refl s
  | cons c cells ih =>
    unfold Machine.storeCells
    refine h.trans _ _ _ ?_ (ih _)
    split
    · next hi => exact h.store s t _ _ hi
    · exact h.refl s

theorem FillKeeps.readInto (h : FillKeeps R) (r : Reading) (s : State) : R s (readInto r s).2 := by
  unfold Machine.readInto
  split
  · exact h.refl s
  · exact h.trans _ _ _ (h.storage s _) (h.storeCells _ _ _)
  · exact h.trans _ _ _ (h.storage s _) (h.storeCells _ _ _)
  · next reads _ =>
    have h1 : R s (advanceSource (Machine.storeCells r.target
        ((unwritten s.cfg.pcmBufBytes r.written).map (sourceCell s.storage)) (nextReads reads s))) :=
      h.trans _ _ _ (h.trans _ _ _ (h.storage s _) (h.storeCells _ _ _)) (h.storage _ _)
    dsimp only
    generalize advanceSource (Machine.storeCells r.target
        ((unwritten s.cfg.pcmBufBytes r.written).map (sourceCell s.storage)) (nextReads reads s)) = u at h1 ⊢
    rcases markFirstFilling_cases u with ⟨b, hb, e⟩ | ⟨-, -, e⟩ | ⟨-, -, e⟩ <;> rw [e]
    · exact h.trans _ _ _ h1 (h.mark u b hb)
    · exact h1
    · exact h.refl s

theorem FillKeeps.pollOnce (h : FillKeeps R) (s : State) : R s (pollOnce s).2 := by
  rcases pollOnce_cases s with ⟨b, hb, e⟩ | ⟨-, -, e⟩ <;> rw [e]
  · refine h.trans _ _ _ ?_ (h.readInto _ _)
    rcases hb with hb | ⟨hb, hs⟩
    · rw [← (firstIn_eq_some hb).1, Pair.set_get_self]; exact h.refl s
    · exact h.claim s b hb hs
  · exact h.refl s

theorem FillKeeps.fillLoop (h : FillKeeps R) (k : Nat) (s : State) : R s (fillLoop k s).2 := by
  induction k generalizing s with
  | zero => exact h.refl s
  | succ k ih =>
    unfold Machine.fillLoop
    split
    · exact h.refl s
    · have hp := h.pollOnce s
      split
      · next e => rw [e] at hp; exact h.trans _ _ _ hp (ih _)
      · next e => rw [e] at hp; exact hp
      · next e => rw [e] at hp; exact hp

theorem FillKeeps.resumeFill (h : FillKeeps R) (r : Option Reading) (s : State) : R s (resumeFill r s).2 := by
  unfold Machine.resumeFill
  split
  · exact h.fillLoop _ _
  · next r =>
    have hp := h.readInto r s
    split
    · next e => rw [e] at hp; exact h.trans _ _ _ hp (h.fillLoop _ _)
    · next e => rw [e] at hp; exact hp
    · next e => rw [e] at hp; exact hp

end Sys2Proof.Machine
end

