-- ==== Sys2Proof/Laws/Interrupt.lean ====
section
/-! SUPPORT. What the handler's actions can do, said once. -/

namespace Sys2Proof.Machine

/-- The handler's `rearm`, where it is not refused: the handler is cut after it, or pushes its job. -/
theorem handlerRearm_eq_next {c : Side} {s t : State} (h : handlerRearm c s = .next t) :
    rearmable c s = true ∧
    ((∃ cs, s.cuts = true :: cs ∧
        t = (((rearmChannel c s).setCuts cs).setHandler (some (.rearmed c))).setRes .waits) ∨
      ∃ cs, (s.cuts = false :: cs ∨ s.cuts = [] ∧ cs = []) ∧
        t = pushJob (jobOf c) ((rearmChannel c s).setCuts cs)) := by
  unfold handlerRearm at h
  split at h
  · next hr =>
    refine ⟨hr, ?_⟩
    rcases cutOr_cases (.rearmed c) (handlerPush c) (rearmChannel c s) with ⟨cs, e, hk⟩ | ⟨cs, e, hk⟩ | ⟨e, hk⟩
      <;> rw [hk] at h <;> cases h
    · exact .inl ⟨cs, e, rfl⟩
    · exact .inr ⟨cs, .inl e, rfl⟩
    · refine .inr ⟨[], .inr ⟨e, rfl⟩, ?_⟩
      rw [← e, State.setCuts_self]
  · cases h

/-- `irq_service(c)`: it waits; or it enters, acknowledges and is cut or goes on; or a cut handler of `c` goes on. -/
theorem execIrqService_eq_next {c : Side} {s t : State} (h : execIrqService c s = .next t) :
    t = s.setRes .waits ∨
    (irqTakeable c s = true ∧
      ((∃ cs, s.cuts = true :: cs ∧
          t = (((takeCompletion c s).setCuts cs).setHandler (some (.acknowledged c))).setRes .waits) ∨
        ∃ cs, (s.cuts = false :: cs ∨ s.cuts = [] ∧ cs = []) ∧
          handlerRearm c ((takeCompletion c s).setCuts cs) = .next t)) ∨
    (s.handler = some (.acknowledged c) ∧ handlerRearm c s = .next t) ∨
    (s.handler = some (.rearmed c) ∧ t = pushJob (jobOf c) s) := by
  unfold execIrqService at h
  split at h
  · split at h
    · next ht =>
      refine .inr (.inl ⟨ht, ?_⟩)
      rcases cutOr_cases (.acknowledged c) (handlerRearm c) (takeCompletion c s) with
        ⟨cs, e, hk⟩ | ⟨cs, e, hk⟩ | ⟨e, hk⟩ <;> rw [hk] at h
      · exact .inl ⟨cs, e, (next_inj.mp h).symm⟩
      · exact .inr ⟨cs, .inl e, h⟩
      · refine .inr ⟨[], .inr ⟨e, rfl⟩, ?_⟩
        rwa [← e, State.setCuts_self]
    · exact .inl (next_inj.mp h).symm
  · next d hd =>
    split at h
    · next hc => subst hc; exact .inr (.inr (.inl ⟨hd, h⟩))
    · exact .inl (next_inj.mp h).symm
  · next d hd =>
    split at h
    · next hc => subst hc; exact .inr (.inr (.inr ⟨hd, (next_inj.mp h).symm⟩))
    · exact .inl (next_inj.mp h).symm
  · exact .inl (next_inj.mp h).symm

end Sys2Proof.Machine
end

