-- ==== Sys2Proof/Laws/MemoryForm.lean ====
section
/-! SUPPORT. Every memory operation keeps the canonical form, and the state after reset has it. -/

namespace Sys2Proof.Machine

theorem reset_memories : Safety.MemoriesCanonical State.reset := by decide

/-- An old value joined to a memory of old values. -/
theorem OldValuesCanonical_write {α : Type} {m : Memory (List α)} (i : Nat) (l : List α) (x : α)
    (h : Safety.OldValuesCanonical m) : Safety.OldValuesCanonical (Memory.write m i (l ++ [x])) := by
  refine ⟨Memory.wf_write _ _ h.1, fun e he => ?_⟩
  rcases Memory.mem_write he with rfl | he
  · simp
  · exact h.2 e he

theorem OldValuesCanonical_nil {α : Type} : Safety.OldValuesCanonical ([] : Memory (List α)) :=
  ⟨rfl, fun _ h => by cases h⟩

theorem readPcm_memories {b : Side} {i : Nat} {s : State} (h : Safety.MemoriesCanonical s) :
    Safety.MemoriesCanonical (readPcm b i s).2 := by
  obtain ⟨n, e⟩ := readPcm_state b i s
  rw [e]; exact h

theorem readWire_memories {c : Side} {j : Nat} {s : State} (h : Safety.MemoriesCanonical s) :
    Safety.MemoriesCanonical (readWire c j s).2 := by
  obtain ⟨n, e⟩ := readWire_state c j s
  rw [e]; exact h

theorem writePcm_memories {b : Side} {i : Nat} {v : Byte} {s : State} (h : Safety.MemoriesCanonical s) :
    Safety.MemoriesCanonical (writePcm b i v s) := by
  rw [writePcm_eq]
  obtain ⟨a1, a2, a3, a4, a5, a6, a7, a8⟩ := h
  cases b
  · exact ⟨Memory.wf_write _ _ a1, a2, a3, a4, OldValuesCanonical_write _ _ _ a5, a6, a7, a8⟩
  · exact ⟨a1, Memory.wf_write _ _ a2, a3, a4, a5, OldValuesCanonical_write _ _ _ a6, a7, a8⟩

theorem writeWire_memories {c : Side} {j : Nat} {w : WireWord} {s : State} (h : Safety.MemoriesCanonical s) :
    Safety.MemoriesCanonical (writeWire c j w s) := by
  obtain ⟨O, e, hO⟩ := writeWire_eq c j w s
  rw [e]
  obtain ⟨a1, a2, a3, a4, a5, a6, a7, a8⟩ := h
  cases c
  · refine ⟨a1, a2, Memory.wf_write _ _ a3, a4, a5, a6, ?_, a8⟩
    rw [hO]; split
    exacts [OldValuesCanonical_write _ _ _ a7, a7]
  · refine ⟨a1, a2, a3, Memory.wf_write _ _ a4, a5, a6, a7, ?_⟩
    rw [hO]; split
    exacts [OldValuesCanonical_write _ _ _ a8, a8]

theorem publishPcm_memories {b : Side} {s : State} (h : Safety.MemoriesCanonical s) :
    Safety.MemoriesCanonical (publishPcm b s) := by
  obtain ⟨a1, a2, a3, a4, a5, a6, a7, a8⟩ := h
  cases b
  exacts [⟨a1, a2, a3, a4, OldValuesCanonical_nil, a6, a7, a8⟩, ⟨a1, a2, a3, a4, a5, OldValuesCanonical_nil, a7, a8⟩]

theorem popBarrier_memories {n : Nat} {s : State} (h : Safety.MemoriesCanonical s) :
    Safety.MemoriesCanonical (popBarrier n s) := by
  obtain ⟨a1, a2, a3, a4, a5, a6, a7, a8⟩ := h
  exact ⟨a1, a2, a3, a4, settleBefore_wf a5.1, settleBefore_wf a6.1, a7, a8⟩

theorem endWireRace_memories {c : Side} {s : State} (h : Safety.MemoriesCanonical s) :
    Safety.MemoriesCanonical (endWireRace c s) := by
  obtain ⟨a1, a2, a3, a4, a5, a6, a7, a8⟩ := h
  cases c
  exacts [⟨a1, a2, a3, a4, a5, a6, OldValuesCanonical_nil, a8⟩, ⟨a1, a2, a3, a4, a5, a6, a7, OldValuesCanonical_nil⟩]

theorem storeFill_memories {t : Side} {i : Nat} {v : Byte} {s : State} (h : Safety.MemoriesCanonical s) :
    Safety.MemoriesCanonical (storeFill t i v s) := by
  rw [storeFill_eq]
  exact writePcm_memories h

/-- A fill, whole or in parts, keeps the canonical form. -/
theorem fillKeeps_memories :
    FillKeeps fun s t => Safety.MemoriesCanonical s → Safety.MemoriesCanonical t where
  refl := fun _ => id
  trans := fun _ _ _ h1 h2 h => h2 (h1 h)
  storage := fun _ _ h => h
  store := fun _ _ _ _ _ h => storeFill_memories h
  mark := fun _ _ _ h => publishPcm_memories h
  claim := fun _ _ _ _ h => h

end Sys2Proof.Machine
end

