-- ==== Sys2Proof/Laws/PerInstr.lean ====
section
/-! SUPPORT. Statements made for every operation, one lemma per constructor. -/

namespace Sys2Proof.Laws

/-- A request is at least its command word and at most the longest request (30_encoding.md R86; log 3). -/
def EncodeLength.Statement (i : Instr) : Prop :=
  1 ≤ (encode i).length ∧ (encode i).length ≤ maxRequestBytes

theorem EncodeLength.setup : EncodeLength.Statement .setup := ⟨by decide, by decide⟩
theorem EncodeLength.start (src : Source) : EncodeLength.Statement (.start src) := by
  simp [EncodeLength.Statement, encode, nat32Bytes, maxRequestBytes]
theorem EncodeLength.stop : EncodeLength.Statement .stop := ⟨by decide, by decide⟩
theorem EncodeLength.poll : EncodeLength.Statement .poll := ⟨by decide, by decide⟩
theorem EncodeLength.isActive : EncodeLength.Statement .isActive := ⟨by decide, by decide⟩
theorem EncodeLength.acquireFillTarget : EncodeLength.Statement .acquireFillTarget := ⟨by decide, by decide⟩
theorem EncodeLength.markFilled : EncodeLength.Statement .markFilled := ⟨by decide, by decide⟩
theorem EncodeLength.consumeChunk (c : Side) : EncodeLength.Statement (.consumeChunk c) := by
  simp [EncodeLength.Statement, encode, maxRequestBytes]
theorem EncodeLength.encode (b : Side) (p : Nat) (c : Side) (q byteLen : Nat) :
    EncodeLength.Statement (.encode b p c q byteLen) := by
  simp [EncodeLength.Statement, Sys2Proof.encode, nat32Bytes, maxRequestBytes]
theorem EncodeLength.encodeSample (lo hi : Byte) : EncodeLength.Statement (.encodeSample lo hi) := by
  simp [EncodeLength.Statement, Sys2Proof.encode, maxRequestBytes]
theorem EncodeLength.dmaStart : EncodeLength.Statement .dmaStart := ⟨by decide, by decide⟩
theorem EncodeLength.dmaStop : EncodeLength.Statement .dmaStop := ⟨by decide, by decide⟩
theorem EncodeLength.rearm (c : Side) : EncodeLength.Statement (.rearm c) := by
  simp [EncodeLength.Statement, Sys2Proof.encode, maxRequestBytes]
theorem EncodeLength.dmaWord (c : Side) : EncodeLength.Statement (.dmaWord c) := by
  simp [EncodeLength.Statement, Sys2Proof.encode, maxRequestBytes]
theorem EncodeLength.irqService (c : Side) : EncodeLength.Statement (.irqService c) := by
  simp [EncodeLength.Statement, Sys2Proof.encode, maxRequestBytes]
theorem EncodeLength.push (j : Job) : EncodeLength.Statement (.push j) := by
  simp [EncodeLength.Statement, Sys2Proof.encode, maxRequestBytes]
theorem EncodeLength.workerPop : EncodeLength.Statement .workerPop := ⟨by decide, by decide⟩
theorem EncodeLength.fillWrite (b : Side) (i : Nat) (v : Byte) :
    EncodeLength.Statement (.fillWrite b i v) := by
  simp [EncodeLength.Statement, Sys2Proof.encode, nat32Bytes, maxRequestBytes]

end Sys2Proof.Laws
end

