-- ==== Sys2Proof/Laws/Stream.lean ====
section
/-! SUPPORT. The words that an encode writes, against the encoding of the bytes it reads. -/

namespace Sys2Proof.Machine

/-- Reading a wire entry after the four stores of one sample. -/
theorem wireEntry_storeWords (c c' : Side) (q j : Nat) (w : Words4) (s : State) :
    wireEntry (storeWords c q w s) c' j =
      if c' = c ∧ j = q then w.w0 else if c' = c ∧ j = q + 1 then w.w1
      else if c' = c ∧ j = q + 2 then w.w2 else if c' = c ∧ j = q + 3 then w.w3 else wireEntry s c' j := by
  simp only [storeWords, wireEntry_writeWire]
  by_cases h : c' = c
  · simp only [h, true_and]
    split_ifs <;> first | rfl | omega
  · simp [h]

theorem storeWords_draws (c : Side) (q : Nat) (w : Words4) (s : State) :
    (storeWords c q w s).draws = s.draws := by
  have h : ∀ (j : Nat) (x : WireWord) (s : State), (writeWire c j x s).draws = s.draws := fun j x s => by
    obtain ⟨O, h, -⟩ := writeWire_eq c j x s
    rw [h]; rfl
  simp only [storeWords, h]

theorem wireEntries_add (s : State) (c : Side) (q m n : Nat) :
    wireEntries s c q (m + n) = wireEntries s c q m ++ wireEntries s c (q + m) n := by
  unfold wireEntries
  rw [List.range_add, List.map_append, List.map_map]
  congr 1; apply List.map_congr_left; intro a _; simp [Nat.add_assoc]

theorem wireEntries_congr {s t : State} {c : Side} {q n : Nat}
    (h : ∀ j, q ≤ j → j < q + n → wireEntry s c j = wireEntry t c j) :
    wireEntries s c q n = wireEntries t c q n := by
  unfold wireEntries; apply List.map_congr_left; intro a ha; simp at ha; exact h _ (by omega) (by omega)

/-- One turn of the loop of `encode`: the sample of two bytes as they were read. -/
theorem encodeStep_reads (b : Side) (p : Nat) (c : Side) (q : Nat) (s : State) :
    ∃ lo hi n, (lo = pcmByte s b p ∨ ∃ old ∈ oldBytes s b p, lo = old.byte) ∧
      (hi = pcmByte s b (p + 1) ∨ ∃ old ∈ oldBytes s b (p + 1), hi = old.byte) ∧
      encodeStep b p c q s = storeWords c q (encodeSample s.ctx lo hi).1
        ((s.setDraws n).setCtx (encodeSample s.ctx lo hi).2) ∧
      (s.pcmOld.get b = [] → n = s.draws) := by
  obtain ⟨h1, n, hn, hd⟩ := readPcm_reads b p s
  obtain ⟨h2, m, hm, hd2⟩ := readPcm_reads b (p + 1) (readPcm b p s).2
  refine ⟨(readPcm b p s).1, (readPcm b (p + 1) (readPcm b p s).2).1, m, h1, ?_, ?_, ?_⟩
  · rw [hn] at h2 ⊢; exact h2
  · unfold encodeStep
    simp only
    rw [hm, hn]; rfl
  · intro h; rw [hn] at hd2; rw [hd2 h]; exact hd h

/-- The loop of `encode`: the words are the encoding of the bytes as they were read, the context is that of the
encoding, every other entry is as it was, and without a race nothing is drawn. -/
theorem encodeLoop_stream (b c : Side) (n p q : Nat) (s : State) :
    ∃ bytes : List Byte, bytes.length = 2 * n ∧ ReadsAs s b p bytes ∧
      wireEntries (encodeLoop b c n p q s) c q (4 * n) = (encodeStream s.ctx bytes).1 ∧
      (encodeLoop b c n p q s).ctx = (encodeStream s.ctx bytes).2 ∧
      (∀ c' j, c' ≠ c ∨ j < q ∨ q + 4 * n ≤ j →
        wireEntry (encodeLoop b c n p q s) c' j = wireEntry s c' j) ∧
      (s.pcmOld.get b = [] → (encodeLoop b c n p q s).draws = s.draws) := by
  induction n generalizing p q s with
  | zero => exact ⟨[], rfl, fun i hi => by simp at hi, rfl, rfl, fun _ _ _ => rfl, fun _ => rfl⟩
  | succ n ih =>
    obtain ⟨lo, hi, m, hlo, hhi, he, hd⟩ := encodeStep_reads b p c q s
    obtain ⟨bytes, hl, hr, hw, hc, ho, hdr⟩ := ih (p + 2) (q + 4) (encodeStep b p c q s)
    have hctx : (encodeStep b p c q s).ctx = (encodeSample s.ctx lo hi).2 := by rw [he, storeWords_ctx]; rfl
    have heq := (encodeStep_effect b p c q s).eq
    have hpcm : ∀ i, pcmByte (encodeStep b p c q s) b i = pcmByte s b i := fun i => by rw [heq]; rfl
    have hold : (encodeStep b p c q s).pcmOld = s.pcmOld := by rw [heq]; rfl
    rw [hctx] at hw hc
    have hloop : encodeLoop b c (n + 1) p q s = encodeLoop b c n (p + 2) (q + 4) (encodeStep b p c q s) := rfl
    rw [hloop]
    refine ⟨lo :: hi :: bytes, by simp [hl]; omega, ?_, ?_, hc, ?_, ?_⟩
    · intro i hi'
      match i with
      | 0 => exact hlo.imp (fun h => by simp [h]) fun ⟨o, h, e⟩ => ⟨o, h, by simp [e]⟩
      | 1 => exact hhi.imp (fun h => by simp [h]) fun ⟨o, h, e⟩ => ⟨o, h, by simp [e]⟩
      | i + 2 =>
        simp at hi'
        have := hr i (by omega)
        rw [hpcm, show ∀ k, oldBytes (encodeStep b p c q s) b k = oldBytes s b k from fun k => by
          simp only [oldBytes, hold]] at this
        rw [show p + (i + 2) = p + 2 + i by omega]
        simpa using this
    · rw [show 4 * (n + 1) = 4 + 4 * n by omega, wireEntries_add, hw]
      show _ = (encodeSample s.ctx lo hi).1.toList ++ _
      congr 1
      rw [wireEntries_congr (t := encodeStep b p c q s) fun j h1 h2 => ho c j (.inr (.inl (by omega)))]
      simp [wireEntries, List.range_succ, he, wireEntry_storeWords, Words4.toList]
    · intro c' j hj
      rw [ho c' j (hj.imp_right (Or.imp (by omega) (by omega))), he, wireEntry_storeWords]
      by_cases hcc : c' = c
      · have : j < q ∨ q + 4 * (n + 1) ≤ j := by tauto
        simp only [hcc, true_and]
        split_ifs <;> first | omega | rfl
      · simp [hcc]; rfl
    · intro h
      rw [hdr (by rw [hold]; exact h), he, storeWords_draws]
      exact hd h

end Sys2Proof.Machine
end

