-- ==== Sys2Proof/Tests/Slice0.lean ====
section
/-! SUPPORT. Tests with results from the spec (95_test_vectors.md names its vectors V-…), and for each
statement with hypotheses a state that meets them. -/

namespace Sys2Proof.Tests

open Sys2Proof.Machine

/-! Helpers: the scaled configuration of 95_test_vectors.md section 3, small states, one field of an outcome. -/

def cells (bytes : List Byte) : Memory Byte := bytes.zipIdx.map fun e => (e.2, e.1)

/-- `PCM_BUF_BYTES` = 32, `CHUNK_BYTES` = 8, `WIRE_WORDS` = 16, `QUEUE_DEPTH` = 1. -/
def scaled : Params := { Config.reference with pcmBufBytes := 32, chunkBytes := 8, wireWords := 16 }

def fill0 : List Byte :=
  [0x00#8, 0x00#8, 0x01#8, 0x00#8, 0xFF#8, 0x7F#8, 0x00#8, 0x80#8, 0xFF#8, 0xFF#8, 0x34#8, 0x12#8, 0x00#8,
   0x40#8, 0xFF#8, 0x00#8] ++ List.replicate 16 0#8

/-- After `setup` and two fills: both buffers `Ready`. -/
def filled (P : Params) (a b : List Byte) : State :=
  ((configure { State.reset with cfg := P }).setSt (both .ready)).setPcm { a := cells a, b := cells b }

def src1 : Source := { handle := 1, offset := 0, length := 0 }

def ready : State := filled scaled fill0 (List.replicate 32 0#8)
def readyZero : State := filled scaled (List.replicate 32 0#8) (List.replicate 32 0#8)

def withSt (a b : BufState) (s : State) : State := s.setSt { a := a, b := b }
def withReads (reads : List ReadOutcome) (s : State) : State := s.setStorage { s.storage with reads := reads }
def withCtx (sel : Side) (cur : Nat) (s : State) : State := s.setCtx { s.ctx with sel := sel, cur := cur }

/-- One zero sample's words in every four entries. -/
def zeroWire : Memory WireWord := (List.range 16).map fun j => (j, if j % 4 = 0 then 0xE2CC#16 else 0xCCCC#16)

def chan (armed busy : Bool) (rptr : Nat) : Chan :=
  { en := true, armed := armed, busy := busy, rptr := rptr, irqEn := true }

/-- Active, with the channels as given. -/
def active (a b : Chan) : State :=
  (((readyZero.setActive true).setCh { a := a, b := b }).setWire { a := zeroWire, b := zeroWire }).setCtx
    { sfcnt := 8#9, inv := false, sel := .A, cur := 16 }

def busyA (rptr : Nat) : State := active (chan false true rptr) (chan true false 0)
def busyB (rptr : Nat) : State := active (chan true false 0) (chan false true rptr)

/-- Run the requests of a trace, one a step. -/
def running (bytes : List Byte) (n : Nat) (s : State) : Out := Sys2Proof.core.run n (s.setTrace bytes)

/-- Something of the next state, if there is one. -/
def after {α : Type} (o : Out) (f : State → α) : Option α :=
  match o with
  | .next s => some (f s)
  | .fault _ => none
  | .refused _ => none

def refusal (o : Out) : Option Refusal :=
  match o with
  | .next _ => none
  | .fault _ => none
  | .refused r => some r

/-! Well-formedness: each check refuses an ill-formed term. -/

theorem test_wf_start_handle : (Instr.start { handle := 2 ^ 32, offset := 0, length := 0 }).wf = false := by decide
theorem test_wf_start_offset : (Instr.start { handle := 0, offset := 2 ^ 32, length := 0 }).wf = false := by decide
theorem test_wf_start_length : (Instr.start { handle := 0, offset := 0, length := 2 ^ 32 }).wf = false := by decide
theorem test_wf_encode_p : (Instr.encode .A (2 ^ 32) .A 0 0).wf = false := by decide
theorem test_wf_encode_q : (Instr.encode .A 0 .A (2 ^ 32) 0).wf = false := by decide
theorem test_wf_encode_byteLen : (Instr.encode .A 0 .A 0 (2 ^ 32)).wf = false := by decide
theorem test_wf_fillWrite_index : (Instr.fillWrite .A (2 ^ 32) 0#8).wf = false := by decide

/-! Decoding: each constructor from bytes written out from the table of 30_encoding.md R86; a number is four
bytes, low byte first (log 3). -/

theorem test_decode_setup : decode [0b00000000#8, 0xAA#8] = .ok (.setup, [0xAA#8]) := by decide  -- V-C1
theorem test_decode_start : decode [0b00000010#8, 0x04#8, 0x03#8, 0x02#8, 0x01#8, 0#8, 1#8, 0#8, 0#8, 0#8, 0#8, 0#8, 1#8] =
    .ok (.start { handle := 0x01020304, offset := 256, length := 0x01000000 }, []) := by decide
theorem test_decode_stop : decode [0b00000100#8] = .ok (.stop, []) := by decide
theorem test_decode_poll : decode [0b00000110#8] = .ok (.poll, []) := by decide
theorem test_decode_isActive : decode [0b00001000#8] = .ok (.isActive, []) := by decide
theorem test_decode_acquireFillTarget : decode [0b00001010#8] = .ok (.acquireFillTarget, []) := by decide
theorem test_decode_markFilled : decode [0b00001100#8] = .ok (.markFilled, []) := by decide
theorem test_decode_consumeChunk : decode [0b00001111#8] = .ok (.consumeChunk .B, []) := by decide  -- V-C2
theorem test_decode_encode : decode [0b00010000#8, 1#8, 2#8, 0#8, 0#8, 0#8, 0#8, 4#8, 0#8, 0#8, 0#8, 8#8, 0#8, 0#8, 0#8] =
    .ok (.encode .B 2 .A 4 8, []) := by decide
theorem test_decode_encodeSample : decode [0b00010010#8, 0x34#8, 0x12#8] =
    .ok (.encodeSample 0x34#8 0x12#8, []) := by decide
theorem test_decode_dmaStart : decode [0b00010100#8] = .ok (.dmaStart, []) := by decide
theorem test_decode_dmaStop : decode [0b00010110#8] = .ok (.dmaStop, []) := by decide
theorem test_decode_rearm : decode [0b00011001#8] = .ok (.rearm .B, []) := by decide
theorem test_decode_dmaWord : decode [0b00011010#8] = .ok (.dmaWord .A, []) := by decide
theorem test_decode_irqService : decode [0b00011100#8] = .ok (.irqService .A, []) := by decide  -- V-C3
theorem test_decode_push : decode [0b00011111#8] = .ok (.push .encodeB, []) := by decide  -- V-C4
theorem test_decode_workerPop : decode [0b00100000#8] = .ok (.workerPop, []) := by decide
theorem test_decode_fillWrite : decode [0b00100011#8, 0xFF#8, 0x1F#8, 0#8, 0#8, 0x34#8] =
    .ok (.fillWrite .B 0x1FFF 0x34#8, []) := by decide
theorem test_decode_channel_bit : decode [0x01#8] = .error (.reservedChannelBit 0x01#8) := by decide  -- V-C5
theorem test_decode_reserved : decode [0x24#8] = .error (.reservedOperation 0x24#8) ∧
    decode [0xFF#8] = .error (.reservedOperation 0xFF#8) := by decide  -- V-C6
theorem test_decode_truncated : decode [0x12#8, 0x34#8] = .error .truncated := by decide
theorem test_decode_side : decode [0x10#8, 2#8, 0#8, 0#8, 0#8, 0#8] = .error (.badSide 2#8) := by decide
theorem test_tableWord : decodeTableWord 8 0x120F = some (.consumeChunk .B) := by decide

/-! Tables and the encoder (V-T, V-E). -/

theorem test_biphase : [0x00#8, 0x01#8, 0x80#8, 0xFF#8, 0xA0#8, 0x91#8, 0xF8#8, 0x08#8, 0x0C#8].map biphase =
    [0xCCCC#16, 0xB333#16, 0xCCCD#16, 0xAAAA#16, 0xCCD2#16, 0xB34D#16, 0xCD55#16, 0xCD33#16, 0xCACC#16] := by
  decide  -- V-T1 to V-T6
theorem test_popcnt : [0x00#8, 0x26#8, 0x80#8, 0xFF#8].map popcnt = [0, 3, 1, 8] := by decide  -- V-T8
theorem test_subframe : subframe 0x34#8 0x12#8 = 0x8091A000#32 ∧ subframe 0x00#8 0x80#8 = 0x0C000000#32 ∧
    subframe 0xFF#8 0xFF#8 = 0x8FFFF800#32 ∧ subframe 0xFF#8 0x7F#8 = 0x83FFF800#32 := by decide  -- R100
theorem test_encodeSample : after (exec (.encodeSample 0x34#8 0x12#8) ready) (fun t => (t.res, t.ctx.sfcnt)) =
    some (.words { w0 := 0xE8CC#16, w1 := 0xCCD2#16, w2 := 0xB34D#16, w3 := 0x3332#16 }, 1#9) := by
  decide  -- V-E8
theorem test_encodeSample_wrap : encodeSample { sfcnt := 383#9, inv := true, sel := .A, cur := 0 } 0xFF#8 0xFF#8 =
    ({ w0 := 0x1B33#16, w1 := 0x32AA#16, w2 := 0xAAAA#16, w3 := 0xAACD#16 },
      { sfcnt := 0#9, inv := true, sel := .A, cur := 0 }) := by decide  -- V-E9 with `INV` = 1: complements
theorem test_encode : after (exec (.encode .A 0 .B 4 5) ready) (fun t => (wireEntries t .B 4 8, t.ctx.sfcnt)) =
    some ([0xE8CC#16, 0xCCCC#16, 0xCCCC#16, 0xCCCC#16, 0xE4CC#16, 0xCD33#16, 0x3333#16, 0x3332#16], 2#9) := by
  decide  -- P2, chunk 0; the odd byte is ignored (R101)

/-! The PCM buffers (V-B). -/

theorem test_acquire : after (exec .acquireFillTarget (withSt .ready .stale ready)) (fun t => (t.res, t.st)) =
    some (.buffer .B, { a := .ready, b := .filling }) := by decide  -- V-B3
theorem test_acquire_protocol : after (exec .acquireFillTarget (withSt .filling .stale ready))
    (fun t => (t.res, t.st, t.ghost.protocol)) = some (.buffer .B, both .filling, true) := by decide  -- V-B5
theorem test_markFilled : after (exec .markFilled (withSt .filling .filling ready)) (fun t => t.st) =
    some { a := .ready, b := .filling } := by decide  -- V-B10
theorem test_markFilled_idle : after (exec .markFilled (withSt .stale .ready ready)) (fun t => (t.st, t.res)) =
    some ({ a := .stale, b := .ready }, .none) := by decide  -- V-B11
set_option maxRecDepth 8000 in
theorem test_consumeChunk_end : after (exec (.consumeChunk .B) (withCtx .A 24 ready)) (fun t => (t.ctx, t.st)) =
    some ({ sfcnt := 4#9, inv := false, sel := .B, cur := 0 }, { a := .stale, b := .ready }) := by decide  -- V-B13
theorem test_consumeChunk_underrun : after (exec (.consumeChunk .A) (withSt .stale .ready ready))
    (fun t => (t.ctx.cur, t.st.a, t.ghost.underrun)) = some (8, .stale, true) := by decide  -- V-B15
theorem test_fillWrite : after (exec (.fillWrite .B 0 0x34#8) (withSt .ready .ready ready))
    (fun t => (pcmByte t .B 0, t.ghost.protocol)) = some (0x34#8, true) := by decide  -- V-B18

/-! The channels (V-X). -/

theorem test_dmaWord : after (exec (.dmaWord .A) (busyA 0)) (fun t => (t.line, t.ch.a.rptr)) =
    some ([0xE2CC#16], 1) := by decide  -- V-X1
theorem test_dmaWord_last : after (exec (.dmaWord .A) (busyA 15))
    (fun t => (t.ch, t.wpend, t.irq)) = some ({ a := chan false false 16, b := chan false true 0 },
      { a := true, b := false }, { a := true, b := false }) := by decide  -- V-X2
set_option maxRecDepth 8000 in
theorem test_dmaStart : after (exec .dmaStart ready) (fun t => (wireEntries t .A 4 8, wireEntries t .B 0 4, t.ctx)) =
    some ([0xE4CC#16, 0xCD33#16, 0x3333#16, 0x3332#16, 0xE2CC#16, 0xCD55#16, 0x5555#16, 0x5332#16],
      [0xE2CC#16, 0xCD55#16, 0x5555#16, 0x5532#16], { sfcnt := 8#9, inv := false, sel := .A, cur := 16 }) := by
  decide  -- P2 step 5
theorem test_dmaStart_notReady : refusal (exec .dmaStart (withSt .ready .stale ready)) = some .startNotReady := by
  decide  -- V-X10
theorem test_dmaStop : after (exec .dmaStop ((busyA 5).setQ [.encodeA]))
    (fun t => (t.ch.a.busy, t.ch.b.armed, t.q, t.pollCtx, t.active, t.st.b)) =
    some (false, false, [.encodeA], .inDmaStop, true, .ready) := by decide  -- P3, variant: the wait
set_option maxRecDepth 8000 in
theorem test_dmaStop_drains : after (running [0x16#8, 0x20#8, 0x16#8] 3 ((busyA 5).setQ [.encodeA]))
    (fun t => (t.ctx.sfcnt, t.ctx.cur, t.q, t.st, t.active)) = some (12#9, 24, [], both .stale, false) := by
  decide  -- P3, variant
theorem test_rearm : after (exec (.rearm .A) (active (chan false false 16) (chan false true 0))) (fun t => t.ch.a.armed) =
    some true := by decide  -- V-X6
theorem test_irqService : after (exec (.irqService .A)
      ((active (chan false false 16) (chan false true 0)).setIrq { a := true, b := false }))
    (fun t => (t.irq, t.ch.a.armed, t.q, t.res)) = some (both false, true, [.encodeA], .none) := by decide  -- V-X8
theorem test_rearm_held : after (exec (.rearm .A) ((active (chan false false 16) (chan false true 0)).setHandler
    (some (.held .encodeA)))) (fun t => (t.res, t.ch.a.armed)) = some (.waits, false) := by decide  -- R179, R207
/-- A transfer between the handler's rearm and its push, and one between its acknowledge and its rearm. -/
theorem test_irqService_cut : after (running [0x1C#8, 0x1B#8, 0x1C#8, 0x1B#8, 0x1C#8] 5
      (((active (chan false false 16) (chan false true 0)).setIrq { a := true, b := false }).setCuts [true, true]))
    (fun t => (t.irq.a, t.ch.a.armed, t.q, t.handler, t.line.length)) =
    some (false, true, [.encodeA], none, 2) := by decide  -- R177, R178, D16
theorem test_irqService_cut_state : after (exec (.irqService .A)
      (((active (chan false false 16) (chan false true 0)).setIrq { a := true, b := false }).setCuts [true]))
    (fun t => (t.irq.a, t.ch.a.armed, t.q, t.handler)) = some (false, false, [], some (.acknowledged .A)) := by decide
theorem test_irqService_held : after (exec (.irqService .B)
      (((active (chan false true 0) (chan false false 16)).setIrq { a := false, b := true }).setQ [.encodeA]))
    (fun t => (t.ch.b.armed, t.q, t.handler)) = some (true, [.encodeA], some (.held .encodeB)) := by decide  -- V-X9

/-! The dispatcher and the host operations (V-Q, V-H). -/

theorem test_push : after (exec (.push .encodeA) (busyA 0)) (fun t => t.q) = some [.encodeA] := by decide  -- V-Q1
theorem test_workerPop : after (exec .workerPop ((busyA 0).setQ [.encodeB])) (fun t => (t.q, t.wk, t.ctx.cur)) =
    some ([], .idle, 24) := by decide  -- V-Q3
set_option maxRecDepth 8000 in
theorem test_push_sees_write : after (running [0x22#8, 16#8, 0#8, 0#8, 0#8, 1#8, 0x1E#8, 0x20#8] 3 (busyA 0))
    (fun t => (wireEntry t .A 1, oldBytes t .A 16, t.draws)) = some (0xCD33#16, [], 0) := by
  decide  -- R58, R154: the byte written before the push; 0xCD33 as for sample 1 of P2
theorem test_workerPop_lifts : after (exec .workerPop (((busyA 0).setQ [.encodeA]).setHandler (some (.held .encodeB))))
    (fun t => (t.q, t.handler)) = some ([.encodeB], none) := by decide  -- V-Q2
theorem test_setup : after (exec .setup State.reset) (fun t => (t.res, t.setupDone, t.ch.a.irqEn, t.ch.b.irqEn)) =
    some (.ok, true, true, true) := by decide  -- V-H1
theorem test_setup_rejected :
    [{ Config.reference with chunkBytes := 1023 }, { Config.reference with pcmBufBytes := 8000 },
      { Config.reference with wireWords := 1024 }].map configValid = [false, false, false] := by
  decide  -- V-H2 to V-H4
set_option maxRecDepth 8000 in
theorem test_poll : after (exec .poll (withSt .filling .ready (withReads [.success] ready)))
    (fun t => (t.res, t.st, t.ghost.protocol)) = some (.bool true, both .ready, false) := by decide  -- V-H8
theorem test_poll_fails : after (exec .poll (withSt .stale .ready (withReads [.failure [(3, 7#8)]] ready)))
    (fun t => (t.res, t.st, pcmByte t .A 3)) = some (.bool false, { a := .filling, b := .ready }, 7#8) := by
  decide  -- V-H7
set_option maxRecDepth 8000 in
theorem test_poll_preempted : after (running [0x06#8, 0x1A#8, 0x06#8] 3 (withReads [.pending [0, 31], .success]
      (withSt .stale .ready (busyA 0)))) (fun t => (t.res, t.st, t.line.length, t.pollCtx, t.storage.pos)) =
    some (.bool true, both .ready, 1, .free, 32) := by decide  -- R177: a transfer inside the read
theorem test_before_setup : refusal (exec .acquireFillTarget State.reset) = some .startInvalid ∧
    refusal (exec (.push .encodeA) State.reset) = some .startInvalid ∧
    refusal (exec (.encodeSample 0#8 0#8) State.reset) = some .startInvalid ∧
    after (exec .isActive State.reset) (fun t => t.res) = some (.bool false) := by decide  -- U10, R201
/-- `setup` on a configuration that it rejects. -/
def rejectedState : State := ({ State.reset with cfg := { Config.reference with chunkBytes := 1023 } }).setRejected true
theorem test_rejected : exec .setup (rejectedState.setRejected false) = .next (rejectedState.setRes .configRejected) ∧
    [Instr.isActive, .stop, .poll].map (fun i => refusal (exec i rejectedState)) =
      [some .startInvalid, some .startInvalid, some .startInvalid] ∧
    after (exec .setup rejectedState) (fun t => t.res) = some .configRejected := ⟨rfl, by decide, by decide⟩  -- U20
theorem test_isActive : after (exec .isActive (busyA 0)) (fun t => t.res) = some (.bool true) := by decide  -- V-H9
theorem test_start : after (exec (.start src1) readyZero)
    (fun t => (t.active, t.ch.a.busy, t.ch.b.armed, wireEntries t .A 0 4)) =
    some (true, true, true, [0xE8CC#16, 0xCCCC#16, 0xCCCC#16, 0xCCCC#16]) := by decide  -- R108, S5
theorem test_start_waits : after (exec (.start src1) (withSt .stale .ready ready))
    (fun t => (t.pollCtx, t.st.a, t.active)) = some (.inStart none, .filling, false) := by decide  -- R161: it retries
theorem test_stop : after (exec .stop (busyA 5)) (fun t => (t.active, t.st, t.ch.a.busy, t.ch.b.armed)) =
    some (false, both .stale, false, false) := by decide  -- P3 step 2

/-- A state with its buffer A Filling and a queue two deep. -/
def filling (s : State) : State :=
  { s with st := { a := .filling, b := .ready }, cfg := { s.cfg with queueDepth := 2 } }

/-! Witnesses: for each statement with hypotheses, states and operands that meet them, at the ends of their ranges
and for each of its clauses. -/

theorem witness_DecodeEncodeRoundTrip :
    (Instr.start { handle := 2 ^ 32 - 1, offset := 2 ^ 32 - 1, length := 2 ^ 32 - 1 }).wf = true ∧
    (Instr.encode .B (2 ^ 32 - 1) .A (2 ^ 32 - 1) (2 ^ 32 - 1)).wf = true ∧
    (Instr.fillWrite .A (2 ^ 32 - 1) 0#8).wf = true := by decide
theorem witness_EncodeDecodeRoundTrip : decode [0x22#8, 0xFF#8, 0xFF#8, 0xFF#8, 0xFF#8, 0x34#8, 0x00#8] =
    .ok (.fillWrite .A (2 ^ 32 - 1) 0x34#8, [0x00#8]) := by decide
theorem witness_ReservedWordsRefused : 0x12 ≤ (0x24#8).toNat / 2 ∧ 0x12 ≤ (0xFF#8).toNat / 2 ∧
    (State.reset.setTrace [0x21#8]).trace = 0x21#8 :: [] ∧ ready.setupDone = true := by decide
theorem witness_StepRunsRequest : decode (State.reset.setTrace [0x00#8, 0x02#8]).trace = .ok (.setup, [0x02#8]) := by
  decide
theorem witness_EmptyTraceIdles : State.reset.trace = [] := rfl
theorem witness_PlacedWordRuns : decodeTableWord 8 0x23 = some (.fillWrite .B 0 0#8) := by decide

theorem witness_EncodeSampleResult : ready.setupDone = true := rfl
theorem witness_ReceiverRecoversSample : (busyA 0).setupDone = true := rfl
theorem witness_EncodeWritesWords : ready.setupDone = true ∧ jobRunning ready = false ∧ 1 / 2 = 0 ∧
    24 + 2 * (8 / 2) ≤ ready.cfg.pcmBufBytes ∧ 0 + 4 * (8 / 2) ≤ ready.cfg.wireWords ∧ ready.pcmOld.get .A = [] := by
  decide
theorem witness_EncodeRefusals : ready.setupDone = true ∧ (ready.setWk (.running .encodeA)).setupDone = true ∧ (ready.setWk (.running .encodeA)).wk = .running .encodeA ∧
    jobRunning ready = false ∧ 2 ≤ 2 ∧ ready.cfg.pcmBufBytes < 31 + 2 * (2 / 2) ∧ ready.cfg.wireWords < 13 + 4 * (2 / 2) := by
  decide
theorem witness_PreambleSequence : coldContext.sfcnt = 0#9 ∧ coldContext.inv = false ∧ 2 * 0 + 1 < [0x00#8, 0x00#8].length := by
  decide
theorem witness_ZeroInputStream : pollRuns readyZero = true ∧ jobRunning readyZero = false ∧
    readyZero.setupDone = true ∧ readyZero.active = false ∧ readyZero.st.a = .ready ∧ readyZero.st.b = .ready ∧
    configValid readyZero.cfg = true ∧ readyZero.pcmOld = { a := [], b := [] } ∧
    ∀ b, ∀ i < readyZero.cfg.pcmBufBytes, pcmByte readyZero b i = 0#8 :=
  ⟨by decide, by decide, by decide, by decide, by decide, by decide, by decide, by decide,
    fun b => by cases b <;> decide⟩

theorem witness_AcquireFillTarget : pollRuns ready = true ∧ ready.setupDone = true ∧ (withSt .stale .filling ready).st.a = .stale ∧
    ((withSt .filling .stale ready).st.a ≠ .stale ∧ (withSt .filling .stale ready).st.b = .stale) ∧
    (ready.st.a ≠ .stale ∧ ready.st.b ≠ .stale) := by decide
theorem witness_MarkFilled : pollRuns ready = true ∧ ready.setupDone = true ∧ (withSt .filling .filling ready).st.a = .filling ∧
    ((withSt .ready .filling ready).st.a ≠ .filling ∧ (withSt .ready .filling ready).st.b = .filling) ∧
    (ready.st.a ≠ .filling ∧ ready.st.b ≠ .filling ∧ ready.cfg.markFilledIdle = .noop) ∧
    (filled { scaled with markFilledIdle := .refuse } [] []).cfg.markFilledIdle = .refuse := by decide
theorem witness_ConsumeChunk : ready.setupDone = true ∧ jobRunning ready = false ∧ configValid ready.cfg = true ∧
    ready.ctx.cur + ready.cfg.chunkBytes < ready.cfg.pcmBufBytes ∧
    (withCtx .A 24 ready).ctx.cur + ready.cfg.chunkBytes = ready.cfg.pcmBufBytes := by decide
theorem witness_FillWrite : ready.setupDone = true ∧ 0 < ready.cfg.pcmBufBytes ∧ 31 < ready.cfg.pcmBufBytes := by decide
theorem witness_FillWriteOutside : ready.setupDone = true ∧ ready.cfg.pcmBufBytes ≤ 32 := by decide

theorem witness_DmaWordMidBuffer : ((busyA 14).ch.get .A).en = true ∧ ((busyA 14).ch.get .A).busy = true ∧
    ((busyA 14).ch.get .A).rptr + 1 < (busyA 14).cfg.wireWords ∧
    oldEntries (busyA 14) .A 14 = [] ∧
    oldEntries ((busyA 14).setWireOld { a := [(14, [0#16])], b := [] }) .A 14 = [0#16] := by decide
theorem witness_DmaWordLast : ((busyA 15).ch.get .A).en = true ∧ ((busyA 15).ch.get .A).busy = true ∧
    ((busyA 15).ch.get .A).rptr + 1 = (busyA 15).cfg.wireWords ∧
    ((active (chan false true 15) setupChan).ch.get (Side.other .A)).en = false ∧
    ((active (chan false true 15) (chan false false 0)).ch.get (Side.other .A)).armed = false ∧
    ((busyA 15).ch.get (Side.other .A)).en = true ∧ ((busyA 15).ch.get (Side.other .A)).armed = true := by decide
/-- A buffer of four chunks, of one and of two. -/
theorem witness_DmaStart : pollRuns ready = true ∧ jobRunning ready = false ∧ ready.setupDone = true ∧
    ready.active = false ∧ ready.st.a = .ready ∧ ready.st.b = .ready ∧ configValid ready.cfg = true ∧
    configValid { scaled with pcmBufBytes := 8 } = true ∧ configValid { scaled with pcmBufBytes := 16 } = true := by
  decide
theorem witness_StartRefusals : pollRuns State.reset = true ∧ State.reset.setupDone = false ∧
    pollRuns (busyA 0) = true ∧ (busyA 0).active = true ∧ pollRuns ready = true ∧ ready.setupDone = true ∧
    ready.active = false ∧ (withSt .stale .ready ready).st.a ≠ .ready ∧ (withSt .ready .filling ready).st.b ≠ .ready := by
  decide
theorem witness_Rearm : (active (chan false false 16) (chan false true 0)).setupDone = true ∧
    (active (chan false false 16) (chan false true 0)).handler = none ∧ ((active (chan false false 16) (chan false true 0)).ch.get .A).busy = false ∧
    ((active (chan false false 16) (chan false true 0)).ch.get .A).armed = false ∧
    ((busyA 0).ch.get .A).busy = true ∧ ((busyA 0).ch.get .B).armed = true := by decide
theorem witness_StopIdleDispatcher : pollRuns (busyA 5) = true ∧ (busyA 5).q = [] ∧ jobRunning (busyA 5) = false ∧
    (busyA 5).setupDone = true ∧ spared (busyA 5) = true ∧ spared State.reset = true := by
  decide
theorem witness_StopDrainsAndEnds : ∀ i ∈ [Instr.dmaStop, .stop],
    let s := ((busyA 5).setQ [.encodeA]).setTrace (encode i ++ [commandWord 0x10 false] ++ encode i)
    Safety.Inv s ∧ s.setupDone = true ∧ pollRuns s = true ∧ Safety.IsStop i ∧
    s.trace = encode i ++ List.replicate s.q.length (commandWord 0x10 false) ++ encode i ++ [] := by
  intro i hi
  simp only [List.mem_cons, List.not_mem_nil, or_false] at hi
  obtain rfl | rfl := hi
  · exact ⟨⟨by decide, by decide, by decide, by decide, by decide, by decide, by decide, by decide, by decide, by decide⟩, rfl, rfl, .inl rfl, rfl⟩
  · exact ⟨⟨by decide, by decide, by decide, by decide, by decide, by decide, by decide, by decide, by decide, by decide⟩, rfl, rfl, .inr rfl, rfl⟩
/-- Begun with a job queued and with one running; asked again; ended. -/
theorem witness_StopWaitsForWorker :
    let s := (busyA 5).setQ [.encodeA]
    s.handler = none ∧ s.setupDone = true ∧ s.q ≠ [] ∧ s.pollCtx = .free ∧
    jobRunning ((busyA 5).setWk (.running .encodeA)) = true ∧
    (s.setPollCtx .inStop).pollCtx = .inStop ∧ (s.setPollCtx .inDmaStop).pollCtx = .inDmaStop ∧
    ((busyA 5).setPollCtx .inStop).q = [] ∧ jobRunning ((busyA 5).setPollCtx .inStop) = false ∧
    ((busyA 5).setPollCtx .inDmaStop).pollCtx = .inDmaStop := by decide

theorem witness_Push : (busyA 0).setupDone = true ∧ (busyA 0).handler = none ∧ (busyA 0).q.length < (busyA 0).cfg.queueDepth ∧
    (busyA 0).cfg.queueDepth ≤ ((busyA 0).setQ [.encodeB]).q.length := by decide
theorem witness_WorkerPop : (busyA 0).setupDone = true ∧ (busyA 0).wk = .idle ∧ ((busyA 0).setQ [.encodeB]).q = .encodeB :: [] ∧
    (((busyA 0).setQ [.encodeA]).setHandler (some (.held .encodeB))).handler = some (.held .encodeB) ∧
    configValid (busyA 0).cfg = true ∧ (busyA 0).ctx.cur + (busyA 0).cfg.chunkBytes ≤ (busyA 0).cfg.pcmBufBytes := by
  decide
/-- Behind a queued job, with a byte written and not published. -/
theorem witness_PushedWritesVisible :
    let s := ((storeFill .A 24 1#8 (filling (busyA 0))).setQ [.encodeB]).setTrace
      (encode (.push .encodeA) ++ [0x20#8, 0x20#8])
    Safety.Inv s ∧ s.setupDone = true ∧ s.handler = none ∧ s.q.length < s.cfg.queueDepth ∧
    s.trace = encode (.push .encodeA) ++ List.replicate (s.q.length + 1) (commandWord 0x10 false) ++ [] :=
  ⟨⟨by decide, by decide, by decide, by decide, by decide, by decide, by decide, by decide, by decide, by decide⟩, rfl, rfl, by decide, rfl⟩
theorem witness_Setup : pollRuns ready = true ∧ ready.setupDone = true ∧ pollRuns State.reset = true ∧
    State.reset.setupDone = false ∧ State.reset.cfg.chunkBytes % 2 ≠ 1 ∧ State.reset.cfg.chunkBytes ≠ 0 ∧
    State.reset.cfg.pcmBufBytes % State.reset.cfg.chunkBytes = 0 ∧ State.reset.cfg.pcmBufBytes ≠ 0 ∧
    State.reset.cfg.wireWords = 2 * State.reset.cfg.chunkBytes ∧
    ({ State.reset with cfg := { Config.reference with chunkBytes := 1023 } } : State).cfg.chunkBytes % 2 = 1 ∧
    ({ State.reset with cfg := { Config.reference with wireWords := 2047 } } : State).cfg.wireWords ≠ 2 * 1024 := by
  decide
/-- After a rejected configuration and at power-on. -/
theorem witness_BeforeSetupRefused : State.reset.setupDone = false ∧ pollRuns State.reset = true ∧
    State.reset.rejected = false ∧ State.reset.q = [] ∧ jobRunning State.reset = false ∧
    rejectedState.setupDone = false ∧ pollRuns rejectedState = true ∧ rejectedState.rejected = true ∧
    configValid rejectedState.cfg = false := by decide
/-- Failures between the two reads that succeed; both buffers Ready already. -/
theorem witness_StartFillsThenLaunches :
    let front := [.failure [(31, 7#8)], .success, .failure [], .success]
    let s := withSt .filling .stale (withReads (front ++ [.success]) ready)
    pollRuns s = true ∧ jobRunning s = false ∧ s.setupDone = true ∧ s.active = false ∧ configValid s.cfg = true ∧
    s.storage.reads = front ++ [.success] ∧ (∀ r ∈ front, r = .success ∨ ∃ cells, r = .failure cells) ∧
    (front.filter fun r => decide (r = .success)).length =
      (if s.st.a = .ready then 0 else 1) + (if s.st.b = .ready then 0 else 1) ∧
    front.getLast? = some .success ∧
    (if ready.st.a = .ready then 0 else 1) + (if ready.st.b = .ready then 0 else 1) = 0 := by
  refine ⟨by decide, by decide, by decide, by decide, by decide, by decide, ?_, by decide, by decide, by decide⟩
  intro r hr
  simp only [List.mem_cons, List.not_mem_nil, or_false] at hr
  obtain rfl | rfl | rfl | rfl := hr
  · exact .inr ⟨_, rfl⟩
  · exact .inl rfl
  · exact .inr ⟨_, rfl⟩
  · exact .inl rfl
set_option maxRecDepth 8000 in
/-- Begun; between two reads with both buffers Ready and not; inside a read that goes on and that ends. -/
theorem witness_StartIsItsLoop :
    (pollRuns ready = true ∧ ready.setupDone = true ∧ ready.active = false ∧ ready.st = { a := .ready, b := .ready }) ∧
    let s := bindSource src1 ready
    (s.handler = none ∧ (s.setPollCtx (.inStart none)).pollCtx = .inStart none ∧ s.storage.bound = some src1) ∧
    (withSt .stale .ready s).st ≠ { a := .ready, b := .ready } ∧
    (∃ u, exec .poll (withSt .filling .ready (withReads [.pending [3]] (s.setPollCtx (.inPoll (newReading .A))))) = .next u ∧
      u.pollCtx = .inPoll { target := .A, written := [3] }) ∧
    ∃ u, exec .poll (withSt .filling .ready (withReads [.success] (s.setPollCtx (.inPoll (newReading .A))))) = .next u ∧
      u.pollCtx = .free :=
  ⟨by decide, by decide, by decide, ⟨_, rfl, rfl⟩, _, rfl, rfl⟩
/-- Begun; gone on with between two reads and inside one. -/
theorem witness_StartWaitsForStorage :
    let s := withSt .filling .stale (withReads [.failure [(3, 1#8)]] (bindSource src1 ready))
    s.active = false ∧ s.handler = none ∧ s.pollCtx = .free ∧ s.setupDone = true ∧
    (s.setPollCtx (.inStart none)).pollCtx = .inStart none ∧ s.storage.bound = some src1 ∧
    (s.setPollCtx (.inStart (some (newReading .A)))).pollCtx = .inStart (some (newReading .A)) ∧
    s.st.get (newReading .A).target = .filling ∧ s.st.a ≠ .ready ∧ ∀ r ∈ s.storage.reads, ∃ cells, r = .failure cells :=
  ⟨by decide, by decide, by decide, by decide, by decide, by decide, by decide, by decide, by decide,
    fun r h => ⟨[(3, 1#8)], List.mem_singleton.mp h⟩⟩
theorem witness_PollNoTarget : pollRuns ready = true ∧ spared ready = true ∧ ready.st = { a := .ready, b := .ready } := by decide
/-- Begun with a buffer left Filling and with none; gone on with. -/
theorem witness_PollFills : ready.handler = none ∧ ready.pollCtx = .free ∧ spared ready = true ∧
    firstIn .filling (withSt .stale .filling ready).st = some .B ∧
    (firstIn .filling (withSt .ready .stale ready).st = none ∧ firstIn .stale (withSt .ready .stale ready).st = some .B) ∧
    (ready.setPollCtx (.inPoll { target := .B, written := [31] })).pollCtx = .inPoll { target := .B, written := [31] } ∧
    (withReads [.success] ready).storage.reads = .success :: [] := by decide
theorem witness_PollReadFails : ready.handler = none ∧ ready.pollCtx = .free ∧ spared ready = true ∧
    firstIn .filling (withSt .filling .ready ready).st = some .A ∧
    (firstIn .filling (withSt .stale .stale ready).st = none ∧ firstIn .stale (withSt .stale .stale ready).st = some .A) ∧
    (ready.setPollCtx (.inPoll (newReading .B))).pollCtx = .inPoll (newReading .B) ∧ (newReading .B).target = .B ∧
    (withSt .ready .filling ready).st.get .B = .filling ∧
    ready.storage.reads = [] ∧ (withReads [.failure [(31, 1#8)]] ready).storage.reads = .failure [(31, 1#8)] :: [] := by
  decide
/-- A read begun, and one gone on with. -/
theorem witness_PollReadGoesOn :
    (let s := withSt .stale .ready (withReads [.pending [0, 31, 40]] ready)
     s.handler = none ∧ s.pollCtx = .free ∧ spared s = true ∧ firstIn .filling s.st = none ∧
      firstIn .stale s.st = some (newReading .A).target ∧ (newReading .A).written = [] ∧
      (s.setSt (s.st.set .A .filling)).st.get .A = .filling ∧ s.storage.reads = .pending [0, 31, 40] :: []) ∧
    let s := withSt .ready .filling ((withReads [.pending [], .success] ready).setPollCtx
      (.inPoll { target := .B, written := [31] }))
    s.handler = none ∧ s.pollCtx = .inPoll { target := .B, written := [31] } ∧ s.st.get .B = .filling ∧
      s.storage.reads = .pending [] :: [.success] := by decide
theorem witness_SplitPollIsWholePoll :
    let s := withSt .ready .stale (withReads [.pending [31, 0, 31], .success] ready)
    pollRuns s = true ∧ spared s = true ∧ s.st ≠ { a := .ready, b := .ready } ∧
    s.storage.reads = .pending [31, 0, 31] :: .success :: [] := by decide
theorem witness_IsActive : pollRuns State.reset = true ∧ spared State.reset = true := by decide

/-- Channel A idle with its latch set. -/
def latched (q : List Job) : State :=
  ((active (chan false false 16) (chan false true 0)).setIrq { a := true, b := false }).setQ q

theorem witness_IrqService : (latched []).irq.get .A = true ∧ (latched []).intEn = true ∧ (latched []).handler = none ∧
    ((latched []).ch.get .A).busy = false ∧ ((latched []).ch.get .A).armed = false ∧
    (latched []).q.length < (latched []).cfg.queueDepth ∧
    (latched [.encodeB]).cfg.queueDepth ≤ (latched [.encodeB]).q.length ∧
    (∀ b ∈ ((latched []).setCuts [false, false, true]).cuts.take 2, b = false) ∧
    ((latched []).setCuts [true]).cuts = true :: [] ∧ ((latched []).setCuts [false, true]).cuts = false :: true :: [] ∧
    ((latched []).setHandler (some (.acknowledged .A))).handler = some (.acknowledged .A) ∧
    (∀ b ∈ ((latched []).setCuts [false, true]).cuts.take 1, b = false) ∧
    ((latched []).setHandler (some (.rearmed .A))).handler = some (.rearmed .A) := by decide
theorem witness_IrqServiceNotIdle : ((busyA 0).setIrq (both true)).irq.get .A = true ∧ (busyA 0).intEn = true ∧
    (busyA 0).handler = none ∧ ((busyA 0).ch.get .A).busy = true ∧ ((busyA 0).ch.get .B).armed = true ∧
    (busyA 0).cuts.head? ≠ some true ∧
    ((busyA 0).setHandler (some (.acknowledged .A))).handler = some (.acknowledged .A) := by decide
theorem witness_HeldHandlerStopsPrimaryCore :
    ((latched [.encodeB]).setHandler (some (.held .encodeA))).handler = some (.held .encodeA) ∧
    HandlerAt.rearmed .A ≠ .acknowledged .B ∧ HandlerAt.rearmed .A ≠ .rearmed .B ∧ (latched [.encodeB]).setupDone = true ∧
    (ready.setPollCtx .inStop).pollCtx ≠ .free ∧ (ready.setPollCtx .inDmaStop).pollCtx ≠ .inStop ∧
    (ready.setPollCtx .inStop).pollCtx ≠ .inDmaStop ∧
    (∀ r, (ready.setPollCtx .inStop).pollCtx ≠ .inPoll r ∧ (ready.setPollCtx .inStop).pollCtx ≠ .inStart r) ∧
    (ready.setPollCtx (.inStart none)).storage.bound ≠ some src1 := by
  refine ⟨rfl, by decide, by decide, rfl, by decide, by decide, by decide, fun r => ⟨?_, ?_⟩, by decide⟩ <;> exact nofun
theorem witness_DisabledStepsWait : ((busyA 0).ch.get .B).busy = false ∧ (State.reset.ch.get .A).en = false ∧
    State.reset.wk ≠ .idle ∧ (busyA 0).q = [] ∧ (busyA 0).irq.get .A = false ∧ State.reset.intEn = false ∧
    State.reset.handler = none ∧ (busyA 0).handler = none ∧
    ((latched []).setHandler (some (.rearmed .A))).handler ≠ none ∧
    ((latched []).setHandler (some (.rearmed .A))).handler ≠ some (.acknowledged .B) ∧
    ((latched []).setHandler (some (.rearmed .A))).handler ≠ some (.rearmed .B) := by decide

/-- A last transfer in a state with the invariants. -/
theorem witness_StepKeepsInvariant : Safety.Inv ((busyA 15).setTrace [0x1A#8]) ∧
    ∃ t, step ((busyA 15).setTrace [0x1A#8]) = .next t ∧ t.ch.b.busy = true :=
  ⟨⟨by decide, by decide, by decide, by decide, by decide, by decide, by decide, by decide, by decide, by decide⟩, _, rfl, by decide⟩
theorem witness_GhostFaultsStickyAndSourced :
    (∃ t, exec (.dmaWord .A) ((busyA 15).setWpend (both true)) = .next t ∧ t.ghost.overrun = true) ∧
    (∃ t, exec (.dmaWord .A) (active (chan false true 15) (chan false false 0)) = .next t ∧ t.ghost.chainUnarmed = true) ∧
    (∃ t, exec (.consumeChunk .A) (withSt .stale .ready ready) = .next t ∧ t.ghost.underrun = true) ∧
    (∃ t, exec (.fillWrite .A 31 0#8) ready = .next t ∧ t.ghost.protocol = true) ∧
    ∃ t, exec .poll ((withReads [.failure [(0, 7#8)]] ready).setPollCtx (.inPoll (newReading .A))) = .next t ∧
      t.ghost.protocol = true :=
  ⟨⟨_, rfl, by decide⟩, ⟨_, rfl, by decide⟩, ⟨_, rfl, by decide⟩, ⟨_, rfl, by decide⟩, _, rfl, by decide⟩
theorem witness_LineOnlyGrows : (∃ t, exec (.dmaWord .A) (busyA 0) = .next t ∧ t.line = [] ++ [0xE2CC#16]) ∧
    ∃ t, exec .dmaStart (ready.setLine [0#16]) = .next t ∧ t.line = [] ∧ t.res = .none :=
  ⟨⟨_, rfl, by decide⟩, _, rfl, by decide, by decide⟩
theorem witness_ActiveAndSetupDoneWriters : (∃ t, exec .dmaStart ready = .next t ∧ t.active = true ∧ t.res = .none) ∧
    (∃ t, exec .stop (busyA 5) = .next t ∧ t.active = false ∧ t.res = .none) ∧
    ∃ t, exec .setup State.reset = .next t ∧ t.setupDone = true ∧ t.res = .ok :=
  ⟨⟨_, rfl, by decide, by decide⟩, ⟨_, rfl, by decide, by decide⟩, _, rfl, by decide, by decide⟩
set_option maxRecDepth 8000 in
theorem witness_BufferTransitions :
    (∃ t, exec .acquireFillTarget (withSt .stale .ready ready) = .next t ∧ t.st.get .A ≠ .stale) ∧
    (∃ t, exec .markFilled (withSt .filling .ready ready) = .next t ∧ t.st.get .A ≠ .filling) ∧
    (∃ t, exec .poll (withSt .ready .stale (withReads [.success] ready)) = .next t ∧ t.st.get .B ≠ .stale) ∧
    (∃ t, exec (.consumeChunk .B) (withCtx .A 24 ready) = .next t ∧ t.st.get .A ≠ .ready) ∧
    (∃ t, exec .dmaStop ready = .next t ∧ t.st.get .B ≠ .ready) ∧
    (∃ t, exec .dmaStart (filled { scaled with pcmBufBytes := 16 } fill0 []) = .next t ∧ t.st.get .A = .stale) ∧
    (∃ t, exec (.start src1) (withSt .stale .ready ready) = .next t ∧ t.st.get .A = .filling) ∧
    ∃ t, exec (.start src1) (withSt .filling .stale (withReads [.success] ready)) = .next t ∧ t.st.get .A = .ready :=
  ⟨⟨_, rfl, by decide⟩, ⟨_, rfl, by decide⟩, ⟨_, rfl, by decide⟩, ⟨_, rfl, by decide⟩, ⟨_, rfl, by decide⟩,
    ⟨_, rfl, by decide⟩, ⟨_, rfl, by decide⟩, _, rfl, by decide⟩
theorem witness_OwnershipOfState :
    (∃ t, exec (.encodeSample 0#8 0#8) ready = .next t ∧ t.ctx ≠ ready.ctx) ∧
    (∃ t, exec (.fillWrite .A 0 1#8) ready = .next t ∧ t.pcm ≠ ready.pcm) ∧
    (∃ t, exec (.dmaWord .A) (busyA 15) = .next t ∧ (t.ch.get .B).armed ≠ ((busyA 15).ch.get .B).armed) ∧
    (∃ t, exec (.push .encodeA) ready = .next t ∧ t.q ≠ ready.q) ∧
    (∃ t, exec .setup (rejectedState.setRejected false) = .next t ∧ t.rejected = true) ∧
    (∃ t, exec .setup State.reset = .next t ∧ t.wk ≠ State.reset.wk ∧ t.intEn ≠ State.reset.intEn) ∧
    (∃ t, exec (.dmaWord .A) (busyA 15) = .next t ∧ (busyA 15).wpend.get .A = false ∧ t.wpend.get .A = true) ∧
    (∃ t, exec .workerPop (((busyA 0).setWpend (both true)).setQ [.encodeB]) = .next t ∧ t.wpend.get .B = false) ∧
    (∃ t, exec (.push .encodeA) (latched [.encodeB]) = .next t ∧ t.handler = some (.held .encodeA)) ∧
    (∃ t, exec (.irqService .A) ((latched []).setCuts [true]) = .next t ∧ t.cuts = []) ∧
    (∃ t, exec .poll (withSt .stale .ready (withReads [.pending []] ready)) = .next t ∧ t.pollCtx ≠ .free ∧
      t.storage.reads = []) ∧
    ∃ t, exec (.consumeChunk .A) (busyA 5) = .next t ∧ t.wireOld ≠ (busyA 5).wireOld :=
  ⟨⟨_, rfl, by decide⟩, ⟨_, rfl, by decide⟩, ⟨_, rfl, by decide⟩, ⟨_, rfl, by decide⟩, ⟨_, rfl, rfl⟩, ⟨_, rfl, by decide, by decide⟩,
    ⟨_, rfl, by decide, by decide⟩, ⟨_, rfl, by decide⟩, ⟨_, rfl, by decide⟩, ⟨_, rfl, by decide⟩, ⟨_, rfl, by decide, by decide⟩, _, rfl,
    by decide⟩
theorem witness_InterruptLatchWriters :
    (∃ t, exec (.dmaWord .A) (busyA 15) = .next t ∧ (busyA 15).irq.get .A = false ∧ t.irq.get .A = true) ∧
    ∃ t, exec (.irqService .A) (latched []) = .next t ∧ (latched []).irq.get .A = true ∧ t.irq.get .A = false :=
  ⟨⟨_, rfl, by decide, by decide⟩, _, rfl, by decide, by decide⟩
/-- The same data with another past. -/
theorem witness_RestartForgetsThePast :
    let past := (withCtx .B 24 readyZero).setLine [0#16]
    readyZero.cfg = past.cfg ∧ configValid readyZero.cfg = true ∧ readyZero.pcmOld = { a := [], b := [] } ∧
    past.pcmOld = { a := [], b := [] } ∧ past.pcm = readyZero.pcm ∧
    ((readyZero.ch.get .A).irqEn = (past.ch.get .A).irqEn ∧ (readyZero.ch.get .A).busy = false) ∧
    (∃ t, exec .dmaStart readyZero = .next t ∧ t.res = .none) ∧ ∃ t, exec .dmaStart past = .next t ∧ t.res = .none :=
  ⟨rfl, by decide, rfl, rfl, rfl, by decide, ⟨_, rfl, by decide⟩, _, rfl, by decide⟩

theorem witness_WholeBufferSent :
    let s := (busyA 0).setTrace (List.replicate 16 0x1A#8)
    0 < s.cfg.wireWords ∧ (s.ch.get .A).en = true ∧ (s.ch.get .A).busy = true ∧ (s.ch.get .A).rptr = 0 ∧
    s.wireOld.get .A = [] ∧ s.trace = List.replicate s.cfg.wireWords (commandWord 0x0D (Side.bit .A)) ++ [] ∧
    (s.ch.get .A).irqEn = true ∧ (s.ch.get (Side.other .A)).en = true ∧ (s.ch.get (Side.other .A)).armed = true := by
  decide
theorem witness_ChainHalfCycle :
    let s := (busyA 0).setTrace (halfCycle 16 .A)
    Safety.Inv s ∧ s.active = true ∧ s.handler = none ∧ (∀ x ∈ s.cuts, x = false) ∧ s.q = [] ∧ 1 ≤ s.cfg.queueDepth ∧
    s.irq = { a := false, b := false } ∧ s.wpend = { a := false, b := false } ∧ s.wireOld.get .A = [] ∧
    (s.ch.get .A).busy = true ∧ (s.ch.get .A).rptr = 0 ∧ (s.ch.get (Side.other .A)).en = true ∧
    (s.ch.get (Side.other .A)).armed = true ∧ s.st.get s.ctx.sel = .ready ∧ s.pcmOld.get s.ctx.sel = [] ∧
    s.trace = halfCycle s.cfg.wireWords .A ++ [] :=
  ⟨⟨by decide, by decide, by decide, by decide, by decide, by decide, by decide, by decide, by decide, by decide⟩, by decide, by decide, by decide,
    by decide, by decide, by decide, by decide, by decide, by decide, by decide, by decide, by decide, by decide,
    by decide, by decide⟩
/-- Six of the eight chunks of two fills. -/
theorem witness_LineIsEncodingOfTheStream :
    let s := ready.setTrace (encode .dmaStart ++ halfCycles 16 6 .A)
    Safety.Inv s ∧ s.setupDone = true ∧ s.active = false ∧ pollRuns s = true ∧ (∀ x ∈ s.cuts, x = false) ∧ s.q = [] ∧
    1 ≤ s.cfg.queueDepth ∧ s.st = { a := .ready, b := .ready } ∧ s.pcmOld = { a := [], b := [] } ∧
    (6 + 2) * s.cfg.chunkBytes ≤ 2 * s.cfg.pcmBufBytes ∧
    s.trace = encode .dmaStart ++ halfCycles s.cfg.wireWords 6 .A ++ [] :=
  ⟨⟨by decide, by decide, by decide, by decide, by decide, by decide, by decide, by decide, by decide, by decide⟩, by decide, by decide, by decide, by decide, by decide, by decide, by decide, by decide, by decide, by decide⟩
theorem witness_ReadyBytesStay : ∃ t, exec .poll (withSt .ready .filling (withReads [.failure [(0, 7#8)]] ready)) = .next t ∧
    (withSt .ready .filling ready).st.get .A = .ready ∧ t.ghost.protocol = false ∧ pcmByte t .B 0 = 7#8 :=
  ⟨_, rfl, by decide, by decide, by decide⟩
/-- The start of a stream. -/
theorem witness_StepKeepsStream :
    let s := ready.setTrace [0x14#8]
    Safety.Inv s ∧ LineCarries s [] ∧ (∀ i rest, decode s.trace = .ok (i, rest) → issuedByAgent i = true) ∧
    ∃ t, step s = .next t ∧ Safety.NoGhostFault t ∧ t.active = true := by
  refine ⟨⟨by decide, by decide, by decide, by decide, by decide, by decide, by decide, by decide, by decide, by decide⟩, ⟨⟨_, rfl⟩, rfl, nofun, by decide⟩, fun i rest h => ?_, _, rfl, by decide, rfl⟩
  cases h
  rfl
/-- In the middle of a stream: two chunks consumed, the first word of the first one sent. -/
def sendingState : State :=
  match running [0x14#8, 0x1A#8] 2 ready with
  | .next s => s
  | .fault _ => ready
  | .refused _ => ready
theorem witness_StepKeepsStream_sending : LineCarries sendingState (fill0.take 16) ∧ sendingState.line = [0xE8CC#16] := by
  unfold LineCarries Sending ReencodeUnderWay
  decide +kernel

end Sys2Proof.Tests
end

/-! What the operations of the block can do. `Runs` lists the next states that `exec` can answer, operation by
operation; `Writes` lists them as frames, which say who may write which field. -/

namespace Sys2Proof.Effects

open Sys2Proof.Machine

/-! What an operation can do, said once for all eighteen: the outcomes `exec` can answer, by constructor. -/

/-- The state that the fill loop of a `start` leaves, begun or gone on with (44_host_interface.md R161). -/
def StartFill (src : Source) (s u : State) : Prop :=
  (s.pollCtx = .free ∧ s.setupDone = true ∧ s.active = false ∧ u = (fillBuffers (bindSource src s)).2) ∨
    ∃ r, s.pollCtx = .inStart r ∧ u = (resumeFill r s).2

/-- The state that the read of a `poll` leaves, begun or gone on with (44_host_interface.md R163). -/
def PollRead (s u : State) : Prop :=
  (s.pollCtx = .free ∧ spared s = true ∧ u = (pollOnce s).2) ∨ ∃ r, s.pollCtx = .inPoll r ∧ u = (readInto r s).2

/-- The state in which a stop asks for a quiet dispatcher: the channels disabled now, or before the wait `w`
(42_dma_transmitter.md R137). -/
def StopAsks (w : PollCtx) (s u : State) : Prop :=
  (s.pollCtx = .free ∧ spared s = true ∧ u = disableChannels s) ∨ s.pollCtx = w ∧ u = s

/-- The state in which the handler of channel `c` comes to its `rearm`: entered and acknowledged now, or cut there
before (60_exceptions.md R178). -/
def HandlerEntered (c : Side) (s u : State) : Prop :=
  (irqTakeable c s = true ∧ ∃ cs, u = (takeCompletion c s).setCuts cs) ∨ s.handler = some (.acknowledged c) ∧ u = s

/-- The next states that an operation can answer. -/
inductive Runs : Instr → State → State → Prop
  | waits (i : Instr) (s : State) : Runs i s (s.setRes .waits)
  | configured {s : State} (hp : pollRuns s = true) (hd : s.setupDone = false) (hv : configValid s.cfg = true) :
      Runs .setup s ((configure s).setRes .ok)
  | configRejected {s : State} (hp : pollRuns s = true) (hd : s.setupDone = false)
      (hv : configValid s.cfg = false) : Runs .setup s ((s.setRejected true).setRes .configRejected)
  | startWaits {src : Source} {s u : State} (r : Option Reading) (hf : StartFill src s u) :
      Runs (.start src) s ((u.setPollCtx (.inStart r)).setRes .waits)
  | started {src : Source} {s u v : State} (hf : StartFill src s u) (hs : startTransmitter u = .next v) :
      Runs (.start src) s ((v.setPollCtx .free).setRes .none)
  | stopWaits {s u : State} (ha : StopAsks .inStop s u) (hq : dispatcherQuiet u = false) :
      Runs .stop s ((u.setPollCtx .inStop).setRes .waits)
  | stopped {s u : State} (ha : StopAsks .inStop s u) :
      Runs .stop s (((unbindSource (releaseBuffers u)).setPollCtx .free).setRes .none)
  | pollWaits {s u : State} (r : Reading) (hr : PollRead s u) :
      Runs .poll s ((u.setPollCtx (.inPoll r)).setRes .waits)
  | polled {s u : State} (v : Bool) (hr : PollRead s u) : Runs .poll s ((u.setPollCtx .free).setRes (.bool v))
  | toldActive (s : State) : Runs .isActive s (s.setRes (.bool s.active))
  | acquired (s : State) (r : Result) : Runs .acquireFillTarget s ((acquireTarget s).2.setRes r)
  | marked {s u : State} (hm : markFirstFilling s = some u) : Runs .markFilled s (u.setRes .none)
  | consumed {c : Side} {s u : State} (hd : s.setupDone = true) (hc : consume c s = .next u) :
      Runs (.consumeChunk c) s (u.setRes .none)
  | encoded {b c : Side} {p q n : Nat} {s u : State} (he : encodeRange b p c q n s = .next u) :
      Runs (.encode b p c q n) s (u.setRes .none)
  | sampleEncoded (lo hi : Byte) (s : State) : Runs (.encodeSample lo hi) s
      ((s.setCtx (encodeSample s.ctx lo hi).2).setRes (.words (encodeSample s.ctx lo hi).1))
  | dmaStarted {s u : State} (hp : pollRuns s = true) (hs : startTransmitter s = .next u) :
      Runs .dmaStart s (u.setRes .none)
  | dmaStopWaits {s u : State} (ha : StopAsks .inDmaStop s u) (hq : dispatcherQuiet u = false) :
      Runs .dmaStop s ((u.setPollCtx .inDmaStop).setRes .waits)
  | dmaStopped {s u : State} (ha : StopAsks .inDmaStop s u) :
      Runs .dmaStop s (((releaseBuffers u).setPollCtx .free).setRes .none)
  | rearmed {c : Side} {s : State} (hr : rearmable c s = true) : Runs (.rearm c) s ((rearmChannel c s).setRes .none)
  | transferred {c : Side} {s : State} (he : dmaEnabled c s = true) (hr : (s.ch.get c).rptr < s.cfg.wireWords) :
      Runs (.dmaWord c) s ((transferWord c s).setRes .none)
  | acknowledged {c : Side} {s : State} (ht : irqTakeable c s = true) (cs : List Bool) :
      Runs (.irqService c) s ((((takeCompletion c s).setCuts cs).setHandler (some (.acknowledged c))).setRes .waits)
  | handlerRearmed {c : Side} {s u : State} (he : HandlerEntered c s u) (hr : rearmable c u = true)
      (cs : List Bool) : Runs (.irqService c) s
        ((((rearmChannel c u).setCuts cs).setHandler (some (.rearmed c))).setRes .waits)
  | handlerPushed {c : Side} {s u : State} (he : HandlerEntered c s u) (hr : rearmable c u = true)
      (cs : List Bool) : Runs (.irqService c) s (pushJob (jobOf c) ((rearmChannel c u).setCuts cs))
  | handlerPushes {c : Side} {s : State} (hh : s.handler = some (.rearmed c)) :
      Runs (.irqService c) s (pushJob (jobOf c) s)
  | pushed (j : Job) {s : State} (hd : s.setupDone = true) : Runs (.push j) s (pushJob j s)
  | popped {j : Job} {js : List Job} {s u : State} (hw : s.wk = .idle) (hq : s.q = j :: js)
      (hr : runJob j (popBarrier (headNumber s) (liftHeldPush (s.setQ js))) = .next u) :
      Runs .workerPop s (u.setRes .none)
  | fillWritten (b : Side) {i : Nat} (v : Byte) {s : State} (hi : i < s.cfg.pcmBufBytes) :
      Runs (.fillWrite b i v) s ((storeFill b i v s).setRes .none)

theorem execSetup_runs {s t : State} (h : execSetup s = .next t) : Runs .setup s t := by
  rcases onPoll_eq_next h with ⟨hp, h⟩ | ⟨-, rfl⟩
  · split at h
    · cases h
    · next hd =>
      split at h
      · next hv => cases h; exact .configured hp (by simpa using hd) hv
      · next hv => cases h; exact .configRejected hp (by simpa using hd) (by simpa using hv)
  · exact .waits _ _

theorem endStart_runs {src : Source} {s t : State} {e : FillEnd × State} (hf : StartFill src s e.2)
    (h : endStart e = .next t) : Runs (.start src) s t := by
  obtain ⟨e, u⟩ := e
  cases e with
  | ready =>
    obtain ⟨v, hv, ht⟩ := andThen_eq_next.mp h
    cases ht
    exact .started hf hv
  | waiting r => cases h; exact .startWaits r hf
  | refused => cases h

theorem execStart_runs {src : Source} {s t : State} (h : execStart src s = .next t) : Runs (.start src) s t := by
  rcases onPrimary_eq_next h with ⟨-, h⟩ | ⟨-, rfl⟩
  · split at h
    · next hc =>
      split at h
      · cases h
      · next hg =>
        simp only [not_or, Bool.not_eq_false, Bool.not_eq_true] at hg
        exact endStart_runs (.inl ⟨hc, hg.1, hg.2, rfl⟩) h
    · next r hc =>
      split at h
      · exact endStart_runs (.inr ⟨r, hc, rfl⟩) h
      · cases h; exact .waits _ _
    all_goals cases h; exact .waits _ _
  · exact .waits _ _

/-- A stop that asks for a quiet dispatcher ends or waits. -/
theorem endStop_cases {w : PollCtx} {k : State → State} {s t : State} (h : endStop w k s = .next t) :
    (t = ((k (releaseBuffers s)).setPollCtx .free).setRes .none) ∨
      dispatcherQuiet s = false ∧ t = (s.setPollCtx w).setRes .waits := by
  unfold endStop at h
  split at h
  · exact .inl (next_inj.mp h).symm
  · next hq => exact .inr ⟨by simpa using hq, (next_inj.mp h).symm⟩

theorem execStop_runs {s t : State} (h : execStop s = .next t) : Runs .stop s t := by
  have ends : ∀ u, StopAsks .inStop s u → endStop .inStop unbindSource u = .next t → Runs .stop s t := by
    intro u ha h
    rcases endStop_cases h with rfl | ⟨hq, rfl⟩
    · exact .stopped ha
    · exact .stopWaits ha hq
  rcases onPrimary_eq_next h with ⟨-, h⟩ | ⟨-, rfl⟩
  · split at h
    · next hc =>
      obtain ⟨hs, h⟩ := unlessRejected_eq_next h
      exact ends _ (.inl ⟨hc, hs, rfl⟩) h
    · next hc => exact ends _ (.inr ⟨hc, rfl⟩) h
    all_goals cases h; exact .waits _ _
  · exact .waits _ _

theorem execDmaStop_runs {s t : State} (h : execDmaStop s = .next t) : Runs .dmaStop s t := by
  have ends : ∀ u, StopAsks .inDmaStop s u → endStop .inDmaStop id u = .next t → Runs .dmaStop s t := by
    intro u ha h
    rcases endStop_cases h with rfl | ⟨hq, rfl⟩
    · exact .dmaStopped ha
    · exact .dmaStopWaits ha hq
  rcases onPrimary_eq_next h with ⟨-, h⟩ | ⟨-, rfl⟩
  · split at h
    · next hc =>
      obtain ⟨hs, h⟩ := afterSetup_eq_next h
      exact ends _ (.inl ⟨hc, spared_iff.mpr (.inl hs), rfl⟩) h
    · next hc => exact ends _ (.inr ⟨hc, rfl⟩) h
    all_goals cases h; exact .waits _ _
  · exact .waits _ _

theorem endPoll_runs {s t : State} {e : Polled × State} (hr : PollRead s e.2) (h : endPoll e = .next t) :
    Runs .poll s t := by
  obtain ⟨e, u⟩ := e
  cases e with
  | did v => cases h; exact .polled v hr
  | pending r => cases h; exact .pollWaits r hr
  | refused => cases h

theorem execPoll_runs {s t : State} (h : execPoll s = .next t) : Runs .poll s t := by
  rcases onPrimary_eq_next h with ⟨-, h⟩ | ⟨-, rfl⟩
  · split at h
    · next hc =>
      obtain ⟨hs, h⟩ := unlessRejected_eq_next h
      exact endPoll_runs (.inl ⟨hc, hs, rfl⟩) h
    · next r hc => exact endPoll_runs (.inr ⟨r, hc, rfl⟩) h
    all_goals cases h; exact .waits _ _
  · exact .waits _ _

theorem execIsActive_runs {s t : State} (h : execIsActive s = .next t) : Runs .isActive s t := by
  rcases onPoll_eq_next h with ⟨-, h⟩ | ⟨-, rfl⟩
  · obtain ⟨-, h⟩ := unlessRejected_eq_next h
    cases h; exact .toldActive s
  · exact .waits _ _

theorem execAcquireFillTarget_runs {s t : State} (h : execAcquireFillTarget s = .next t) :
    Runs .acquireFillTarget s t := by
  rcases onPoll_eq_next h with ⟨-, h⟩ | ⟨-, rfl⟩
  · obtain ⟨-, h⟩ := afterSetup_eq_next h
    have acquires := Runs.acquired s
    split at h
    all_goals
      next e =>
        cases h
        rw [e] at acquires
        exact acquires _
  · exact .waits _ _

theorem execMarkFilled_runs {s t : State} (h : execMarkFilled s = .next t) : Runs .markFilled s t := by
  rcases onPoll_eq_next h with ⟨-, h⟩ | ⟨-, rfl⟩
  · obtain ⟨-, h⟩ := afterSetup_eq_next h
    split at h
    · next hm => cases h; exact .marked hm
    · cases h
  · exact .waits _ _

theorem execConsumeChunk_runs {c : Side} {s t : State} (h : execConsumeChunk c s = .next t) :
    Runs (.consumeChunk c) s t := by
  obtain ⟨hd, h⟩ := afterSetup_eq_next h
  obtain ⟨u, hu, ht⟩ := andThen_eq_next.mp (encoderFree_eq_next h).2
  cases ht
  exact .consumed hd hu

theorem execEncode_runs {b c : Side} {p q n : Nat} {s t : State} (h : execEncode b p c q n s = .next t) :
    Runs (.encode b p c q n) s t := by
  obtain ⟨u, hu, ht⟩ := andThen_eq_next.mp (encoderFree_eq_next (afterSetup_eq_next h).2).2
  cases ht
  exact .encoded hu

theorem execEncodeSample_runs {lo hi : Byte} {s t : State} (h : execEncodeSample lo hi s = .next t) :
    Runs (.encodeSample lo hi) s t := by
  cases (afterSetup_eq_next h).2
  exact .sampleEncoded lo hi s

theorem execDmaStart_runs {s t : State} (h : execDmaStart s = .next t) : Runs .dmaStart s t := by
  rcases onPoll_eq_next h with ⟨hp, h⟩ | ⟨-, rfl⟩
  · obtain ⟨u, hu, ht⟩ := andThen_eq_next.mp h
    cases ht
    exact .dmaStarted hp hu
  · exact .waits _ _

theorem execRearm_runs {c : Side} {s t : State} (h : execRearm c s = .next t) : Runs (.rearm c) s t := by
  rcases onPrimary_eq_next (afterSetup_eq_next h).2 with ⟨-, h⟩ | ⟨-, rfl⟩
  · split at h
    · next hr => cases h; exact .rearmed hr
    · cases h
  · exact .waits _ _

theorem execDmaWord_runs {c : Side} {s t : State} (h : execDmaWord c s = .next t) : Runs (.dmaWord c) s t := by
  unfold execDmaWord at h
  split at h
  · next he =>
    split at h
    · next hr => cases h; exact .transferred he hr
    · cases h
  · cases h; exact .waits _ _

theorem handlerRearm_runs {c : Side} {s u t : State} (he : HandlerEntered c s u) (h : handlerRearm c u = .next t) :
    Runs (.irqService c) s t := by
  obtain ⟨hr, ⟨cs, -, rfl⟩ | ⟨cs, -, rfl⟩⟩ := handlerRearm_eq_next h
  · exact .handlerRearmed he hr cs
  · exact .handlerPushed he hr cs

theorem execIrqService_runs {c : Side} {s t : State} (h : execIrqService c s = .next t) :
    Runs (.irqService c) s t := by
  rcases execIrqService_eq_next h with rfl | ⟨ht, ⟨cs, -, rfl⟩ | ⟨cs, -, h⟩⟩ | ⟨hh, h⟩ | ⟨hh, rfl⟩
  · exact .waits _ _
  · exact .acknowledged ht cs
  · exact handlerRearm_runs (.inl ⟨ht, cs, rfl⟩) h
  · exact handlerRearm_runs (.inr ⟨hh, rfl⟩) h
  · exact .handlerPushes hh

theorem execPush_runs {j : Job} {s t : State} (h : execPush j s = .next t) : Runs (.push j) s t := by
  obtain ⟨hd, h⟩ := afterSetup_eq_next h
  rcases onPrimary_eq_next h with ⟨-, h⟩ | ⟨-, rfl⟩
  · cases h; exact .pushed j hd
  · exact .waits _ _

theorem execWorkerPop_runs {s t : State} (h : execWorkerPop s = .next t) : Runs .workerPop s t := by
  unfold execWorkerPop at h
  split at h
  · next j js hw hq =>
    obtain ⟨u, hu, ht⟩ := andThen_eq_next.mp h
    cases ht
    exact .popped hw hq hu
  all_goals cases h; exact .waits _ _

theorem execFillWrite_runs {b : Side} {i : Nat} {v : Byte} {s t : State} (h : execFillWrite b i v s = .next t) :
    Runs (.fillWrite b i v) s t := by
  have h := (afterSetup_eq_next h).2
  split at h
  · next hi => cases h; exact .fillWritten b v hi
  · cases h

/-- Every next state of an operation is one of those listed. -/
theorem exec_runs {i : Instr} {s t : State} (h : exec i s = .next t) : Runs i s t := by
  cases i with
  | setup => exact execSetup_runs h
  | start src => exact execStart_runs h
  | stop => exact execStop_runs h
  | poll => exact execPoll_runs h
  | isActive => exact execIsActive_runs h
  | acquireFillTarget => exact execAcquireFillTarget_runs h
  | markFilled => exact execMarkFilled_runs h
  | consumeChunk c => exact execConsumeChunk_runs h
  | encode b p c q n => exact execEncode_runs h
  | encodeSample lo hi => exact execEncodeSample_runs h
  | dmaStart => exact execDmaStart_runs h
  | dmaStop => exact execDmaStop_runs h
  | rearm c => exact execRearm_runs h
  | dmaWord c => exact execDmaWord_runs h
  | irqService c => exact execIrqService_runs h
  | push j => exact execPush_runs h
  | workerPop => exact execWorkerPop_runs h
  | fillWrite b k v => exact execFillWrite_runs h

/-! What each of those state operations leaves alone: the state after it is the state before with some fields
replaced. -/

/-- Raising a ghost fault twice is raising it once. -/
@[simp] theorem ghost_raise_raise (g : Ghost) (f : GhostFault) : (g.raise f).raise f = g.raise f := by
  cases f <;> rfl

/-- A fill, whole or in part: `ST`, the PCM buffers with their kept bytes, STORAGE, and `F_PROTOCOL`. -/
def FillFrame (s t : State) : Prop :=
  ∃ st pcm old g x, t = { s with st := st, pcm := pcm, pcmOld := old, storage := g, ghost := x } ∧
    (x = s.ghost ∨ x = s.ghost.raise .protocol)

theorem FillFrame.refl (s : State) : FillFrame s s :=
  ⟨s.st, s.pcm, s.pcmOld, s.storage, s.ghost, rfl, .inl rfl⟩

theorem FillFrame.trans {s t u : State} (h1 : FillFrame s t) (h2 : FillFrame t u) : FillFrame s u := by
  obtain ⟨_, _, _, _, x, rfl, hx⟩ := h1
  obtain ⟨st, pcm, old, g, y, rfl, hy⟩ := h2
  refine ⟨st, pcm, old, g, y, rfl, ?_⟩
  rcases hx with rfl | rfl
  · exact hy
  · exact .inr (by simpa using hy)

theorem storeFill_frame (b : Side) (i : Nat) (v : Byte) (s : State) :
    ∃ pcm old x, storeFill b i v s = { s with pcm := pcm, pcmOld := old, ghost := x } ∧
      (x = s.ghost ∨ x = s.ghost.raise .protocol) := by
  rw [storeFill_eq, writePcm_eq]
  exact ⟨_, _, _, rfl, by split <;> simp⟩

theorem fillKeeps_frame : FillKeeps FillFrame where
  refl := FillFrame.refl
  trans := fun _ _ _ => FillFrame.trans
  storage := fun s g => ⟨s.st, s.pcm, s.pcmOld, g, s.ghost, rfl, .inl rfl⟩
  store := fun s b i v _ => by
    obtain ⟨pcm, old, x, e, hx⟩ := storeFill_frame b i v s
    rw [e]
    exact ⟨s.st, pcm, old, s.storage, x, rfl, hx⟩
  mark := fun s b _ => ⟨_, s.pcm, _, s.storage, s.ghost, rfl, .inl rfl⟩
  claim := fun s b _ _ => ⟨_, s.pcm, s.pcmOld, s.storage, s.ghost, rfl, .inl rfl⟩

theorem markFirstFilling_eq_some {s u : State} (h : markFirstFilling s = some u) :
    u = s ∨ ∃ b, firstIn .filling s.st = some b ∧ u = markReady b s := by
  rcases markFirstFilling_cases s with ⟨b, hb, e⟩ | ⟨-, -, e⟩ | ⟨-, -, e⟩ <;> rw [e] at h <;> cases h
  · exact .inr ⟨b, hb, rfl⟩
  · exact .inl rfl

theorem markFirstFilling_ghost {s u : State} (h : markFirstFilling s = some u) : u.ghost = s.ghost := by
  rcases markFirstFilling_eq_some h with rfl | ⟨b, -, rfl⟩ <;> rfl

/-- A read into a buffer that is Filling breaks no duty (41_buffer_pipeline.md R119). -/
theorem readInto_ghost {r : Reading} {s : State} (h : s.st.get r.target = .filling) :
    (readInto r s).2.ghost = s.ghost := by
  have stores : ∀ cells reads, (storeCells r.target cells (nextReads reads s)).ghost = s.ghost := by
    intro cells reads
    rw [storeCells_frame]
    exact if_pos (.inl h)
  unfold readInto
  split
  · rfl
  · exact stores _ _
  · exact stores _ _
  · dsimp only
    split
    · next hm => exact (markFirstFilling_ghost hm).trans (stores _ _)
    · rfl

/-- A poll from its beginning reads into its own target, which is Filling. -/
theorem pollOnce_ghost (s : State) : (pollOnce s).2.ghost = s.ghost := by
  rcases pollOnce_cases s with ⟨b, -, e⟩ | ⟨-, -, e⟩ <;> rw [e]
  exact readInto_ghost (Pair.get_set_same _ _ _)

theorem fillLoop_ghost (k : Nat) (s : State) : (fillLoop k s).2.ghost = s.ghost := by
  induction k generalizing s with
  | zero => rfl
  | succ k ih =>
    have hp := pollOnce_ghost s
    unfold fillLoop
    split
    · rfl
    · split
      · next e => rw [e] at hp; exact (ih _).trans hp
      · next e => rw [e] at hp; exact hp
      · next e => rw [e] at hp; exact hp

/-- The fill of a `start` or of a `poll`; from its beginning it marks no `F_PROTOCOL`. -/
def PollFrame (s u : State) : Prop :=
  ∃ st pcm old g x, u = { s with st := st, pcm := pcm, pcmOld := old, storage := g, ghost := x } ∧
    (x = s.ghost ∨ s.pollCtx ≠ .free ∧ x = s.ghost.raise .protocol)

theorem FillFrame.poll {s u : State} (h : FillFrame s u) (hg : s.pollCtx = .free → u.ghost = s.ghost) :
    PollFrame s u := by
  obtain ⟨st, pcm, old, g, x, rfl, hx⟩ := h
  by_cases hc : s.pollCtx = .free
  · exact ⟨st, pcm, old, g, x, rfl, .inl (hg hc)⟩
  · exact ⟨st, pcm, old, g, x, rfl, hx.imp id fun e => ⟨hc, e⟩⟩

theorem StartFill.frame {src : Source} {s u : State} (h : StartFill src s u) : PollFrame s u := by
  rcases h with ⟨-, -, -, rfl⟩ | ⟨r, hr, rfl⟩
  · exact ((fillKeeps_frame.storage s _).trans (fillKeeps_frame.fillLoop _ _)).poll fun _ => fillLoop_ghost _ _
  · exact (fillKeeps_frame.resumeFill r s).poll fun hc => by rw [hc] at hr; cases hr

theorem PollRead.frame {s u : State} (h : PollRead s u) : PollFrame s u := by
  rcases h with ⟨-, -, rfl⟩ | ⟨r, hr, rfl⟩
  · exact (fillKeeps_frame.pollOnce s).poll fun _ => pollOnce_ghost s
  · exact (fillKeeps_frame.readInto r s).poll fun hc => by rw [hc] at hr; cases hr

theorem acquireTarget_frame (s : State) :
    ∃ st x, (acquireTarget s).2 = { s with st := st, ghost := x } ∧ (x = s.ghost ∨ x = s.ghost.raise .protocol) := by
  have claims : ∀ u, ∃ st, (claimTarget u).2 = { u with st := st } := by
    intro u
    rcases claimTarget_cases u with ⟨b, -, h⟩ | ⟨-, h⟩ <;> rw [h]
    · exact ⟨_, rfl⟩
    · exact ⟨u.st, rfl⟩
  unfold acquireTarget
  split
  · obtain ⟨st, e⟩ := claims s
    exact ⟨st, s.ghost, e, .inl rfl⟩
  · obtain ⟨st, e⟩ := claims (raiseGhost .protocol s)
    exact ⟨st, _, e, .inr rfl⟩

/-- An encode: the context, the wire buffers with their kept entries, and the count of draws. -/
def EncodeFrame (s t : State) : Prop :=
  ∃ x wire old n, t = { s with ctx := x, wire := wire, wireOld := old, draws := n }

theorem encodeEffect_frame {c : Side} {lo hi : Nat} {s t : State} (h : EncodeEffect c lo hi s t) :
    EncodeFrame s t :=
  ⟨_, _, _, _, h.eq⟩

theorem encodeRange_frame {b c : Side} {p q n : Nat} {s t : State} (h : encodeRange b p c q n s = .next t) :
    EncodeFrame s t := by
  rcases encodeRange_cases b p c q n s with ⟨u, hu, he, -⟩ | hr
  · rw [h] at hu
    cases hu
    exact encodeEffect_frame he
  · rw [h] at hr; cases hr

theorem advanceCursor_frame (s : State) : ∃ x st, advanceCursor s = { s with ctx := x, st := st } := by
  by_cases h : s.ctx.cur + s.cfg.chunkBytes = s.cfg.pcmBufBytes
  · exact ⟨_, _, advanceCursor_end h⟩
  · exact ⟨_, s.st, advanceCursor_within h⟩

/-- A job: an encode, `ST`, the channel's pending bit, and `F_UNDERRUN` where the active buffer is not Ready. -/
theorem consume_frame {c : Side} {s t : State} (h : consume c s = .next t) :
    ∃ x st wire old n, t = { s with
      ctx := x, st := st, wire := wire, wireOld := old, draws := n, wpend := s.wpend.set c false,
      ghost := if s.st.get s.ctx.sel = .ready then s.ghost else s.ghost.raise .underrun } := by
  rcases consume_cases c s with ⟨v, he, -, hc, -⟩ | hr
  · rw [h] at hc
    cases hc
    obtain ⟨x, st, e⟩ := advanceCursor_frame v
    obtain ⟨y, wire, old, n, rfl⟩ := encodeEffect_frame he
    rw [e, underrunMarked_eq]
    exact ⟨x, st, wire, old, n, rfl⟩
  · rw [h] at hr; cases hr

/-- With both buffers Ready the next chunk is in a Ready buffer, also where this one ends its buffer. -/
theorem consume_next_ready {c : Side} {s t : State} (h : consume c s = .next t)
    (hs : ∀ b, s.st.get b = .ready) : t.st.get t.ctx.sel = .ready := by
  rcases consume_cases c s with ⟨v, he, -, hc, -⟩ | hr
  · rw [h] at hc
    cases hc
    have hv : ∀ b, v.st.get b = .ready := by
      obtain ⟨_, _, _, _, rfl⟩ := encodeEffect_frame he
      rw [underrunMarked_eq]
      exact hs
    by_cases hb : v.ctx.cur + v.cfg.chunkBytes = v.cfg.pcmBufBytes
    · rw [advanceCursor_end hb]
      simp [hv]
    · rw [advanceCursor_within hb]
      exact hv _
  · rw [h] at hr; cases hr

/-- The descriptors after a start: A transmits from its entry 0, B is armed (42_dma_transmitter.md R134). -/
def launchedChans (x : Pair Chan) : Pair Chan where
  a := { x.a with en := true, armed := false, busy := true, rptr := 0 }
  b := loadedChan x.b

/-- The end of a start: with `WIRE[A]` primed the trigger starts channel A, and marks nothing. -/
theorem launch_eq {s : State} (h : s.wpend.a = false) :
    launch s = { s with irq := both false, ch := launchedChans s.ch, active := true } := by
  simp [launch, trigger, loadedChan, startChannel, setChan, h]
  rfl

/-- What a start does once it is not refused: from the cold start two jobs, with no `F_UNDERRUN`, and the launch. -/
theorem startTransmitter_eq_next {s t : State} (h : startTransmitter s = .next t) :
    s.setupDone = true ∧ s.active = false ∧ ∃ u v, consume .A (coldStart s) = .next u ∧ consume .B u = .next v ∧
      v.wpend = both false ∧ v.ghost = s.ghost ∧ t = launch v := by
  unfold startTransmitter at h
  split at h
  · cases h
  · next hg =>
    split at h
    · cases h
    · next hr =>
      obtain ⟨u, hu, h⟩ := andThen_eq_next.mp (encoderFree_eq_next h).2
      obtain ⟨v, hv, ht⟩ := andThen_eq_next.mp h
      have ready : ∀ b, (coldStart s).st.get b = .ready := by
        rintro (_ | _) <;> simp only [not_or, not_not] at hr
        · exact hr.1
        · exact hr.2
      have next := consume_next_ready hu ready
      have pend : v.wpend = both false ∧ v.ghost = s.ghost := by
        obtain ⟨_, _, _, _, _, rfl⟩ := consume_frame hu
        obtain ⟨_, _, _, _, _, rfl⟩ := consume_frame hv
        exact ⟨rfl, (if_pos next).trans (if_pos (ready _))⟩
      simp only [not_or, Bool.not_eq_false, Bool.not_eq_true] at hg
      exact ⟨hg.1, hg.2, u, v, hu, hv, pend.1, pend.2, (next_inj.mp ht).symm⟩

/-- A start: two jobs, an empty `LINE`, nothing pending or latched, the channels launched, and no ghost fault. -/
theorem startTransmitter_frame {s t : State} (h : startTransmitter s = .next t) :
    ∃ x st wire old n, t = { s with
      ctx := x, st := st, wire := wire, wireOld := old, draws := n, line := [], wpend := both false,
      irq := both false, ch := launchedChans s.ch, active := true } := by
  obtain ⟨-, -, u, v, hu, hv, hw, hg, rfl⟩ := startTransmitter_eq_next h
  have e : v = { v with wpend := both false, ghost := s.ghost } := by rw [← hw, ← hg]
  rw [launch_eq (by rw [hw]; rfl), e]
  obtain ⟨_, _, _, _, _, rfl⟩ := consume_frame hu
  obtain ⟨x, st, wire, old, n, rfl⟩ := consume_frame hv
  exact ⟨x, st, wire, old, n, rfl⟩

theorem disableChannels_eq (s : State) : disableChannels s = { s with
    ch := { a := stoppedChan s.cfg s.draws s.ch.a, b := stoppedChan s.cfg (s.draws + 1) s.ch.b },
    draws := s.draws + 2, wireOld := both [], irq := both false } := rfl

/-- A stop up to its wait: the descriptors but their interrupt enable, the latches, the kept entries, the draws. -/
theorem StopAsks.frame {w : PollCtx} {s u : State} (h : StopAsks w s u) :
    ∃ ch irq old n, u = { s with ch := ch, irq := irq, wireOld := old, draws := n } ∧
      ∀ c, (ch.get c).irqEn = (s.ch.get c).irqEn := by
  rcases h with ⟨-, -, rfl⟩ | ⟨-, rfl⟩
  · exact ⟨_, _, _, _, disableChannels_eq s, by rintro (_ | _) <;> rfl⟩
  · exact ⟨_, _, _, _, rfl, fun _ => rfl⟩

theorem pushJob_frame (j : Job) (s : State) :
    ∃ n q x r, pushJob j s = { s with pushes := n, q := q, handler := x, res := r } := by
  rcases pushJob_cases j s with ⟨-, e⟩ | ⟨-, e⟩
  · exact ⟨_, _, _, _, e⟩
  · exact ⟨s.pushes, s.q, _, _, e⟩

theorem liftHeldPush_frame (s : State) :
    ∃ n q x, liftHeldPush s = { s with pushes := n, q := q, handler := x } := by
  rcases liftHeldPush_cases s with ⟨j, -, -, e⟩ | ⟨-, e⟩
  · exact ⟨_, _, _, e⟩
  · exact ⟨_, _, _, e⟩

/-- The worker's turn: the queue and a held push, the kept bytes that the barrier settles, and the job at the head
of `Q`; the worker is idle after it as before. -/
theorem popped_frame {j : Job} {js : List Job} {s u : State} (hw : s.wk = .idle)
    (h : runJob j (popBarrier (headNumber s) (liftHeldPush (s.setQ js))) = .next u) :
    ∃ x st wire old n pcmOld k q y, u = { s with
      ctx := x, st := st, wire := wire, wireOld := old, draws := n, pcmOld := pcmOld, pushes := k, q := q,
      handler := y, wpend := s.wpend.set (jobChannel j) false,
      ghost := if s.st.get s.ctx.sel = .ready then s.ghost else s.ghost.raise .underrun } := by
  obtain ⟨k, q, y, e⟩ := liftHeldPush_frame (s.setQ js)
  rw [e, runJob_idle (by exact hw)] at h
  obtain ⟨x, st, wire, old, n, rfl⟩ := consume_frame h
  exact ⟨x, st, wire, old, n, _, k, q, y, rfl⟩

/-- A trigger of channel `d`: its own descriptor, enabled as before, and one ghost fault at most. -/
theorem trigger_frame (d : Side) (s : State) :
    ∃ x g, trigger d s = { s with ch := s.ch.set d x, ghost := g } ∧
      x.en = (s.ch.get d).en ∧ x.irqEn = (s.ch.get d).irqEn ∧
      (g = s.ghost ∨ g = s.ghost.raise .overrun ∨ g = s.ghost.raise .chainUnarmed) := by
  rcases trigger_cases d s with ⟨-, e⟩ | ⟨-, -, e⟩ | ⟨-, -, e⟩ <;> rw [e]
  · exact ⟨s.ch.get d, s.ghost, by rw [Pair.set_get_self], rfl, rfl, .inl rfl⟩
  · exact ⟨s.ch.get d, _, by rw [Pair.set_get_self]; rfl, rfl, rfl, .inr (.inr rfl)⟩
  · exact ⟨_, _, rfl, rfl, rfl, by split <;> simp⟩

/-- A completion of channel `c`: it and its pending bit, the race it ends, its latch, and the trigger of the other
channel. -/
theorem complete_frame (c : Side) (s : State) :
    ∃ x old irq g, complete c s = { s with
        ch := (s.ch.set c { s.ch.get c with busy := false }).set c.other x, wpend := s.wpend.set c true,
        wireOld := old, irq := irq, ghost := g } ∧
      x.en = (s.ch.get c.other).en ∧ x.irqEn = (s.ch.get c.other).irqEn ∧
      (g = s.ghost ∨ g = s.ghost.raise .overrun ∨ g = s.ghost.raise .chainUnarmed) := by
  obtain ⟨x, g, e, hen, hirq, hg⟩ := trigger_frame c.other { s with
    ch := s.ch.set c { s.ch.get c with busy := false }, wpend := s.wpend.set c true, wireOld := s.wireOld.set c [],
    irq := if (s.ch.get c).irqEn then s.irq.set c true else s.irq }
  rw [Pair.get_set_other] at hen hirq
  exact ⟨x, _, _, g, (complete_eq c s).trans e, hen, hirq, hg⟩

/-- One transfer of channel `c`: one word more on the line, the count of draws, its read pointer; and where it was
the last, the completion with the trigger of the other channel. -/
theorem transferWord_frame (c : Side) (s : State) :
    ∃ w n ch pend old irq g, transferWord c s = { s with
        line := s.line ++ [w], draws := n, ch := ch, wpend := pend, wireOld := old, irq := irq, ghost := g } ∧
      (∀ d, (ch.get d).en = (s.ch.get d).en ∧ (ch.get d).irqEn = (s.ch.get d).irqEn ∧
        (d ≠ c.other → (ch.get d).armed = (s.ch.get d).armed)) ∧
      (pend = s.wpend ∨ pend = s.wpend.set c true) ∧
      (g = s.ghost ∨ g = s.ghost.raise .overrun ∨ g = s.ghost.raise .chainUnarmed) := by
  by_cases h : (s.ch.get c).rptr + 1 = s.cfg.wireWords
  · obtain ⟨w, n, e, -⟩ := transferWord_last h
    obtain ⟨x, old, irq, g, e', hen, hirq, hg⟩ := complete_frame c { s with
      draws := n, line := s.line ++ [w], ch := s.ch.set c { s.ch.get c with rptr := (s.ch.get c).rptr + 1 } }
    simp only [Pair.get_set_other] at hen hirq
    refine ⟨w, n, _, _, old, irq, g, e.trans e', fun d => ?_, .inr rfl, hg⟩
    rcases Side.eq_or_eq_other c d with rfl | rfl
    · simp [Pair.get_set_ne]
    · simpa using ⟨hen, hirq⟩
  · obtain ⟨w, n, e, -⟩ := transferWord_more h
    refine ⟨w, n, _, s.wpend, s.wireOld, s.irq, s.ghost, e, fun d => ?_, .inl rfl, .inl rfl⟩
    rcases Side.eq_or_eq_other c d with rfl | rfl <;> simp

/-! The same outcomes as frames: which fields an operation may write, and what is known of the values. -/

/-- What an operation may write. The values that its rule leaves to the data are parameters. -/
inductive Writes : Instr → State → State → Prop
  /-- it waits, or it answers a Boolean -/
  | result (i : Instr) (s : State) {r : Result} (hn : r ≠ .none) (ho : r ≠ .ok) : Writes i s { s with res := r }
  | configured (s : State) : Writes .setup s { s with
      ch := both setupChan, irq := both false, q := [], wk := .idle, intEn := true, setupDone := true, res := .ok }
  | configRejected (s : State) : Writes .setup s { s with rejected := true, res := .configRejected }
  /-- a `poll`, or a `start` still in its fill loop -/
  | filled {i : Instr} (hi : Safety.Polls i) (s : State) {x : Ghost} {r : Result} (st pcm old g p)
      (hx : x = s.ghost ∨ s.pollCtx ≠ .free ∧ x = s.ghost.raise .protocol) (hr : r ≠ .none) :
      Writes i s { s with
        st := st, pcm := pcm, pcmOld := old, storage := g, ghost := x, pollCtx := p, res := r }
  | started (src : Source) (s : State) {x : Ghost} (st pcm pcmOld g ctx wire wireOld n)
      (hx : x = s.ghost ∨ s.pollCtx ≠ .free ∧ x = s.ghost.raise .protocol) :
      Writes (.start src) s { s with
        st := st, pcm := pcm, pcmOld := pcmOld, storage := g, ghost := x, ctx := ctx, wire := wire,
        wireOld := wireOld, draws := n, line := [], wpend := both false, irq := both false,
        ch := launchedChans s.ch, active := true, pollCtx := .free, res := .none }
  | dmaStarted (s : State) (st ctx wire old n) : Writes .dmaStart s { s with
      ctx := ctx, st := st, wire := wire, wireOld := old, draws := n, line := [], wpend := both false,
      irq := both false, ch := launchedChans s.ch, active := true, res := .none }
  | stopWaits {i : Instr} (hi : Safety.IsStop i) (s : State) {ch : Pair Chan} (irq old n x)
      (hc : ∀ c, (ch.get c).irqEn = (s.ch.get c).irqEn) : Writes i s { s with
        ch := ch, irq := irq, wireOld := old, draws := n, pollCtx := x, res := .waits }
  | stopped {i : Instr} (hi : Safety.IsStop i) (s : State) {ch : Pair Chan} {g : Storage} (irq old n)
      (hc : ∀ c, (ch.get c).irqEn = (s.ch.get c).irqEn) (hg : g = s.storage ∨ i = .stop) : Writes i s { s with
        ch := ch, irq := irq, wireOld := old, draws := n, st := both .stale, wpend := both false, active := false,
        storage := g, pollCtx := .free, res := .none }
  | acquired (s : State) {x : Ghost} (st r) (hx : x = s.ghost ∨ x = s.ghost.raise .protocol) :
      Writes .acquireFillTarget s { s with st := st, ghost := x, res := r }
  | marked (s : State) (st old) : Writes .markFilled s { s with st := st, pcmOld := old, res := .none }
  | consumed (c : Side) (s : State) (ctx st wire old n) : Writes (.consumeChunk c) s { s with
      ctx := ctx, st := st, wire := wire, wireOld := old, draws := n, wpend := s.wpend.set c false,
      ghost := if s.st.get s.ctx.sel = .ready then s.ghost else s.ghost.raise .underrun, res := .none }
  | popped {j : Job} {js : List Job} {s : State} (hq : s.q = j :: js) (ctx st wire wireOld n pcmOld k q x) :
      Writes .workerPop s { s with
        ctx := ctx, st := st, wire := wire, wireOld := wireOld, draws := n, pcmOld := pcmOld, pushes := k, q := q,
        handler := x, wpend := s.wpend.set (jobChannel j) false,
        ghost := if s.st.get s.ctx.sel = .ready then s.ghost else s.ghost.raise .underrun, res := .none }
  | encoded (b : Side) (p : Nat) (c : Side) (q byteLen : Nat) (s : State) (ctx wire old n) :
      Writes (.encode b p c q byteLen) s { s with
        ctx := ctx, wire := wire, wireOld := old, draws := n, res := .none }
  | sampleEncoded (lo hi : Byte) (s : State) (ctx w) : Writes (.encodeSample lo hi) s { s with
      ctx := ctx, res := .words w }
  | rearmed (c : Side) (s : State) : Writes (.rearm c) s { s with
      ch := s.ch.set c { s.ch.get c with armed := true }, res := .none }
  | transferred (c : Side) (s : State) {w : WireWord} {ch : Pair Chan} {pend : Pair Bool} {g : Ghost} (n old irq)
      (hc : ∀ d, (ch.get d).en = (s.ch.get d).en ∧ (ch.get d).irqEn = (s.ch.get d).irqEn ∧
        (d ≠ c.other → (ch.get d).armed = (s.ch.get d).armed))
      (hw : pend = s.wpend ∨ pend = s.wpend.set c true)
      (hg : g = s.ghost ∨ g = s.ghost.raise .overrun ∨ g = s.ghost.raise .chainUnarmed) :
      Writes (.dmaWord c) s { s with
        line := s.line ++ [w], draws := n, ch := ch, wpend := pend, wireOld := old, irq := irq, ghost := g,
        res := .none }
  | served (c : Side) (s : State) (b irq cuts n q x r) : Writes (.irqService c) s { s with
      irq := irq, cuts := cuts, ch := s.ch.set c { s.ch.get c with armed := b }, pushes := n, q := q, handler := x,
      res := r }
  | pushed (j : Job) (s : State) (n q x r) : Writes (.push j) s { s with
      pushes := n, q := q, handler := x, res := r }
  | fillWritten (b : Side) (i : Nat) (v : Byte) (s : State) {x : Ghost} (pcm old)
      (hx : x = s.ghost ∨ x = s.ghost.raise .protocol) : Writes (.fillWrite b i v) s { s with
        pcm := pcm, pcmOld := old, ghost := x, res := .none }

theorem HandlerEntered.frame {c : Side} {s u : State} (h : HandlerEntered c s u) :
    ∃ irq cuts, u = { s with irq := irq, cuts := cuts } := by
  rcases h with ⟨-, cs, rfl⟩ | ⟨-, rfl⟩
  · exact ⟨_, cs, rfl⟩
  · exact ⟨_, _, rfl⟩

theorem served_self (c : Side) (s : State) (irq cuts n q x r) : Writes (.irqService c) s { s with
    irq := irq, cuts := cuts, pushes := n, q := q, handler := x, res := r } := by
  have same : s.ch.set c { s.ch.get c with armed := (s.ch.get c).armed } = s.ch := Pair.set_get_self s.ch c
  have h := Writes.served c s (s.ch.get c).armed irq cuts n q x r
  rwa [same] at h

/-- An operation writes what it may. -/
theorem Runs.writes {i : Instr} {s t : State} (h : Runs i s t) : Writes i s t := by
  cases h with
  | waits => exact .result i s nofun nofun
  | configured => exact .configured s
  | configRejected => exact .configRejected s
  | startWaits r hf =>
    obtain ⟨st, pcm, old, g, x, rfl, hx⟩ := hf.frame
    exact .filled (.inr ⟨_, rfl⟩) s st pcm old g _ hx nofun
  | started hf hs =>
    obtain ⟨_, pcm, old, g, x, rfl, hx⟩ := hf.frame
    obtain ⟨ctx, st, wire, wold, n, rfl⟩ := startTransmitter_frame hs
    exact .started _ s st pcm old g ctx wire wold n hx
  | stopWaits ha =>
    obtain ⟨ch, irq, old, n, rfl, hc⟩ := ha.frame
    exact .stopWaits (.inr rfl) s irq old n _ hc
  | stopped ha =>
    obtain ⟨ch, irq, old, n, rfl, hc⟩ := ha.frame
    exact .stopped (.inr rfl) s irq old n hc (.inr rfl)
  | pollWaits r hr =>
    obtain ⟨st, pcm, old, g, x, rfl, hx⟩ := hr.frame
    exact .filled (.inl rfl) s st pcm old g _ hx nofun
  | polled v hr =>
    obtain ⟨st, pcm, old, g, x, rfl, hx⟩ := hr.frame
    exact .filled (.inl rfl) s st pcm old g _ hx nofun
  | toldActive => exact .result _ s nofun nofun
  | acquired _ r =>
    obtain ⟨st, x, e, hx⟩ := acquireTarget_frame s
    rw [e]
    exact .acquired s st r hx
  | marked hm =>
    rcases markFirstFilling_eq_some hm with rfl | ⟨b, -, rfl⟩
    · exact .marked _ _ _
    · exact .marked s _ _
  | consumed hd hc =>
    obtain ⟨x, st, wire, old, n, rfl⟩ := consume_frame hc
    exact .consumed _ s x st wire old n
  | encoded he =>
    obtain ⟨x, wire, old, n, rfl⟩ := encodeRange_frame he
    exact .encoded _ _ _ _ _ s x wire old n
  | sampleEncoded lo hi => exact .sampleEncoded lo hi s _ _
  | dmaStarted hp hs =>
    obtain ⟨x, st, wire, old, n, rfl⟩ := startTransmitter_frame hs
    exact .dmaStarted s st x wire old n
  | dmaStopWaits ha =>
    obtain ⟨ch, irq, old, n, rfl, hc⟩ := ha.frame
    exact .stopWaits (.inl rfl) s irq old n _ hc
  | dmaStopped ha =>
    obtain ⟨ch, irq, old, n, rfl, hc⟩ := ha.frame
    exact .stopped (.inl rfl) s irq old n hc (.inl rfl)
  | rearmed hr => exact .rearmed _ s
  | @transferred c _ he hr =>
    obtain ⟨w, n, ch, pend, old, irq, g, e, hc, hw, hg⟩ := transferWord_frame c s
    rw [e]
    exact .transferred c s n old irq hc hw hg
  | acknowledged ht cs => exact served_self _ s _ cs s.pushes s.q _ _
  | handlerRearmed he hr cs =>
    obtain ⟨irq, cuts, rfl⟩ := he.frame
    exact .served _ s true irq cs s.pushes s.q _ _
  | @handlerPushed c _ u he hr cs =>
    obtain ⟨n, q, x, r, e⟩ := pushJob_frame (jobOf c) ((rearmChannel c u).setCuts cs)
    obtain ⟨irq, cuts, rfl⟩ := he.frame
    rw [e]
    exact .served _ s true irq cs n q x r
  | @handlerPushes c _ hh =>
    obtain ⟨n, q, x, r, e⟩ := pushJob_frame (jobOf c) s
    rw [e]
    exact served_self c s s.irq s.cuts n q x r
  | pushed j =>
    obtain ⟨n, q, x, r, e⟩ := pushJob_frame j s
    rw [e]
    exact .pushed j s n q x r
  | popped hw hq hr =>
    obtain ⟨x, st, wire, old, n, pcmOld, k, q, y, rfl⟩ := popped_frame hw hr
    exact .popped hq x st wire old n pcmOld k q y
  | fillWritten b v hi =>
    obtain ⟨pcm, old, x, e, hx⟩ := storeFill_frame b _ v s
    rw [e]
    exact .fillWritten b _ v s pcm old hx

theorem exec_writes {i : Instr} {s t : State} (h : exec i s = .next t) : Writes i s t := (exec_runs h).writes

/-! Who writes `LINE`, `ACTIVE` and `SETUP_DONE`. -/

theorem Writes.line {i : Instr} {s t : State} (h : Writes i s t) :
    t.line = s.line ∨ (∃ c w, i = .dmaWord c ∧ t.line = s.line ++ [w]) ∨
      (Safety.IsStart i ∧ t.line = [] ∧ t.active = true) := by
  cases h with
  | started src => exact .inr (.inr ⟨.inr ⟨src, rfl⟩, rfl, rfl⟩)
  | dmaStarted => exact .inr (.inr ⟨.inl rfl, rfl, rfl⟩)
  | transferred c => exact .inr (.inl ⟨c, _, rfl, rfl⟩)
  | _ => exact .inl rfl

/-- A start that does not wait has launched the channels. -/
theorem Writes.start_done {i : Instr} {s t : State} (h : Writes i s t) (hi : Safety.IsStart i)
    (hr : t.res = .none) : t.line = [] ∧ t.active = true := by
  cases h with
  | started => exact ⟨rfl, rfl⟩
  | dmaStarted => exact ⟨rfl, rfl⟩
  | result _ _ hn => exact absurd hr hn
  | filled _ _ _ _ _ _ _ _ hn => exact absurd hr hn
  | stopWaits => cases hr
  | stopped hs => rcases hs with rfl | rfl <;> simp [Safety.IsStart] at hi
  | _ => simp [Safety.IsStart] at hi

/-- `ACTIVE` stays, but for a start and a stop that reach their end. -/
theorem Writes.active {i : Instr} {s t : State} (h : Writes i s t) :
    t.active = s.active ∨ (Safety.IsStart i ∧ t.active = true) ∨ Safety.IsStop i ∧ t.active = false := by
  cases h with
  | started src => exact .inr (.inl ⟨.inr ⟨src, rfl⟩, rfl⟩)
  | dmaStarted => exact .inr (.inl ⟨.inl rfl, rfl⟩)
  | stopped hi => exact .inr (.inr ⟨hi, rfl⟩)
  | _ => exact .inl rfl

theorem Writes.stop_done {i : Instr} {s t : State} (h : Writes i s t) (hi : Safety.IsStop i)
    (hr : t.res = .none) : t.active = false := by
  cases h with
  | stopped => rfl
  | result _ _ hn => exact absurd hr hn
  | filled _ _ _ _ _ _ _ _ hn => exact absurd hr hn
  | stopWaits => cases hr
  | _ => simp [Safety.IsStop] at hi

theorem Writes.setupDone {i : Instr} {s t : State} (h : Writes i s t) :
    (t.setupDone = s.setupDone ∧ (i = .setup → t.res ≠ .ok)) ∨ i = .setup ∧ t.setupDone = true ∧ t.res = .ok := by
  cases h with
  | configured => exact .inr ⟨rfl, rfl, rfl⟩
  | configRejected => exact .inl ⟨rfl, nofun⟩
  | result _ _ _ ho => exact .inl ⟨rfl, fun _ => ho⟩
  | filled hi => exact .inl ⟨rfl, by rintro rfl; simp [Safety.Polls] at hi⟩
  | stopWaits => exact .inl ⟨rfl, nofun⟩
  | stopped => exact .inl ⟨rfl, nofun⟩
  | _ => exact .inl ⟨rfl, nofun⟩

/-! Who raises the ghost faults. -/

theorem Writes.ghost {i : Instr} {s t : State} (h : Writes i s t) :
    t.ghost = s.ghost ∨ (∃ c, i = .dmaWord c ∧ ∃ f ∈ [.overrun, .chainUnarmed], t.ghost = s.ghost.raise f) ∨
      (Safety.Consumes i ∧ t.ghost = s.ghost.raise .underrun) ∨
      ((i = .acquireFillTarget ∨ (∃ b k v, i = .fillWrite b k v) ∨ Safety.Polls i ∧ s.pollCtx ≠ .free) ∧
        t.ghost = s.ghost.raise .protocol) := by
  cases h with
  | filled hi _ _ _ _ _ _ hx => exact hx.imp id fun ⟨hc, e⟩ => .inr (.inr ⟨.inr (.inr ⟨hi, hc⟩), e⟩)
  | started src _ _ _ _ _ _ _ _ _ hx =>
    exact hx.imp id fun ⟨hc, e⟩ => .inr (.inr ⟨.inr (.inr ⟨.inr ⟨src, rfl⟩, hc⟩), e⟩)
  | acquired _ _ _ hx => exact hx.imp id fun e => .inr (.inr ⟨.inl rfl, e⟩)
  | fillWritten b k v _ _ _ hx => exact hx.imp id fun e => .inr (.inr ⟨.inr (.inl ⟨b, k, v, rfl⟩), e⟩)
  | transferred c _ _ _ _ _ _ hg =>
    rcases hg with hg | hg | hg
    · exact .inl hg
    · exact .inr (.inl ⟨c, rfl, _, by simp, hg⟩)
    · exact .inr (.inl ⟨c, rfl, _, by simp, hg⟩)
  | consumed c => 
    dsimp only
    split
    · exact .inl rfl
    · exact .inr (.inr (.inl ⟨.inr ⟨c, rfl⟩, rfl⟩))
  | popped => 
    dsimp only
    split
    · exact .inl rfl
    · exact .inr (.inr (.inl ⟨.inl rfl, rfl⟩))
  | _ => exact .inl rfl

/-! Who writes the descriptors, the pending bits and the other fields. -/

/-- To write `ARMED` of one descriptor is to write nothing else. -/
theorem get_set_armed (x : Pair Chan) (d : Side) (b : Bool) (c : Side) :
    let y := (x.set d { x.get d with armed := b }).get c
    y.en = (x.get c).en ∧ (y.armed ≠ (x.get c).armed → d = c) ∧ y.busy = (x.get c).busy ∧
      y.rptr = (x.get c).rptr ∧ y.irqEn = (x.get c).irqEn := by
  rcases Side.eq_or_eq_other d c with rfl | rfl <;> simp

theorem Writes.chan {i : Instr} {s t : State} (h : Writes i s t) (c : Side) :
    ((t.ch.get c).en ≠ (s.ch.get c).en → i = .setup ∨ Safety.IsStart i ∨ Safety.IsStop i) ∧
    ((t.ch.get c).armed ≠ (s.ch.get c).armed → i = .setup ∨ Safety.IsStart i ∨ Safety.IsStop i ∨
      i = .rearm c ∨ i = .irqService c ∨ i = .dmaWord c.other) ∧
    ((t.ch.get c).busy ≠ (s.ch.get c).busy ∨ (t.ch.get c).rptr ≠ (s.ch.get c).rptr →
      i = .setup ∨ Safety.IsStart i ∨ Safety.IsStop i ∨ ∃ d, i = .dmaWord d) ∧
    ((t.ch.get c).irqEn ≠ (s.ch.get c).irqEn → i = .setup) := by
  cases h with
  | configured => simp
  | started => simp [Safety.IsStart]; cases c <;> rfl
  | dmaStarted => simp [Safety.IsStart]; cases c <;> rfl
  | stopWaits hi _ _ _ _ _ hc => simp [hi, hc]
  | stopped hi _ _ _ _ hc => simp [hi, hc]
  | rearmed d =>
    obtain ⟨hen, harmed, hbusy, hrptr, hirq⟩ := get_set_armed s.ch d true c
    simpa [Safety.IsStart, Safety.IsStop, hen, hbusy, hrptr, hirq] using harmed
  | transferred d _ _ _ _ hc =>
    obtain ⟨hen, hirq, harmed⟩ := hc c
    refine ⟨fun hn => absurd hen hn, fun hn => ?_, fun _ => .inr (.inr (.inr ⟨d, rfl⟩)), fun hn => absurd hirq hn⟩
    have hd : c = d.other := not_not.mp fun hd => hn (harmed hd)
    simp [hd]
  | served d _ b =>
    obtain ⟨hen, harmed, hbusy, hrptr, hirq⟩ := get_set_armed s.ch d b c
    simpa [Safety.IsStart, Safety.IsStop, hen, hbusy, hrptr, hirq] using harmed
  | _ => simp

theorem Writes.wpend {i : Instr} {s t : State} (h : Writes i s t) (c : Side) :
    t.wpend.get c = s.wpend.get c ∨ (i = .dmaWord c ∧ t.wpend.get c = true) ∨
      (Safety.IsStart i ∨ Safety.IsStop i ∨ i = .consumeChunk c ∨ i = .workerPop ∧ s.q.head? = some (jobOf c)) ∧
        t.wpend.get c = false := by
  have cleared : ∀ d, (s.wpend.set d false).get c = s.wpend.get c ∨ d = c ∧ (s.wpend.set d false).get c = false := by
    intro d
    rcases Side.eq_or_eq_other d c with rfl | rfl <;> simp
  cases h with
  | started src => exact .inr (.inr ⟨.inl (.inr ⟨src, rfl⟩), by cases c <;> rfl⟩)
  | dmaStarted => exact .inr (.inr ⟨.inl (.inl rfl), by cases c <;> rfl⟩)
  | stopped hi => exact .inr (.inr ⟨.inr (.inl hi), by cases c <;> rfl⟩)
  | consumed d => exact (cleared d).imp id fun ⟨e, hc⟩ => .inr ⟨.inr (.inr (.inl (by rw [e]))), hc⟩
  | @popped j _ _ hq =>
    refine (cleared (jobChannel j)).imp id fun ⟨e, hc⟩ => .inr ⟨.inr (.inr (.inr ⟨rfl, ?_⟩)), hc⟩
    rw [hq, ← e]
    cases j <;> rfl
  | transferred d _ _ _ _ _ hw =>
    rcases hw with rfl | rfl
    · exact .inl rfl
    · rcases Side.eq_or_eq_other d c with rfl | rfl
      · exact .inr (.inl ⟨rfl, Pair.get_set_same _ _ _⟩)
      · exact .inl (Pair.get_set_other _ _ _)
  | _ => exact .inl rfl

/-- Who writes the fields that are not per channel. -/
theorem Writes.fields {i : Instr} {s t : State} (h : Writes i s t) :
    (t.ctx ≠ s.ctx ∨ t.wire ≠ s.wire → Safety.Encodes i) ∧
    (t.pcm ≠ s.pcm → Safety.Polls i ∨ ∃ b k v, i = .fillWrite b k v) ∧
    (t.q ≠ s.q → i = .setup ∨ i = .workerPop ∨ (∃ j, i = .push j) ∨ ∃ c, i = .irqService c) ∧
    (t.wk ≠ s.wk → i = .setup) ∧
    (t.rejected ≠ s.rejected → i = .setup ∧ t.rejected = true ∧ t.res = .configRejected) ∧
    (t.intEn ≠ s.intEn → i = .setup) ∧
    (t.handler ≠ s.handler ∨ t.pushes ≠ s.pushes →
      i = .workerPop ∨ (∃ j, i = .push j) ∨ ∃ c, i = .irqService c) ∧
    (t.cuts ≠ s.cuts → ∃ c, i = .irqService c) ∧
    (t.pollCtx ≠ s.pollCtx → Safety.Polls i ∨ Safety.IsStop i) ∧
    (t.storage ≠ s.storage → Safety.Polls i ∨ i = .stop) ∧
    (t.pcmOld ≠ s.pcmOld → Safety.Polls i ∨ i = .markFilled ∨ i = .workerPop ∨ ∃ b k v, i = .fillWrite b k v) ∧
    (t.wireOld ≠ s.wireOld ∨ t.draws ≠ s.draws → Safety.Encodes i ∨ Safety.IsStop i ∨ ∃ c, i = .dmaWord c) ∧
    t.cfg = s.cfg ∧ t.trace = s.trace := by
  cases h with
  | filled hi => simp [hi]
  | stopWaits hi => simp [hi]
  | stopped hi _ _ _ _ _ hg => rcases hg with rfl | rfl <;> simp [hi]
  | _ => simp [Safety.Encodes, Safety.IsStart, Safety.Consumes, Safety.Polls]

end Sys2Proof.Effects

/-! The invariant of the block, kept by every operation: first what a sample does to `INV`, then what each part of
the state needs, then the operations in the order of the model. -/

namespace Sys2Proof.Invariant

open Sys2Proof.Machine
open Sys2Proof.Effects
open Sys2Proof.Safety (ChannelLegal ContextLegal PollLegal)

variable {s t : State}

/-! The encoder at a sample boundary: `INV` is back where it was (40_frame_encoder.md R102). -/

/-- The exclusive or of the eight bits of a byte. -/
def parity (b : Byte) : Bool :=
  b.getLsbD 0 ^^ b.getLsbD 1 ^^ b.getLsbD 2 ^^ b.getLsbD 3 ^^ b.getLsbD 4 ^^ b.getLsbD 5 ^^ b.getLsbD 6 ^^ b.getLsbD 7

theorem biphase_last_cell (b : Byte) : (biphase b).getLsbD 0 = parity b := by
  revert b; decide

theorem popcnt_odd (b : Byte) : (popcnt b % 2 == 1) = parity b := by
  revert b; decide

theorem preamble_last_cell (n : BitVec 9) : (preamble n).getLsbD 0 = false := by
  unfold preamble
  split
  · rfl
  · split <;> rfl

theorem invAfter_invert (inv : Bool) (t : WireWord) : invAfter (invert inv t) = (inv ^^ t.getLsbD 0) := by
  cases inv <;> simp [invAfter, invert]

theorem parity_xor (a b : Byte) : parity (a ^^^ b) = (parity a ^^ parity b) := by
  have : Std.Commutative Bool.xor := ⟨Bool.xor_comm⟩
  simp only [parity, BitVec.getLsbD_xor]
  ac_rfl

/-- The bits of the placed sample (30_encoding.md R71, R73). -/
theorem placeSample_bit (lo hi : Byte) {k : Nat} (hk : k < 32) :
    (placeSample (sampleOf lo hi)).getLsbD k =
      if k < 11 then false else if k < 19 then lo.getLsbD (k - 11) else if k < 27 then hi.getLsbD (k - 19)
      else false := by
  unfold placeSample sampleOf
  rw [BitVec.getLsbD_shiftLeft, BitVec.getLsbD_setWidth, BitVec.getLsbD_append]
  by_cases h1 : k < 11
  · simp [h1]
  · have h32 : k - 11 < 32 := by omega
    by_cases h2 : k < 19
    · have h8 : k - 11 < 8 := by omega
      simp [hk, h1, h2, h32, h8]
    · have h8 : ¬ k - 11 < 8 := by omega
      have h19 : k - 11 - 8 = k - 19 := by omega
      by_cases h3 : k < 27
      · simp [hk, h1, h2, h3, h32, h8, h19]
      · simp [hk, h1, h2, h3, h32, h8, h19, BitVec.getLsbD_of_ge hi (k - 19) (by omega)]

/-- The parity bit's count, by the bits of the sample (30_encoding.md R74, R75). -/
theorem parityCount_odd (lo hi : Byte) :
    decide (parityCount lo hi % 2 = 1) = (parity lo ^^ parity hi ^^ hi.getLsbD 7) := by
  have sign : (placeSample (sampleOf lo hi)).getLsbD 26 = hi.getLsbD 7 := placeSample_bit lo hi (by decide)
  rw [← parity_xor, ← popcnt_odd, parityCount, sign]
  rcases Nat.mod_two_eq_zero_or_one (popcnt (lo ^^^ hi)) with h | h <;> cases hi.getLsbD 7 <;> simp [Nat.add_mod, h]

/-- The bits of a subframe: the placed sample, its sign restored in slot 27, and the parity bit in slot 31
(30_encoding.md R74, R75). -/
theorem subframe_bit (lo hi : Byte) {k : Nat} (hk : k < 32) :
    (subframe lo hi).getLsbD k = ((placeSample (sampleOf lo hi)).getLsbD k ||
      decide (k = 27) && hi.getLsbD 7 || decide (k = 31) && decide (parityCount lo hi % 2 = 1)) := by
  have sign : (placeSample (sampleOf lo hi)).getLsbD 26 = hi.getLsbD 7 := placeSample_bit lo hi (by decide)
  have slot27 : (0x08000000#32).getLsbD k = decide (k = 27) := by revert k; decide
  have slot31 : (0x80000000#32).getLsbD k = decide (k = 31) := by revert k; decide
  simp only [subframe, signRestore, sign]
  cases hi.getLsbD 7 <;> by_cases hp : parityCount lo hi % 2 = 1 <;>
    simp [-BitVec.getLsbD_eq_getElem, BitVec.getLsbD_or, hp, slot27, slot31]

/-- Time slots 8 to 31 hold an even number of ones (30_encoding.md R75). -/
theorem subframe_even (lo hi : Byte) :
    (parity (tableIndex1 (subframe lo hi)) ^^ parity (tableIndex2 (subframe lo hi)) ^^
      parity (tableIndex3 (subframe lo hi))) = false := by
  have bits : (parity (tableIndex1 (subframe lo hi)) ^^ parity (tableIndex2 (subframe lo hi)) ^^
      parity (tableIndex3 (subframe lo hi))) =
        (parity lo ^^ parity hi ^^ hi.getLsbD 7 ^^ decide (parityCount lo hi % 2 = 1)) := by
    simp only [parity, tableIndex1, tableIndex2, tableIndex3, BitVec.getLsbD_extractLsb', Nat.reduceLT,
      Nat.reduceAdd, Nat.reduceSub, Nat.reduceEqDiff, subframe_bit, placeSample_bit, decide_true, decide_false,
      if_true, if_false, Bool.true_and, Bool.false_and, Bool.or_false, Bool.false_or, Bool.xor_assoc, Bool.false_xor]
  rw [bits, parityCount_odd, Bool.xor_self]

/-- A sample leaves `INV` as it was (40_frame_encoder.md R102). -/
theorem encodeSample_inv (x : Context) (lo hi : Byte) : (encodeSample x lo hi).2.inv = x.inv := by
  simp only [encodeSample, invAfter_invert, preamble_last_cell, biphase_last_cell, Bool.xor_false, Bool.xor_assoc]
  rw [← Bool.xor_assoc (parity _), subframe_even, Bool.xor_false]

/-- A stream leaves `INV` as it was and `SFCNT` below 384. -/
theorem encodeStream_context (x : Context) (bytes : List Byte) (h : x.sfcnt.toNat < 384) :
    (encodeStream x bytes).2.sfcnt.toNat < 384 ∧ (encodeStream x bytes).2.inv = x.inv := by
  induction x, bytes using encodeStream.induct with
  | case1 x lo hi bytes e ih =>
    obtain ⟨hs, hi⟩ := ih (by rw [encodeSample_sfcnt, nextSfcnt_toNat]; exact Nat.mod_lt _ (by decide))
    exact ⟨hs, hi.trans (encodeSample_inv x lo _)⟩
  | case2 => exact ⟨h, rfl⟩
  | case3 => exact ⟨h, rfl⟩

/-! The parts of the invariant, side by side. -/

theorem channel_legal (h : Safety.Inv s) (c : Side) : ChannelLegal s (s.ch.get c) := by
  obtain ⟨-, -, -, ⟨ha, hb, -⟩, -⟩ := h
  cases c
  exacts [ha, hb]

theorem other_idle (h : Safety.Inv s) {c : Side} (hc : (s.ch.get c).busy = true) : (s.ch.get c.other).busy = false := by
  obtain ⟨-, -, -, ⟨-, -, h1⟩, -⟩ := h
  cases c
  · exact Bool.eq_false_iff.mpr fun hb => h1 ⟨hc, hb⟩
  · exact Bool.eq_false_iff.mpr fun ha => h1 ⟨ha, hc⟩

theorem no_race (h : Safety.Inv s) {c : Side} (hc : (s.ch.get c).busy = false) : s.wireOld.get c = [] := by
  obtain ⟨-, -, -, -, -, -, -, ⟨ha, hb⟩, -⟩ := h
  cases c
  exacts [ha hc, hb hc]

theorem config_valid (h : Safety.Inv s) (hd : s.setupDone = true) : configValid s.cfg = true := by
  obtain ⟨-, -, -, -, ⟨-, valid, -⟩, -⟩ := h
  exact valid hd

theorem configValid_iff {P : Params} : configValid P = true ↔ P.chunkBytes % 2 = 0 ∧ P.chunkBytes ≠ 0 ∧
    P.pcmBufBytes % P.chunkBytes = 0 ∧ P.pcmBufBytes ≠ 0 ∧ P.wireWords = 2 * P.chunkBytes := by
  simp [configValid, and_assoc]

/-- A block that is not active transmits nothing. -/
theorem channel_idle (h : Safety.Inv s) (ha : s.active = false) (c : Side) :
    (s.ch.get c).en = false ∧ (s.ch.get c).busy = false := by
  obtain ⟨hbusy, hen, -, -⟩ := channel_legal h c
  have en : (s.ch.get c).en = false := Bool.eq_false_iff.mpr fun he => absurd (ha.symm.trans (hen he)) nofun
  exact ⟨en, Bool.eq_false_iff.mpr fun hb => absurd (en.symm.trans (hbusy hb).1) nofun⟩

/-! What each field of the state needs to keep it. -/

/-- The fields that the invariant does not read. -/
@[simp] theorem inv_setRes (r : Result) : Safety.Inv (s.setRes r) ↔ Safety.Inv s := Iff.rfl
@[simp] theorem inv_setTrace (x : List (BitVec 8)) : Safety.Inv (s.setTrace x) ↔ Safety.Inv s := Iff.rfl
@[simp] theorem inv_setDraws (n : Nat) : Safety.Inv (s.setDraws n) ↔ Safety.Inv s := Iff.rfl
@[simp] theorem inv_setLine (x : List (BitVec 16)) : Safety.Inv (s.setLine x) ↔ Safety.Inv s := Iff.rfl
@[simp] theorem inv_setIrq (x : Pair Bool) : Safety.Inv (s.setIrq x) ↔ Safety.Inv s := Iff.rfl
@[simp] theorem inv_setWpend (x : Pair Bool) : Safety.Inv (s.setWpend x) ↔ Safety.Inv s := Iff.rfl
@[simp] theorem inv_setCuts (x : List Bool) : Safety.Inv (s.setCuts x) ↔ Safety.Inv s := Iff.rfl
@[simp] theorem inv_setStorage (x : Storage) : Safety.Inv (s.setStorage x) ↔ Safety.Inv s := Iff.rfl

theorem inv_setCtx {x : Context} (h : Safety.Inv s) (hx : ContextLegal (s.setCtx x)) : Safety.Inv (s.setCtx x) := by
  obtain ⟨mem, range, -, rest⟩ := h
  exact ⟨mem, range, hx, rest⟩

theorem inv_raiseGhost (f : GhostFault) (h : Safety.Inv s) : Safety.Inv (raiseGhost f s) := by
  obtain ⟨mem, range, ctx, chans, setup, queue, bufs, rest⟩ := h
  refine ⟨mem, range, ctx, chans, setup, queue, fun hp => bufs ?_, rest⟩
  obtain ⟨-, -, -, sticky⟩ := Ghost.raise_mono s.ghost f
  exact Bool.eq_false_iff.mpr fun hg => absurd (hp.symm.trans (sticky hg)) nofun

/-- A buffer that becomes Stale. -/
theorem inv_stale (b : Side) (h : Safety.Inv s) : Safety.Inv (setStOf b .stale s) := by
  obtain ⟨mem, range, ctx, chans, setup, queue, bufs, rest⟩ := h
  refine ⟨mem, range, ctx, chans, setup, queue, fun hp => ?_, rest⟩
  obtain ⟨one, ra, rb⟩ := bufs hp
  cases b
  · exact ⟨nofun, nofun, rb⟩
  · exact ⟨nofun, ra, nofun⟩

theorem inv_setChan {c : Side} {x : Chan} (h : Safety.Inv s) (hx : ChannelLegal s x)
    (one : x.busy = true → (s.ch.get c.other).busy = false) (irqEn : x.irqEn = (s.ch.get c).irqEn)
    (en : x.en = true → (s.ch.get c).en = true) (race : x.busy = false → s.wireOld.get c = []) :
    Safety.Inv (setChan c x s) := by
  obtain ⟨mem, range, ctx, ⟨la, lb, -⟩, ⟨s1, s2, s3, s4, s5, s6⟩, queue, bufs, ⟨ra, rb⟩, ⟨p1, p2⟩, marks⟩ := h
  have off : (s.ch.get c).en = false → x.en = false := fun hf =>
    Bool.eq_false_iff.mpr fun he => absurd (hf.symm.trans (en he)) nofun
  cases c
  · exact ⟨mem, range, ctx, ⟨hx, lb, fun ⟨hb, hc⟩ => absurd ((one hb).symm.trans hc) nofun⟩,
      ⟨s1, s2, s3, s4, fun hd => ⟨irqEn.trans (s5 hd).1, (s5 hd).2⟩,
      s6⟩, queue, bufs, ⟨race, rb⟩, ⟨p1, fun hp => ⟨(p2 hp).1, off (p2 hp).2.1, (p2 hp).2.2⟩⟩, marks⟩
  · exact ⟨mem, range, ctx, ⟨la, hx, fun ⟨hb, hc⟩ => absurd ((one hc).symm.trans hb) nofun⟩,
      ⟨s1, s2, s3, s4, fun hd => ⟨(s5 hd).1, irqEn.trans (s5 hd).2⟩,
      s6⟩, queue, bufs, ⟨ra, race⟩, ⟨p1, fun hp => ⟨(p2 hp).1, (p2 hp).2.1, off (p2 hp).2.2⟩⟩, marks⟩

/-- The race of a channel forgotten. -/
theorem inv_endWireRace (c : Side) (h : Safety.Inv s) : Safety.Inv (endWireRace c s) := by
  have mem := endWireRace_memories (c := c) h.1
  obtain ⟨-, range, ctx, chans, setup, queue, bufs, ⟨ra, rb⟩, rest⟩ := h
  cases c
  · exact ⟨mem, range, ctx, chans, setup, queue, bufs, ⟨fun _ => rfl, rb⟩, rest⟩
  · exact ⟨mem, range, ctx, chans, setup, queue, bufs, ⟨ra, fun _ => rfl⟩, rest⟩

/-- The wire entries of one channel's buffer. -/
theorem inv_setWire {c : Side} {W : Memory (BitVec 16)} {O : Memory (List (BitVec 16))} (h : Safety.Inv s)
    (wf : Memory.wf W = true) (range : Safety.IndicesBelow W s.cfg.wireWords) (old : Safety.OldValuesCanonical O)
    (race : (s.ch.get c).busy = false → O = []) :
    Safety.Inv ((s.setWire (s.wire.set c W)).setWireOld (s.wireOld.set c O)) := by
  obtain ⟨⟨m1, m2, m3, m4, m5, m6, m7, m8⟩, ⟨r1, r2, r3, r4⟩, ctx, chans, setup, queue, bufs, ⟨ra, rb⟩, rest⟩ := h
  cases c
  · exact ⟨⟨m1, m2, wf, m4, m5, m6, old, m8⟩, ⟨r1, r2, range, r4⟩, ctx, chans, setup, queue, bufs, ⟨race, rb⟩, rest⟩
  · exact ⟨⟨m1, m2, m3, wf, m5, m6, m7, old⟩, ⟨r1, r2, r3, range⟩, ctx, chans, setup, queue, bufs, ⟨ra, race⟩, rest⟩

/-- The queue, the handler and the count of pushes, after `setup`. -/
theorem inv_setQueue {n : Nat} {q : List Job} {x : Option HandlerAt} (h : Safety.Inv s) (hd : s.setupDone = true)
    (hn : s.pushes ≤ n) (hq : q.length ≤ s.cfg.queueDepth)
    (held : ∀ j, x = some (.held j) → s.cfg.queueDepth ≤ q.length) :
    Safety.Inv (((s.setPushes n).setQ q).setHandler x) := by
  obtain ⟨mem, range, ctx, chans, ⟨s1, s2, s3, s4, s5, s6, s7, s8⟩, queue, bufs, races, poll, ⟨ma, mb⟩⟩ := h
  refine ⟨mem, range, ctx, chans, ⟨s1, s2, s3, s4, s5, s6, fun hf => ?_, s8⟩, ⟨hq, fun hx => ?_⟩, bufs, races, poll,
    ⟨fun e he o ho => (ma e he o ho).trans hn, fun e he o ho => (mb e he o ho).trans hn⟩⟩
  · rw [show s.setupDone = false from hf] at hd; cases hd
  · have full : s.cfg.queueDepth ≤ q.length := by
      match x, hx with
      | some (.held j), _ => exact held j rfl
    exact decide_eq_false (Nat.not_lt.mpr full)

theorem inv_setPollCtx {p : PollCtx} (h : Safety.Inv s) (hr : s.rejected = false ∨ p = .free)
    (hp : PollLegal (s.setPollCtx p)) : Safety.Inv (s.setPollCtx p) := by
  obtain ⟨mem, range, ctx, chans, ⟨s1, s2, s3, s4, s5, s6, s7, s8⟩, queue, bufs, races, -, marks⟩ := h
  refine ⟨mem, range, ctx, chans, ⟨s1, s2, s3, s4, s5, s6, s7, fun hj => ⟨(s8 hj).1, (s8 hj).2.1, ?_⟩⟩, queue, bufs,
    races, hp, marks⟩
  rcases hr with hr | hr
  · rw [show s.rejected = true from hj] at hr; cases hr
  · exact hr

theorem inv_setPollCtx_free (h : Safety.Inv s) : Safety.Inv (s.setPollCtx .free) :=
  inv_setPollCtx h (.inr rfl) ⟨nofun, by rintro (h | h) <;> cases h⟩

/-! The fill of a buffer. -/

theorem mem_of_read? {α : Type} {m : Memory α} {i : Nat} {v : α} (h : Memory.read? m i = some v) : (i, v) ∈ m := by
  induction m with
  | nil => cases h
  | cons e m ih =>
    obtain ⟨k, x⟩ := e
    by_cases hk : i = k
    · simp only [Memory.read?, hk, if_true, Option.some.injEq] at h
      simp [hk, h]
    · simp only [Memory.read?, hk, if_false] at h
      exact List.mem_cons_of_mem _ (ih h)

/-- A byte kept now is marked with the jobs pushed so far (20_memory.md R58). -/
theorem marks_write {m : Memory (List OldByte)} (i n : Nat) (v : Byte) (h : ∀ e ∈ m, ∀ o ∈ e.2, o.pushes ≤ n) :
    ∀ e ∈ Memory.write m i ((Memory.read? m i).getD [] ++ [{ pushes := n, byte := v }]),
      ∀ o ∈ e.2, o.pushes ≤ n := by
  intro e he o ho
  rcases Memory.mem_write he with rfl | he
  · rcases List.mem_append.mp ho with ho | ho
    · cases hr : Memory.read? m i with
      | none => simp [hr] at ho
      | some l => exact h _ (mem_of_read? hr) o (by simpa [hr] using ho)
    · rw [List.mem_singleton.mp ho]
  · exact h e he o ho

theorem inv_storeFill {b : Side} {i : Nat} {v : Byte} (h : Safety.Inv s) (hi : i < s.cfg.pcmBufBytes) :
    Safety.Inv (storeFill b i v s) := by
  have mem := storeFill_memories (t := b) (i := i) (v := v) h.1
  obtain ⟨-, ⟨ra, rb, rest⟩, ctx, chans, setup, queue, bufs, races, poll, ⟨ma, mb⟩⟩ := h
  rw [storeFill_eq, writePcm_eq] at mem ⊢
  have fill : (if s.st.get b = .filling then s.ghost else s.ghost.raise .protocol).protocol = false →
      s.st.get b = .filling ∧ s.ghost.protocol = false := by
    split
    · next hf => exact fun hp => ⟨hf, hp⟩
    · exact nofun
  cases b
  · refine ⟨mem, ⟨Memory.below_write v hi ra, rb, rest⟩, ctx, chans, setup, queue, fun hp => ?_, races, poll,
      marks_write i _ _ ma, mb⟩
    obtain ⟨hf, hp⟩ := fill hp
    obtain ⟨one, -, hb⟩ := bufs hp
    exact ⟨one, fun hr => absurd (hf.symm.trans hr) nofun, hb⟩
  · refine ⟨mem, ⟨ra, Memory.below_write v hi rb, rest⟩, ctx, chans, setup, queue, fun hp => ?_, races, poll,
      ma, marks_write i _ _ mb⟩
    obtain ⟨hf, hp⟩ := fill hp
    obtain ⟨one, ha, -⟩ := bufs hp
    exact ⟨one, ha, fun hr => absurd (hf.symm.trans hr) nofun⟩

theorem inv_markReady {b : Side} (h : Safety.Inv s) (hb : firstIn .filling s.st = some b) :
    Safety.Inv (markReady b s) := by
  have mem := publishPcm_memories (b := b) h.1
  obtain ⟨-, range, ctx, chans, setup, queue, bufs, races, poll, ⟨ma, mb⟩⟩ := h
  have hf := (firstIn_eq_some hb).1
  cases b
  · exact ⟨mem, range, ctx, chans, setup, queue, fun hp => ⟨nofun, fun _ => rfl, (bufs hp).2.2⟩, races, poll, nofun, mb⟩
  · exact ⟨mem, range, ctx, chans, setup, queue, fun hp => ⟨nofun, (bufs hp).2.1, fun _ => rfl⟩, races, poll, ma, nofun⟩

theorem inv_claim {b : Side} (h : Safety.Inv s) (hf : firstIn .filling s.st = none ∨ s.ghost.protocol = true) :
    Safety.Inv (setStOf b .filling s) := by
  obtain ⟨mem, range, ctx, chans, setup, queue, bufs, rest⟩ := h
  refine ⟨mem, range, ctx, chans, setup, queue, fun hp => ?_, rest⟩
  obtain ⟨ha, hb⟩ := firstIn_eq_none.mp (hf.resolve_right fun hg => absurd (hg.symm.trans hp) nofun)
  obtain ⟨-, ra, rb⟩ := bufs hp
  cases b
  · exact ⟨fun hab => hb hab.2, nofun, rb⟩
  · exact ⟨fun hab => ha hab.1, ra, nofun⟩

theorem fillKeeps_inv : FillKeeps fun s t => Safety.Inv s → Safety.Inv t where
  refl := fun _ => id
  trans := fun _ _ _ h1 h2 h => h2 (h1 h)
  storage := fun _ _ h => h
  store := fun _ _ _ _ hi h => inv_storeFill h hi
  mark := fun _ _ hb h => inv_markReady h hb
  claim := fun _ _ hf _ h => inv_claim h (.inl hf)

theorem inv_acquireTarget (h : Safety.Inv s) : Safety.Inv (acquireTarget s).2 := by
  have claims : ∀ u, Safety.Inv u → firstIn .filling u.st = none ∨ u.ghost.protocol = true →
      Safety.Inv (claimTarget u).2 := by
    intro u hu hc
    rcases claimTarget_cases u with ⟨b, -, e⟩ | ⟨-, e⟩ <;> rw [e]
    · exact inv_claim hu hc
    · exact hu
  unfold acquireTarget
  split
  · next hf => exact claims s h (.inl hf)
  · exact claims _ (inv_raiseGhost .protocol h) (.inr rfl)

theorem inv_markFirstFilling (h : Safety.Inv s) (hm : markFirstFilling s = some t) : Safety.Inv t := by
  rcases markFirstFilling_eq_some hm with rfl | ⟨b, hb, rfl⟩
  · exact h
  · exact inv_markReady h hb

/-! The encoder and its jobs. -/

/-- What `encode` answers: nothing to do, or the loop within both buffers. -/
theorem encodeRange_eq_next {b c : Side} {p q n : Nat} (h : encodeRange b p c q n s = .next t) :
    t = s ∨ q + 4 * (n / 2) ≤ s.cfg.wireWords ∧ t = encodeLoop b c (n / 2) p q s := by
  unfold encodeRange at h
  dsimp only at h
  split at h
  · exact .inl (next_inj.mp h).symm
  · split at h
    · next hr =>
      simp only [encodeInRange, Bool.and_eq_true, decide_eq_true_eq] at hr
      exact .inr ⟨hr.2, (next_inj.mp h).symm⟩
    · cases h

theorem inv_encodeRange {b c : Side} {p q n : Nat} (h : Safety.Inv s) (e : encodeRange b p c q n s = .next t) :
    Safety.Inv t := by
  rcases encodeRange_eq_next e with rfl | ⟨hq, rfl⟩
  · exact h
  · have he := encodeLoop_effect b c (n / 2) p q s
    obtain ⟨bytes, -, -, -, hctx, -⟩ := encodeLoop_stream b c (n / 2) p q s
    have race := no_race h (c := c)
    obtain ⟨⟨m1, m2, m3, m4, m5, m6, m7, m8⟩, ⟨r1, r2, r3, r4⟩, ⟨hs, hinv, hcur⟩, -⟩ := id h
    obtain ⟨hs', hinv'⟩ := encodeStream_context s.ctx bytes hs
    rw [← hctx] at hs' hinv'
    have sides : Memory.wf (s.wire.get c) = true ∧ Safety.IndicesBelow (s.wire.get c) s.cfg.wireWords ∧
        Safety.OldValuesCanonical (s.wireOld.get c) := by
      cases c
      exacts [⟨m3, r3, m7⟩, ⟨m4, r4, m8⟩]
    obtain ⟨wf, range, old⟩ := sides
    rw [he.eq, inv_setDraws]
    exact inv_setCtx (inv_setWire h (he.canonical wf) (he.below _ hq range) (he.canonicalOld old)
      fun hb => (he.idle hb).trans (race hb)) ⟨hs', hinv'.trans hinv, hcur⟩

theorem inv_advanceCursor (h : Safety.Inv s) (hv : configValid s.cfg = true) : Safety.Inv (advanceCursor s) := by
  obtain ⟨-, -, ⟨hs, hinv, hcur⟩, -⟩ := id h
  obtain ⟨hmul, hlt⟩ := hcur hv
  obtain ⟨-, hc, hp, hp0, -⟩ := configValid_iff.mp hv
  by_cases he : s.ctx.cur + s.cfg.chunkBytes = s.cfg.pcmBufBytes
  · rw [advanceCursor_end he]
    exact inv_stale s.ctx.sel (inv_setCtx h ⟨hs, hinv, fun _ => ⟨Nat.zero_mod _, Nat.pos_of_ne_zero hp0⟩⟩)
  · rw [advanceCursor_within he]
    refine inv_setCtx h ⟨hs, hinv, fun _ => ⟨by simpa using hmul, ?_⟩⟩
    have step : s.cfg.chunkBytes ≤ s.cfg.pcmBufBytes - s.ctx.cur :=
      Nat.le_of_dvd (by omega) (Nat.dvd_sub (Nat.dvd_of_mod_eq_zero hp) (Nat.dvd_of_mod_eq_zero hmul))
    show s.ctx.cur + s.cfg.chunkBytes < s.cfg.pcmBufBytes
    omega

theorem inv_consume {c : Side} (h : Safety.Inv s) (hv : configValid s.cfg = true) (e : consume c s = .next t) :
    Safety.Inv t := by
  rcases consume_cases c s with ⟨v, he, hr, hc, -⟩ | hr
  · rw [e] at hc
    cases hc
    have hu : Safety.Inv (underrunMarked s) := by
      unfold underrunMarked
      split
      · exact h
      · exact inv_raiseGhost _ h
    have hcfg : v.cfg = s.cfg := by
      obtain ⟨_, _, _, _, rfl⟩ := encodeRange_frame hr
      rw [underrunMarked_eq]; rfl
    exact inv_advanceCursor (inv_encodeRange hu hr) (by rw [hcfg]; exact hv)
  · rw [e] at hr; cases hr

/-! The channels. -/

theorem inv_rearmChannel {c : Side} (h : Safety.Inv s) (hr : rearmable c s = true) : Safety.Inv (rearmChannel c s) := by
  obtain ⟨hb, hen, -, hp⟩ := channel_legal h c
  simp only [rearmable, Bool.and_eq_true, Bool.not_eq_true'] at hr
  have idle : (s.ch.get c).busy ≠ true := by simp [hr.1]
  exact inv_setChan h ⟨hb, hen, fun hab => idle hab.2, hp⟩ (fun hb => absurd hb idle) rfl id fun _ => no_race h hr.1

/-- A trigger while no channel transmits. -/
theorem inv_trigger {d : Side} (h : Safety.Inv s) (hw : 0 < s.cfg.wireWords)
    (idle : (s.ch.get d.other).busy = false) : Safety.Inv (trigger d s) := by
  obtain ⟨-, hact, -, -⟩ := channel_legal h d
  rcases trigger_cases d s with ⟨-, e⟩ | ⟨-, -, e⟩ | ⟨hen, -, e⟩ <;> rw [e]
  · exact h
  · exact inv_raiseGhost .chainUnarmed h
  · have marked : Safety.Inv (s.setGhost (if s.wpend.get d then s.ghost.raise .overrun else s.ghost)) := by
      split
      · exact inv_raiseGhost .overrun h
      · exact h
    exact inv_setChan marked ⟨fun _ => ⟨hen, hw⟩, hact, nofun, Nat.zero_le _⟩ (fun _ => idle) rfl id nofun

theorem inv_transferWord {c : Side} (h : Safety.Inv s) (he : dmaEnabled c s = true)
    (hr : (s.ch.get c).rptr < s.cfg.wireWords) : Safety.Inv (transferWord c s) := by
  simp only [dmaEnabled, Bool.and_eq_true] at he
  obtain ⟨hen, hbusy⟩ := he
  obtain ⟨-, hact, harm, -⟩ := channel_legal h c
  have idle := other_idle h hbusy
  by_cases hl : (s.ch.get c).rptr + 1 = s.cfg.wireWords
  · obtain ⟨w, n, e, -⟩ := transferWord_last hl
    rw [e, complete_eq]
    -- the channel with its race over and its last word sent
    have hu := inv_setChan (x := { s.ch.get c with busy := false, rptr := (s.ch.get c).rptr + 1 })
      (inv_endWireRace c h) ⟨nofun, hact, nofun, hl.le⟩ nofun rfl id fun _ => by
        simp [endWireRace]
    refine inv_trigger ?_ (Nat.zero_lt_of_lt hr) (by simp)
    simp only [setChan, endWireRace, State.setCh, State.setWireOld, State.setIrq, State.setWpend, State.setLine,
      State.setDraws, Pair.get_set_same, Pair.set_set] at hu ⊢
    exact hu
  · obtain ⟨w, n, e, -⟩ := transferWord_more hl
    rw [e]
    exact inv_setChan h ⟨fun hb => ⟨hen, lt_of_le_of_ne hr hl⟩, hact, harm, hr⟩ (fun _ => idle) rfl id
      fun hb => absurd (hbusy.symm.trans hb) nofun

/-- Both races forgotten. -/
theorem inv_noRaces (h : Safety.Inv s) : Safety.Inv (s.setWireOld (both [])) :=
  inv_endWireRace .B (inv_endWireRace .A h)

theorem inv_coldStart (h : Safety.Inv s) (hv : configValid s.cfg = true) : Safety.Inv (coldStart s) := by
  obtain ⟨-, -, -, hp, -⟩ := configValid_iff.mp hv
  have cold : ContextLegal (s.setCtx coldContext) :=
    ⟨(by decide : coldContext.sfcnt.toNat < 384), rfl, fun _ => ⟨Nat.zero_mod _, Nat.pos_of_ne_zero hp⟩⟩
  exact inv_noRaces ((inv_setWpend _).mpr ((inv_setLine _).mpr (inv_setCtx h cold)))

/-- The launch of a primed block, POLL being free after it. -/
theorem inv_launch (h : Safety.Inv s) (hd : s.setupDone = true) (ha : s.active = false) (hw : s.wpend.a = false) :
    Safety.Inv ((launch s).setPollCtx .free) := by
  have hv := config_valid h hd
  obtain ⟨-, hc, -, -, hww⟩ := configValid_iff.mp hv
  have idleB := (channel_idle h ha .B).2
  have idle : s.ch.b.busy ≠ true := by simpa using idleB
  obtain ⟨mem, range, ctx, -, ⟨-, s2, s3, s4, s5, s6, s7, s8⟩, queue, bufs, ⟨-, rb⟩, -, marks⟩ := h
  rw [launch_eq hw]
  have pos : 0 < s.cfg.wireWords := by omega
  exact ⟨mem, range, ctx,
    ⟨⟨fun _ => ⟨rfl, pos⟩, fun _ => rfl, nofun, Nat.zero_le _⟩,
      ⟨fun hb => absurd hb idle, fun _ => rfl, fun hab => idle hab.2, Nat.zero_le _⟩, fun hab => idle hab.2⟩,
    ⟨fun _ => hd, s2, s3, s4, s5, s6, s7, fun hr => ⟨(s8 hr).1, (s8 hr).2.1, rfl⟩⟩, queue, bufs, ⟨nofun, rb⟩,
    ⟨nofun, by rintro (hp | hp) <;> cases hp⟩, marks⟩

theorem inv_startTransmitter (h : Safety.Inv s) (e : startTransmitter s = .next t) :
    Safety.Inv (t.setPollCtx .free) := by
  obtain ⟨hd, ha, u, v, hu, hv, hw, -, rfl⟩ := startTransmitter_eq_next e
  have valid := config_valid h hd
  have iu := inv_consume (inv_coldStart h valid) valid hu
  have frame : u.cfg = s.cfg ∧ v.setupDone = s.setupDone ∧ v.active = s.active := by
    obtain ⟨_, _, _, _, _, rfl⟩ := consume_frame hu
    obtain ⟨_, _, _, _, _, rfl⟩ := consume_frame hv
    exact ⟨rfl, rfl, rfl⟩
  obtain ⟨hcfg, hsd, hact⟩ := frame
  exact inv_launch (inv_consume iu (by rw [hcfg]; exact valid) hv) (hsd.trans hd) (hact.trans ha) (by rw [hw]; rfl)

theorem stoppedChan_legal (P : Params) (n : Nat) (x : Chan) : ChannelLegal { s with cfg := P } (stoppedChan P n x) :=
  ⟨nofun, nofun, nofun, Nat.le_of_lt_succ (Nat.mod_lt _ (Nat.succ_pos _))⟩

theorem inv_disableChannels (h : Safety.Inv s) : Safety.Inv (disableChannels s) := by
  obtain ⟨mem, range, ctx, -, setup, queue, bufs, -, ⟨p1, p2⟩, marks⟩ := inv_noRaces h
  rw [disableChannels_eq]
  exact ⟨mem, range, ctx, ⟨stoppedChan_legal (s := s) _ _ _, stoppedChan_legal (s := s) _ _ _, nofun⟩, setup, queue,
    bufs, ⟨fun _ => rfl, fun _ => rfl⟩, ⟨p1, fun hp => ⟨(p2 hp).1, rfl, rfl⟩⟩, marks⟩

theorem inv_releaseBuffers (h : Safety.Inv s) (off : s.ch.a.en = false ∧ s.ch.b.en = false) :
    Safety.Inv (releaseBuffers s) := by
  obtain ⟨mem, range, ctx, ⟨⟨ba, -, aa, ra⟩, ⟨bb, -, ab, rb⟩, one⟩, ⟨-, setup⟩, queue, -, races, ⟨p1, p2⟩, marks⟩ := h
  obtain ⟨offA, offB⟩ := off
  exact ⟨mem, range, ctx, ⟨⟨ba, fun he => absurd (offA.symm.trans he) nofun, aa, ra⟩,
    ⟨bb, fun he => absurd (offB.symm.trans he) nofun, ab, rb⟩, one⟩, ⟨nofun, setup⟩, queue,
    fun _ => ⟨nofun, nofun, nofun⟩, races, ⟨fun hp => ⟨(p1 hp).1, rfl⟩, p2⟩, marks⟩

/-! The queue and the handler. -/

theorem inv_setHandler {x : Option HandlerAt} (h : Safety.Inv s) (hd : s.setupDone = true)
    (hx : ∀ j, x = some (.held j) → slotFree s = false) : Safety.Inv (s.setHandler x) := by
  obtain ⟨-, -, -, -, -, ⟨depth, -⟩, -⟩ := id h
  exact inv_setQueue h hd (Nat.le_refl _) depth fun j hj => Nat.not_lt.mp (of_decide_eq_false (hx j hj))

theorem inv_pushJob (j : Job) (h : Safety.Inv s) (hd : s.setupDone = true) : Safety.Inv (pushJob j s) := by
  rcases pushJob_cases j s with ⟨hs, e⟩ | ⟨hs, e⟩ <;> rw [e, inv_setRes]
  · refine inv_setQueue h hd (Nat.le_succ _) ?_ nofun
    simpa [slotFree] using hs
  · exact inv_setHandler h hd fun _ _ => hs

/-- Taking the head of the queue frees a slot, so that no handler stays held. -/
theorem inv_liftHeldPush {j : Job} {js : List Job} (h : Safety.Inv s) (hd : s.setupDone = true) (hq : s.q = j :: js) :
    Safety.Inv (liftHeldPush (s.setQ js)) := by
  obtain ⟨-, -, -, -, -, ⟨depth, -⟩, -⟩ := id h
  have room : js.length < s.cfg.queueDepth := by simpa [hq] using depth
  rcases liftHeldPush_cases (s.setQ js) with ⟨k, -, -, e⟩ | ⟨hn, e⟩ <;> rw [e]
  · show Safety.Inv (((s.setPushes (s.pushes + 1)).setQ (js ++ [k])).setHandler none)
    exact inv_setQueue h hd (Nat.le_succ _) (by simpa using room) nofun
  · refine inv_setQueue h hd (Nat.le_refl _) room.le fun k hk => ?_
    rcases hn with hn | hn
    · exact absurd hk (hn k)
    · exact Nat.not_lt.mp (of_decide_eq_false hn)

theorem inv_popBarrier (n : Nat) (h : Safety.Inv s) : Safety.Inv (popBarrier n s) := by
  have mem := popBarrier_memories (n := n) h.1
  obtain ⟨-, range, ctx, chans, setup, queue, bufs, races, poll, ⟨ma, mb⟩⟩ := h
  have marks : ∀ {m : Memory (List OldByte)}, (∀ e ∈ m, ∀ o ∈ e.2, o.pushes ≤ s.pushes) →
      ∀ e ∈ settleBefore n m, ∀ o ∈ e.2, o.pushes ≤ s.pushes := by
    intro m hm e he o ho
    obtain ⟨x, hx, -, hsub⟩ := mem_settleBefore he
    exact hm x hx o (hsub o ho)
  refine ⟨mem, range, ctx, chans, setup, queue, fun hp => ?_, races, poll, marks ma, marks mb⟩
  obtain ⟨one, ra, rb⟩ := bufs hp
  exact ⟨one, fun hr => congrArg (settleBefore n) (ra hr), fun hr => congrArg (settleBefore n) (rb hr)⟩

theorem inv_popped {j : Job} {js : List Job} (h : Safety.Inv s) (hw : s.wk = .idle) (hq : s.q = j :: js)
    (e : runJob j (popBarrier (headNumber s) (liftHeldPush (s.setQ js))) = .next t) : Safety.Inv t := by
  obtain ⟨-, -, -, -, ⟨-, valid, -, notStarted, -⟩, -⟩ := id h
  have hd : s.setupDone = true := Bool.ne_false_iff.mp fun hf => absurd (hw.symm.trans (notStarted hf)) nofun
  have hi := inv_popBarrier (headNumber s) (inv_liftHeldPush h hd hq)
  obtain ⟨k, q, x, hl⟩ := liftHeldPush_frame (s.setQ js)
  rw [hl] at e hi
  rw [runJob_idle (by exact hw)] at e
  exact inv_consume hi (valid hd) e

/-! The operations. -/

theorem configure_eq (s : State) : configure s = { s with
    ch := both setupChan, irq := both false, q := [], wk := .idle, intEn := true, setupDone := true } := rfl

theorem inv_configure (h : Safety.Inv s) (hp : pollRuns s = true) (hd : s.setupDone = false)
    (hv : configValid s.cfg = true) : Safety.Inv (configure s) := by
  obtain ⟨hh, hpoll⟩ := pollRuns_iff.mp hp
  obtain ⟨-, -, -, -, ⟨act, -, -, -, -, -, -, rej⟩, -⟩ := id h
  have inactive : s.active = false := Bool.eq_false_iff.mpr fun ha => absurd (hd.symm.trans (act ha)) nofun
  have ra := no_race h (channel_idle h inactive .A).2
  have rb := no_race h (channel_idle h inactive .B).2
  obtain ⟨mem, range, ctx, -, -, -, bufs, -, -, marks⟩ := h
  rw [configure_eq]
  exact ⟨mem, range, ctx, ⟨⟨nofun, nofun, nofun, Nat.zero_le _⟩, ⟨nofun, nofun, nofun, Nat.zero_le _⟩, nofun⟩,
    ⟨fun _ => rfl, fun _ => hv, fun _ => rfl, nofun, fun _ => ⟨rfl, rfl⟩, rfl, nofun,
      fun hr => absurd ((rej hr).2.1.symm.trans hv) nofun⟩,
    ⟨Nat.zero_le _, fun hx => by simp [Safety.handlerHeld, hh] at hx⟩, bufs, ⟨fun _ => ra, fun _ => rb⟩,
    ⟨fun hx => by simp [Safety.inStart, hpoll] at hx, fun _ => ⟨rfl, rfl, rfl⟩⟩, marks⟩

theorem inv_setRejected (h : Safety.Inv s) (hp : s.pollCtx = .free) (hd : s.setupDone = false)
    (hv : configValid s.cfg = false) : Safety.Inv (s.setRejected true) := by
  obtain ⟨mem, range, ctx, chans, ⟨s1, s2, s3, s4, s5, s6, s7, -⟩, rest⟩ := h
  exact ⟨mem, range, ctx, chans, ⟨s1, s2, s3, s4, s5, s6, s7, fun _ => ⟨hd, hv, hp⟩⟩, rest⟩

/-! What the invariant tells of an operation that runs, and that every operation keeps it. -/

/-- Once set up, the configuration was not rejected. -/
theorem rejected_of_setupDone (h : Safety.Inv s) (hd : s.setupDone = true) : s.rejected = false := by
  obtain ⟨-, -, -, -, ⟨-, -, -, -, -, -, -, rej⟩, -⟩ := h
  exact Bool.eq_false_iff.mpr fun hr => absurd ((rej hr).1.symm.trans hd) nofun

/-- With POLL in the middle of something, the configuration was not rejected. -/
theorem rejected_of_pollCtx (h : Safety.Inv s) (hp : s.pollCtx ≠ .free) : s.rejected = false := by
  obtain ⟨-, -, -, -, ⟨-, -, -, -, -, -, -, rej⟩, -⟩ := h
  exact Bool.eq_false_iff.mpr fun hr => hp (rej hr).2.2

theorem rejected_of_spared (h : Safety.Inv s) (hs : spared s = true) : s.rejected = false :=
  (spared_iff.mp hs).elim (rejected_of_setupDone h) id

/-- An unquiet dispatcher has been set up. -/
theorem setupDone_of_unquiet (h : Safety.Inv s) (hq : dispatcherQuiet s = false) : s.setupDone = true := by
  obtain ⟨-, -, -, -, ⟨-, -, -, notStarted, -, -, empty, -⟩, -⟩ := h
  refine Bool.ne_false_iff.mp fun hf => ?_
  simp [dispatcherQuiet, jobRunning, notStarted hf, (empty hf).1] at hq

theorem setupDone_of_handler (h : Safety.Inv s) (hh : s.handler ≠ none) : s.setupDone = true := by
  obtain ⟨-, -, -, -, ⟨-, -, -, -, -, -, empty, -⟩, -⟩ := h
  exact Bool.ne_false_iff.mp fun hf => hh (empty hf).2

theorem setupDone_of_irqTakeable {c : Side} (h : Safety.Inv s) (ht : irqTakeable c s = true) : s.setupDone = true := by
  obtain ⟨-, -, -, -, ⟨-, -, -, -, -, enabled, -⟩, -⟩ := h
  simp only [irqTakeable, Bool.and_eq_true] at ht
  exact enabled.symm.trans ht.1.2

theorem inv_startFill {src : Source} (h : Safety.Inv s) (hf : StartFill src s t) :
    Safety.Inv t ∧ t.setupDone = true ∧ t.active = false := by
  have frame := hf.frame
  have poll : s.setupDone = true ∧ s.active = false := by
    rcases hf with ⟨-, hd, ha, -⟩ | ⟨r, hr, -⟩
    · exact ⟨hd, ha⟩
    · obtain ⟨-, -, -, -, -, -, -, -, ⟨inStart, -⟩, -⟩ := h
      exact inStart (by simp [Safety.inStart, hr])
  have inv : Safety.Inv t := by
    rcases hf with ⟨-, -, -, rfl⟩ | ⟨r, -, rfl⟩
    · exact fillKeeps_inv.fillLoop _ _ (fillKeeps_inv.storage s _ h)
    · exact fillKeeps_inv.resumeFill r s h
  obtain ⟨_, _, _, _, _, rfl, -⟩ := frame
  exact ⟨inv, poll⟩

theorem inv_pollRead (h : Safety.Inv s) (hr : PollRead s t) : Safety.Inv t ∧ t.rejected = false := by
  have frame := hr.frame
  have rej : s.rejected = false := by
    rcases hr with ⟨-, hs, -⟩ | ⟨r, hp, -⟩
    · exact rejected_of_spared h hs
    · exact rejected_of_pollCtx h (by simp [hp])
  have inv : Safety.Inv t := by
    rcases hr with ⟨-, -, rfl⟩ | ⟨r, -, rfl⟩
    · exact fillKeeps_inv.pollOnce s h
    · exact fillKeeps_inv.readInto r s h
  obtain ⟨_, _, _, _, _, rfl, -⟩ := frame
  exact ⟨inv, rej⟩

/-- A stop that asks for a quiet dispatcher has disabled the channels. -/
theorem inv_stopAsks {w : PollCtx} (h : Safety.Inv s) (hw : w = .inStop ∨ w = .inDmaStop) (ha : StopAsks w s t) :
    Safety.Inv t ∧ t.ch.a.en = false ∧ t.ch.b.en = false := by
  rcases ha with ⟨-, -, rfl⟩ | ⟨hp, rfl⟩
  · exact ⟨inv_disableChannels h, by rw [disableChannels_eq]; exact ⟨rfl, rfl⟩⟩
  · obtain ⟨-, -, -, -, -, -, -, -, ⟨-, stopping⟩, -⟩ := id h
    rw [← hp] at hw
    exact ⟨h, (stopping hw).2⟩

/-- The wait of a stop. -/
theorem inv_stopWaits {w : PollCtx} (h : Safety.Inv s) (hw : w = .inStop ∨ w = .inDmaStop) (ha : StopAsks w s t)
    (hq : dispatcherQuiet t = false) : Safety.Inv (t.setPollCtx w) := by
  obtain ⟨inv, off⟩ := inv_stopAsks h hw ha
  have hd := setupDone_of_unquiet inv hq
  refine inv_setPollCtx inv (.inl (rejected_of_setupDone inv hd)) ⟨fun hs => ?_, fun _ => ⟨hd, off⟩⟩
  rcases hw with rfl | rfl <;> cases hs

theorem inv_handlerEntered {c : Side} (h : Safety.Inv s) (he : HandlerEntered c s t) :
    Safety.Inv t ∧ t.setupDone = true := by
  rcases he with ⟨ht, cs, rfl⟩ | ⟨hh, rfl⟩
  · have hd := setupDone_of_irqTakeable h ht
    exact ⟨h, hd⟩
  · exact ⟨h, setupDone_of_handler h (by simp [hh])⟩

/-- Every operation keeps the invariant. -/
theorem inv_runs {i : Instr} (h : Safety.Inv s) (hr : Runs i s t) : Safety.Inv t := by
  cases hr with
  | waits => exact h
  | configured hp hd hv => rw [inv_setRes]; exact inv_configure h hp hd hv
  | configRejected hp hd hv => rw [inv_setRes]; exact inv_setRejected h (pollRuns_iff.mp hp).2 hd hv
  | startWaits r hf =>
    obtain ⟨inv, hd, ha⟩ := inv_startFill h hf
    rw [inv_setRes]
    exact inv_setPollCtx inv (.inl (rejected_of_setupDone inv hd)) ⟨fun _ => ⟨hd, ha⟩, by rintro (hp | hp) <;> cases hp⟩
  | started hf hs => rw [inv_setRes]; exact inv_startTransmitter (inv_startFill h hf).1 hs
  | stopWaits ha hq => rw [inv_setRes]; exact inv_stopWaits h (.inl rfl) ha hq
  | stopped ha =>
    obtain ⟨inv, off⟩ := inv_stopAsks h (.inl rfl) ha
    have released := inv_releaseBuffers inv off
    rw [inv_setRes]
    exact inv_setPollCtx_free ((inv_setStorage _).mpr released)
  | pollWaits r hr =>
    obtain ⟨inv, rej⟩ := inv_pollRead h hr
    rw [inv_setRes]
    exact inv_setPollCtx inv (.inl rej) ⟨nofun, by rintro (hp | hp) <;> cases hp⟩
  | polled v hr => rw [inv_setRes]; exact inv_setPollCtx_free (inv_pollRead h hr).1
  | toldActive => exact h
  | acquired _ r => rw [inv_setRes]; exact inv_acquireTarget h
  | marked hm => rw [inv_setRes]; exact inv_markFirstFilling h hm
  | consumed hd hc => rw [inv_setRes]; exact inv_consume h (config_valid h hd) hc
  | encoded he => rw [inv_setRes]; exact inv_encodeRange h he
  | sampleEncoded lo hi =>
    obtain ⟨-, -, ⟨-, hinv, hcur⟩, -⟩ := id h
    have small : (nextSfcnt s.ctx.sfcnt).toNat < 384 := by
      rw [nextSfcnt_toNat]; exact Nat.mod_lt _ (by decide)
    rw [inv_setRes]
    exact inv_setCtx h ⟨small, (encodeSample_inv s.ctx lo hi).trans hinv, hcur⟩
  | @dmaStarted _ u hp hs =>
    have free : u.setPollCtx .free = u := by
      obtain ⟨_, _, _, _, _, rfl⟩ := startTransmitter_frame hs
      rw [← (pollRuns_iff.mp hp).2]; rfl
    rw [inv_setRes, ← free]
    exact inv_startTransmitter h hs
  | dmaStopWaits ha hq => rw [inv_setRes]; exact inv_stopWaits h (.inr rfl) ha hq
  | dmaStopped ha =>
    obtain ⟨inv, off⟩ := inv_stopAsks h (.inr rfl) ha
    rw [inv_setRes]
    exact inv_setPollCtx_free (inv_releaseBuffers inv off)
  | rearmed hr => rw [inv_setRes]; exact inv_rearmChannel h hr
  | transferred he hr => rw [inv_setRes]; exact inv_transferWord h he hr
  | @acknowledged c _ ht cs =>
    have taken : Safety.Inv ((takeCompletion c s).setCuts cs) := (inv_setCuts cs).mpr ((inv_setIrq _).mpr h)
    have hd := setupDone_of_irqTakeable h ht
    rw [inv_setRes]
    exact inv_setHandler taken hd nofun
  | handlerRearmed he hr cs =>
    obtain ⟨inv, hd⟩ := inv_handlerEntered h he
    have rearmed := (inv_setCuts cs).mpr (inv_rearmChannel inv hr)
    rw [inv_setRes]
    exact inv_setHandler rearmed hd nofun
  | handlerPushed he hr cs =>
    obtain ⟨inv, hd⟩ := inv_handlerEntered h he
    exact inv_pushJob _ ((inv_setCuts cs).mpr (inv_rearmChannel inv hr)) hd
  | handlerPushes hh => exact inv_pushJob _ h (setupDone_of_handler h (by simp [hh]))
  | pushed j hd => exact inv_pushJob j h hd
  | popped hw hq hr => rw [inv_setRes]; exact inv_popped h hw hq hr
  | fillWritten b v hi => rw [inv_setRes]; exact inv_storeFill h hi

end Sys2Proof.Invariant

namespace Sys2Proof.Proofs

open Sys2Proof.Machine
open Sys2Proof.Effects
open Sys2Proof.Invariant

/-! The statements about every operation and about the step. -/

/-- Settles O5: the fetch of a trace that decodes is its request. -/
theorem stepRunsRequest : Obligations.StepRunsRequest := by
  intro s i rest h
  unfold step fetch
  cases hs : s.trace with
  | nil => rw [hs] at h; cases h
  | cons w bs => rw [hs] at h; simp only [h]; rfl

/-- Settles O6: an empty trace offers no request. -/
theorem emptyTraceIdles : Obligations.EmptyTraceIdles := by
  intro s h
  simp [step, fetch, h]

/-- Settles O50, from what an operation may write. -/
theorem lineOnlyGrows : Obligations.LineOnlyGrows :=
  ⟨rfl, fun _ _ _ h => (exec_writes h).line, fun _ _ _ h hi hr => ((exec_writes h).start_done hi hr).1⟩

/-- Settles O51, from what an operation may write. -/
theorem activeAndSetupDoneWriters : Obligations.ActiveAndSetupDoneWriters := by
  refine ⟨rfl, rfl, fun s hp hs => ⟨s.setRes (.bool s.active), ?_, rfl⟩, fun i s t h => ?_⟩
  · rw [exec_isActive, execIsActive, onPoll_runs hp, unlessRejected_spared hs]
  · have hw := exec_writes h
    refine ⟨fun h0 h1 => ?_, fun h1 h0 => ?_, fun hne => ?_, fun hi hr => ?_, fun hi hr => (hw.start_done hi hr).2,
      hw.stop_done⟩
    · rcases hw.active with e | ⟨hi, -⟩ | ⟨-, e⟩
      · simp [e, h0] at h1
      · exact hi
      · simp [e] at h1
    · rcases hw.active with e | ⟨-, e⟩ | ⟨hi, -⟩
      · simp [e, h1] at h0
      · simp [e] at h0
      · exact hi
    · exact hw.setupDone.resolve_left fun e => hne e.1
    · rcases hw.setupDone with ⟨-, hn⟩ | ⟨-, e, -⟩
      · exact absurd hr (hn hi)
      · exact e

/-- Settles O49: an operation raises at most one flag, and clears none. -/
theorem ghostFaultsStickyAndSourced : Obligations.GhostFaultsStickyAndSourced := by
  intro i s t h
  rcases (exec_writes h).ghost with e | ⟨c, rfl, f, hf, e⟩ | ⟨hi, e⟩ | ⟨hi, e⟩
  · simp [e]
  · simp only [List.mem_cons, List.not_mem_nil, or_false] at hf
    rcases hf with rfl | rfl <;> simp [e, Ghost.raise]
  · simp [e, Ghost.raise, hi]
  · simp [e, Ghost.raise, hi]

/-- Settles O53, from what an operation may write. -/
theorem ownershipOfState : Obligations.OwnershipOfState := by
  intro i s t h
  have hw := exec_writes h
  obtain ⟨ctx, pcm, q, wk, rejected, intEn, handler, cuts, pollCtx, storage, pcmOld, wireOld, rest⟩ := hw.fields
  refine ⟨ctx, pcm, fun c => (hw.chan c).1, fun c => (hw.chan c).2.1, fun c => (hw.chan c).2.2.1,
    fun c => (hw.chan c).2.2.2, q, wk, rejected, intEn, fun c h0 h1 => ?_, fun c h1 h0 => ?_, handler, cuts, pollCtx,
    storage, pcmOld, wireOld, rest⟩
  · rcases hw.wpend c with e | ⟨hi, -⟩ | ⟨-, e⟩
    · simp [e, h0] at h1
    · exact hi
    · simp [e] at h1
  · rcases hw.wpend c with e | ⟨-, e⟩ | ⟨hi, -⟩
    · simp [e, h1] at h0
    · simp [e] at h0
    · exact hi

/-- Settles O47, part by part at the power-on values. -/
theorem resetMeetsInvariant : Obligations.ResetMeetsInvariant := by
  exact ⟨⟨reset_memories, by decide, by decide, by decide, by decide, by decide, by decide, by decide, by decide,
    by decide⟩, List.nil_prefix, rfl, nofun, fun _ => ⟨rfl, .inr (.inr ⟨rfl, rfl⟩)⟩⟩

/-- Settles O48: the request that a step runs, or none, keeps the invariant. -/
theorem stepKeepsInvariant : Obligations.StepKeepsInvariant := by
  intro s t h hs
  rcases step_cases hs with ⟨-, rfl⟩ | ⟨i, rest, -, he⟩
  · exact h
  · exact inv_runs ((inv_setTrace rest).mpr h) (exec_runs he)

end Sys2Proof.Proofs

/-! The barrier inside a push and the one inside the pop of its job (20_memory.md R58, 43_core_dispatcher.md R154):
between them the jobs queued before it run, and no PCM byte written before the push races at the second. -/

namespace Sys2Proof.Barrier

open Sys2Proof.Machine
open Sys2Proof.Effects
open Sys2Proof.Invariant

variable {s t : State}

/-! A job that the invariant allows runs to its end. -/

/-- The cursor and the buffer's size are both multiples of the chunk, so a whole chunk is left. -/
theorem chunk_in_buffer (h : Safety.Inv s) (hd : s.setupDone = true) :
    s.ctx.cur + s.cfg.chunkBytes ≤ s.cfg.pcmBufBytes := by
  have valid := config_valid h hd
  obtain ⟨-, -, ⟨-, -, cursor⟩, -⟩ := h
  obtain ⟨cur_mul, cur_lt⟩ := cursor valid
  obtain ⟨-, -, size_mul, -, -⟩ := configValid_iff.mp valid
  have left : s.cfg.chunkBytes ≤ s.cfg.pcmBufBytes - s.ctx.cur :=
    Nat.le_of_dvd (by omega) (Nat.dvd_sub (Nat.dvd_of_mod_eq_zero size_mul) (Nat.dvd_of_mod_eq_zero cur_mul))
  omega

theorem encodeRange_runs {b c : Side} {p q n : Nat} (pos : n / 2 ≠ 0) (source : p + 2 * (n / 2) ≤ s.cfg.pcmBufBytes)
    (dest : q + 4 * (n / 2) ≤ s.cfg.wireWords) :
    encodeRange b p c q n s = .next (encodeLoop b c (n / 2) p q s) := by
  simp [encodeRange, encodeInRange, wordsPerSample, pos, source, dest]

/-- `consumeChunk` with a chunk left in the buffer: the encode of that chunk, the cursor, the pending bit. -/
theorem consume_runs (c : Side) (valid : configValid s.cfg = true)
    (fits : s.ctx.cur + s.cfg.chunkBytes ≤ s.cfg.pcmBufBytes) :
    consume c s = .next (setWpendOf c false (advanceCursor
      (encodeLoop s.ctx.sel c (s.cfg.chunkBytes / 2) s.ctx.cur 0 (underrunMarked s)))) := by
  obtain ⟨even, pos, -, -, wire⟩ := configValid_iff.mp valid
  have marked : (underrunMarked s).ctx = s.ctx ∧ (underrunMarked s).cfg = s.cfg := by
    rw [underrunMarked_eq]; exact ⟨rfl, rfl⟩
  have unfolded : consume c s = andThen (encodeRange s.ctx.sel (underrunMarked s).ctx.cur c 0
      (underrunMarked s).cfg.chunkBytes (underrunMarked s)) fun u => .next (setWpendOf c false (advanceCursor u)) := rfl
  rw [unfolded, marked.1, marked.2, encodeRange_runs (by omega) (by rw [marked.2]; omega) (by rw [marked.2]; omega)]
  rfl

/-- `worker_pop` with no handler running: the barrier at the number of the job taken, then its `consumeChunk`. -/
theorem workerPop_runs {j : Job} {js : List Job} (h : Safety.Inv s) (hd : s.setupDone = true)
    (hh : s.handler = none) (hq : s.q = j :: js) :
    ∃ t, consume (jobChannel j) (popBarrier (s.pushes - js.length) (s.setQ js)) = .next t ∧
      exec .workerPop s = .next (t.setRes .none) := by
  obtain ⟨-, -, -, -, ⟨-, valid, idle, -⟩, -⟩ := id h
  have fits := chunk_in_buffer h hd
  have runs := consume_runs (s := popBarrier (s.pushes - js.length) (s.setQ js)) (jobChannel j) (valid hd) fits
  have lifted : liftHeldPush (s.setQ js) = s.setQ js := by simp [liftHeldPush, hh]
  have number : headNumber s = s.pushes - js.length := by simp [headNumber, hq]
  refine ⟨_, runs, ?_⟩
  have job := runJob_idle (j := j) (s := popBarrier (s.pushes - js.length) (s.setQ js)) (idle hd)
  simp only [exec_workerPop, execWorkerPop, idle hd, hq, lifted, number, job, runs, andThen_next]

/-! What a job encodes once no byte of its buffer races. -/

/-- Where every write is settled an encode reads the bytes that the buffer holds. -/
theorem readsAs_settled {b : Side} {p : Nat} {bytes : List Byte} (settled : s.pcmOld.get b = [])
    (h : ReadsAs s b p bytes) : bytes = pcmBytes s b p bytes.length := by
  refine List.ext_getElem (by simp [pcmBytes]) fun i hi _ => ?_
  rcases h i hi with held | ⟨old, mem, -⟩
  · rw [List.getElem?_eq_getElem hi, Option.some.injEq] at held
    simp [pcmBytes, held]
  · simp [oldBytes, settled] at mem

theorem wireEntries_advanceCursor (s : State) (c : Side) (q n : Nat) :
    wireEntries (advanceCursor s) c q n = wireEntries s c q n := by
  obtain ⟨x, st, e⟩ := advanceCursor_frame s
  rw [e]; rfl

/-- `consumeChunk` from a settled buffer: the whole wire buffer is the encoding of the chunk as it is held. -/
theorem consume_stream_settled {c : Side} (valid : configValid s.cfg = true)
    (fits : s.ctx.cur + s.cfg.chunkBytes ≤ s.cfg.pcmBufBytes) (settled : s.pcmOld.get s.ctx.sel = [])
    (h : consume c s = .next t) :
    wireEntries t c 0 s.cfg.wireWords =
      (encodeStream s.ctx (pcmBytes s s.ctx.sel s.ctx.cur s.cfg.chunkBytes)).1 := by
  obtain ⟨even, -, -, -, wire⟩ := configValid_iff.mp valid
  obtain ⟨bytes, len, reads, words, -⟩ :=
    encodeLoop_stream s.ctx.sel c (s.cfg.chunkBytes / 2) s.ctx.cur 0 (underrunMarked s)
  rw [consume_runs c valid fits] at h
  cases h
  rw [underrunMarked_eq] at words reads ⊢
  have held := readsAs_settled settled reads
  rw [len, show 2 * (s.cfg.chunkBytes / 2) = s.cfg.chunkBytes by omega] at held
  rw [show 4 * (s.cfg.chunkBytes / 2) = s.cfg.wireWords by omega, held] at words
  exact (wireEntries_advanceCursor _ c 0 _).trans words

/-! The marks of the kept bytes against the number of the job taken (log 25). -/

/-- Every kept byte was replaced by a write made before push number `n + 1`. -/
def MarkedUpTo (n : Nat) (m : Pair (Memory (List OldByte))) : Prop :=
  ∀ b, ∀ e ∈ m.get b, ∀ o ∈ e.2, o.pushes ≤ n

theorem inv_markedUpTo (h : Safety.Inv s) : MarkedUpTo s.pushes s.pcmOld := by
  obtain ⟨-, -, -, -, -, -, -, -, -, ⟨ma, mb⟩⟩ := h
  rintro (_ | _)
  exacts [ma, mb]

theorem popBarrier_pcmOld_get (n : Nat) (s : State) (b : Side) :
    (popBarrier n s).pcmOld.get b = settleBefore n (s.pcmOld.get b) := by
  cases b <;> rfl

/-- A pop leaves no later marks than there were. -/
theorem popBarrier_markedUpTo (k : Nat) {n : Nat} (h : MarkedUpTo n s.pcmOld) :
    MarkedUpTo n (popBarrier k s).pcmOld := by
  intro b e he o ho
  rw [popBarrier_pcmOld_get] at he
  obtain ⟨x, hx, -, sub⟩ := mem_settleBefore he
  exact h b x hx o (sub o ho)

/-- The pop of job `n + 1` settles every byte replaced before its push (20_memory.md R58). -/
theorem popBarrier_settles {n : Nat} (h : MarkedUpTo n s.pcmOld) (b : Side) :
    (popBarrier (n + 1) s).pcmOld.get b = [] := by
  rw [popBarrier_pcmOld_get]
  unfold settleBefore
  refine List.filter_eq_nil_iff.mpr fun e he => ?_
  obtain ⟨x, hx, rfl⟩ := List.mem_map.mp he
  simpa using h b x hx

/-! From the push to the pop of its job. -/

/-- In `t` a job pushed in `s` waits for its turn: only the worker ran since the push, so the buffers hold what
they held, and each kept byte was replaced before the push. -/
structure AwaitsTurn (s t : State) : Prop where
  inv : Safety.Inv t
  setupDone : t.setupDone = true
  noHandler : t.handler = none
  pushes : t.pushes = s.pushes + 1
  cfg : t.cfg = s.cfg
  pcm : t.pcm = s.pcm
  marks : MarkedUpTo s.pushes t.pcmOld

theorem AwaitsTurn.pcmBytes {s t : State} (h : AwaitsTurn s t) (b : Side) (p n : Nat) :
    pcmBytes t b p n = pcmBytes s b p n := by
  simp only [Machine.pcmBytes, pcmByte, h.pcm]

theorem decode_push (j : Job) (rest : List Byte) : decode (encode (.push j) ++ rest) = .ok (.push j, rest) := by
  cases j <;> rfl

theorem decode_workerPop (rest : List Byte) : decode (commandWord 0x10 false :: rest) = .ok (.workerPop, rest) := rfl

/-- A push with a slot free. -/
theorem pushJob_free (j : Job) (free : s.q.length < s.cfg.queueDepth) :
    pushJob j s = { s with pushes := s.pushes + 1, q := s.q ++ [j], handler := none, res := .none } := by
  have slot : slotFree s = true := decide_eq_true free
  rw [pushJob, if_pos slot]
  rfl

theorem exec_push_runs (j : Job) (hd : s.setupDone = true) (hh : s.handler = none) :
    exec (.push j) s = .next (pushJob j s) := by
  rw [exec_push, execPush, afterSetup_done hd, onPrimary_runs hh]

/-- The step of a push with a slot free: the job stands last in the queue and awaits its turn. -/
theorem step_push {j : Job} {rest : List Byte} (h : Safety.Inv s) (hd : s.setupDone = true) (hh : s.handler = none)
    (free : s.q.length < s.cfg.queueDepth) (ht : s.trace = encode (.push j) ++ rest) :
    ∃ t, step s = .next t ∧ AwaitsTurn s t ∧ t.q = s.q ++ [j] ∧ t.trace = rest := by
  have runs := exec_push_runs (s := s.setTrace rest) j hd hh
  have kept := inv_pushJob j ((inv_setTrace rest).mpr h) hd
  rw [pushJob_free (s := s.setTrace rest) j free] at runs kept
  refine ⟨_, (Proofs.stepRunsRequest s _ rest (by rw [ht, decode_push])).trans runs, ?_⟩
  exact ⟨⟨kept, hd, rfl, rfl, rfl, rfl, inv_markedUpTo h⟩, rfl, rfl⟩

/-- The step of a pop: the head of the queue is taken and its `consumeChunk` runs. -/
theorem step_workerPop {j : Job} {js : List Job} {rest : List Byte} (h : Safety.Inv s) (hd : s.setupDone = true)
    (hh : s.handler = none) (hq : s.q = j :: js) (ht : s.trace = commandWord 0x10 false :: rest) :
    ∃ t, consume (jobChannel j) (popBarrier (s.pushes - js.length) ((s.setTrace rest).setQ js)) = .next t ∧
      step s = .next (t.setRes .none) := by
  obtain ⟨t, runs, popped⟩ := workerPop_runs (s := s.setTrace rest) ((inv_setTrace rest).mpr h) hd hh hq
  exact ⟨t, runs, (Proofs.stepRunsRequest s _ rest (by rw [ht, decode_workerPop])).trans popped⟩

/-- A run of the machine begins with its first step. -/
theorem run_succ {M : Host.Core} {n : Nat} {s t : M.State} (h : M.step s = .next t) :
    M.run (n + 1) s = M.run n t := by
  rw [Host.Core.run, h]

/-- A job ahead of the pushed one is run, and the pushed one still awaits its turn. -/
theorem AwaitsTurn.step_ahead {k : Job} {js : List Job} {rest : List Byte} (h : AwaitsTurn s t) (hq : t.q = k :: js)
    (ht : t.trace = commandWord 0x10 false :: rest) :
    ∃ u, step t = .next u ∧ AwaitsTurn s u ∧ u.q = js ∧ u.trace = rest := by
  obtain ⟨u, runs, popped⟩ := step_workerPop h.inv h.setupDone h.noHandler hq ht
  have kept : Safety.Inv (u.setRes .none) := Proofs.stepKeepsInvariant t _ h.inv popped
  have marks := popBarrier_markedUpTo (s := (t.setTrace rest).setQ js) (t.pushes - js.length) h.marks
  refine ⟨_, popped, ?_⟩
  obtain ⟨_, _, _, _, _, rfl⟩ := consume_frame runs
  exact ⟨⟨kept, h.setupDone, h.noHandler, h.pushes, h.cfg, h.pcm, marks⟩, rfl, rfl⟩

/-- The worker comes to the pushed job by running the jobs ahead of it, one a step. -/
theorem AwaitsTurn.run_ahead {j : Job} {js : List Job} {rest : List Byte} (h : AwaitsTurn s t) (hq : t.q = js ++ [j])
    (ht : t.trace = List.replicate js.length (commandWord 0x10 false) ++ rest) :
    ∃ u, core.run js.length t = .next u ∧ AwaitsTurn s u ∧ u.q = [j] ∧ u.trace = rest := by
  induction js generalizing t with
  | nil => exact ⟨t, rfl, h, hq, ht⟩
  | cons k js ih =>
    obtain ⟨u, stepped, hu, uq, ut⟩ := h.step_ahead hq ht
    obtain ⟨v, ran, hv⟩ := ih hu uq ut
    exact ⟨v, (run_succ stepped).trans ran, hv⟩

/-- The pushed job in its turn: it encodes what the buffer held at the push. -/
theorem AwaitsTurn.step_own {j : Job} {rest : List Byte} (h : AwaitsTurn s t) (hq : t.q = [j])
    (ht : t.trace = commandWord 0x10 false :: rest) :
    ∃ u, step t = .next u ∧ u.trace = rest ∧ wireEntries u (jobChannel j) 0 s.cfg.wireWords =
      (encodeStream t.ctx (Machine.pcmBytes s t.ctx.sel t.ctx.cur s.cfg.chunkBytes)).1 := by
  obtain ⟨u, runs, popped⟩ := step_workerPop h.inv h.setupDone h.noHandler hq ht
  have valid := config_valid h.inv h.setupDone
  have fits := chunk_in_buffer h.inv h.setupDone
  have settled := popBarrier_settles (s := (t.setTrace rest).setQ []) h.marks t.ctx.sel
  rw [show t.pushes - ([] : List Job).length = s.pushes + 1 from h.pushes] at runs
  have words := consume_stream_settled (s := popBarrier (s.pushes + 1) ((t.setTrace rest).setQ [])) valid fits settled
    runs
  have trace : u.trace = rest := by
    obtain ⟨_, _, _, _, _, rfl⟩ := consume_frame runs
    rfl
  refine ⟨_, popped, trace, ?_⟩
  rw [← h.cfg, ← h.pcmBytes]
  exact words

end Sys2Proof.Barrier

namespace Sys2Proof.Proofs

open Sys2Proof.Machine
open Sys2Proof.Barrier

/-! The statements about the PCM buffers and the writes ordered by a push. -/

/-- Settles O19: past `setup` only the index is tested. -/
theorem fillWriteOutside : Obligations.FillWriteOutside := by
  intro b i v s hd outside
  rw [exec_fillWrite, execFillWrite, afterSetup_done hd, if_neg (Nat.not_lt.mpr outside)]

/-- Settles O30: the push, the jobs ahead by induction on the queue, then the job itself, whose pop settles every
byte kept before the push. -/
theorem pushedWritesVisible : Obligations.PushedWritesVisible := by
  intro s j rest h hd hh free trace
  rw [List.append_assoc] at trace
  obtain ⟨v, pushed, hv, vq, vtrace⟩ := step_push h hd hh free trace
  rw [List.replicate_succ', List.append_assoc] at vtrace
  obtain ⟨t, ran, ht, tq, ttrace⟩ := hv.run_ahead vq vtrace
  obtain ⟨u, popped, utrace, words⟩ := ht.step_own tq ttrace
  exact ⟨t, u, (run_succ pushed).trans ran, tq, popped, utrace, words⟩

end Sys2Proof.Proofs

/-! The decoder against the encoder (30_encoding.md R86, R87; log 3). Each reader of operands accepts exactly the
bytes that its operand is written in, so a request decodes exactly where its encoding stands. -/

namespace Sys2Proof.RoundTrip

open Sys2Proof.Machine (State step fetch)

variable {bs rest : List Byte} {w : Byte} {n : Nat} {c : Bool} {i : Instr}

/-! The readers of operands. -/

/-- A reader followed by another: both accept. -/
theorem bind_eq_ok {α β : Type} {x : Except DecodeError α} {f : α → Except DecodeError β} {y : β} :
    (x >>= f) = .ok y ↔ ∃ a, x = .ok a ∧ f a = .ok y := by
  cases x with
  | error e => exact ⟨nofun, nofun⟩
  | ok a => exact ⟨fun h => ⟨a, rfl, h⟩, fun ⟨_, ha, h⟩ => by cases ha; exact h⟩

theorem takeByte_eq_ok {b : Byte} : takeByte bs = .ok (b, rest) ↔ bs = b :: rest := by
  cases bs <;> simp [takeByte]

theorem takeSide_eq_ok {x : Side} : takeSide bs = .ok (x, rest) ↔ bs = sideByte x :: rest := by
  refine ⟨fun h => ?_, fun h => h ▸ takeSide_sideByte x rest⟩
  cases bs with
  | nil => cases h
  | cons b bs =>
    simp only [takeSide] at h
    split_ifs at h with isA isB <;> cases h
    · rw [isA]; rfl
    · rw [isB]; rfl

/-- Four bytes are the operand bytes of the number they spell (log 3). -/
theorem nat32Bytes_of_bytes (b0 b1 b2 b3 : Byte) :
    nat32Bytes (b0.toNat + 256 * (b1.toNat + 256 * (b2.toNat + 256 * b3.toNat))) = [b0, b1, b2, b3] := by
  simp only [nat32Bytes, List.cons.injEq, ← BitVec.toNat_inj, BitVec.toNat_ofNat, and_true]
  omega

theorem takeNat32_eq_ok {k : Nat} : takeNat32 bs = .ok (k, rest) ↔ fits32 k = true ∧ bs = nat32Bytes k ++ rest := by
  rw [fits32, decide_eq_true_iff]
  refine ⟨fun h => ?_, fun ⟨fits, h⟩ => h ▸ takeNat32_nat32Bytes k fits rest⟩
  unfold takeNat32 at h
  split at h <;> cases h
  exact ⟨by omega, by rw [nat32Bytes_of_bytes]; rfl⟩

theorem decodeStart_eq_ok : decodeStart bs = .ok (i, rest) ↔ ∃ src : Source, src.wf = true ∧ i = .start src ∧
    bs = nat32Bytes src.handle ++ nat32Bytes src.offset ++ nat32Bytes src.length ++ rest := by
  simp only [decodeStart, bind_eq_ok, Prod.exists, takeNat32_eq_ok]
  constructor
  · rintro ⟨handle, _, ⟨fh, rfl⟩, offset, _, ⟨fo, rfl⟩, length, _, ⟨fl, rfl⟩, h⟩
    cases h
    exact ⟨⟨handle, offset, length⟩, by simp [Source.wf, fh, fo, fl], rfl, by simp⟩
  · rintro ⟨⟨handle, offset, length⟩, wf, rfl, rfl⟩
    simp only [Source.wf, Bool.and_eq_true] at wf
    obtain ⟨⟨fh, fo⟩, fl⟩ := wf
    exact ⟨_, _, ⟨fh, by simp only [List.append_assoc]⟩, _, _, ⟨fo, rfl⟩, _, _, ⟨fl, rfl⟩, rfl⟩

theorem decodeEncode_eq_ok : decodeEncode bs = .ok (i, rest) ↔ ∃ b p c q len,
    (Instr.encode b p c q len).wf = true ∧ i = .encode b p c q len ∧
    bs = sideByte b :: nat32Bytes p ++ (sideByte c :: nat32Bytes q) ++ nat32Bytes len ++ rest := by
  simp only [decodeEncode, bind_eq_ok, Prod.exists, takeNat32_eq_ok, takeSide_eq_ok, Instr.wf, Bool.and_eq_true]
  constructor
  · rintro ⟨b, _, rfl, p, _, ⟨fp, rfl⟩, c, _, rfl, q, _, ⟨fq, rfl⟩, len, _, ⟨fl, rfl⟩, h⟩
    cases h
    exact ⟨b, p, c, q, len, ⟨⟨fp, fq⟩, fl⟩, rfl, by simp⟩
  · rintro ⟨b, p, c, q, len, ⟨⟨fp, fq⟩, fl⟩, rfl, rfl⟩
    exact ⟨_, _, by simp only [List.append_assoc, List.cons_append], _, _, ⟨fp, rfl⟩, _, _, rfl, _, _, ⟨fq, rfl⟩, _, _,
      ⟨fl, rfl⟩, rfl⟩

theorem decodeEncodeSample_eq_ok : decodeEncodeSample bs = .ok (i, rest) ↔ ∃ lo hi,
    i = .encodeSample lo hi ∧ bs = lo :: hi :: rest := by
  simp only [decodeEncodeSample, bind_eq_ok, Prod.exists, takeByte_eq_ok]
  constructor
  · rintro ⟨lo, _, rfl, hi, _, rfl, h⟩
    cases h
    exact ⟨lo, hi, rfl, rfl⟩
  · rintro ⟨lo, hi, rfl, rfl⟩
    exact ⟨lo, _, rfl, hi, _, rfl, rfl⟩

theorem decodeFillWrite_eq_ok {b : Side} : decodeFillWrite b bs = .ok (i, rest) ↔ ∃ k v,
    fits32 k = true ∧ i = .fillWrite b k v ∧ bs = nat32Bytes k ++ v :: rest := by
  simp only [decodeFillWrite, bind_eq_ok, Prod.exists, takeNat32_eq_ok, takeByte_eq_ok]
  constructor
  · rintro ⟨k, _, ⟨fits, rfl⟩, v, _, rfl, h⟩
    cases h
    exact ⟨k, v, fits, rfl, rfl⟩
  · rintro ⟨k, v, fits, rfl, rfl⟩
    exact ⟨k, _, ⟨fits, rfl⟩, v, _, rfl, rfl⟩

/-! The command word. -/

theorem eq_commandWord (op : opNumber w = n) (bit : channelBit w = c) : w = commandWord n c := by
  rw [← op, ← bit, commandWord_fields]

theorem plainOp_eq_ok {k : DecodeResult} {r : Instr × List Byte} :
    plainOp w k = .ok r ↔ channelBit w = false ∧ k = .ok r := by
  unfold plainOp
  cases channelBit w <;> simp

/-- An operation of one command word without a channel operand has one spelling. -/
theorem plain_spelling {j : Instr} (op : opNumber w = n) (h : plainOp w (.ok (j, bs)) = .ok (i, rest)) :
    i = j ∧ w :: bs = [commandWord n false] ++ rest := by
  obtain ⟨bit, h⟩ := plainOp_eq_ok.mp h
  cases h
  exact ⟨rfl, by rw [← eq_commandWord op bit]; rfl⟩

/-- An operation of one command word with a buffer, a channel or a job as operand has one spelling. -/
theorem channel_spelling {α : Type} {ofBit : Bool → α} {bit : α → Bool} (inverse : ∀ c, bit (ofBit c) = c)
    {j : α → Instr} (op : opNumber w = n)
    (h : (.ok (j (ofBit (channelBit w)), bs) : DecodeResult) = .ok (i, rest)) :
    ∃ x, i = j x ∧ w :: bs = [commandWord n (bit x)] ++ rest := by
  cases h
  exact ⟨_, rfl, by rw [inverse, ← eq_commandWord op rfl]; rfl⟩

/-- What the decoder accepts is the encoding of what it answers, by the rows of the opcode table. -/
theorem spelling_of_decodeWord (h : decodeWord w bs = .ok (i, rest)) :
    w :: bs = encode i ++ rest ∧ i.wf = true := by
  unfold decodeWord at h
  split at h
  -- the rows without operands
  case h_1 op | h_3 op | h_4 op | h_5 op | h_6 op | h_7 op | h_11 op | h_12 op | h_17 op =>
    obtain ⟨rfl, spelt⟩ := plain_spelling op h
    exact ⟨spelt, rfl⟩
  -- the rows with bit 0 as their operand
  case h_8 op | h_13 op | h_14 op | h_15 op =>
    obtain ⟨c, rfl, spelt⟩ := channel_spelling Side.bit_ofBit op h
    exact ⟨spelt, rfl⟩
  case h_16 op =>
    obtain ⟨j, rfl, spelt⟩ := channel_spelling Job.bit_ofBit op h
    exact ⟨spelt, rfl⟩
  -- the rows with operand bytes: `start`, `encode`, `encode_sample`, `fill_write`
  case h_2 op =>
    obtain ⟨bit, h⟩ := plainOp_eq_ok.mp h
    obtain ⟨src, wf, rfl, rfl⟩ := decodeStart_eq_ok.mp h
    exact ⟨by rw [eq_commandWord op bit]; rfl, wf⟩
  case h_9 op =>
    obtain ⟨bit, h⟩ := plainOp_eq_ok.mp h
    obtain ⟨b, p, c, q, len, wf, rfl, rfl⟩ := decodeEncode_eq_ok.mp h
    exact ⟨by rw [eq_commandWord op bit]; rfl, wf⟩
  case h_10 op =>
    obtain ⟨bit, h⟩ := plainOp_eq_ok.mp h
    obtain ⟨lo, hi, rfl, rfl⟩ := decodeEncodeSample_eq_ok.mp h
    exact ⟨by rw [eq_commandWord op bit]; rfl, rfl⟩
  case h_18 op =>
    obtain ⟨k, v, fits, rfl, rfl⟩ := decodeFillWrite_eq_ok.mp h
    exact ⟨by simp [encode, ← eq_commandWord op rfl], fits⟩
  case h_19 => cases h

/-- An operation that fits the trace is decoded from its encoding, whatever follows it. -/
theorem decode_encode (rest : List Byte) (wf : i.wf = true) : decode (encode i ++ rest) = .ok (i, rest) := by
  cases i with
  | setup | stop | poll | isActive | acquireFillTarget | markFilled | dmaStart | dmaStop | workerPop => rfl
  | consumeChunk c | rearm c | dmaWord c | irqService c | push c => cases c <;> rfl
  | start src => exact decodeStart_eq_ok.mpr ⟨src, wf, rfl, rfl⟩
  | encode b p c q len => exact decodeEncode_eq_ok.mpr ⟨b, p, c, q, len, wf, rfl, rfl⟩
  | encodeSample lo hi => rfl
  | fillWrite b k v =>
    have operands : nat32Bytes k ++ [v] ++ rest = nat32Bytes k ++ v :: rest := by simp
    cases b <;> exact decodeFillWrite_eq_ok.mpr ⟨k, v, wf, rfl, operands⟩

/-- The decoder accepts exactly the encodings of the operations that fit the trace, each with any bytes after it. -/
theorem decode_eq_ok : decode bs = .ok (i, rest) ↔ bs = encode i ++ rest ∧ i.wf = true := by
  refine ⟨fun h => ?_, fun ⟨spelt, wf⟩ => spelt ▸ decode_encode rest wf⟩
  cases bs with
  | nil => cases h
  | cons w bs => exact spelling_of_decodeWord h

/-! The words of the opcode table. -/

theorem decodeTableWord_eq_some {nbits v : Nat} :
    decodeTableWord nbits v = some i ↔ ∃ rest, decode (tableBytes nbits v) = .ok (i, rest) := by
  unfold decodeTableWord
  cases decode (tableBytes nbits v) <;> simp [Prod.ext_iff]

theorem length_bytesOfBits (k v : Nat) : (bytesOfBits k v).length = k := by
  induction k generalizing v with
  | zero => rfl
  | succ k ih => exact congrArg (· + 1) (ih _)

theorem length_tableBytes (nbits v : Nat) : (tableBytes nbits v).length = maxRequestBytes :=
  length_bytesOfBits _ _

/-- A table word holds the operation whose encoding begins its bytes. -/
theorem decodeTableWord_iff_encode {nbits v : Nat} :
    decodeTableWord nbits v = some i ↔ encode i <+: tableBytes nbits v ∧ i.wf = true := by
  simp only [decodeTableWord_eq_some, decode_eq_ok, exists_and_right, List.IsPrefix, @eq_comm _ (tableBytes nbits v)]

/-- The request that a table word begins is the encoding of its operation. -/
theorem requestBytes_eq_encode {nbits v : Nat} (h : decodeTableWord nbits v = some i) :
    requestBytes nbits v = encode i := by
  obtain ⟨rest, decoded⟩ := decodeTableWord_eq_some.mp h
  have spelt := (decode_eq_ok.mp decoded).1
  have request : maxRequestBytes - rest.length = (encode i).length := by
    rw [← length_tableBytes nbits v, spelt, List.length_append, Nat.add_sub_cancel]
  rw [requestBytes, decoded]
  simp only [request, spelt, List.take_left]

/-! The reserved command words. -/

theorem decode_reservedOperation (h : 0x12 ≤ opNumber w) : decode (w :: bs) = .error (.reservedOperation w) := by
  rw [decode, decodeWord]
  split
  case h_19 => rfl
  all_goals omega

theorem decode_reservedChannelBit (h : w ∈ [0x01#8, 0x03#8, 0x05#8, 0x07#8, 0x09#8, 0x0B#8, 0x0D#8, 0x11#8, 0x13#8,
    0x15#8, 0x17#8, 0x21#8]) : decode (w :: bs) = .error (.reservedChannelBit w) := by
  fin_cases h <;> rfl

/-- A step refuses a trace that begins with no request (30_encoding.md R87). -/
theorem step_of_decode_error {s : State} {why : DecodeError} (trace : s.trace = w :: bs)
    (h : decode (w :: bs) = .error why) : step s = .refused (.badCommand why) := by
  simp only [step, fetch, trace, h]

end Sys2Proof.RoundTrip

/-! The two lookup tables (30_encoding.md R78, R79) by the loops that compute them. -/

namespace Sys2Proof.Tables

open Sys2Proof.Machine

/-! The loop of BIPHASE (30_encoding.md R78): each turn shifts the two cells of a slot into the word. -/

variable (b : Byte) (k s j : Nat) (lvl x : Bool) (w : WireWord)

theorem shiftIn_bit_zero : (w <<< 1 ||| (BitVec.ofBool x).setWidth 16).getLsbD 0 = x := by
  simp

theorem shiftIn_bit_succ (h : j + 1 < 16) :
    (w <<< 1 ||| (BitVec.ofBool x).setWidth 16).getLsbD (j + 1) = w.getLsbD j := by
  simp [h, -BitVec.getLsbD_eq_getElem]

/-- The slots still to come shift the word before them up, two cells a slot. -/
theorem biphaseFrom_above (h : 2 * k + j < 16) : (biphaseFrom b k lvl w).getLsbD (2 * k + j) = w.getLsbD j := by
  induction k generalizing j lvl w with
  | zero => simp [biphaseFrom]
  | succ k ih =>
    rw [biphaseFrom, show 2 * (k + 1) + j = 2 * k + (j + 1 + 1) by omega, ih _ _ _ (by omega),
      shiftIn_bit_succ _ _ _ (by omega), shiftIn_bit_succ _ _ _ (by omega)]

/-- The first cell of the next slot turns the level over. -/
theorem biphaseFrom_first_cell (h : k < 8) : (biphaseFrom b (k + 1) lvl w).getLsbD (2 * k + 1) = !lvl := by
  rw [biphaseFrom, biphaseFrom_above _ _ _ _ _ (by omega), shiftIn_bit_succ _ _ _ (by omega), shiftIn_bit_zero]

/-- The second cell of the next slot turns the level over again for a 1, and is the level after the slot. -/
theorem biphaseFrom_second_cell (h : k < 8) :
    (biphaseFrom b (k + 1) lvl w).getLsbD (2 * k) = (!lvl ^^ b.getLsbD (7 - k)) := by
  rw [biphaseFrom, ← Nat.add_zero (2 * k), biphaseFrom_above _ _ _ _ _ (by omega), shiftIn_bit_zero]
  cases lvl <;> cases b.getLsbD (7 - k) <;> rfl

/-- The two cells of a slot differ where its data bit is 1. -/
theorem biphaseFrom_slot (hs : s < k) (hk : k ≤ 8) :
    ((biphaseFrom b k lvl w).getLsbD (2 * s + 1) != (biphaseFrom b k lvl w).getLsbD (2 * s)) =
      b.getLsbD (7 - s) := by
  induction k generalizing lvl w with
  | zero => omega
  | succ k ih =>
    rcases Nat.lt_succ_iff_lt_or_eq.mp hs with lt | rfl
    · exact ih _ _ lt (by omega)
    · rw [biphaseFrom_first_cell _ _ _ _ hk, biphaseFrom_second_cell _ _ _ _ hk]
      cases lvl <;> cases b.getLsbD (7 - s) <;> rfl

/-- The level turns over between two slots. -/
theorem biphaseFrom_transition (hs : s + 1 < k) (hk : k ≤ 8) :
    (biphaseFrom b k lvl w).getLsbD (2 * s + 1) = !(biphaseFrom b k lvl w).getLsbD (2 * (s + 1)) := by
  induction k generalizing lvl w with
  | zero => omega
  | succ k ih =>
    rcases Nat.lt_succ_iff_lt_or_eq.mp hs with lt | rfl
    · exact ih _ _ lt (by omega)
    · rw [biphaseFrom_second_cell _ _ _ _ hk, biphaseFrom, biphaseFrom_first_cell _ _ _ _ (by omega)]
      cases lvl <;> cases b.getLsbD (7 - (s + 1)) <;> rfl

/-! The entries of BIPHASE. -/

/-- Slot `m` of an entry spells bit `m` of its byte. -/
theorem slotOfWord_biphase {m : Nat} (h : m < 8) : slotOfWord (biphase b) m = b.getLsbD m := by
  have slot := biphaseFrom_slot b 8 (7 - m) false 0#16 (by omega) (by omega)
  rwa [show 7 - (7 - m) = m by omega, show 2 * (7 - m) + 1 = 15 - 2 * m by omega,
    show 2 * (7 - m) = 15 - (2 * m + 1) by omega] at slot

/-- An entry begins with the level turned over from 0. -/
theorem biphase_first_cell : (biphase b).getLsbD 15 = true := biphaseFrom_first_cell b 7 false 0#16 (by decide)

/-- No entry is a preamble or its complement: an entry has a transition between its first two slots, and they have
none, being the violation that a receiver looks for (30_encoding.md R80). -/
theorem biphase_not_preamble : biphase b ∉ [preZ, preX, preY, ~~~preZ, ~~~preX, ~~~preY] := by
  have turns : (biphase b).getLsbD 13 = !(biphase b).getLsbD 14 :=
    biphaseFrom_transition b 8 6 false 0#16 (by decide) (by decide)
  have violation : [preZ, preX, preY, ~~~preZ, ~~~preX, ~~~preY].all fun p => p.getLsbD 13 == p.getLsbD 14 := by
    decide
  intro h
  rw [eq_of_beq (List.all_eq_true.mp violation _ h)] at turns
  exact Bool.eq_not_self _ |>.mp turns

/-! The table POPCNT. -/

/-- A number below `2 ^ k` has no ones past its `k` low bits. -/
theorem popcountFrom_succ_of_lt {n : Nat} (h : n < 2 ^ k) : popcountFrom (k + 1) n = popcountFrom k n := by
  induction k generalizing n with
  | zero => simp [popcountFrom, Nat.lt_one_iff.mp h]
  | succ k ih => rw [popcountFrom, ih (by omega), popcountFrom]

/-- `POPCNT[b] = b[0] + POPCNT[b >> 1]`: the byte shifted down has no eighth bit (30_encoding.md R79). -/
theorem popcnt_rec : popcnt b = b.toNat % 2 + popcnt (b >>> 1) := by
  have half : (b >>> 1).toNat = b.toNat / 2 := by simp [Nat.shiftRight_eq_div_pow]
  have seven : popcountFrom 8 (b.toNat / 2) = popcountFrom 7 (b.toNat / 2) := popcountFrom_succ_of_lt 7 (by omega)
  rw [popcnt, popcnt, half, seven, popcountFrom]

end Sys2Proof.Tables

namespace Sys2Proof.Proofs

open Sys2Proof.Machine
open Sys2Proof.Invariant
open Sys2Proof.RoundTrip
open Sys2Proof.Tables

/-! The statements about the encoding. -/

/-- Settles O1, operation by operation. -/
theorem decodeEncodeRoundTrip : Obligations.DecodeEncodeRoundTrip :=
  fun _ rest wf => decode_encode rest wf

/-- Settles O2, row by row of the opcode table. -/
theorem encodeDecodeRoundTrip : Obligations.EncodeDecodeRoundTrip :=
  fun _ _ _ h => decode_eq_ok.mp h

/-- Settles O7: the bytes placed are the operation's encoding, and decoding takes just these from the trace. -/
theorem placedWordRuns : Obligations.PlacedWordRuns := by
  intro s nbits w i h
  have wf := (decodeTableWord_iff_encode.mp h).2
  rw [State.withFetchWord, requestBytes_eq_encode h]
  exact stepRunsRequest _ i s.trace (decode_encode s.trace wf)

/-- Settles O3: each encoding begins the bytes of its word. -/
theorem commandWordsDecode : Obligations.CommandWordsDecode := by
  unfold Obligations.CommandWordsDecode
  simp only [decodeTableWord_iff_encode]
  decide

/-- Settles O4: the refused words by their number or their channel bit; past `setup` a sample is always encoded. -/
theorem reservedWordsRefused : Obligations.ReservedWordsRefused := by
  refine ⟨fun s w bs reserved => ?_, ⟨rfl, fun x => by cases x <;> decide⟩, fun lo hi s done => ?_⟩
  · obtain ⟨why, refused⟩ : ∃ why, decode (w :: bs) = .error why := by
      rcases reserved with op | bit
      · exact ⟨_, decode_reservedOperation op⟩
      · exact ⟨_, decode_reservedChannelBit bit⟩
    exact ⟨⟨why, refused⟩, fun trace => ⟨why, step_of_decode_error trace refused⟩⟩
  · rw [exec_encodeSample, execEncodeSample, afterSetup_done done]
    exact ⟨_, rfl⟩

/-- Settles O8: the loop of BIPHASE slot by slot, its last cell from the parity of the byte. -/
theorem tableProperties : Obligations.TableProperties :=
  ⟨fun b _ hm => slotOfWord_biphase b hm,
    fun b => ⟨biphase_first_cell b, (biphase_last_cell b).trans (popcnt_odd b).symm⟩,
    biphase_not_preamble, ⟨rfl, rfl, rfl⟩, rfl, popcnt_rec⟩

end Sys2Proof.Proofs

/-! The encoder: one sample as the line shows it, the encoding of a byte stream, and `encode` between its two buffers
(40_frame_encoder.md). -/

namespace Sys2Proof.Encoder

open Sys2Proof.Machine
open Sys2Proof.Invariant
open Sys2Proof.Tables
open Sys2Proof.Effects
open Sys2Proof.Barrier

variable (lo hi : Byte) (x : Context) {s t : State}

/-! One sample: the four words, by the one before and the subframe. -/

/-- A sample changes `SFCNT` alone, because `INV` comes back (40_frame_encoder.md R102). -/
theorem encodeSample_ctx : (encodeSample x lo hi).2 = { x with sfcnt := nextSfcnt x.sfcnt } := by
  rw [← encodeSample_inv x lo hi]
  rfl

theorem exec_encodeSample_runs (done : s.setupDone = true) : exec (.encodeSample lo hi) s =
    .next ((s.setCtx { s.ctx with sfcnt := nextSfcnt s.ctx.sfcnt }).setRes (.words (encodeSample s.ctx lo hi).1)) := by
  rw [exec_encodeSample, execEncodeSample, afterSetup_done done, ← encodeSample_ctx lo hi]

theorem encodeSample_word_zero : (encodeSample x lo hi).1.word 0 = invert x.inv (preamble x.sfcnt) := rfl

/-- The word after word `k` begins from its last cell and spells byte `k + 1` of the subframe. -/
theorem encodeSample_word_succ {k : Nat} (hk : k < 3) : (encodeSample x lo hi).1.word (k + 1) =
    invert (cell ((encodeSample x lo hi).1.word k) 15) (biphase ((subframe lo hi).extractLsb' (8 * (k + 1)) 8)) := by
  match k, hk with
  | 0, _ => rfl
  | 1, _ => rfl
  | 2, _ => rfl

/-! What a receiver sees of a word does not depend on the line level it began from (30_encoding.md R83). -/

theorem cell_invert (inv : Bool) (w : WireWord) (n : Nat) : cell (invert inv w) n = (inv ^^ cell w n) := by
  have bound : 15 - n < 16 := by omega
  cases inv <;> simp [cell, invert, bound, -BitVec.getLsbD_eq_getElem]

theorem cells_differ_invert (inv : Bool) (w : WireWord) (m n : Nat) :
    (cell (invert inv w) m != cell (invert inv w) n) = (cell w m != cell w n) := by
  rw [cell_invert, cell_invert]
  cases inv <;> cases cell w m <;> cases cell w n <;> rfl

theorem slotOfWord_invert (inv : Bool) (w : WireWord) (m : Nat) : slotOfWord (invert inv w) m = slotOfWord w m :=
  cells_differ_invert inv w _ _

/-- An entry of BIPHASE turns the level over at the start of each slot but its first. -/
theorem biphase_transition (b : Byte) {m : Nat} (pos : m ≠ 0) (hm : m < 8) :
    (cell (biphase b) (2 * m) != cell (biphase b) (2 * m - 1)) = true := by
  have turns := biphaseFrom_transition b 8 (7 - m) false 0#16 (by omega) (by omega)
  rw [show 2 * (7 - m) + 1 = 15 - 2 * m by omega, show 2 * (7 - m + 1) = 15 - (2 * m - 1) by omega] at turns
  rw [cell, cell, biphase, turns]
  exact Bool.not_bne_self _

theorem biphase_begins (b : Byte) : cell (biphase b) 0 = true := biphase_first_cell b

/-! The preamble word and the four slots after it (30_encoding.md R80). -/

theorem preamble_mem (n : BitVec 9) : preamble n ∈ [preZ, preX, preY] := by
  unfold preamble
  split
  · decide
  · split <;> decide

/-- Slots 4 to 7 of a preamble word are zeros. -/
theorem preamble_slot (n : BitVec 9) {m : Nat} (h4 : 4 ≤ m) (hm : m < 8) : slotOfWord (preamble n) m = false := by
  have zeros : [preZ, preX, preY].all fun p => (List.range' 4 4).all fun m => !slotOfWord p m := by decide
  simpa using List.all_eq_true.mp (List.all_eq_true.mp zeros _ (preamble_mem n)) m (List.mem_range'_1.mpr ⟨h4, hm⟩)

theorem preamble_transition (n : BitVec 9) {m : Nat} (h4 : 4 ≤ m) (hm : m < 8) :
    (cell (preamble n) (2 * m) != cell (preamble n) (2 * m - 1)) = true := by
  have turns : [preZ, preX, preY].all fun p => (List.range' 4 4).all fun m => cell p (2 * m) != cell p (2 * m - 1) := by
    decide
  exact List.all_eq_true.mp (List.all_eq_true.mp turns _ (preamble_mem n)) m (List.mem_range'_1.mpr ⟨h4, hm⟩)

theorem invert_mem_of_mem {inv : Bool} {w : WireWord} {l : List WireWord} (h : w ∈ l) :
    invert inv w ∈ l ∨ ~~~invert inv w ∈ l := by
  cases inv
  · exact .inl h
  · exact .inr (by simpa [invert] using h)

/-! The subframe a receiver recovers: the sample in slots 11 to 26, its sign in 27, the parity bit in 31
(30_encoding.md R73 to R75). -/

theorem subframe_slot {k : Nat} (hk : k < 32) : (subframe lo hi).getLsbD k =
    if k < 11 then false else if k < 27 then (sampleOf lo hi).getLsbD (k - 11)
    else if k = 27 then (sampleOf lo hi).getLsbD 15
    else decide (k = 31) && decide (parityCount lo hi % 2 = 1) := by
  have placed : (placeSample (sampleOf lo hi)).getLsbD k =
      (decide (11 ≤ k) && (sampleOf lo hi).getLsbD (k - 11)) := by
    simp [placeSample, BitVec.getLsbD_shiftLeft, hk, show k - 11 < 32 by omega, ← decide_not,
      -BitVec.getLsbD_eq_getElem]
  have sign : hi.getLsbD 7 = (sampleOf lo hi).getLsbD 15 := by
    rw [sampleOf, BitVec.getLsbD_append]
    rfl
  rw [subframe_bit lo hi hk, placed, sign]
  by_cases low : k < 11
  · simp [low, show ¬ 11 ≤ k by omega, show k ≠ 27 by omega, show k ≠ 31 by omega]
  · by_cases mid : k < 27
    · simp [low, mid, show 11 ≤ k by omega, show k ≠ 27 by omega, show k ≠ 31 by omega]
    · have above : (sampleOf lo hi).getLsbD (k - 11) = false := BitVec.getLsbD_of_ge _ _ (by omega)
      by_cases top : k = 27
      · simp [top]
      · simp [low, mid, top, above]

/-- Every slot from 4 on is the bit of the subframe with its number (30_encoding.md R77, R82). -/
theorem slot_encodeSample {k : Nat} (h4 : 4 ≤ k) (hk : k < 32) :
    (encodeSample x lo hi).1.slot k = (subframe lo hi).getLsbD k := by
  unfold Words4.slot
  obtain h | ⟨j, h⟩ : k / 8 = 0 ∨ ∃ j, k / 8 = j + 1 := by
    cases k / 8
    · exact .inl rfl
    · exact .inr ⟨_, rfl⟩
  · rw [h, encodeSample_word_zero, slotOfWord_invert, preamble_slot _ (by omega) (by omega), subframe_slot lo hi hk,
      if_pos (by omega)]
  · have bit : k % 8 < 8 := by omega
    rw [h, encodeSample_word_succ lo hi x (by omega), slotOfWord_invert, slotOfWord_biphase _ bit,
      BitVec.getLsbD_extractLsb']
    simp [bit, show 8 * (j + 1) + k % 8 = k by omega]

theorem slot_sample {j : Nat} (hj : j < 16) : (encodeSample x lo hi).1.slot (11 + j) = (sampleOf lo hi).getLsbD j := by
  rw [slot_encodeSample lo hi x (by omega) (by omega), subframe_slot lo hi (by omega), if_neg (by omega),
    if_pos (by omega), Nat.add_sub_cancel_left]

theorem slot_sign : (encodeSample x lo hi).1.slot 27 = (sampleOf lo hi).getLsbD 15 := by
  rw [slot_encodeSample lo hi x (by decide) (by decide), subframe_slot lo hi (by decide), if_neg (by decide),
    if_neg (by decide), if_pos rfl]

/-- The zero slots: below the sample, and between its sign and the parity bit (30_encoding.md R91). -/
theorem slot_blank {k : Nat} (hk : (4 ≤ k ∧ k ≤ 10) ∨ (28 ≤ k ∧ k ≤ 30)) :
    (encodeSample x lo hi).1.slot k = false := by
  rw [slot_encodeSample lo hi x (by omega) (by omega), subframe_slot lo hi (by omega)]
  rcases hk with below | above
  · rw [if_pos (by omega)]
  · rw [if_neg (by omega), if_neg (by omega), if_neg (by omega), decide_eq_false (by omega), Bool.false_and]

/-- The sample read as a field of `17 + d` bits that ends in slot 27: sign extended, `d` zeros below it
(40_frame_encoder.md R107). -/
theorem slot_scaledSample {d j : Nat} (hd : d ≤ 7) (hj : j < 17 + d) :
    (encodeSample x lo hi).1.slot (11 - d + j) = (((sampleOf lo hi).signExtend (17 + d)) <<< d).getLsbD j := by
  rw [slot_encodeSample lo hi x (by omega) (by omega), subframe_slot lo hi (by omega), BitVec.getLsbD_shiftLeft,
    BitVec.getLsbD_signExtend, BitVec.msb_eq_getLsbD_last]
  by_cases low : j < d
  · simp [low, show 11 - d + j < 11 by omega]
  · by_cases mid : j - d < 16
    · simp [low, hj, mid, show ¬ 11 - d + j < 11 by omega, show 11 - d + j < 27 by omega,
        show 11 - d + j - 11 = j - d by omega, show j - d < 17 + d by omega, -BitVec.getLsbD_eq_getElem]
    · simp [low, hj, mid, show 11 - d + j = 27 by omega, show j - d < 17 + d by omega, -BitVec.getLsbD_eq_getElem]

/-- Each slot begins with a transition, inside a word and from a word to the next. -/
theorem transitionAt_encodeSample {k : Nat} (h4 : 4 ≤ k) (hk : k < 32) :
    (encodeSample x lo hi).1.transitionAt k = true := by
  unfold Words4.transitionAt Words4.levelBefore
  by_cases first : k % 8 = 0
  · obtain ⟨j, h⟩ : ∃ j, k / 8 = j + 1 := ⟨k / 8 - 1, by omega⟩
    rw [if_pos first, first, h, Nat.add_sub_cancel, encodeSample_word_succ lo hi x (by omega), cell_invert,
      biphase_begins]
    cases cell _ 15 <;> rfl
  · rw [if_neg first]
    cases h : k / 8 with
    | zero =>
      rw [encodeSample_word_zero, cells_differ_invert]
      exact preamble_transition _ (by omega) (by omega)
    | succ j =>
      rw [encodeSample_word_succ lo hi x (by omega), cells_differ_invert]
      exact biphase_transition _ first (by omega)

/-- A count is odd when the exclusive or of what it counts is 1. -/
theorem length_filter_odd (p : Nat → Bool) (l : List Nat) :
    decide ((l.filter p).length % 2 = 1) = (l.map p).foldr Bool.xor false := by
  induction l with
  | nil => rfl
  | cons k l ih =>
    rw [List.map_cons, List.foldr_cons, ← ih]
    cases h : p k
    · simp [h]
    · rcases Nat.mod_two_eq_zero_or_one (l.filter p).length with e | e <;> simp [h, e, Nat.add_mod]

/-- Slots 4 to 31 hold an even number of ones (30_encoding.md R75, R91). -/
theorem ones_encodeSample : (encodeSample x lo hi).1.ones % 2 = 0 := by
  have slots : (List.range 28).map (fun k => (encodeSample x lo hi).1.slot (k + 4)) =
      (List.range 28).map fun k => (subframe lo hi).getLsbD (k + 4) :=
    List.map_congr_left fun k hk => slot_encodeSample lo hi x (by omega) (by have := List.mem_range.mp hk; omega)
  have blank : ∀ k < 11, (subframe lo hi).getLsbD k = false := fun k hk => by
    rw [subframe_slot lo hi (by omega), if_pos hk]
  have bytes := subframe_even lo hi
  simp only [parity, tableIndex1, tableIndex2, tableIndex3, BitVec.getLsbD_extractLsb', Nat.reduceLT, Nat.reduceAdd,
    decide_true, Bool.true_and, Bool.xor_assoc] at bytes
  have odd := length_filter_odd (fun k => (encodeSample x lo hi).1.slot (k + 4)) (List.range 28)
  rw [slots, ← Words4.ones] at odd
  simp only [List.range_succ, List.range_zero, List.nil_append, List.cons_append, List.map_cons, List.map_nil,
    List.foldr_cons, List.foldr_nil, Nat.reduceAdd, Nat.zero_add, blank 4, blank 5, blank 6, blank 7, Nat.reduceLT,
    Bool.xor_false, bytes] at odd
  exact (Nat.mod_two_eq_zero_or_one _).resolve_right (of_decide_eq_false odd)

/-! The encoding of a byte stream: sample `n` meets the context of the first one but for the counter. -/

/-- `SFCNT` after `k` samples; one of the values above 383, which never occur, stays until the first (log 22). -/
def advanceSfcnt (n : BitVec 9) (k : Nat) : BitVec 9 := if k = 0 then n else BitVec.ofNat 9 ((n.toNat + k) % 384)

/-- The context that sample `k` of a stream from `x` meets. -/
def sampleContext (x : Context) (k : Nat) : Context := { x with sfcnt := advanceSfcnt x.sfcnt k }

theorem sampleContext_zero : sampleContext x 0 = x := rfl

theorem advanceSfcnt_succ (n : BitVec 9) (k : Nat) : advanceSfcnt n (k + 1) = advanceSfcnt (nextSfcnt n) k := by
  cases k with
  | zero => rfl
  | succ k =>
    rw [advanceSfcnt, advanceSfcnt, if_neg (by omega), if_neg (by omega), nextSfcnt_toNat]
    congr 1
    omega

theorem sampleContext_succ (k : Nat) : sampleContext x (k + 1) = sampleContext (encodeSample x lo hi).2 k := by
  rw [encodeSample_ctx, sampleContext, sampleContext, advanceSfcnt_succ]

theorem encodeStream_cons (bytes : List Byte) : encodeStream x (lo :: hi :: bytes) =
    ((encodeSample x lo hi).1.toList ++ (encodeStream (encodeSample x lo hi).2 bytes).1,
      (encodeStream (encodeSample x lo hi).2 bytes).2) := rfl

theorem length_toList (w : Words4) : w.toList.length = 4 := rfl

theorem encodeStream_ctx (bytes : List Byte) : (encodeStream x bytes).2 = sampleContext x (bytes.length / 2) := by
  induction x, bytes using encodeStream.induct with
  | case1 x lo hi bytes e ih =>
    rw [encodeStream_cons, ih, ← sampleContext_succ, List.length_cons, List.length_cons, Nat.add_assoc,
      Nat.add_div_right _ (by decide)]
  | case2 => rw [List.length_singleton]; rfl
  | case3 => rfl

theorem length_encodeStream (bytes : List Byte) : (encodeStream x bytes).1.length = 4 * (bytes.length / 2) := by
  induction x, bytes using encodeStream.induct with
  | case1 x lo hi bytes e ih =>
    rw [encodeStream_cons, List.length_append, length_toList, ih, List.length_cons, List.length_cons]
    omega
  | case2 => rw [List.length_singleton]; rfl
  | case3 => rfl

/-- Sample `n` of a stream begins with the preamble that its counter selects (30_encoding.md R81). -/
theorem encodeStream_preamble {bytes : List Byte} {n : Nat} (hn : 2 * n + 1 < bytes.length) :
    (encodeStream x bytes).1[4 * n]? = some (invert x.inv (preamble (sampleContext x n).sfcnt)) := by
  induction n generalizing x bytes with
  | zero =>
    match bytes, hn with
    | _ :: _ :: _, _ => rfl
  | succ n ih =>
    match bytes, hn with
    | lo :: hi :: bytes, hn =>
      have rest := ih (x := (encodeSample x lo hi).2) (bytes := bytes) (by simp only [List.length_cons] at hn; omega)
      rw [encodeSample_inv, ← sampleContext_succ] at rest
      rw [encodeStream_cons, List.getElem?_append_right (by rw [length_toList]; omega), length_toList, ← rest]
      rfl

/-- A stream of one sample repeated. -/
theorem encodeStream_replicate (v : Byte) (n : Nat) : (encodeStream x (List.replicate (2 * n) v)).1 =
    (List.range n).flatMap fun k => (encodeSample (sampleContext x k) v v).1.toList := by
  induction n generalizing x with
  | zero => rfl
  | succ n ih =>
    rw [show 2 * (n + 1) = 2 * n + 1 + 1 by omega, List.replicate_succ, List.replicate_succ, encodeStream_cons, ih,
      List.range_succ_eq_map, List.flatMap_cons, List.flatMap_map, sampleContext_zero]
    simp only [← sampleContext_succ]

/-! From the start of a stream: the preamble sequence and the zero samples (40_frame_encoder.md R104, R108). -/

theorem advanceSfcnt_start (n : Nat) : advanceSfcnt 0#9 n = BitVec.ofNat 9 (n % 384) := by
  cases n with
  | zero => rfl
  | succ n => rw [advanceSfcnt, if_neg (by omega), BitVec.toNat_ofNat, Nat.zero_mod, Nat.zero_add]

theorem toNat_advanceSfcnt_start (n : Nat) : (advanceSfcnt 0#9 n).toNat = n % 384 := by
  rw [advanceSfcnt_start, BitVec.toNat_ofNat]
  omega

/-- Z begins a block, and Y and X take turns in it: a block has an even number of subframes. -/
theorem preamble_start (n : Nat) :
    preamble (advanceSfcnt 0#9 n) = if n % 384 = 0 then preZ else if n % 2 = 1 then preY else preX := by
  have first : advanceSfcnt 0#9 n = 0#9 ↔ n % 384 = 0 := by
    rw [← BitVec.toNat_inj, toNat_advanceSfcnt_start]
    rfl
  have odd : (advanceSfcnt 0#9 n).getLsbD 0 = true ↔ n % 2 = 1 := by
    rw [BitVec.getLsbD, toNat_advanceSfcnt_start, Nat.testBit_zero, decide_eq_true_eq]
    omega
  simp only [preamble, first, odd]

/-- A zero sample after a word that ended low: the three bytes of its subframe are 0. -/
theorem zeroSample_words (hx : x.inv = false) :
    (encodeSample x 0#8 0#8).1.toList = [preamble x.sfcnt, 0xCCCC#16, 0xCCCC#16, 0xCCCC#16] := by
  have zero : subframe 0#8 0#8 = 0#32 := by decide
  have entry : biphase 0#8 = 0xCCCC#16 := by decide
  have low : invAfter 0xCCCC#16 = false := by decide
  have after : invAfter (preamble x.sfcnt) = false := preamble_last_cell _
  simp [encodeSample, Words4.toList, hx, zero, tableIndex1, tableIndex2, tableIndex3, entry, invert, after, low]

/-- Zero samples from the cold start: a preamble and three words of zeros each. -/
theorem encodeStream_zeros (n : Nat) : (encodeStream coldContext (List.replicate (2 * n) 0#8)).1 =
    (List.range n).flatMap fun k => [if k % 384 = 0 then preZ else if k % 2 = 1 then preY else preX,
      0xCCCC#16, 0xCCCC#16, 0xCCCC#16] := by
  rw [encodeStream_replicate]
  congr 1
  funext k
  rw [zeroSample_words _ rfl, ← preamble_start]
  rfl

/-! `encode` between its two buffers (40_frame_encoder.md R101). -/

/-- `encode` within both buffers, or of a length without a sample. -/
theorem encodeRange_within {b c : Side} {p q n : Nat}
    (within : n / 2 = 0 ∨ p + 2 * (n / 2) ≤ s.cfg.pcmBufBytes ∧ q + 4 * (n / 2) ≤ s.cfg.wireWords) :
    encodeRange b p c q n s = .next (encodeLoop b c (n / 2) p q s) := by
  by_cases empty : n / 2 = 0
  · simp [encodeRange, empty, encodeLoop]
  · obtain ⟨source, dest⟩ := within.resolve_left empty
    exact encodeRange_runs empty source dest

theorem encodeRange_outside {b c : Side} {p q n : Nat} (pos : n / 2 ≠ 0)
    (outside : s.cfg.pcmBufBytes < p + 2 * (n / 2) ∨ s.cfg.wireWords < q + 4 * (n / 2)) :
    encodeRange b p c q n s = .refused .encodeRange := by
  have range : encodeInRange s.cfg p q (n / 2) = false := by
    rw [encodeInRange, wordsPerSample, Bool.and_eq_false_iff, decide_eq_false_iff_not, decide_eq_false_iff_not]
    exact outside.imp Nat.not_le.mpr Nat.not_le.mpr
  simp [encodeRange, pos, range]

theorem encodeLoop_encoded (b c : Side) (n p q : Nat) (s : State) : Encoded s (encodeLoop b c n p q s) b p c q n := by
  obtain ⟨bytes, len, reads, words, ctx, others, -⟩ := encodeLoop_stream b c n p q s
  rw [encodeStream_ctx, len, Nat.mul_div_cancel_left n (by decide)] at ctx
  refine ⟨⟨bytes, len, reads, words⟩, ?_, ?_, others⟩ <;> rw [ctx]
  exacts [rfl, rfl]

/-- The kept entries of both buffers after an encode into one of them (log 8). -/
theorem keepsReplaced_of_effect {c : Side} {lo hi : Nat} (h : EncodeEffect c lo hi s t) :
    KeepsReplaced s t c lo hi := by
  refine ⟨fun c' j => ?_, fun idle => ?_⟩
  · by_cases hc : c' = c
    · subst hc
      simp [h.kept j]
    · rw [if_neg fun e => hc e.1, h.oldEntries_other hc]
  · have same : t.wireOld = s.wireOld.set c (t.wireOld.get c) := by rw [h.eq]; simp
    rw [same, h.idle idle, Pair.set_get_self]

/-- An encode that leaves `INV` as it was writes no other field than these. -/
theorem encodeEffect_writes {c : Side} {lo hi : Nat} (h : EncodeEffect c lo hi s t) (inv : t.ctx.inv = s.ctx.inv) :
    t = { s with
      ctx := { s.ctx with sfcnt := t.ctx.sfcnt }, wire := t.wire, wireOld := t.wireOld, draws := t.draws } := by
  have e := h.eq
  rw [inv] at e
  generalize t.wire.get c = W, t.wireOld.get c = O, t.ctx.sfcnt = x, t.draws = n at e
  rw [e]
  rfl

theorem encodeEffect_wire_other {c d : Side} {lo hi : Nat} (h : EncodeEffect c lo hi s t) (other : d ≠ c) :
    t.wire.get d = s.wire.get d := by
  rw [h.eq]
  exact Pair.get_set_ne _ other _

theorem jobRunning_running {j : Job} (h : s.wk = .running j) : jobRunning s = true := by
  rw [jobRunning, h]

theorem encoderFree_busy {k : State → Out} (h : jobRunning s = true) : encoderFree s k = .refused .reentrant := by
  simp [encoderFree, h]

/-! `dma_start` from two Ready buffers: both chunks of its priming are left to encode (42_dma_transmitter.md R134). -/

/-- The cursor stands at a chunk of its buffer (10_state.md R37). -/
def CursorLegal (s : State) : Prop := s.ctx.cur % s.cfg.chunkBytes = 0 ∧ s.ctx.cur < s.cfg.pcmBufBytes

/-- A whole chunk is left: the cursor and the buffer's size are both multiples of it. -/
theorem CursorLegal.fits (h : CursorLegal s) (valid : configValid s.cfg = true) :
    s.ctx.cur + s.cfg.chunkBytes ≤ s.cfg.pcmBufBytes := by
  obtain ⟨aligned, inside⟩ := h
  obtain ⟨-, -, size, -, -⟩ := configValid_iff.mp valid
  have left : s.cfg.chunkBytes ≤ s.cfg.pcmBufBytes - s.ctx.cur :=
    Nat.le_of_dvd (by omega) (Nat.dvd_sub (Nat.dvd_of_mod_eq_zero size) (Nat.dvd_of_mod_eq_zero aligned))
  omega

theorem CursorLegal.advanceCursor (h : CursorLegal s) (valid : configValid s.cfg = true) :
    CursorLegal (advanceCursor s) := by
  have fits := h.fits valid
  obtain ⟨-, -, -, nonempty, -⟩ := configValid_iff.mp valid
  by_cases last : s.ctx.cur + s.cfg.chunkBytes = s.cfg.pcmBufBytes
  · rw [advanceCursor_end last]
    exact ⟨Nat.zero_mod _, Nat.pos_of_ne_zero nonempty⟩
  · rw [advanceCursor_within last]
    exact ⟨(Nat.add_mod_right _ _).trans h.1, Nat.lt_of_le_of_ne fits last⟩

/-- `consumeChunk` from a legal cursor completes, and leaves the cursor legal. -/
theorem CursorLegal.consume (h : CursorLegal s) (valid : configValid s.cfg = true) (c : Side) :
    ∃ t, consume c s = .next t ∧ CursorLegal t := by
  refine ⟨_, consume_runs c valid (h.fits valid), ?_⟩
  have effect := encodeLoop_effect s.ctx.sel c (s.cfg.chunkBytes / 2) s.ctx.cur 0 (underrunMarked s)
  generalize encodeLoop _ _ _ _ _ (underrunMarked s) = v at effect ⊢
  have same : v.ctx.cur = s.ctx.cur ∧ v.cfg = s.cfg := by
    rw [effect.eq, underrunMarked_eq]
    exact ⟨rfl, rfl⟩
  have legal : CursorLegal v := by
    rw [CursorLegal, same.1, same.2]
    exact h
  exact legal.advanceCursor (by rw [same.2]; exact valid)

theorem coldStart_cursorLegal (valid : configValid s.cfg = true) : CursorLegal (coldStart s) := by
  obtain ⟨-, -, -, nonempty, -⟩ := configValid_iff.mp valid
  exact ⟨Nat.zero_mod _, Nat.pos_of_ne_zero nonempty⟩

/-- `dma_start`'s two refusals and the reentrant one apart, it completes. -/
theorem startTransmitter_runs (done : s.setupDone = true) (inactive : s.active = false) (ra : s.st.a = .ready)
    (rb : s.st.b = .ready) (free : jobRunning s = false) (valid : configValid s.cfg = true) :
    ∃ t, startTransmitter s = .next t := by
  obtain ⟨u, first, legal⟩ := (coldStart_cursorLegal valid).consume valid .A
  have cfg : u.cfg = s.cfg := by
    obtain ⟨_, _, _, _, _, rfl⟩ := consume_frame first
    rfl
  obtain ⟨v, second, -⟩ := legal.consume (cfg ▸ valid) .B
  refine ⟨launch v, ?_⟩
  simp [startTransmitter, done, inactive, ra, rb, encoderFree_free free, first, second]

/-- A job writes the wire buffer of its own channel. -/
theorem consume_wire_other {c d : Side} (h : consume c s = .next t) (other : d ≠ c) :
    t.wire.get d = s.wire.get d := by
  rcases consume_cases c s with ⟨v, effect, -, runs, -⟩ | refused
  · rw [h] at runs
    cases runs
    obtain ⟨x, st, e⟩ := advanceCursor_frame v
    rw [e]
    exact (encodeEffect_wire_other effect other).trans (by rw [underrunMarked_eq]; rfl)
  · rw [h] at refused
    cases refused

theorem wireEntries_of_wire {c : Side} (h : t.wire.get c = s.wire.get c) (q n : Nat) :
    wireEntries t c q n = wireEntries s c q n := by
  simp only [wireEntries, wireEntry, h]

theorem pcmBytes_const {b : Side} {p n : Nat} {v : Byte} (h : ∀ i < n, pcmByte s b (p + i) = v) :
    pcmBytes s b p n = List.replicate n v := by
  refine List.eq_replicate_iff.mpr ⟨by simp [pcmBytes], fun x hx => ?_⟩
  obtain ⟨i, hi, rfl⟩ := List.mem_map.mp hx
  exact h i (List.mem_range.mp hi)

/-- A start leaves the first chunk of `PCM[A]` encoded in `WIRE[A]`: the second job and the launch leave it alone. -/
theorem startTransmitter_wireA (h : startTransmitter s = .next t) (valid : configValid s.cfg = true)
    (settled : s.pcmOld.a = []) : wireEntries t .A 0 s.cfg.wireWords =
      (encodeStream coldContext (pcmBytes s .A 0 s.cfg.chunkBytes)).1 := by
  obtain ⟨-, -, u, v, first, second, pend, -, rfl⟩ := startTransmitter_eq_next h
  have fits := (coldStart_cursorLegal valid).fits valid
  have launched : (launch v).wire = v.wire := by rw [launch_eq (by rw [pend]; rfl)]
  have kept := consume_wire_other second (d := .A) nofun
  rw [wireEntries_of_wire (s := u) (by rw [launched, kept])]
  exact consume_stream_settled (s := coldStart s) valid fits settled first

end Sys2Proof.Encoder

namespace Sys2Proof.Proofs

open Sys2Proof.Machine
open Sys2Proof.Invariant
open Sys2Proof.RoundTrip
open Sys2Proof.Barrier
open Sys2Proof.Encoder

/-! The statements about the encoder. -/

/-- Settles O12: the tests that stand before the loop. -/
theorem encodeRefusals : Obligations.EncodeRefusals := by
  refine ⟨fun s j done running => ?_, fun b p c q n s done free two outside => ?_⟩
  · have busy := jobRunning_running running
    exact ⟨fun b p c q n => by rw [exec_encode, execEncode, afterSetup_done done, encoderFree_busy busy],
      fun c => by rw [exec_consumeChunk, execConsumeChunk, afterSetup_done done, encoderFree_busy busy]⟩
  · rw [exec_encode, execEncode, afterSetup_done done, encoderFree_free free, encodeRange_outside (by omega) outside]
    rfl

/-- Settles O9: the pseudocode is `encodeSample`, and `INV` comes back. -/
theorem encodeSampleResult : Obligations.EncodeSampleResult :=
  ⟨decodeTableWord_iff_encode.mpr (by decide), fun lo hi s done =>
    ⟨encodeSample_inv s.ctx lo hi, exec_encodeSample_runs lo hi done⟩⟩

/-- Settles O10: the words by what they show at each slot, whatever level they begin from. -/
theorem receiverRecoversSample : Obligations.ReceiverRecoversSample := by
  intro lo hi s done
  exact ⟨_, (encodeSample s.ctx lo hi).1, exec_encodeSample_runs lo hi done, rfl, fun _ hj => slot_sample lo hi _ hj,
    slot_sign lo hi _, fun _ hk => slot_blank lo hi _ hk, ones_encodeSample lo hi _,
    fun _ h4 hk => transitionAt_encodeSample lo hi _ h4 (Nat.lt_succ_of_le hk),
    invert_mem_of_mem (preamble_mem s.ctx.sfcnt), fun _ hj => slot_scaledSample lo hi _ (d := 3) (by decide) hj,
    fun _ hj => slot_scaledSample lo hi _ (d := 7) (by decide) hj⟩

/-- Settles O11: the loop of `encode` by its stream and by its effect. -/
theorem encodeWritesWords : Obligations.EncodeWritesWords := by
  intro b p c q byteLen s done free within
  have runs := encodeRange_within (b := b) (c := c) within
  have effect := encodeLoop_effect b c (byteLen / 2) p q s
  have encoded := encodeLoop_encoded b c (byteLen / 2) p q s
  obtain ⟨-, -, -, -, -, -, undrawn⟩ := encodeLoop_stream b c (byteLen / 2) p q s
  generalize encodeLoop b c (byteLen / 2) p q s = t at runs effect encoded undrawn
  have kept := keepsReplaced_of_effect effect
  obtain ⟨-, -, inv, -⟩ := id encoded
  refine ⟨t.setRes .none, ?_, encoded, kept, undrawn, ?_⟩
  · rw [exec_encode, execEncode, afterSetup_done done, encoderFree_free free, runs, andThen_next]
  · exact congrArg (State.setRes · .none) (encodeEffect_writes effect inv)

/-- Settles O13: sample `n` meets the counter that `n` samples lead to. -/
theorem preambleSequence : Obligations.PreambleSequence := by
  intro x bytes first inv
  have ctx := encodeStream_ctx x bytes
  refine ⟨length_encodeStream x bytes, ?_, ?_, fun n hn => ?_⟩
  · rw [ctx, sampleContext, first, toNat_advanceSfcnt_start]
  · rw [ctx]
    exact inv
  · rw [encodeStream_preamble x hn, inv, sampleContext, first, preamble_start]
    rfl

/-- Settles O14: the zero samples of the stream, and the first of them in the first job of a start. -/
theorem zeroInputStream : Obligations.ZeroInputStream := by
  refine ⟨encodeStream_zeros, fun s poll free done inactive ra rb valid settled zeros => ?_⟩
  obtain ⟨t, runs⟩ := startTransmitter_runs done inactive ra rb free valid
  have words := startTransmitter_wireA runs valid (by rw [settled])
  have fits : 0 + s.cfg.chunkBytes ≤ s.cfg.pcmBufBytes := (coldStart_cursorLegal valid).fits valid
  rw [pcmBytes_const fun i hi => zeros .A (0 + i) (by omega)] at words
  obtain ⟨even, pos, -, -, wire⟩ := configValid_iff.mp valid
  obtain ⟨n, hn⟩ : ∃ n, s.cfg.chunkBytes = 2 * (n + 1) := ⟨s.cfg.chunkBytes / 2 - 1, by omega⟩
  rw [hn, encodeStream_zeros, show s.cfg.wireWords = 4 + 4 * n by omega, wireEntries_add, List.range_succ_eq_map,
    List.flatMap_cons] at words
  refine ⟨t.setRes .none, ?_, List.append_inj_left words rfl⟩
  rw [exec_dmaStart, execDmaStart, onPoll_runs poll, runs, andThen_next]

end Sys2Proof.Proofs

/-! The PCM buffers (41_buffer_pipeline.md): which buffer an operation takes, a whole `consumeChunk`, and the moves
of `ST` in every operation. -/

namespace Sys2Proof.Buffers

open Sys2Proof.Machine
open Sys2Proof.Effects
open Sys2Proof.Barrier
open Sys2Proof.Encoder
open Sys2Proof.Invariant

variable {s t u : State} {b : Side}

/-! The order A, B in which the buffers are looked at (41_buffer_pipeline.md R115). -/

theorem firstIn_A {x : BufState} {st : Pair BufState} (h : st.a = x) : firstIn x st = some .A := if_pos h

theorem firstIn_B {x : BufState} {st : Pair BufState} (ha : st.a ≠ x) (hb : st.b = x) : firstIn x st = some .B := by
  rw [firstIn, if_neg ha, if_pos hb]

theorem claimTarget_some (h : firstIn .stale s.st = some b) : claimTarget s = (some b, setStOf b .filling s) := by
  rw [claimTarget, h]

theorem claimTarget_none (h : firstIn .stale s.st = none) : claimTarget s = (none, s) := by
  rw [claimTarget, h]

/-- The state an acquire claims from: `F_PROTOCOL` is marked if a buffer is Filling (decision D13). -/
def protocolMarked (s : State) : State := s.setGhost
  (if s.st.a = .filling ∨ s.st.b = .filling then { s.ghost with protocol := true } else s.ghost)

theorem acquireTarget_eq (s : State) : acquireTarget s = claimTarget (protocolMarked s) := by
  unfold acquireTarget protocolMarked
  by_cases idle : firstIn .filling s.st = none
  · rw [if_pos idle, if_neg (not_or.mpr (firstIn_eq_none.mp idle))]
    rfl
  · rw [if_neg idle, if_pos (by rwa [firstIn_eq_none, ← not_or, not_not] at idle)]
    rfl

theorem exec_acquireFillTarget_some (poll : pollRuns s = true) (done : s.setupDone = true)
    (stale : firstIn .stale s.st = some b) : exec .acquireFillTarget s =
      .next ((setStOf b .filling (protocolMarked s)).setRes (.buffer b)) := by
  rw [exec_acquireFillTarget, execAcquireFillTarget, onPoll_runs poll, afterSetup_done done, acquireTarget_eq,
    claimTarget_some (s := protocolMarked s) stale]

theorem exec_acquireFillTarget_none (poll : pollRuns s = true) (done : s.setupDone = true)
    (stale : firstIn .stale s.st = none) : exec .acquireFillTarget s = .next ((protocolMarked s).setRes .noTarget) := by
  rw [exec_acquireFillTarget, execAcquireFillTarget, onPoll_runs poll, afterSetup_done done, acquireTarget_eq,
    claimTarget_none (s := protocolMarked s) stale]

/-- `markFilled` where it runs answers what the shared operation answers. -/
theorem exec_markFilled_some (poll : pollRuns s = true) (done : s.setupDone = true)
    (marks : markFirstFilling s = some u) : exec .markFilled s = .next (u.setRes .none) := by
  rw [exec_markFilled, execMarkFilled, onPoll_runs poll, afterSetup_done done, marks]

theorem exec_markFilled_none (poll : pollRuns s = true) (done : s.setupDone = true)
    (marks : markFirstFilling s = none) : exec .markFilled s = .refused .markFilledIdle := by
  rw [exec_markFilled, execMarkFilled, onPoll_runs poll, afterSetup_done done, marks]

theorem markFirstFilling_some (h : firstIn .filling s.st = some b) : markFirstFilling s = some (markReady b s) := by
  rw [markFirstFilling, h]

/-! One whole `consumeChunk` (41_buffer_pipeline.md R118). -/

/-- The end of a job writes the cursor, and at the buffer's end the selector and `ST`. -/
theorem advanceCursor_eq (s : State) : advanceCursor s =
    let last := s.ctx.cur + s.cfg.chunkBytes = s.cfg.pcmBufBytes
    { s with
      ctx := { s.ctx with
        sel := if last then s.ctx.sel.other else s.ctx.sel
        cur := if last then 0 else s.ctx.cur + s.cfg.chunkBytes }
      st := if last then s.st.set s.ctx.sel .stale else s.st } := by
  dsimp only
  by_cases last : s.ctx.cur + s.cfg.chunkBytes = s.cfg.pcmBufBytes
  · rw [advanceCursor_end last, if_pos last, if_pos last, if_pos last]
    rfl
  · rw [advanceCursor_within last, if_neg last, if_neg last, if_neg last]
    rfl

/-- What a `consumeChunk` that a chunk is left for does: the encode of the chunk into the whole wire buffer, the
cursor, and at the buffer's end the selector and Stale. -/
theorem consume_writes (c : Side) (valid : configValid s.cfg = true)
    (fits : s.ctx.cur + s.cfg.chunkBytes ≤ s.cfg.pcmBufBytes) :
    ∃ t, consume c s = .next t ∧ Encoded s t s.ctx.sel s.ctx.cur c 0 (s.cfg.chunkBytes / 2) ∧
      KeepsReplaced s t c 0 s.cfg.wireWords ∧ (s.pcmOld.get s.ctx.sel = [] → t.draws = s.draws) ∧
      t = { s with
        ghost := if s.st.get s.ctx.sel = .ready then s.ghost else { s.ghost with underrun := true }
        ctx := {
          sfcnt := t.ctx.sfcnt
          inv := s.ctx.inv
          sel := if s.ctx.cur + s.cfg.chunkBytes = s.cfg.pcmBufBytes then s.ctx.sel.other else s.ctx.sel
          cur := if s.ctx.cur + s.cfg.chunkBytes = s.cfg.pcmBufBytes then 0 else s.ctx.cur + s.cfg.chunkBytes }
        st := if s.ctx.cur + s.cfg.chunkBytes = s.cfg.pcmBufBytes then s.st.set s.ctx.sel .stale else s.st
        wire := t.wire, wireOld := t.wireOld, draws := t.draws
        wpend := s.wpend.set c false } := by
  have runs := consume_runs c valid fits
  have effect := encodeLoop_effect s.ctx.sel c (s.cfg.chunkBytes / 2) s.ctx.cur 0 (underrunMarked s)
  have encoded := encodeLoop_encoded s.ctx.sel c (s.cfg.chunkBytes / 2) s.ctx.cur 0 (underrunMarked s)
  obtain ⟨-, -, -, -, -, -, undrawn⟩ :=
    encodeLoop_stream s.ctx.sel c (s.cfg.chunkBytes / 2) s.ctx.cur 0 (underrunMarked s)
  generalize encodeLoop _ _ _ _ _ (underrunMarked s) = v at runs effect encoded undrawn
  obtain ⟨even, -, -, -, wire⟩ := configValid_iff.mp valid
  rw [show 0 + 4 * (s.cfg.chunkBytes / 2) = s.cfg.wireWords by omega] at effect
  have kept := keepsReplaced_of_effect effect
  obtain ⟨-, -, inv, -⟩ := id encoded
  have written := encodeEffect_writes effect inv
  rw [underrunMarked_eq] at encoded kept undrawn written
  generalize v.ctx.sfcnt = x, v.wire = W, v.wireOld = O, v.draws = n at written
  subst written
  exact ⟨_, runs.trans (congrArg (Host.Outcome.next <| setWpendOf c false ·) (advanceCursor_eq _)), encoded, kept,
    undrawn, rfl⟩

/-! The moves of `ST` (41_buffer_pipeline.md R115), first in the parts that the operations share. -/

/-- A buffer that one write of `ST` moved is the one written. -/
theorem get_set_moved {α : Type} {p : Pair α} {c d : Side} {x : α} (moved : (p.set c x).get d ≠ p.get d) :
    c = d ∧ (p.set c x).get d = x := by
  rcases Side.eq_or_eq_other c d with rfl | rfl
  · exact ⟨rfl, Pair.get_set_same _ _ _⟩
  · exact absurd (Pair.get_set_other _ _ _) moved

theorem markFirstFilling_st (h : markFirstFilling s = some u) :
    u.st = s.st ∨ ∃ b, firstIn .filling s.st = some b ∧ u.st = s.st.set b .ready := by
  rcases markFirstFilling_eq_some h with rfl | ⟨b, filling, rfl⟩
  · exact .inl rfl
  · exact .inr ⟨b, filling, rfl⟩

theorem storeCells_st (b : Side) (cells : List Host.Cell) (s : State) : (storeCells b cells s).st = s.st := by
  rw [storeCells_frame]

/-- A read moves `ST` only where it succeeds, by its `markFilled`. -/
theorem readInto_st (r : Reading) (s : State) : (readInto r s).2.st = s.st ∨
    ∃ b, firstIn .filling s.st = some b ∧ (readInto r s).2.st = s.st.set b .ready := by
  have stored : ∀ cells reads, (advanceSource (storeCells r.target cells (nextReads reads s))).st = s.st :=
    fun _ _ => storeCells_st _ _ _
  unfold readInto
  split
  · exact .inl rfl
  · exact .inl (storeCells_st _ _ _)
  · exact .inl (storeCells_st _ _ _)
  · dsimp only
    split
    · next marks =>
      have st := markFirstFilling_st marks
      rwa [stored] at st
    · exact .inl rfl

/-- The buffer that a `poll` fills: the one left Filling, or else the first Stale one (44_host_interface.md R163). -/
def PollTarget (s : State) (b : Side) : Prop :=
  firstIn .filling s.st = some b ∨ firstIn .filling s.st = none ∧ firstIn .stale s.st = some b

/-- Once it is claimed, the target is the first Filling buffer. -/
theorem PollTarget.firstIn_filling (h : PollTarget s b) : firstIn .filling (s.st.set b .filling) = some b := by
  rcases h with filling | ⟨idle, -⟩
  · have same := Pair.set_get_self s.st b
    rw [(firstIn_eq_some filling).1] at same
    rwa [same]
  · cases b
    · exact firstIn_A rfl
    · exact firstIn_B (firstIn_eq_none.mp idle).1 rfl

/-- A `poll` writes `ST` of its target. -/
theorem pollOnce_st (s : State) : (pollOnce s).2.st = s.st ∨
    ∃ b x, PollTarget s b ∧ (x = .filling ∨ x = .ready) ∧ (pollOnce s).2.st = s.st.set b x := by
  rcases pollOnce_cases s with ⟨b, target, e⟩ | ⟨-, -, e⟩ <;> rw [e]
  · refine .inr ?_
    rcases readInto_st (newReading b) (s.setSt (s.st.set b .filling)) with st | ⟨c, first, st⟩
    · exact ⟨b, .filling, target, .inl rfl, st⟩
    · rw [State.st_setSt, PollTarget.firstIn_filling target, Option.some.injEq] at first
      rw [← first, State.st_setSt, Pair.set_set] at st
      exact ⟨b, .ready, target, .inr rfl, st⟩
  · exact .inl rfl

/-- A job moves `ST` at its buffer's end, to Stale (41_buffer_pipeline.md R118). -/
theorem consume_st {c : Side} (h : consume c s = .next t) : t.st = s.st ∨
    s.ctx.cur + s.cfg.chunkBytes = s.cfg.pcmBufBytes ∧ t.st = s.st.set s.ctx.sel .stale := by
  rcases consume_cases c s with ⟨v, effect, -, runs, -⟩ | refused
  · rw [h] at runs
    cases runs
    obtain ⟨st, ctx, cfg⟩ : v.st = s.st ∧ (v.ctx.sel = s.ctx.sel ∧ v.ctx.cur = s.ctx.cur) ∧ v.cfg = s.cfg := by
      rw [effect.eq, underrunMarked_eq]
      exact ⟨rfl, ⟨rfl, rfl⟩, rfl⟩
    rw [advanceCursor_eq, ← st, ← ctx.1, ← ctx.2, ← cfg]
    by_cases last : v.ctx.cur + v.cfg.chunkBytes = v.cfg.pcmBufBytes
    · exact .inr ⟨last, if_pos last⟩
    · exact .inl (if_neg last)
  · rw [h] at refused
    cases refused

/-- The row of the transition table for a job: the active buffer to Stale, from Ready or with `F_UNDERRUN` set. -/
theorem consume_moves {c : Side} (h : consume c s = .next t) (moved : t.st.get b ≠ s.st.get b) :
    b = s.ctx.sel ∧ s.ctx.cur + s.cfg.chunkBytes = s.cfg.pcmBufBytes ∧ t.st.get b = .stale ∧
      (s.st.get b = .ready ∨ t.ghost.underrun = true) := by
  rcases consume_st h with st | ⟨last, st⟩
  · exact absurd (by rw [st]) moved
  · rw [st] at moved ⊢
    obtain ⟨rfl, stale⟩ := get_set_moved moved
    refine ⟨rfl, last, stale, or_iff_not_imp_left.mpr fun other => ?_⟩
    obtain ⟨_, _, _, _, _, rfl⟩ := consume_frame h
    simp [other, Ghost.raise]

/-- A fill takes a buffer up the order Stale, Filling, Ready of the codes (10_state.md R25), never down. -/
def Rises (st st' : Pair BufState) : Prop := ∀ b, (st.get b).code ≤ (st'.get b).code

theorem rises_set {st : Pair BufState} {x : BufState} (h : (st.get b).code ≤ x.code) : Rises st (st.set b x) := by
  intro c
  rcases Side.eq_or_eq_other b c with rfl | rfl
  · rwa [Pair.get_set_same]
  · rw [Pair.get_set_other]
    exact BitVec.le_refl _

theorem fillKeeps_rises : FillKeeps fun s t => Rises s.st t.st where
  refl := fun _ _ => BitVec.le_refl _
  trans := fun _ _ _ h1 h2 b => BitVec.le_trans (h1 b) (h2 b)
  storage := fun _ _ _ => BitVec.le_refl _
  store := fun s b i v _ => by
    rw [storeFill_eq]
    exact fun _ => BitVec.le_refl _
  mark := fun s b filling => rises_set (by rw [(firstIn_eq_some filling).1]; decide)
  claim := fun s b _ stale => rises_set (by rw [(firstIn_eq_some stale).1]; decide)

theorem stale_or_filling_of_ne_ready {x : BufState} (h : x ≠ .ready) : x = .stale ∨ x = .filling := by
  cases x <;> simp at h ⊢

/-- The fill loop of a `start`, whole or in part, moves a buffer up. -/
theorem startFill_moves {src : Source} (h : StartFill src s u) (moved : u.st.get b ≠ s.st.get b) :
    (u.st.get b = .filling → s.st.get b = .stale) ∧
    (u.st.get b = .ready → s.st.get b = .stale ∨ s.st.get b = .filling) ∧ u.st.get b ≠ .stale := by
  have rises : Rises s.st u.st := by
    rcases h with ⟨-, -, -, rfl⟩ | ⟨r, -, rfl⟩
    · exact fillKeeps_rises.fillLoop _ (bindSource src s)
    · exact fillKeeps_rises.resumeFill r s
  have rise := rises b
  revert rise moved
  cases s.st.get b <;> cases u.st.get b <;> decide

theorem startTransmitter_ready (h : startTransmitter s = .next t) (b : Side) : s.st.get b = .ready := by
  unfold startTransmitter at h
  split at h
  · cases h
  · split at h
    · cases h
    · next ready =>
      obtain ⟨ra, rb⟩ := not_or.mp ready
      cases b
      exacts [not_not.mp ra, not_not.mp rb]

/-- The priming of a start leaves each buffer Ready, or Stale where it came to the buffer's end. -/
theorem startTransmitter_st (h : startTransmitter s = .next t) (b : Side) :
    t.st.get b = .ready ∨ t.st.get b = .stale := by
  have ready := startTransmitter_ready h b
  obtain ⟨-, -, u, v, first, second, pend, -, rfl⟩ := startTransmitter_eq_next h
  rw [launch_eq (by rw [pend]; rfl)]
  by_cases moved : v.st.get b = u.st.get b
  · by_cases moved' : u.st.get b = (coldStart s).st.get b
    · exact .inl (moved.trans (moved'.trans ready))
    · obtain ⟨-, -, stale, -⟩ := consume_moves first moved'
      exact .inr (moved.trans stale)
  · obtain ⟨-, -, stale, -⟩ := consume_moves second moved
    exact .inr stale

/-! The moves of each operation. -/

/-- The operations that may write `ST` (41_buffer_pipeline.md R115). -/
theorem st_of_writes {i : Instr} (h : Writes i s t) : t.st = s.st ∨ i = .acquireFillTarget ∨ i = .markFilled ∨
    i = .poll ∨ Safety.Consumes i ∨ Safety.IsStart i ∨ Safety.IsStop i := by
  cases h with
  | filled polls =>
    rcases polls with rfl | ⟨src, rfl⟩
    · exact .inr (.inr (.inr (.inl rfl)))
    · exact .inr (.inr (.inr (.inr (.inr (.inl (.inr ⟨src, rfl⟩))))))
  | stopped stop => simp [stop]
  | _ => simp [Safety.IsStart, Safety.Consumes]

theorem acquired_moves (h : Runs .acquireFillTarget s t) (moved : t.st.get b ≠ s.st.get b) :
    firstIn .stale s.st = some b ∧ t.st.get b = .filling := by
  cases h with
  | waits => exact absurd rfl moved
  | acquired _ r =>
    rw [acquireTarget_eq] at moved ⊢
    rcases claimTarget_cases (protocolMarked s) with ⟨c, first, e⟩ | ⟨-, e⟩ <;> rw [e] at moved ⊢
    · obtain ⟨rfl, filling⟩ := get_set_moved moved
      exact ⟨first, filling⟩
    · exact absurd rfl moved

theorem marked_moves (h : Runs .markFilled s t) (moved : t.st.get b ≠ s.st.get b) :
    firstIn .filling s.st = some b ∧ t.st.get b = .ready := by
  cases h with
  | waits => exact absurd rfl moved
  | marked marks =>
    rcases markFirstFilling_eq_some marks with rfl | ⟨c, first, rfl⟩
    · exact absurd rfl moved
    · obtain ⟨rfl, ready⟩ := get_set_moved moved
      exact ⟨first, ready⟩

/-- The read of a `poll` moves its target to Filling or to Ready, also where it is gone on with. -/
theorem pollRead_moves (h : PollRead s u) (moved : u.st.get b ≠ s.st.get b) :
    (u.st.get b = .filling ∨ u.st.get b = .ready) ∧ PollTarget s b := by
  rcases h with ⟨-, -, rfl⟩ | ⟨r, -, rfl⟩
  · rcases pollOnce_st s with st | ⟨c, x, target, hx, st⟩ <;> rw [st] at moved ⊢
    · exact absurd rfl moved
    · obtain ⟨rfl, e⟩ := get_set_moved moved
      rw [e]
      exact ⟨hx, target⟩
  · rcases readInto_st r s with st | ⟨c, filling, st⟩ <;> rw [st] at moved ⊢
    · exact absurd rfl moved
    · obtain ⟨rfl, ready⟩ := get_set_moved moved
      exact ⟨.inr ready, .inl filling⟩

theorem polled_moves (h : Runs .poll s t) (moved : t.st.get b ≠ s.st.get b) :
    (t.st.get b = .filling ∨ t.st.get b = .ready) ∧ PollTarget s b := by
  cases h with
  | waits => exact absurd rfl moved
  | @pollWaits _ u _ read => exact pollRead_moves (u := u) read moved
  | @polled _ u _ read => exact pollRead_moves (u := u) read moved

/-- `worker_pop` moves `ST` by its job: the pop before it leaves the context and `ST` as they are. -/
theorem consumed_moves {i : Instr} (hi : Safety.Consumes i) (h : Runs i s t) (moved : t.st.get b ≠ s.st.get b) :
    b = s.ctx.sel ∧ s.ctx.cur + s.cfg.chunkBytes = s.cfg.pcmBufBytes ∧ t.st.get b = .stale ∧
      (s.st.get b = .ready ∨ t.ghost.underrun = true) := by
  cases h with
  | waits => exact absurd rfl moved
  | @consumed _ _ u _ job => exact consume_moves (t := u) job moved
  | @popped _ js _ u idle _ job =>
    obtain ⟨n, q, x, lifted⟩ := liftHeldPush_frame (s.setQ js)
    rw [lifted, runJob_idle (by exact idle)] at job
    have moves := consume_moves job moved
    exact moves
  | _ => simp [Safety.Consumes] at hi

theorem dmaStarted_moves (h : Runs .dmaStart s t) (moved : t.st.get b ≠ s.st.get b) :
    s.st.get b = .ready ∧ t.st.get b = .stale := by
  cases h with
  | waits => exact absurd rfl moved
  | dmaStarted _ launched =>
    have ready := startTransmitter_ready launched b
    exact ⟨ready, (startTransmitter_st launched b).resolve_left fun e => moved (e.trans ready.symm)⟩

theorem started_moves {src : Source} (h : Runs (.start src) s t) (moved : t.st.get b ≠ s.st.get b) :
    (t.st.get b = .filling → s.st.get b = .stale) ∧
    (t.st.get b = .ready → s.st.get b = .stale ∨ s.st.get b = .filling) ∧
    (t.st.get b = .stale → t.active = true) := by
  cases h with
  | waits => exact absurd rfl moved
  | @startWaits _ _ u _ fill =>
    obtain ⟨filling, ready, notStale⟩ := startFill_moves (u := u) fill moved
    exact ⟨filling, ready, fun stale => absurd stale notStale⟩
  | @started _ _ _ v _ launched =>
    have priming : v.st.get b = .ready ∨ v.st.get b = .stale := startTransmitter_st launched b
    have active : v.active = true := by
      obtain ⟨_, _, _, _, _, rfl⟩ := startTransmitter_frame launched
      rfl
    refine ⟨fun filling => ?_, fun ready => ?_, fun _ => active⟩
    · rcases priming with e | e <;> exact absurd (e.symm.trans filling) nofun
    · exact stale_or_filling_of_ne_ready fun e => moved (ready.trans e.symm)

theorem stopped_moves {i : Instr} (hi : Safety.IsStop i) (h : Writes i s t) (moved : t.st.get b ≠ s.st.get b) :
    t.st.get b = .stale := by
  cases h with
  | stopped => cases b <;> rfl
  | result | stopWaits => exact absurd rfl moved
  | filled polls => rcases hi with rfl | rfl <;> simp [Safety.Polls] at polls
  | _ => simp [Safety.IsStop] at hi

end Sys2Proof.Buffers

namespace Sys2Proof.Proofs

open Sys2Proof.Machine
open Sys2Proof.Invariant
open Sys2Proof.RoundTrip
open Sys2Proof.Barrier
open Sys2Proof.Effects
open Sys2Proof.Buffers

/-! The statements about the PCM buffers. -/

/-- Settles O17: the encode by its stream and by its effect, then the cursor. -/
theorem consumeChunk : Obligations.ConsumeChunk := by
  intro c s done free valid fits
  obtain ⟨t, runs, encoded, kept, undrawn, written⟩ := consume_writes c valid fits
  refine ⟨t.setRes .none, ?_, encoded, kept, undrawn, (congrArg (State.setRes · .none) written).trans ?_⟩
  · rw [exec_consumeChunk, execConsumeChunk, afterSetup_done done, encoderFree_free free, runs, andThen_next]
  · by_cases last : s.ctx.cur + s.cfg.chunkBytes = s.cfg.pcmBufBytes
    · simp only [if_pos last]
      rfl
    · simp only [if_neg last]
      rfl

/-- Settles O52: `ST` is written by seven kinds of operation only, and each moves it by its rows of the table. -/
theorem bufferTransitions : Obligations.BufferTransitions := by
  intro i s t b h moved
  have runs := exec_runs h
  rcases st_of_writes runs.writes with same | rfl | rfl | rfl | hi | (rfl | ⟨src, rfl⟩) | hi
  · exact absurd (by rw [same]) moved
  · exact .inl ⟨rfl, acquired_moves runs moved⟩
  · exact .inr (.inl ⟨rfl, marked_moves runs moved⟩)
  · obtain ⟨now, target⟩ := polled_moves runs moved
    exact .inr (.inr (.inl ⟨rfl, now, target⟩))
  · exact .inr (.inr (.inr (.inl ⟨hi, consumed_moves hi runs moved⟩)))
  · exact .inr (.inr (.inr (.inr (.inl ⟨rfl, dmaStarted_moves runs moved⟩))))
  · exact .inr (.inr (.inr (.inr (.inr (.inl ⟨⟨src, rfl⟩, started_moves runs moved⟩)))))
  · exact .inr (.inr (.inr (.inr (.inr (.inr ⟨hi, stopped_moves hi runs.writes moved⟩)))))

/-- Settles O15: the claim of the first Stale buffer, and the mark before it. -/
theorem acquireFillTarget : Obligations.AcquireFillTarget :=
  ⟨decodeTableWord_iff_encode.mpr (by decide), fun _ poll done =>
    ⟨fun a => exec_acquireFillTarget_some poll done (firstIn_A a),
      fun a b => exec_acquireFillTarget_some poll done (firstIn_B a b),
      fun a b => exec_acquireFillTarget_none poll done (firstIn_eq_none.mpr ⟨a, b⟩)⟩⟩

/-- Settles O16: the first Filling buffer in the order A, B, or the parameter's answer where there is none. -/
theorem markFilled : Obligations.MarkFilled := by
  intro s poll done
  refine ⟨fun a => ?_, fun a b => ?_, fun a b noop => ?_, fun a b refuse => ?_⟩
  · exact exec_markFilled_some poll done (markFirstFilling_some (firstIn_A a))
  · exact exec_markFilled_some poll done (markFirstFilling_some (firstIn_B a b))
  · exact exec_markFilled_some poll done (by rw [markFirstFilling, firstIn_eq_none.mpr ⟨a, b⟩, noop])
  · exact exec_markFilled_none poll done (by rw [markFirstFilling, firstIn_eq_none.mpr ⟨a, b⟩, refuse])

/-- Settles O18: the store of one byte, and the ghost flag where its buffer is not Filling. -/
theorem fillWrite : Obligations.FillWrite := by
  intro b i v s done inside
  refine ⟨(storeFill b i v s).setRes .none, ?_, fun b' i' => ?_, fun b' i' => ?_, ?_⟩
  · rw [exec_fillWrite, execFillWrite, afterSetup_done done, if_pos inside]
  · rw [storeFill_eq]
    exact pcmByte_writePcm s b b' i i' v
  · rw [storeFill_eq]
    exact oldBytes_writePcm s b b' i i' v
  · rw [storeFill_eq, writePcm_eq]
    rfl

end Sys2Proof.Proofs

/-! The channels (42_dma_transmitter.md): one transfer and its completion, and the operations that are refused or not
enabled. -/

namespace Sys2Proof.Transfer

open Sys2Proof.Machine
open Sys2Proof.Invariant

variable {c d : Side} {s : State} {w : WireWord} {n : Nat}

/-! A trigger, by what it finds (42_dma_transmitter.md R133). -/

theorem trigger_disabled (off : (s.ch.get d).en = false) : trigger d s = s := if_pos off

theorem trigger_unarmed (on : (s.ch.get d).en = true) (unarmed : (s.ch.get d).armed = false) :
    trigger d s = raiseGhost .chainUnarmed s := by
  simp [trigger, on, unarmed]

theorem trigger_armed (on : (s.ch.get d).en = true) (armed : (s.ch.get d).armed = true) :
    trigger d s = { s with
      ghost := if s.wpend.get d then { s.ghost with overrun := true } else s.ghost
      ch := s.ch.set d { s.ch.get d with armed := false, busy := true, rptr := 0 } } := by
  rcases trigger_cases d s with ⟨off, -⟩ | ⟨-, unarmed, -⟩ | ⟨-, -, started⟩
  · exact absurd (off.symm.trans on) nofun
  · exact absurd (unarmed.symm.trans armed) nofun
  · exact started

/-! One transfer (42_dma_transmitter.md R131). -/

/-- The word that a transfer of channel `c` may hand over, and the count of draws after it: with no race the entry at
`RPTR`, nothing being drawn (20_memory.md R61). -/
def Drawn (c : Side) (s : State) (w : WireWord) (n : Nat) : Prop :=
  (w = wireEntry s c (s.ch.get c).rptr ∨ w ∈ oldEntries s c (s.ch.get c).rptr) ∧
    (oldEntries s c (s.ch.get c).rptr = [] → w = wireEntry s c (s.ch.get c).rptr ∧ n = s.draws)

/-- The word on the line and the pointer past it. -/
def wordSent (c : Side) (w : WireWord) (n : Nat) (s : State) : State := { s with
  line := s.line ++ [w], ch := s.ch.set c { s.ch.get c with rptr := (s.ch.get c).rptr + 1 }, draws := n }

/-- The last word on the line and channel `c` idle, its buffer pending and its latch set, before the trigger of the
other channel (42_dma_transmitter.md R132). -/
def lastSent (c : Side) (w : WireWord) (n : Nat) (s : State) : State := { s with
  line := s.line ++ [w]
  ch := s.ch.set c { s.ch.get c with rptr := s.cfg.wireWords, busy := false }
  wpend := s.wpend.set c true
  irq := if (s.ch.get c).irqEn then s.irq.set c true else s.irq
  wireOld := s.wireOld.set c [], draws := n }

theorem transferWord_drawn (c : Side) (s : State) : ∃ w n, Drawn c s w n ∧ transferWord c s =
    if (s.ch.get c).rptr + 1 = s.cfg.wireWords then complete c (wordSent c w n s) else wordSent c w n s := by
  obtain ⟨reads, n, state, undrawn⟩ := readWire_reads c (s.ch.get c).rptr s
  refine ⟨_, n, ⟨reads, fun settled => ⟨reads.resolve_right ?_, undrawn settled⟩⟩, ?_⟩
  · rw [settled]
    exact List.not_mem_nil
  · simp only [transferWord, state, emit, setChan, State.ch_setCh, State.ch_setLine, State.ch_setDraws,
      Pair.get_set_same]
    rfl

theorem complete_wordSent (last : (s.ch.get c).rptr + 1 = s.cfg.wireWords) :
    complete c (wordSent c w n s) = trigger c.other (lastSent c w n s) := by
  rw [complete_eq]
  simp only [wordSent, Pair.get_set_same, Pair.set_set, last]
  rfl

theorem exec_dmaWord_enabled (en : (s.ch.get c).en = true) (busy : (s.ch.get c).busy = true)
    (inside : (s.ch.get c).rptr < s.cfg.wireWords) :
    exec (.dmaWord c) s = .next ((transferWord c s).setRes .none) := by
  simp [execDmaWord, dmaEnabled, en, busy, inside]

/-- `dma_word` before the last entry. -/
theorem exec_dmaWord_mid (en : (s.ch.get c).en = true) (busy : (s.ch.get c).busy = true)
    (mid : (s.ch.get c).rptr + 1 < s.cfg.wireWords) :
    ∃ w n, Drawn c s w n ∧ exec (.dmaWord c) s = .next ((wordSent c w n s).setRes .none) := by
  obtain ⟨w, n, drawn, sent⟩ := transferWord_drawn c s
  refine ⟨w, n, drawn, ?_⟩
  rw [exec_dmaWord_enabled en busy (by omega), sent, if_neg (by omega)]

/-- `dma_word` at the last entry. -/
theorem exec_dmaWord_last (en : (s.ch.get c).en = true) (busy : (s.ch.get c).busy = true)
    (last : (s.ch.get c).rptr + 1 = s.cfg.wireWords) :
    ∃ w n, Drawn c s w n ∧ exec (.dmaWord c) s = .next ((trigger c.other (lastSent c w n s)).setRes .none) := by
  obtain ⟨w, n, drawn, sent⟩ := transferWord_drawn c s
  refine ⟨w, n, drawn, ?_⟩
  rw [exec_dmaWord_enabled en busy (by omega), sent, if_pos last, complete_wordSent last]

theorem lastSent_chan_other : (lastSent c w n s).ch.get c.other = s.ch.get c.other := Pair.get_set_other _ _ _

theorem lastSent_wpend_other : (lastSent c w n s).wpend.get c.other = s.wpend.get c.other := Pair.get_set_other _ _ _

/-! Rearming (42_dma_transmitter.md R136). -/

theorem rearmable_iff : rearmable c s = true ↔ (s.ch.get c).busy = false ∧ (s.ch.get c).armed = false := by
  simp [rearmable]

theorem exec_rearm_runs (done : s.setupDone = true) (free : s.handler = none) : exec (.rearm c) s =
    if rearmable c s then .next ((rearmChannel c s).setRes .none) else .refused .rearmInvalid := by
  rw [exec_rearm, execRearm, afterSetup_done done, onPrimary_runs free]

/-! The two refusals of a start (42_dma_transmitter.md R134, 44_host_interface.md R161). -/

theorem startTransmitter_invalid (h : s.setupDone = false ∨ s.active = true) :
    startTransmitter s = .refused .startInvalid := if_pos h

theorem startTransmitter_notReady (done : s.setupDone = true) (inactive : s.active = false)
    (h : s.st.a ≠ .ready ∨ s.st.b ≠ .ready) : startTransmitter s = .refused .startNotReady := by
  rw [startTransmitter, if_neg (by simp [done, inactive]), if_pos h]

theorem exec_dmaStart_runs (poll : pollRuns s = true) :
    exec .dmaStart s = andThen (startTransmitter s) fun t => .next (t.setRes .none) := by
  rw [exec_dmaStart, execDmaStart, onPoll_runs poll]

theorem exec_start_invalid {src : Source} (poll : pollRuns s = true) (h : s.setupDone = false ∨ s.active = true) :
    exec (.start src) s = .refused .startInvalid := by
  obtain ⟨handler, free⟩ := pollRuns_iff.mp poll
  simp only [exec_start, execStart, onPrimary_runs handler, free, if_pos h]

/-! Steps that are not enabled (log 4). -/

theorem exec_dmaWord_waits (off : (s.ch.get c).en = false ∨ (s.ch.get c).busy = false) :
    exec (.dmaWord c) s = waits s := by
  have disabled : dmaEnabled c s = false := Bool.and_eq_false_iff.mpr off
  simp [execDmaWord, disabled]

theorem exec_workerPop_waits (h : s.wk ≠ .idle ∨ s.q = []) : exec .workerPop s = waits s := by
  rw [exec_workerPop, execWorkerPop]
  split
  · next idle queued =>
    rcases h with h | h
    · exact absurd idle h
    · exact absurd (h.symm.trans queued) nofun
  all_goals rfl

theorem exec_irqService_untaken (free : s.handler = none) (h : s.irq.get c = false ∨ s.intEn = false) :
    exec (.irqService c) s = waits s := by
  have untaken : irqTakeable c s = false := by rcases h with h | h <;> simp [irqTakeable, h]
  simp [execIrqService, free, untaken]

theorem exec_irqService_elsewhere (running : s.handler ≠ none) (ack : s.handler ≠ some (.acknowledged c))
    (re : s.handler ≠ some (.rearmed c)) : exec (.irqService c) s = waits s := by
  rw [exec_irqService, execIrqService]
  split
  · next h => exact absurd h running
  · next d h => exact if_neg fun e : c = d => ack (e ▸ h)
  · next d h => exact if_neg fun e : c = d => re (e ▸ h)
  · rfl

end Sys2Proof.Transfer

namespace Sys2Proof.Proofs

open Sys2Proof.Machine
open Sys2Proof.RoundTrip
open Sys2Proof.Transfer

/-! The statements about single operations of the channels. -/

/-- Settles O20: the transfer before the last entry. -/
theorem dmaWordMidBuffer : Obligations.DmaWordMidBuffer := by
  intro c s en busy mid
  obtain ⟨w, n, ⟨reads, settled⟩, sent⟩ := exec_dmaWord_mid en busy mid
  exact ⟨w, n, reads, settled, sent⟩

/-- Settles O21: the transfer of the last entry, and the trigger by what it finds. -/
theorem dmaWordLast : Obligations.DmaWordLast := by
  intro c s en busy last
  obtain ⟨w, n, ⟨reads, settled⟩, sent⟩ := exec_dmaWord_last en busy last
  have chan := lastSent_chan_other (c := c) (w := w) (n := n) (s := s)
  have pend := lastSent_wpend_other (c := c) (w := w) (n := n) (s := s)
  refine ⟨w, n, reads, settled, fun off => ?_, fun on unarmed => ?_, fun on armed => ?_⟩ <;> rw [sent]
  · rw [trigger_disabled (by rwa [chan])]
    rfl
  · rw [trigger_unarmed (by rwa [chan]) (by rwa [chan])]
    rfl
  · rw [trigger_armed (by rwa [chan]) (by rwa [chan]), chan, pend]
    rfl

/-- Settles O23: the tests that stand before the priming. -/
theorem startRefusals : Obligations.StartRefusals := by
  refine ⟨fun s src poll h => ⟨?_, exec_start_invalid poll h⟩, fun s poll done inactive h => ?_⟩
  · rw [exec_dmaStart_runs poll, startTransmitter_invalid h, andThen_refused]
  · rw [exec_dmaStart_runs poll, startTransmitter_notReady done inactive h, andThen_refused]

/-- Settles O24: the test that the channel is idle. -/
theorem rearm : Obligations.Rearm := by
  refine ⟨decodeTableWord_iff_encode.mpr (by decide), decodeTableWord_iff_encode.mpr (by decide),
    fun c s done free => ⟨fun idle unarmed => ?_, fun busy => ?_⟩⟩ <;> rw [exec_rearm_runs done free]
  · rw [if_pos (rearmable_iff.mpr ⟨idle, unarmed⟩)]
    rfl
  · refine if_neg fun able => ?_
    obtain ⟨idle, unarmed⟩ := rearmable_iff.mp able
    simp [idle, unarmed] at busy

/-- Settles O45, agent by agent. -/
theorem disabledStepsWait : Obligations.DisabledStepsWait := by
  refine ⟨fun c s off => exec_dmaWord_waits off, fun s h => exec_workerPop_waits h, fun c s h => ?_⟩
  rcases h with ⟨free, h⟩ | ⟨running, ack, re⟩
  · exact exec_irqService_untaken free h
  · exact exec_irqService_elsewhere running ack re

end Sys2Proof.Proofs

/-! The stops (42_dma_transmitter.md R137, 44_host_interface.md R162): begun, the jobs that the wait is for, and asked
again. -/

namespace Sys2Proof.Stops

open Sys2Proof.Machine
open Sys2Proof.Invariant
open Sys2Proof.Effects
open Sys2Proof.RoundTrip
open Sys2Proof.Barrier
open Sys2Proof.Buffers

variable {i : Instr} {w : PollCtx} {k : State → State} {s t u : State} {n : Nat}

/-- A stop, the wait that POLL stays in, and what follows the release of the buffers (log 32). -/
inductive StopForm : Instr → PollCtx → (State → State) → Prop
  | stop : StopForm .stop .inStop unbindSource
  | dmaStop : StopForm .dmaStop .inDmaStop id

theorem StopForm.of_isStop (h : Safety.IsStop i) : ∃ w k, StopForm i w k := by
  rcases h with rfl | rfl
  exacts [⟨_, _, .dmaStop⟩, ⟨_, _, .stop⟩]

/-! The requests, where they are not refused. -/

theorem exec_stop_begins (free : s.handler = none) (poll : s.pollCtx = .free) (spare : spared s = true) :
    exec .stop s = endStop .inStop unbindSource (disableChannels s) := by
  simp only [exec_stop, execStop, onPrimary_runs free, poll, unlessRejected_spared spare]

theorem exec_dmaStop_begins (free : s.handler = none) (poll : s.pollCtx = .free) (done : s.setupDone = true) :
    exec .dmaStop s = endStop .inDmaStop id (disableChannels s) := by
  simp only [exec_dmaStop, execDmaStop, onPrimary_runs free, poll, afterSetup_done done]

theorem StopForm.exec_begins (form : StopForm i w k) (free : s.handler = none) (poll : s.pollCtx = .free)
    (done : s.setupDone = true) : exec i s = endStop w k (disableChannels s) := by
  cases form
  · exact exec_stop_begins free poll (spared_iff.mpr (.inl done))
  · exact exec_dmaStop_begins free poll done

theorem StopForm.exec_again (form : StopForm i w k) (free : s.handler = none) (poll : s.pollCtx = w) :
    exec i s = endStop w k s := by
  cases form
  · simp only [exec_stop, execStop, onPrimary_runs free, poll]
  · simp only [exec_dmaStop, execDmaStop, onPrimary_runs free, poll]

/-! The test of the wait. -/

theorem dispatcherQuiet_iff : dispatcherQuiet s = true ↔ s.q = [] ∧ jobRunning s = false := by
  simp [dispatcherQuiet]

theorem endStop_quiet (queue : s.q = []) (worker : jobRunning s = false) :
    endStop w k s = .next (((k (releaseBuffers s)).setPollCtx .free).setRes .none) :=
  if_pos (dispatcherQuiet_iff.mpr ⟨queue, worker⟩)

theorem endStop_waits (busy : s.q ≠ [] ∨ jobRunning s = true) :
    endStop w k s = .next { s with pollCtx := w, res := .waits } := by
  refine if_neg fun quiet => ?_
  obtain ⟨queue, worker⟩ := dispatcherQuiet_iff.mp quiet
  simp [queue, worker] at busy

/-! The jobs of the wait. -/

/-- The context after a job: the samples of its chunk, and the cursor (41_buffer_pipeline.md R118). -/
theorem consume_context {c : Side} (valid : configValid s.cfg = true)
    (fits : s.ctx.cur + s.cfg.chunkBytes ≤ s.cfg.pcmBufBytes) (runs : consume c s = .next t) :
    t.ctx.sfcnt.toNat = (s.ctx.sfcnt.toNat + s.cfg.chunkBytes / 2) % 384 ∧ t.ctx.inv = s.ctx.inv ∧
      t.ctx.sel = (if s.ctx.cur + s.cfg.chunkBytes = s.cfg.pcmBufBytes then s.ctx.sel.other else s.ctx.sel) ∧
      t.ctx.cur = if s.ctx.cur + s.cfg.chunkBytes = s.cfg.pcmBufBytes then 0
        else s.ctx.cur + s.cfg.chunkBytes := by
  obtain ⟨v, ran, ⟨-, sfcnt, inv, -⟩, -, -, written⟩ := consume_writes c valid fits
  obtain rfl := next_inj.mp (ran.symm.trans runs)
  obtain ⟨even, pos, -, -, -⟩ := configValid_iff.mp valid
  rw [if_neg (by omega)] at sfcnt
  refine ⟨?_, inv, by rw [written], by rw [written]⟩
  rw [sfcnt, BitVec.toNat_ofNat]
  omega

/-- Both channels off and no completion latched. -/
def ChannelsOff (t : State) : Prop :=
  Safety.ChannelOff t.ch.a ∧ Safety.ChannelOff t.ch.b ∧ t.irq = both false

/-- In `t`, `n` jobs after a stop was asked for in `s`, or before that: what the stop does not write is as it was but
for the samples of the jobs, and POLL is free or in the wait `w` with the channels off. -/
structure Draining (w : PollCtx) (s : State) (n : Nat) (t : State) : Prop where
  inv : Safety.Inv t
  setupDone : t.setupDone = true
  noHandler : t.handler = none
  poll : t.pollCtx = .free ∨ t.pollCtx = w ∧ ChannelsOff t
  cfg : t.cfg = s.cfg
  line : t.line = s.line
  pcm : t.pcm = s.pcm
  intEn : t.intEn = s.intEn
  sfcnt : t.ctx.sfcnt.toNat = (s.ctx.sfcnt.toNat + n * (s.cfg.chunkBytes / 2)) % 384

theorem Draining.idle (h : Draining w s n t) : t.wk = .idle := by
  obtain ⟨-, -, -, -, ⟨-, -, idle, -⟩, -⟩ := h.inv
  exact idle h.setupDone

theorem Draining.begin (h : Safety.Inv s) (done : s.setupDone = true) (poll : pollRuns s = true) :
    Draining w s 0 s := by
  obtain ⟨handler, free⟩ := pollRuns_iff.mp poll
  obtain ⟨-, -, ⟨small, -, -⟩, -⟩ := id h
  exact ⟨h, done, handler, .inl free, rfl, rfl, rfl, rfl, by rw [Nat.zero_mul, Nat.add_zero, Nat.mod_eq_of_lt small]⟩

/-- A descriptor disabled and idle, its read pointer at `r`. -/
def chanOff (r : Nat) (x : Chan) : Chan := { x with en := false, armed := false, busy := false, rptr := r }

/-- The first half of a stop: the read pointers come to stand somewhere in their range (10_state.md R39; log 10). -/
theorem disableChannels_stopped (s : State) : ∃ ra rb, ra ≤ s.cfg.wireWords ∧ rb ≤ s.cfg.wireWords ∧
    disableChannels s = { s with
      ch := { a := chanOff ra s.ch.a, b := chanOff rb s.ch.b }
      irq := both false, wireOld := both [], draws := s.draws + 2 } := by
  have inRange : ∀ n, Config.freeRptr n % (s.cfg.wireWords + 1) ≤ s.cfg.wireWords := fun n =>
    Nat.le_of_lt_succ (Nat.mod_lt _ (Nat.succ_pos _))
  exact ⟨_, _, inRange s.draws, inRange (s.draws + 1), disableChannels_eq s⟩

/-- The first half of a stop writes the descriptors, the latches, the kept entries and the draws. -/
theorem disableChannels_set (s : State) : ∃ ch irq old m,
    disableChannels s = { s with ch := ch, irq := irq, wireOld := old, draws := m } ∧ ChannelsOff (disableChannels s) := by
  obtain ⟨ra, rb, -, -, disabled⟩ := disableChannels_stopped s
  rw [disabled]
  exact ⟨{ a := chanOff ra s.ch.a, b := chanOff rb s.ch.b }, both false, both [], s.draws + 2, rfl, ⟨rfl, rfl, rfl⟩,
    ⟨rfl, rfl, rfl⟩, rfl⟩

/-- The end of a stop, once the dispatcher is quiet, is the end of the run (70_reset_and_hazards.md R218). -/
theorem StopForm.endStop_done (form : StopForm i w k) (off : ChannelsOff s) (free : s.handler = none)
    (queue : s.q = []) (worker : jobRunning s = false) : ∃ g t, endStop w k s = .next t ∧ Safety.RunEnded t ∧
      t = { s with
        st := both .stale, wpend := both false, active := false, storage := g, pollCtx := .free, res := .none } := by
  obtain ⟨offA, offB, latches⟩ := off
  have latchA : s.irq.a = false := by rw [latches]; rfl
  have latchB : s.irq.b = false := by rw [latches]; rfl
  have ended := endStop_quiet (w := w) (k := k) queue worker
  cases form
  all_goals exact ⟨_, _, ended, ⟨rfl, rfl, rfl, offA, offB, latchA, latchB, queue, worker, free, rfl⟩, rfl⟩

/-- A request of the stop comes to its test of the dispatcher with the channels off, and with all else as it was. -/
theorem StopForm.exec_asks (form : StopForm i w k) (done : s.setupDone = true) (free : s.handler = none)
    (poll : s.pollCtx = .free ∨ s.pollCtx = w ∧ ChannelsOff s) :
    ∃ x, exec i s = endStop w k x ∧ ChannelsOff x ∧
      ∃ ch irq old m, x = { s with ch := ch, irq := irq, wireOld := old, draws := m } := by
  rcases poll with poll | ⟨poll, off⟩
  · obtain ⟨ch, irq, old, m, disabled, off⟩ := disableChannels_set s
    exact ⟨_, form.exec_begins free poll done, off, ch, irq, old, m, disabled⟩
  · exact ⟨s, form.exec_again free poll, off, s.ch, s.irq, s.wireOld, s.draws, rfl⟩

theorem StopForm.wf (form : StopForm i w k) : i.wf = true := by cases form <;> rfl

/-- A request of the stop: with no job outstanding the run ends, else POLL waits. -/
theorem Draining.ask {rest : List Byte} (form : StopForm i w k) (h : Draining w s n t)
    (ht : t.trace = encode i ++ rest) : ∃ u, step t = .next u ∧ Draining w s n u ∧ u.q = t.q ∧ u.trace = rest ∧
      (t.q = [] → Safety.RunEnded u ∧ u.wpend = both false) := by
  have stepped : step t = exec i { t with trace := rest } :=
    Proofs.stepRunsRequest t i rest (by rw [ht, decode_encode rest form.wf])
  obtain ⟨x, asks, off, ch, irq, old, m, disabled⟩ :=
    form.exec_asks (s := { t with trace := rest }) h.setupDone h.noHandler h.poll
  have same : x.q = t.q ∧ x.handler = t.handler ∧ x.wk = t.wk := by rw [disabled]; exact ⟨rfl, rfl, rfl⟩
  obtain ⟨queue, handler, worker⟩ := same
  have notRunning : jobRunning x = false := by simp [jobRunning, worker, h.idle]
  rw [asks] at stepped
  by_cases empty : t.q = []
  · obtain ⟨g, u, ends, ended, written⟩ := form.endStop_done off (handler.trans h.noHandler) (queue.trans empty) notRunning
    rw [ends] at stepped
    have kept := Proofs.stepKeepsInvariant t u h.inv stepped
    refine ⟨u, stepped, ?_⟩
    subst disabled written
    exact ⟨⟨kept, h.setupDone, h.noHandler, .inl rfl, h.cfg, h.line, h.pcm, h.intEn, h.sfcnt⟩, rfl, rfl,
      fun _ => ⟨ended, rfl⟩⟩
  · rw [endStop_waits (.inl fun e => empty (queue.symm.trans e))] at stepped
    have kept := Proofs.stepKeepsInvariant t _ h.inv stepped
    obtain ⟨offA, offB, latches⟩ := off
    refine ⟨_, stepped, ?_⟩
    subst disabled
    exact ⟨⟨kept, h.setupDone, h.noHandler, .inr ⟨rfl, offA, offB, latches⟩, h.cfg, h.line, h.pcm, h.intEn, h.sfcnt⟩,
      rfl, rfl, fun e => absurd e empty⟩

/-- The worker carries out the job at the head of the queue. -/
theorem Draining.pop {j : Job} {js : List Job} {rest : List Byte} (h : Draining w s n t) (hq : t.q = j :: js)
    (ht : t.trace = commandWord 0x10 false :: rest) :
    ∃ u, step t = .next u ∧ Draining w s (n + 1) u ∧ u.q = js ∧ u.trace = rest := by
  obtain ⟨u, runs, popped⟩ := step_workerPop h.inv h.setupDone h.noHandler hq ht
  have kept : Safety.Inv (u.setRes .none) := Proofs.stepKeepsInvariant t _ h.inv popped
  have fits := chunk_in_buffer h.inv h.setupDone
  have valid := config_valid h.inv h.setupDone
  have samples := (consume_context (by exact valid) (by exact fits) runs).1
  have sfcnt : u.ctx.sfcnt.toNat = (s.ctx.sfcnt.toNat + (n + 1) * (s.cfg.chunkBytes / 2)) % 384 := by
    rw [samples, Nat.add_mul, Nat.one_mul, ← Nat.add_assoc, ← h.cfg]
    have before := h.sfcnt
    rw [← h.cfg] at before
    show (t.ctx.sfcnt.toNat + t.cfg.chunkBytes / 2) % 384 = _
    rw [before, Nat.mod_add_mod]
  refine ⟨_, popped, ?_⟩
  obtain ⟨_, _, _, _, _, rfl⟩ := consume_frame runs
  exact ⟨⟨kept, h.setupDone, h.noHandler, h.poll, h.cfg, h.line, h.pcm, h.intEn, sfcnt⟩, rfl, rfl⟩

/-- The worker carries out all the jobs, one a step. -/
theorem Draining.run_pops {rest : List Byte} (h : Draining w s n t)
    (ht : t.trace = List.replicate t.q.length (commandWord 0x10 false) ++ rest) :
    ∃ u, core.run t.q.length t = .next u ∧ Draining w s (n + t.q.length) u ∧ u.q = [] ∧ u.trace = rest := by
  generalize hq : t.q = q at ht ⊢
  induction q generalizing n t with
  | nil => exact ⟨t, rfl, h, hq, ht⟩
  | cons j js ih =>
    obtain ⟨v, popped, hv, vq, vt⟩ := h.pop hq ht
    obtain ⟨u, ran, hu, rest⟩ := ih hv vq vt
    rw [Nat.add_assoc, Nat.add_comm 1] at hu
    exact ⟨u, (run_succ popped).trans ran, hu, rest⟩

/-- A run after a run. -/
theorem run_add {M : Host.Core} {m n : Nat} {s t : M.State} (h : M.run m s = .next t) :
    M.run (m + n) s = M.run n t := by
  induction m generalizing s with
  | zero =>
    obtain rfl : s = t := Host.Outcome.next.inj h
    rw [Nat.zero_add]
  | succ m ih =>
    rw [Nat.succ_add, Host.Core.run]
    rw [Host.Core.run] at h
    cases first : M.step s with
    | next v =>
      rw [first] at h
      exact ih h
    | fault r =>
      rw [first] at h
      cases h
    | refused r =>
      rw [first] at h
      cases h

theorem run_one {M : Host.Core} {s t : M.State} (h : M.step s = .next t) : M.run 1 s = .next t := run_succ h

end Sys2Proof.Stops

namespace Sys2Proof.Proofs

open Sys2Proof.Machine
open Sys2Proof.Effects
open Sys2Proof.Barrier
open Sys2Proof.Stops

/-! The statements about the stops. -/

/-- Settles O25: the channels off, the wait over at once, and the writes that follow it. -/
theorem stopIdleDispatcher : Obligations.StopIdleDispatcher := by
  intro s poll queue worker
  obtain ⟨handler, free⟩ := pollRuns_iff.mp poll
  obtain ⟨ra, rb, inRangeA, inRangeB, disabled⟩ := disableChannels_stopped s
  have queue' : (disableChannels s).q = [] := by rw [disabled]; exact queue
  have worker' : jobRunning (disableChannels s) = false := by rw [disabled]; exact worker
  refine ⟨ra, rb, inRangeA, inRangeB, fun done => ?_, fun spare => ?_⟩
  · rw [exec_dmaStop_begins handler free done, endStop_quiet queue' worker', disabled, ← free]
    rfl
  · rw [exec_stop_begins handler free spare, endStop_quiet queue' worker', disabled, ← free]
    rfl

/-- Settles O27: the three requests by what the test of the dispatcher finds. -/
theorem stopWaitsForWorker : Obligations.StopWaitsForWorker := by
  intro s i w form handler
  obtain ⟨k, form⟩ : ∃ k, StopForm i w k := by
    rcases form with ⟨rfl, rfl⟩ | ⟨rfl, rfl⟩
    exacts [⟨_, .stop⟩, ⟨_, .dmaStop⟩]
  refine ⟨fun done busy free => ?_, fun busy wait => ?_, fun queue worker wait => ?_⟩
  · have asks := form.exec_begins handler free done
    obtain ⟨ch, irq, old, m, disabled, off⟩ := disableChannels_set s
    rw [disabled] at asks off
    exact ⟨_, asks.trans (endStop_waits busy), rfl, rfl, rfl, rfl, rfl, rfl, rfl, off⟩
  · rw [form.exec_again handler wait, endStop_waits busy, ← wait]
  · rw [form.exec_again handler wait, endStop_quiet queue worker]
    cases form <;> rfl

/-- Settles O26: the stop, one pop for each job by induction on the queue, and the stop again. -/
theorem stopDrainsAndEnds : Obligations.StopDrainsAndEnds := by
  intro s i rest h done poll stop trace
  obtain ⟨w, k, form⟩ := StopForm.of_isStop stop
  rw [List.append_assoc, List.append_assoc] at trace
  obtain ⟨v, begun, hv, vq, vt, -⟩ := (Draining.begin h done poll).ask form trace
  rw [← vq] at vt
  obtain ⟨x, drained, hx, xq, xt⟩ := hv.run_pops vt
  obtain ⟨t, again, ht, -, tt, ended⟩ := hx.ask form xt
  obtain ⟨ended, pend⟩ := ended xq
  have run : core.run (s.q.length + 2) s = .next t := by
    rw [← vq]
    exact (run_succ begun).trans ((run_add drained).trans (run_one again))
  obtain ⟨-, -, ⟨-, inv, -⟩, -⟩ := ht.inv
  have samples := ht.sfcnt
  rw [Nat.zero_add, vq] at samples
  exact ⟨t, run, tt, ended, ht.idle, samples, inv, ht.line, ht.pcm, ht.setupDone, ht.intEn, pend⟩

end Sys2Proof.Proofs

/-! The stream (42_dma_transmitter.md R138): the encoding of the bytes consumed, cut at a chunk; the cursor as a place
in the stream; and the priming of a start. -/

namespace Sys2Proof.Stream

open Sys2Proof.Machine
open Sys2Proof.Invariant
open Sys2Proof.Effects
open Sys2Proof.Barrier
open Sys2Proof.Encoder
open Sys2Proof.Buffers
open Sys2Proof.Stops

variable {s t : State} {c : Side} {n : Nat} {x y : Context} {bytes more : List Byte}

/-! The encoding of a stream in two parts. -/

/-- The words of an encoding depend on `SFCNT` and `INV` alone. -/
theorem encodeStream_congr : ∀ (bytes : List Byte) {x y : Context}, x.sfcnt = y.sfcnt → x.inv = y.inv →
    (encodeStream x bytes).1 = (encodeStream y bytes).1
  | lo :: hi :: bytes, x, y, sfcnt, inv => by
    have first : (encodeSample x lo hi).1 = (encodeSample y lo hi).1 := by simp only [encodeSample, sfcnt, inv]
    have rest := encodeStream_congr bytes (x := (encodeSample x lo hi).2) (y := (encodeSample y lo hi).2)
      (by rw [encodeSample_sfcnt, encodeSample_sfcnt, sfcnt]) (by rw [encodeSample_inv, encodeSample_inv, inv])
    rw [encodeStream_cons, encodeStream_cons, first, rest]
  | [_], _, _, _, _ => rfl
  | [], _, _, _, _ => rfl

theorem encodeStream_append (even : bytes.length % 2 = 0) : (encodeStream x (bytes ++ more)).1 =
    (encodeStream x bytes).1 ++ (encodeStream (encodeStream x bytes).2 more).1 := by
  induction x, bytes using encodeStream.induct with
  | case1 x lo hi bytes e ih =>
    have rest := ih (by simp only [List.length_cons] at even; omega)
    rw [List.cons_append, List.cons_append, encodeStream_cons, encodeStream_cons, rest, List.append_assoc]
  | case2 => simp at even
  | case3 => rfl

/-- A stream from the cold start goes on with the encoding from the context after its bytes (40_frame_encoder.md
R104). -/
theorem encodeStream_goes_on (even : bytes.length % 2 = 0) (sfcnt : x.sfcnt.toNat = bytes.length / 2 % 384)
    (inv : x.inv = false) : (encodeStream coldContext (bytes ++ more)).1 =
      (encodeStream coldContext bytes).1 ++ (encodeStream x more).1 := by
  rw [encodeStream_append even, encodeStream_ctx]
  refine congrArg _ (encodeStream_congr more (BitVec.eq_of_toNat_eq ?_) inv.symm)
  rw [sfcnt]
  exact toNat_advanceSfcnt_start _

/-! Turns of the sides A and B. -/

/-- The side whose turn it is: A first, then B, and so on. -/
def turn (k : Nat) : Side := if k % 2 = 0 then .A else .B

theorem turn_succ (k : Nat) : turn (k + 1) = (turn k).other := by
  rcases Nat.mod_two_eq_zero_or_one k with h | h <;> simp [turn, Nat.add_mod, h, Side.other]

theorem div_mod_step {m k : Nat} (inside : n % m + k < m) : (n + k) / m = n / m ∧ (n + k) % m = n % m + k := by
  have split := Nat.div_add_mod n m
  exact (Nat.div_mod_unique (by omega)).mpr ⟨by omega, inside⟩

theorem div_mod_wrap {m k : Nat} (pos : 0 < m) (wrap : n % m + k = m) : (n + k) / m = n / m + 1 ∧ (n + k) % m = 0 := by
  have split := Nat.div_add_mod n m
  have next : m * (n / m + 1) = m * (n / m) + m := Nat.mul_succ _ _
  exact (Nat.div_mod_unique pos).mpr ⟨by omega, pos⟩

/-! The cursor as a place in the stream (10_state.md R21 to R24). -/

/-- The context stands at byte `n` of the stream, fill of A, fill of B, and so on. -/
def AtByte (s : State) (n : Nat) : Prop :=
  n % s.cfg.chunkBytes = 0 ∧ s.ctx.cur = n % s.cfg.pcmBufBytes ∧ s.ctx.sel = turn (n / s.cfg.pcmBufBytes) ∧
    s.ctx.sfcnt.toNat = n / 2 % 384 ∧ s.ctx.inv = false

theorem coldStart_eq (s : State) : coldStart s = { s with
    ctx := coldContext, line := [], wpend := both false, wireOld := both [] } := rfl

theorem AtByte.coldStart (s : State) : AtByte (coldStart s) 0 := by
  rw [coldStart_eq]
  exact ⟨Nat.zero_mod _, (Nat.zero_mod _).symm, by rw [Nat.zero_div]; rfl, rfl, rfl⟩

theorem chunk_even (valid : configValid s.cfg = true) (h : n % s.cfg.chunkBytes = 0) : n % 2 = 0 := by
  obtain ⟨even, -⟩ := configValid_iff.mp valid
  exact Nat.mod_eq_zero_of_dvd ((Nat.dvd_of_mod_eq_zero even).trans (Nat.dvd_of_mod_eq_zero h))

theorem cursorLegal_of_chunk (valid : configValid s.cfg = true) (aligned : n % s.cfg.chunkBytes = 0)
    (cur : s.ctx.cur = n % s.cfg.pcmBufBytes) : CursorLegal s := by
  obtain ⟨-, -, size, nonempty, -⟩ := configValid_iff.mp valid
  rw [CursorLegal, cur, Nat.mod_mod_of_dvd _ (Nat.dvd_of_mod_eq_zero size)]
  exact ⟨aligned, Nat.mod_lt _ (Nat.pos_of_ne_zero nonempty)⟩

theorem AtByte.cursorLegal (h : AtByte s n) (valid : configValid s.cfg = true) : CursorLegal s := by
  obtain ⟨aligned, cur, -⟩ := h
  exact cursorLegal_of_chunk valid aligned cur

theorem chunk_fits (valid : configValid s.cfg = true) (aligned : n % s.cfg.chunkBytes = 0) :
    n % s.cfg.pcmBufBytes + s.cfg.chunkBytes ≤ s.cfg.pcmBufBytes :=
  (cursorLegal_of_chunk (s := { s with ctx := { coldContext with cur := n % s.cfg.pcmBufBytes } }) valid aligned
    rfl).fits valid

/-- A job takes the context a chunk further in the stream. -/
theorem AtByte.consume (h : AtByte s n) (valid : configValid s.cfg = true) (runs : consume c s = .next t) :
    AtByte t (n + s.cfg.chunkBytes) := by
  have fits := (h.cursorLegal valid).fits valid
  obtain ⟨sfcnt', inv', sel', cur'⟩ := consume_context valid fits runs
  have cfg : t.cfg = s.cfg := by
    obtain ⟨_, _, _, _, _, rfl⟩ := consume_frame runs
    rfl
  obtain ⟨aligned, cur, sel, sfcnt, inv⟩ := h
  obtain ⟨even, -, -, nonempty, -⟩ := configValid_iff.mp valid
  have evenN := chunk_even valid aligned
  rw [cur] at fits sel' cur'
  rw [AtByte, cfg, sfcnt', inv', sel', cur', sfcnt]
  refine ⟨by rw [Nat.add_mod_right]; exact aligned, ?_, ?_, by omega, inv⟩
  all_goals by_cases last : n % s.cfg.pcmBufBytes + s.cfg.chunkBytes = s.cfg.pcmBufBytes
  · rw [if_pos last, (div_mod_wrap (Nat.pos_of_ne_zero nonempty) last).2]
  · rw [if_neg last, (div_mod_step (by omega)).2]
  · rw [if_pos last, (div_mod_wrap (Nat.pos_of_ne_zero nonempty) last).1, turn_succ, sel]
  · rw [if_neg last, (div_mod_step (by omega)).1, sel]

/-! The PCM stream of two fills. -/

/-- Fill of A, then fill of B. -/
def twoFills (s : State) : List Byte := pcmBytes s .A 0 s.cfg.pcmBufBytes ++ pcmBytes s .B 0 s.cfg.pcmBufBytes

theorem length_pcmBytes (s : State) (b : Side) (p n : Nat) : (pcmBytes s b p n).length = n := by simp [pcmBytes]

theorem pcmBytes_add (s : State) (b : Side) (p m n : Nat) :
    pcmBytes s b p (m + n) = pcmBytes s b p m ++ pcmBytes s b (p + m) n := by
  simp only [pcmBytes, List.range_add, List.map_append, List.map_map, Nat.add_assoc]
  rfl

theorem take_add_of_eq {α : Type} {l front part rest : List α} {m k : Nat} (h : l = front ++ part ++ rest)
    (hm : front.length = m) (hk : part.length = k) : l.take (m + k) = l.take m ++ part := by
  subst h hm hk
  rw [← List.length_append, List.take_left, List.append_assoc, List.take_left]

theorem pcmBytes_split (s : State) (b : Side) {p n m : Nat} (h : p + n ≤ m) : pcmBytes s b 0 m =
    pcmBytes s b 0 p ++ pcmBytes s b p n ++ pcmBytes s b (p + n) (m - (p + n)) := by
  have whole := pcmBytes_add s b 0 (p + n) (m - (p + n))
  rw [pcmBytes_add s b 0 p n, Nat.zero_add, Nat.zero_add, Nat.add_sub_cancel' h] at whole
  exact whole

/-- A chunk of the two fills, by the buffer and the place that it stands at. -/
theorem twoFills_take (valid : configValid s.cfg = true) (aligned : n % s.cfg.chunkBytes = 0)
    (within : n + s.cfg.chunkBytes ≤ 2 * s.cfg.pcmBufBytes) : (twoFills s).take (n + s.cfg.chunkBytes) =
      (twoFills s).take n ++
        pcmBytes s (turn (n / s.cfg.pcmBufBytes)) (n % s.cfg.pcmBufBytes) s.cfg.chunkBytes := by
  have fits := chunk_fits valid aligned
  obtain ⟨-, pos, -, nonempty, -⟩ := configValid_iff.mp valid
  by_cases first : n < s.cfg.pcmBufBytes
  · rw [Nat.mod_eq_of_lt first] at fits
    rw [Nat.div_eq_of_lt first, Nat.mod_eq_of_lt first]
    refine take_add_of_eq (rest := pcmBytes s .A (n + s.cfg.chunkBytes) (s.cfg.pcmBufBytes - (n + s.cfg.chunkBytes)) ++
      pcmBytes s .B 0 s.cfg.pcmBufBytes) ?_ (length_pcmBytes s .A 0 n) (length_pcmBytes _ _ _ _)
    rw [twoFills, pcmBytes_split s .A fits, List.append_assoc]
    rfl
  · obtain ⟨m, hm⟩ := Nat.exists_eq_add_of_le (Nat.le_of_not_lt first)
    have second : m < s.cfg.pcmBufBytes := by omega
    have place : n / s.cfg.pcmBufBytes = 1 ∧ n % s.cfg.pcmBufBytes = m :=
      (Nat.div_mod_unique (Nat.pos_of_ne_zero nonempty)).mpr ⟨by omega, second⟩
    rw [place.2] at fits
    rw [place.1, place.2]
    refine take_add_of_eq (front := pcmBytes s .A 0 s.cfg.pcmBufBytes ++ pcmBytes s .B 0 m)
      (rest := pcmBytes s .B (m + s.cfg.chunkBytes) (s.cfg.pcmBufBytes - (m + s.cfg.chunkBytes))) ?_ ?_
      (length_pcmBytes _ _ _ _)
    · rw [twoFills, pcmBytes_split s .B fits]
      simp only [List.append_assoc]
      rfl
    · rw [List.length_append, length_pcmBytes, length_pcmBytes, hm]

/-! The priming of a start (42_dma_transmitter.md R134). -/

/-- What the priming leaves, from a state with both buffers Ready: the first two chunks of the stream are encoded in
`WIRE[A]` and `WIRE[B]`, and the context stands after them; the kept entries are those of these writes. -/
structure Primed (s t : State) : Prop where
  words : ∃ bytes0 bytes1 : List Byte,
    bytes0.length = s.cfg.chunkBytes ∧ ReadsAs s .A 0 bytes0 ∧ bytes1.length = s.cfg.chunkBytes ∧
      ReadsAs s (turn (s.cfg.chunkBytes / s.cfg.pcmBufBytes)) (s.cfg.chunkBytes % s.cfg.pcmBufBytes) bytes1 ∧
      wireEntries t .A 0 s.cfg.wireWords ++ wireEntries t .B 0 s.cfg.wireWords =
        (encodeStream coldContext (bytes0 ++ bytes1)).1
  beyond : ∀ c j, s.cfg.wireWords ≤ j → wireEntry t c j = wireEntry s c j
  kept : ∀ c j, oldEntries t c j =
    if (s.ch.get c).busy = true ∧ j < s.cfg.wireWords then [wireEntry s c j] else []
  unraced : s.ch.a.busy = false → s.ch.b.busy = false → t.wireOld = both []
  undrawn : s.pcmOld = both [] → t.draws = s.draws
  position : AtByte t (s.cfg.chunkBytes + s.cfg.chunkBytes)
  st : t.st = if s.cfg.pcmBufBytes = s.cfg.chunkBytes then both .stale
    else if s.cfg.pcmBufBytes = 2 * s.cfg.chunkBytes then { a := .stale, b := .ready } else s.st

/-- The words of one job, as `wireEntries` and as the entries it leaves alone. -/
theorem encoded_chunk {b : Side} {p : Nat} (valid : configValid s.cfg = true)
    (h : Encoded s t b p c 0 (s.cfg.chunkBytes / 2)) :
    (∃ bytes, bytes.length = s.cfg.chunkBytes ∧ ReadsAs s b p bytes ∧
      wireEntries t c 0 s.cfg.wireWords = (encodeStream s.ctx bytes).1) ∧
      ∀ d j, d ≠ c ∨ s.cfg.wireWords ≤ j → wireEntry t d j = wireEntry s d j := by
  obtain ⟨even, -, -, -, wire⟩ := configValid_iff.mp valid
  obtain ⟨⟨bytes, len, reads, words⟩, -, -, others⟩ := h
  rw [show 4 * (s.cfg.chunkBytes / 2) = s.cfg.wireWords by omega] at words
  exact ⟨⟨bytes, by omega, reads, words⟩, fun d j hj => others d j (hj.imp id fun h => .inr (by omega))⟩

theorem readsAs_congr {b : Side} {p : Nat} (pcm : t.pcm = s.pcm) (old : t.pcmOld = s.pcmOld)
    (h : ReadsAs t b p bytes) : ReadsAs s b p bytes := by
  simpa only [ReadsAs, pcmByte, oldBytes, pcm, old] using h

/-- Where the two jobs of the priming leave `ST`: A is Stale when it holds one or two chunks, B when it holds one. -/
theorem primed_st {st : Pair BufState} {P C : Nat} (pos : C ≠ 0) (size : P % C = 0) (nonempty : P ≠ 0)
    (ready : st.b = .ready) :
    (if C % P + C = P then (if 0 + C = P then st.set .A .stale else st).set (turn (C / P)) .stale
      else if 0 + C = P then st.set .A .stale else st) =
    if P = C then both .stale else if P = 2 * C then { a := .stale, b := .ready } else st := by
  obtain ⟨k, rfl⟩ := Nat.dvd_of_mod_eq_zero size
  have posC := Nat.pos_of_ne_zero pos
  match k with
  | 0 => simp at nonempty
  | 1 => simp [Nat.div_self posC, turn, both]
  | 2 =>
    have less : C < C * 2 := by omega
    rw [Nat.mod_eq_of_lt less, Nat.div_eq_of_lt less, if_pos (by omega), if_neg (by omega), if_neg (by omega),
      if_pos (by omega), ← ready]
    rfl
  | k + 3 =>
    have size : C * (k + 3) = C * k + 3 * C := by rw [Nat.mul_add, Nat.mul_comm C 3]
    have less : C < C * (k + 3) := by omega
    rw [Nat.mod_eq_of_lt less]
    rw [if_neg (by omega), if_neg (by omega), if_neg (by omega), if_neg (by omega)]

/-- Where the second chunk of the stream begins. -/
theorem second_chunk_place {P C : Nat} (pos : C ≠ 0) (size : P % C = 0) (nonempty : P ≠ 0) :
    C % P = (if P = C then 0 else C) ∧ turn (C / P) = if P = C then .B else .A := by
  by_cases one : P = C
  · subst one
    simp [Nat.div_self (Nat.pos_of_ne_zero pos), turn]
  · have less : C < P :=
      Nat.lt_of_le_of_ne (Nat.le_of_dvd (Nat.pos_of_ne_zero nonempty) (Nat.dvd_of_mod_eq_zero size)) (Ne.symm one)
    rw [if_neg one, if_neg one, Nat.mod_eq_of_lt less, Nat.div_eq_of_lt less]
    exact ⟨rfl, rfl⟩

/-- Where the first two chunks of the stream end. -/
theorem second_chunk_end {P C : Nat} (pos : C ≠ 0) (size : P % C = 0) (nonempty : P ≠ 0) :
    (C + C) % P = (if P = C ∨ P = 2 * C then 0 else 2 * C) ∧ turn ((C + C) / P) = if P = 2 * C then .B else .A := by
  obtain ⟨k, rfl⟩ := Nat.dvd_of_mod_eq_zero size
  have posC := Nat.pos_of_ne_zero pos
  rw [← two_mul]
  match k with
  | 0 => simp at nonempty
  | 1 => simp [Nat.mul_div_cancel _ posC, turn, pos]
  | 2 => simp [Nat.mul_comm C, Nat.div_self (Nat.mul_pos two_pos posC), turn]
  | k + 3 =>
    have size : C * (k + 3) = C * k + 3 * C := by rw [Nat.mul_add, Nat.mul_comm C 3]
    have less : 2 * C < C * (k + 3) := by omega
    rw [Nat.mod_eq_of_lt less, Nat.div_eq_of_lt less, if_neg (by omega), if_neg (by omega)]
    exact ⟨rfl, rfl⟩

theorem keepsReplaced_fresh {j : Nat} (h : KeepsReplaced s t c 0 n) (fresh : oldEntries s c j = []) :
    oldEntries t c j = if (s.ch.get c).busy = true ∧ j < n then [wireEntry s c j] else [] := by
  rw [h.1, fresh]
  simp [and_comm]

theorem keepsReplaced_other {d : Side} {j : Nat} (h : KeepsReplaced s t c 0 n) (other : d ≠ c) :
    oldEntries t d j = oldEntries s d j := by
  rw [h.1, if_neg fun e => other e.1]

/-- The priming of a start, by its two jobs. -/
theorem startTransmitter_primed (valid : configValid s.cfg = true) (h : startTransmitter s = .next t) :
    Primed s t := by
  have readyB := startTransmitter_ready h .B
  obtain ⟨-, -, u, v, first, second, pend, -, rfl⟩ := startTransmitter_eq_next h
  rw [launch_eq (by rw [pend]; rfl)]
  obtain ⟨even, pos, size, nonempty, -⟩ := configValid_iff.mp valid
  have start := AtByte.coldStart s
  have middle : AtByte u s.cfg.chunkBytes := Nat.zero_add s.cfg.chunkBytes ▸ start.consume valid first
  obtain ⟨w, ran, encodedA, keptA, undrawnA, written⟩ :=
    consume_writes (s := coldStart s) .A valid ((start.cursorLegal valid).fits valid)
  obtain rfl : w = u := next_inj.mp (ran.symm.trans first)
  have frame : w.cfg = s.cfg ∧ w.pcm = s.pcm ∧ w.pcmOld = s.pcmOld ∧ w.ch = s.ch ∧
      w.st = if 0 + s.cfg.chunkBytes = s.cfg.pcmBufBytes then s.st.set .A .stale else s.st := by
    rw [written]
    exact ⟨rfl, rfl, rfl, rfl, rfl⟩
  obtain ⟨cfg, pcm, pcmOld, ch, stA⟩ := frame
  have validW : configValid w.cfg = true := by rw [cfg]; exact valid
  have after := middle.consume validW second
  obtain ⟨x, ran, encodedB, keptB, undrawnB, written⟩ :=
    consume_writes .B validW ((middle.cursorLegal validW).fits validW)
  obtain rfl : x = v := next_inj.mp (ran.symm.trans second)
  have stB : x.st = if w.ctx.cur + w.cfg.chunkBytes = w.cfg.pcmBufBytes then w.st.set w.ctx.sel .stale else w.st := by
    rw [written]
  obtain ⟨⟨bytes0, len0, reads0, words0⟩, othersA⟩ := encoded_chunk (s := coldStart s) valid encodedA
  obtain ⟨⟨bytes1, len1, reads1, words1⟩, othersB⟩ := encoded_chunk validW encodedB
  obtain ⟨-, cur, sel, sfcnt, inv⟩ := id middle
  rw [cfg] at cur sel after stB othersB len1
  rw [cur, sel] at reads1
  rw [cur, sel, stA] at stB
  have words : wireEntries x .A 0 s.cfg.wireWords ++ wireEntries x .B 0 s.cfg.wireWords =
      (encodeStream coldContext (bytes0 ++ bytes1)).1 := by
    have kept : wireEntries x .A 0 s.cfg.wireWords = wireEntries w .A 0 s.cfg.wireWords :=
      wireEntries_congr fun j _ _ => othersB .A j (.inl nofun)
    have goesOn := encodeStream_goes_on (bytes := bytes0) (more := bytes1) (x := w.ctx) (by rw [len0]; exact even)
      (by rw [len0, sfcnt]; rfl) inv
    rw [kept, goesOn, ← words1, cfg]
    exact congrArg (· ++ _) words0
  have keptEntries : ∀ c j, oldEntries x c j =
      if (s.ch.get c).busy = true ∧ j < s.cfg.wireWords then [wireEntry s c j] else [] := by
    rintro (_ | _) j
    · rw [keepsReplaced_other keptB (d := .A) nofun]
      have fresh := keepsReplaced_fresh (j := j) keptA rfl
      exact fresh
    · have fresh := keepsReplaced_fresh keptB ((keepsReplaced_other keptA (d := .B) (j := j) nofun).trans rfl)
      rw [othersA .B j (.inl nofun), ch, cfg] at fresh
      exact fresh
  refine ⟨⟨bytes0, bytes1, len0, reads0, len1, readsAs_congr pcm pcmOld reads1, words⟩, fun c j hj => ?_, keptEntries,
    fun idleA idleB => ?_, fun settled => ?_, after, stB.trans (primed_st pos size nonempty readyB)⟩
  · exact (othersB c j (.inr hj)).trans (othersA c j (.inr hj))
  · exact (keptB.2 (by rw [ch]; exact idleB)).trans (keptA.2 idleA)
  · have drawnB := undrawnB (by rw [pcmOld, settled]; cases w.ctx.sel <;> rfl)
    exact drawnB.trans (undrawnA (by rw [coldStart_eq, settled]; rfl))

end Sys2Proof.Stream

namespace Sys2Proof.Proofs

open Sys2Proof.Machine
open Sys2Proof.Invariant
open Sys2Proof.Effects
open Sys2Proof.Encoder
open Sys2Proof.Transfer
open Sys2Proof.Stream

/-! The statement about `dma_start`. -/

/-- Settles O22: the priming by its two jobs, and what a start writes beside it. -/
theorem dmaStart : Obligations.DmaStart := by
  intro s poll free done inactive readyA readyB valid chunk one two
  obtain ⟨t, runs⟩ := startTransmitter_runs done inactive readyA readyB free valid
  obtain ⟨⟨bytes0, bytes1, len0, reads0, len1, reads1, words⟩, beyond, kept, unraced, undrawn, position, st⟩ :=
    startTransmitter_primed valid runs
  obtain ⟨even, pos, size, nonempty, -⟩ := configValid_iff.mp valid
  obtain ⟨p0, side0⟩ := second_chunk_place pos size nonempty
  obtain ⟨cur', sel'⟩ := second_chunk_end pos size nonempty
  obtain ⟨-, cur, sel, sfcnt, inv⟩ := id position
  obtain ⟨x, st', wire, old, n, frame⟩ := startTransmitter_frame runs
  refine ⟨t.setRes .none, bytes0, bytes1, by rw [exec_dmaStart_runs poll, runs, andThen_next], len0, reads0, len1, ?_,
    words, beyond, kept, unraced, undrawn, ?_⟩
  · simp only [one, decide_eq_true_eq]
    rw [← p0, ← side0]
    exact reads1
  · simp only [one, two, decide_eq_true_eq]
    have ctxIs : x =
        { sfcnt := BitVec.ofNat 9 (chunk % 384)
          inv := false
          sel := if s.cfg.pcmBufBytes = 2 * chunk then .B else .A
          cur := if s.cfg.pcmBufBytes = chunk ∨ s.cfg.pcmBufBytes = 2 * chunk then 0 else 2 * chunk } := by
      rw [frame] at cur sel sfcnt inv
      have counter : x.sfcnt = BitVec.ofNat 9 (chunk % 384) := BitVec.eq_of_toNat_eq (by
        rw [sfcnt, BitVec.toNat_ofNat]
        omega)
      rw [← counter, ← inv, ← sel', ← sel, ← cur', ← cur]
    have stIs : st' = t.st := by rw [frame]
    rw [st] at stIs
    rw [ctxIs, stIs] at frame
    rw [frame]
    rfl

end Sys2Proof.Proofs

/-! Every step keeps the stream (42_dma_transmitter.md R138): what `LineCarries` says of the buffer being sent and of
the re-encode of the other one, and how each agent's step moves it. -/

namespace Sys2Proof.Stream

open Sys2Proof.Machine
open Sys2Proof.Invariant
open Sys2Proof.Effects
open Sys2Proof.Barrier
open Sys2Proof.Encoder
open Sys2Proof.Buffers
open Sys2Proof.Transfer
open Sys2Proof.Stops

variable {s t u : State} {c d : Side} {n sent : Nat} {bytes : List Byte} {i : Instr} {w : PollCtx} {k : State → State}

/-! `LineCarries` by its two cases. -/

/-- `Sending` with the channel that transmits and its read pointer named. -/
structure SendingFrom (d : Side) (sent : Nat) (s : State) (bytes : List Byte) : Prop where
  busy : (s.ch.get d).busy = true
  rptr : (s.ch.get d).rptr = sent
  irq : s.irq.get d = false
  wpend : s.wpend.get d = false
  wireOld : s.wireOld.get d = []
  reencode : ReencodeUnderWay s d.other
  words : s.line ++ wireEntries s d sent (s.cfg.wireWords - sent) ++
    (if s.wpend.get d.other then [] else wireEntries s d.other 0 s.cfg.wireWords) = (encodeStream coldContext bytes).1
  position : AtByte s bytes.length

/-- Both channels enabled and `LINE` on its way. -/
structure LineOn (s : State) (bytes : List Byte) : Prop where
  en : ∀ c, (s.ch.get c).en = true
  sending : SendingFrom (sendingChannel s) (s.line.length % s.cfg.wireWords) s bytes

/-- Both channels disabled: `LINE` stays as it is, and a job is left only where a stop waits for it. -/
structure LineOff (s : State) (bytes : List Byte) : Prop where
  en : ∀ c, (s.ch.get c).en = false
  irq : s.irq = both false
  line : s.line <+: (encodeStream coldContext bytes).1
  jobs : s.pollCtx = .inStop ∨ s.pollCtx = .inDmaStop ∨ s.q = [] ∧ s.handler = none

theorem LineOn.carries (h : LineOn s bytes) : LineCarries s bytes := by
  obtain ⟨en, busy, rptr, irq, wpend, wireOld, reencode, words, position⟩ := h
  refine ⟨⟨_, (List.append_assoc _ _ _).symm.trans words⟩, (en .A).trans (en .B).symm,
    fun _ => ⟨busy, rptr, irq, wpend, wireOld, reencode, words, position⟩, fun off => ?_⟩
  exact absurd ((en .A).symm.trans off) nofun

theorem LineOff.carries (h : LineOff s bytes) : LineCarries s bytes := by
  obtain ⟨en, irq, line, jobs⟩ := h
  exact ⟨line, (en .A).trans (en .B).symm, fun on => absurd ((en .A).symm.trans on) nofun, fun _ => ⟨irq, jobs⟩⟩

theorem lineCarries_cases (h : LineCarries s bytes) : LineOn s bytes ∨ LineOff s bytes := by
  obtain ⟨line, same, on, off⟩ := h
  cases en : s.ch.a.en
  · obtain ⟨irq, jobs⟩ := off en
    exact .inr ⟨by rintro (_ | _); exacts [en, same.symm.trans en], irq, line, jobs⟩
  · obtain ⟨busy, rptr, irq, wpend, wireOld, reencode, words, position⟩ := on en
    exact .inl ⟨by rintro (_ | _); exacts [en, same.symm.trans en],
      ⟨busy, rptr, irq, wpend, wireOld, reencode, words, position⟩⟩

/-- The turns of the channels follow the words sent. -/
theorem SendingFrom.lineOn (h : SendingFrom d sent s bytes) (en : ∀ c, (s.ch.get c).en = true)
    (side : d = turn (s.line.length / s.cfg.wireWords)) (place : sent = s.line.length % s.cfg.wireWords) :
    LineOn s bytes := by
  subst side place
  exact ⟨en, h⟩

theorem LineOn.pollCtx (h : LineOn s bytes) (p : PollCtx) : LineOn { s with pollCtx := p } bytes := by
  obtain ⟨en, busy, rptr, irq, wpend, wireOld, reencode, words, position⟩ := h
  exact ⟨en, busy, rptr, irq, wpend, wireOld, reencode, words, position⟩

/-- POLL moves between its own operations, but not in or out of a stop's wait. -/
theorem lineCarries_pollCtx (h : LineCarries s bytes) (stop : s.pollCtx ≠ .inStop) (dmaStop : s.pollCtx ≠ .inDmaStop)
    (p : PollCtx) : LineCarries { s with pollCtx := p } bytes := by
  obtain ⟨line, same, on, off⟩ := h
  refine ⟨line, same, on, fun en => ?_⟩
  obtain ⟨irq, jobs⟩ := off en
  exact ⟨irq, .inr (.inr ((jobs.resolve_left stop).resolve_left dmaStop))⟩

/-- With the block not active no job is left, but where a stop waits for it. -/
theorem lineOff_of_inactive (inv : Safety.Inv s) (inactive : s.active = false) (h : LineCarries s bytes) :
    LineOff s bytes :=
  (lineCarries_cases h).resolve_left fun on =>
    absurd ((on.en .A).symm.trans (channel_idle inv inactive .A).1) nofun

theorem no_jobs_of_inactive (inv : Safety.Inv s) (inactive : s.active = false) (h : LineCarries s bytes)
    (stop : s.pollCtx ≠ .inStop) (dmaStop : s.pollCtx ≠ .inDmaStop) : s.q = [] ∧ s.handler = none :=
  ((lineOff_of_inactive inv inactive h).jobs.resolve_left stop).resolve_left dmaStop

/-! The re-encode of the buffer that is not being sent (60_exceptions.md R178), by what is seen of it. -/

theorem reencode_encoded (h : ReencodeUnderWay s c) (ready : s.wpend.get c = false) :
    s.irq.get c = false ∧ (s.ch.get c).armed = true ∧ s.q = [] ∧ s.handler = none := by
  simpa [ReencodeUnderWay, ready] using h

theorem reencode_latched (h : ReencodeUnderWay s c) (latch : s.irq.get c = true) :
    s.wpend.get c = true ∧ (s.ch.get c).armed = false ∧ s.q = [] ∧ s.handler = none := by
  cases pend : s.wpend.get c
  · exact absurd ((reencode_encoded h pend).1.symm.trans latch) nofun
  · simpa [ReencodeUnderWay, pend, latch] using h

theorem reencode_acknowledged (h : ReencodeUnderWay s c) (runs : s.handler = some (.acknowledged d)) :
    d = c ∧ s.wpend.get c = true ∧ s.irq.get c = false ∧ (s.ch.get c).armed = false ∧ s.q = [] := by
  cases pend : s.wpend.get c
  · exact absurd ((reencode_encoded h pend).2.2.2.symm.trans runs) nofun
  · obtain ⟨irq, armed, queue, side⟩ :
        s.irq.get c = false ∧ (s.ch.get c).armed = false ∧ s.q = [] ∧ d = c := by
      simpa [ReencodeUnderWay, pend, runs] using h
    exact ⟨side, rfl, irq, armed, queue⟩

theorem reencode_rearmed (h : ReencodeUnderWay s c) (runs : s.handler = some (.rearmed d)) :
    d = c ∧ s.wpend.get c = true ∧ s.irq.get c = false ∧ (s.ch.get c).armed = true ∧ s.q = [] := by
  cases pend : s.wpend.get c
  · exact absurd ((reencode_encoded h pend).2.2.2.symm.trans runs) nofun
  · obtain ⟨irq, armed, queue, side⟩ :
        s.irq.get c = false ∧ (s.ch.get c).armed = true ∧ s.q = [] ∧ d = c := by
      simpa [ReencodeUnderWay, pend, runs] using h
    exact ⟨side, rfl, irq, armed, queue⟩

theorem reencode_queued {j : Job} {js : List Job} (h : ReencodeUnderWay s c) (queue : s.q = j :: js) :
    j = jobOf c ∧ js = [] ∧ s.irq.get c = false ∧ (s.ch.get c).armed = true ∧ s.handler = none := by
  cases pend : s.wpend.get c
  · exact absurd ((reencode_encoded h pend).2.2.1.symm.trans queue) nofun
  · obtain ⟨irq, armed, ⟨job, rest⟩, handler⟩ : s.irq.get c = false ∧ (s.ch.get c).armed = true ∧
        (j = jobOf c ∧ js = []) ∧ s.handler = none := by
      simpa [ReencodeUnderWay, pend, queue] using h
    exact ⟨job, rest, irq, armed, handler⟩

/-! One transfer. -/

theorem wireEntries_succ (s : State) (c : Side) (q n : Nat) :
    wireEntries s c q (n + 1) = wireEntry s c q :: wireEntries s c (q + 1) n := by
  rw [Nat.add_comm, wireEntries_add]
  rfl

theorem drawn_settled {w : WireWord} (h : Drawn c s w n) (settled : s.wireOld.get c = []) :
    w = wireEntry s c (s.ch.get c).rptr ∧ n = s.draws := by
  obtain ⟨-, undrawn⟩ := h
  refine undrawn ?_
  rw [oldEntries, settled]
  rfl

/-- A transfer before the last entry. -/
theorem SendingFrom.wordSent (h : SendingFrom d sent s bytes) (mid : sent + 1 < s.cfg.wireWords) :
    SendingFrom d (sent + 1) (wordSent d (wireEntry s d sent) s.draws s) bytes := by
  obtain ⟨busy, rptr, irq, wpend, wireOld, reencode, words, position⟩ := h
  have chan : ((Transfer.wordSent d (wireEntry s d sent) s.draws s).ch.get d) = { s.ch.get d with rptr := sent + 1 } := by
    rw [← rptr]
    exact Pair.get_set_same _ _ _
  have other : (Transfer.wordSent d (wireEntry s d sent) s.draws s).ch.get d.other = s.ch.get d.other :=
    Pair.get_set_other _ _ _
  refine ⟨by rw [chan]; exact busy, by rw [chan], irq, wpend, wireOld, ?_, ?_, position⟩
  · unfold ReencodeUnderWay
    rw [other]
    exact reencode
  · obtain ⟨left, more⟩ : ∃ left, s.cfg.wireWords - sent = left + 1 := ⟨s.cfg.wireWords - sent - 1, by omega⟩
    rw [more, wireEntries_succ] at words
    refine Eq.trans ?_ words
    show s.line ++ [_] ++ wireEntries s d (sent + 1) (s.cfg.wireWords - (sent + 1)) ++ _ = _
    rw [show s.cfg.wireWords - (sent + 1) = left by omega, List.append_assoc s.line, List.singleton_append]
    rfl

/-- The last transfer of a buffer: the armed other channel goes on from its entry 0. -/
theorem SendingFrom.lastSent (inv : Safety.Inv s) (done : s.setupDone = true) (h : SendingFrom d sent s bytes)
    (last : sent + 1 = s.cfg.wireWords) (encoded : s.wpend.get d.other = false)
    (en : (s.ch.get d.other).en = true) :
    SendingFrom d.other 0 (trigger d.other (lastSent d (wireEntry s d sent) s.draws s)) bytes := by
  obtain ⟨busy, rptr, irq, wpend, wireOld, reencode, words, position⟩ := h
  obtain ⟨irqOther, armedOther, queue, handler⟩ := reencode_encoded reencode encoded
  have chan := lastSent_chan_other (c := d) (w := wireEntry s d sent) (n := s.draws) (s := s)
  have pend := lastSent_wpend_other (c := d) (w := wireEntry s d sent) (n := s.draws) (s := s)
  obtain ⟨-, -, notBoth, -⟩ := channel_legal inv d
  have unarmed : (s.ch.get d).armed = false := Bool.eq_false_iff.mpr fun armed => notBoth ⟨armed, busy⟩
  have irqEn : (s.ch.get d).irqEn = true := by
    obtain ⟨-, -, -, -, ⟨-, -, -, -, enabled, -⟩, -⟩ := inv
    cases d
    exacts [(enabled done).1, (enabled done).2]
  rw [trigger_armed (by rwa [chan]) (by rwa [chan]), chan, pend, encoded]
  refine ⟨?_, ?_, ?_, ?_, ?_, ?_, ?_, position⟩
  · exact congrArg Chan.busy (Pair.get_set_same _ _ _)
  · exact congrArg Chan.rptr (Pair.get_set_same _ _ _)
  · simp [Transfer.lastSent, irqEn, irqOther]
  · simp [Transfer.lastSent, encoded]
  · simp [Transfer.lastSent, no_race inv (other_idle inv busy)]
  · simp [ReencodeUnderWay, Transfer.lastSent, irqEn, queue, handler, Pair.get_set_ne, unarmed]
  · rw [encoded, if_neg nofun, show s.cfg.wireWords - sent = 1 by omega] at words
    refine (congrArg (_ ++ ·) (if_pos ?_)).trans ((List.append_nil _).trans words)
    rw [Machine.Side.other_other]
    exact Pair.get_set_same _ _ _

/-- A trigger that marks no ghost fault finds the other buffer encoded. -/
theorem encoded_of_noGhostFault (on : (s.ch.get d).en = true) (good : Safety.NoGhostFault (trigger d s)) :
    s.wpend.get d = false := by
  obtain ⟨noOverrun, -, armedInTime, -⟩ := good
  cases armed : (s.ch.get d).armed
  · rw [trigger_unarmed on armed] at armedInTime
    cases armedInTime
  · refine Bool.eq_false_iff.mpr fun pend => ?_
    rw [trigger_armed on armed, pend] at noOverrun
    cases noOverrun

theorem setupDone_of_enabled (inv : Safety.Inv s) (en : (s.ch.get c).en = true) : s.setupDone = true := by
  obtain ⟨-, active, -⟩ := channel_legal inv c
  obtain ⟨-, -, -, -, ⟨setUp, -⟩, -⟩ := inv
  exact setUp (active en)

theorem transferWord_keeps (c : Side) (s : State) : (transferWord c s).cfg = s.cfg ∧
    (transferWord c s).line.length = s.line.length + 1 ∧
    ∀ d, ((transferWord c s).ch.get d).en = (s.ch.get d).en := by
  obtain ⟨w, n, ch, pend, old, irq, g, sends, chans, -⟩ := transferWord_frame c s
  rw [sends]
  exact ⟨rfl, List.length_append, fun d => (chans d).1⟩

/-- The transfer that a step makes is of the sending channel (10_state.md R37), and moves it one entry or, at the
last, to the other channel. -/
theorem lineOn_transfer (inv : Safety.Inv s) (h : LineOn s bytes) (enabled : dmaEnabled c s = true)
    (inside : (s.ch.get c).rptr < s.cfg.wireWords) (good : Safety.NoGhostFault (transferWord c s)) :
    LineOn (transferWord c s) bytes := by
  obtain ⟨en, sending⟩ := h
  obtain ⟨cfg', length', en'⟩ := transferWord_keeps c s
  have same : c = sendingChannel s := by
    refine (Side.eq_or_eq_other _ c).resolve_right fun other => ?_
    rw [dmaEnabled, other, other_idle inv sending.busy, Bool.and_false] at enabled
    cases enabled
  rw [← same] at sending
  have rptr := sending.rptr
  obtain ⟨w, n, drawn, sends⟩ := transferWord_drawn c s
  obtain ⟨rfl, rfl⟩ := drawn_settled drawn sending.wireOld
  rw [rptr] at inside sends
  by_cases last : s.line.length % s.cfg.wireWords + 1 = s.cfg.wireWords
  · obtain ⟨turns, first⟩ := div_mod_wrap (Nat.zero_lt_of_lt inside) last
    rw [if_pos last, complete_wordSent (by rw [rptr]; exact last)] at sends
    have encoded : s.wpend.get c.other = false := by
      rw [sends] at good
      have found := encoded_of_noGhostFault (by rw [lastSent_chan_other]; exact en c.other) good
      rwa [lastSent_wpend_other] at found
    have next := sending.lastSent inv (setupDone_of_enabled inv (en c)) last encoded (en c.other)
    rw [← sends] at next
    refine next.lineOn (fun d => (en' d).trans (en d)) ?_ ?_ <;> rw [cfg', length']
    · rw [turns, turn_succ, same]
      rfl
    · rw [first]
  · obtain ⟨turns, next⟩ := div_mod_step (n := s.line.length) (k := 1) (m := s.cfg.wireWords) (by omega)
    rw [if_neg last] at sends
    have sent := sending.wordSent (by omega)
    rw [← sends] at sent
    refine sent.lineOn (fun d => (en' d).trans (en d)) ?_ ?_ <;> rw [cfg', length']
    · rw [turns, same]
      rfl
    · rw [next]

/-! The completion interrupt (60_exceptions.md R176 to R179). -/

/-- A handler's step writes what belongs to the channel that is not sending. -/
theorem LineOn.served (h : LineOn s bytes) (irq : Pair Bool) (ch : Pair Chan) (q : List Job) (y : Option HandlerAt)
    (cuts : List Bool) (n : Nat) (r : Result) (latch : irq.get (sendingChannel s) = s.irq.get (sendingChannel s))
    (chan : ch.get (sendingChannel s) = s.ch.get (sendingChannel s))
    (en : (ch.get (sendingChannel s).other).en = (s.ch.get (sendingChannel s).other).en)
    (reencode : ReencodeUnderWay { s with irq := irq, ch := ch, q := q, handler := y } (sendingChannel s).other) :
    LineOn { s with irq := irq, ch := ch, q := q, handler := y, cuts := cuts, pushes := n, res := r } bytes := by
  obtain ⟨on, busy, rptr, noLatch, wpend, wireOld, -, words, position⟩ := h
  refine ⟨fun c => ?_, (congrArg Chan.busy chan).trans busy, (congrArg Chan.rptr chan).trans rptr,
    latch.trans noLatch, wpend, wireOld, reencode, words, position⟩
  rcases Side.eq_or_eq_other (sendingChannel s) c with rfl | rfl
  · exact (congrArg Chan.en chan).trans (on _)
  · exact en.trans (on _)

/-- With the channels off a handler is left only in a stop's wait, which its steps do not end. -/
theorem LineOff.served (h : LineOff s bytes) (running : s.handler ≠ none) (ch : Pair Chan) (q : List Job)
    (y : Option HandlerAt) (cuts : List Bool) (n : Nat) (r : Result)
    (en : ∀ c, (ch.get c).en = (s.ch.get c).en) :
    LineOff { s with ch := ch, q := q, handler := y, cuts := cuts, pushes := n, res := r } bytes := by
  obtain ⟨off, irq, line, jobs⟩ := h
  exact ⟨fun c => (en c).trans (off c), irq, line,
    (or_assoc.mpr jobs).elim (fun stop => or_assoc.mp (.inl stop)) fun idle => absurd idle.2 running⟩

theorem lineCarries_acknowledge (h : LineCarries s bytes) (latch : s.irq.get c = true) (cuts : List Bool) (r : Result) :
    LineCarries { s with
      irq := s.irq.set c false, cuts := cuts, handler := some (.acknowledged c), res := r } bytes := by
  rcases lineCarries_cases h with on | off
  · have other : c = (sendingChannel s).other := (Side.eq_or_eq_other _ c).resolve_left fun e =>
      absurd ((e ▸ on.sending.irq).symm.trans latch) nofun
    obtain ⟨pend, unarmed, queue, -⟩ := reencode_latched on.sending.reencode (other ▸ latch)
    refine (on.served (s.irq.set c false) s.ch s.q (some (.acknowledged c)) cuts s.pushes r ?_ rfl rfl ?_).carries
    · rw [other]
      exact Pair.get_set_ne _ (Machine.Side.ne_other _) _
    · simp [ReencodeUnderWay, other, pend, unarmed, queue]
  · rw [off.irq] at latch
    cases c <;> cases latch

theorem rearmed_chan_en (x : Pair Chan) (c d : Side) :
    ((x.set c { x.get c with armed := true }).get d).en = (x.get d).en := (get_set_armed x c true d).1

theorem lineCarries_rearm (h : LineCarries s bytes) (runs : s.handler = some (.acknowledged c)) (cuts : List Bool)
    (r : Result) : LineCarries { s with
      ch := s.ch.set c { s.ch.get c with armed := true }, cuts := cuts, handler := some (.rearmed c), res := r }
      bytes := by
  rcases lineCarries_cases h with on | off
  · obtain ⟨other, pend, latch, -, queue⟩ := reencode_acknowledged on.sending.reencode runs
    refine (on.served s.irq _ s.q (some (.rearmed c)) cuts s.pushes r rfl ?_ (rearmed_chan_en _ _ _) ?_).carries
    · rw [other]
      exact Pair.get_set_ne _ (Machine.Side.ne_other _) _
    · simp [ReencodeUnderWay, other, pend, latch, queue]
  · exact (off.served (by simp [runs]) _ s.q _ cuts s.pushes r (rearmed_chan_en _ _)).carries

theorem lineCarries_push (h : LineCarries s bytes) (runs : s.handler = some (.rearmed c)) :
    LineCarries (pushJob (jobOf c) s) bytes := by
  rcases lineCarries_cases h with on | off
  · obtain ⟨other, pend, latch, armed, queue⟩ := reencode_rearmed on.sending.reencode runs
    rcases pushJob_cases (jobOf c) s with ⟨-, e⟩ | ⟨-, e⟩ <;> rw [e]
    · exact (on.served s.irq s.ch (s.q ++ [jobOf c]) none s.cuts (s.pushes + 1) .none rfl rfl rfl
        (by simp [ReencodeUnderWay, other, pend, latch, armed, queue])).carries
    · exact (on.served s.irq s.ch s.q (some (.held (jobOf c))) s.cuts s.pushes .waits rfl rfl rfl
        (by simp [ReencodeUnderWay, other, pend, latch, armed, queue])).carries
  · obtain ⟨n, q, y, r, e⟩ := pushJob_frame (jobOf c) s
    rw [e]
    exact (off.served (by simp [runs]) s.ch q y s.cuts n r fun _ => rfl).carries

/-- The handler at its `rearm`, entered in this step or before. -/
theorem lineCarries_entered (h : LineCarries s bytes) (entered : HandlerEntered c s u) :
    LineCarries (u.setHandler (some (.acknowledged c))) bytes := by
  rcases entered with ⟨takeable, cs, rfl⟩ | ⟨runs, rfl⟩
  · simp only [irqTakeable, Bool.and_eq_true] at takeable
    exact lineCarries_acknowledge h takeable.1.1 cs s.res
  · rw [← runs]
    exact h

/-- A push writes the handler, whatever it was. -/
theorem pushJob_setHandler (j : Job) (x : Option HandlerAt) (s : State) : pushJob j (s.setHandler x) = pushJob j s := rfl

theorem lineCarries_served (h : LineCarries s bytes) (runs : Runs (.irqService c) s t) : LineCarries t bytes := by
  cases runs with
  | waits => exact h
  | acknowledged takeable cs =>
    simp only [irqTakeable, Bool.and_eq_true] at takeable
    exact lineCarries_acknowledge h takeable.1.1 cs .waits
  | handlerRearmed entered _ cs => exact lineCarries_rearm (lineCarries_entered h entered) rfl cs .waits
  | @handlerPushed _ _ u entered _ cs =>
    have rearmed := lineCarries_rearm (lineCarries_entered h entered) rfl cs u.res
    rw [← pushJob_setHandler (jobOf c) (some (.rearmed c))]
    exact lineCarries_push rearmed rfl
  | handlerPushes runs => exact lineCarries_push h runs

/-! The worker (43_core_dispatcher.md R152). -/

/-- The chunk at the cursor of the active buffer, which the next job consumes. -/
def nextChunk (s : State) : List Byte := pcmBytes s s.ctx.sel s.ctx.cur s.cfg.chunkBytes

/-- A job on a settled buffer goes on with the encoding of the stream, a chunk further. -/
theorem consume_goes_on (valid : configValid s.cfg = true) (place : AtByte s bytes.length)
    (settled : s.pcmOld.get s.ctx.sel = []) (runs : consume c s = .next t) :
    AtByte t (bytes ++ nextChunk s).length ∧ (encodeStream coldContext (bytes ++ nextChunk s)).1 =
      (encodeStream coldContext bytes).1 ++ wireEntries t c 0 s.cfg.wireWords := by
  have words := consume_stream_settled valid ((place.cursorLegal valid).fits valid) settled runs
  have moved := place.consume valid runs
  obtain ⟨aligned, -, -, sfcnt, inv⟩ := place
  rw [words, List.length_append, nextChunk, length_pcmBytes]
  exact ⟨moved, encodeStream_goes_on (chunk_even valid aligned) sfcnt inv⟩

/-- With no `F_UNDERRUN` and no `F_PROTOCOL` a job found its buffer Ready and settled. -/
theorem consume_found_ready (inv : Safety.Inv s) (runs : consume c s = .next t) (good : Safety.NoGhostFault t) :
    s.st.get s.ctx.sel = .ready ∧ s.pcmOld.get s.ctx.sel = [] := by
  obtain ⟨-, full, -, kept⟩ := good
  obtain ⟨_, _, _, _, _, rfl⟩ := consume_frame runs
  have ready : s.st.get s.ctx.sel = .ready := by
    by_contra notReady
    rw [if_neg notReady] at full
    cases full
  rw [if_pos ready] at kept
  obtain ⟨-, -, -, -, -, -, buffers, -⟩ := inv
  obtain ⟨-, settledA, settledB⟩ := buffers kept
  refine ⟨ready, ?_⟩
  generalize s.ctx.sel = b at ready
  cases b
  exacts [settledA ready, settledB ready]

/-- The worker's turn is the job at the head of the queue, where no `push` is held; a settled buffer stays so. -/
theorem popped_consumes {j : Job} {js : List Job} (inv : Safety.Inv s) (idle : s.wk = .idle) (done : s.setupDone = true)
    (handler : s.handler = none) (queue : s.q = j :: js)
    (runs : runJob j (popBarrier (headNumber s) (liftHeldPush (s.setQ js))) = .next t) :
    ∃ old, (∀ b, s.pcmOld.get b = [] → old.get b = []) ∧ Safety.Inv { s with q := js, pcmOld := old } ∧
      consume (jobChannel j) { s with q := js, pcmOld := old } = .next t := by
  have kept := inv_popBarrier (headNumber s) (inv_liftHeldPush inv done queue)
  have lifted : liftHeldPush (s.setQ js) = s.setQ js := by simp [liftHeldPush, handler]
  rw [lifted] at runs kept
  rw [runJob_idle (by exact idle)] at runs
  refine ⟨_, fun b settled => ?_, kept, runs⟩
  have barrier := popBarrier_pcmOld_get (headNumber s) (s.setQ js) b
  exact barrier.trans (congrArg (settleBefore _) settled)

/-- A job leaves the wire buffer of the other channel, and of an idle one the kept entries. -/
theorem consume_sending (valid : configValid s.cfg = true) (cursor : CursorLegal s)
    (idle : (s.ch.get c).busy = false) (runs : consume c s = .next t) :
    t.wireOld = s.wireOld ∧ ∀ q n, wireEntries t c.other q n = wireEntries s c.other q n := by
  obtain ⟨v, ran, -, ⟨-, kept⟩, -⟩ := consume_writes c valid (cursor.fits valid)
  obtain rfl := next_inj.mp (ran.symm.trans runs)
  exact ⟨kept idle, wireEntries_of_wire (consume_wire_other runs (Machine.Side.other_ne c))⟩

theorem jobChannel_jobOf (c : Side) : jobChannel (jobOf c) = c := by cases c <;> rfl

/-- A job adds the chunk at the cursor to the stream, and its buffer is encoded again. -/
theorem LineOn.pop {j : Job} {js : List Job} (inv : Safety.Inv s) (h : LineOn s bytes) (idle : s.wk = .idle)
    (queue : s.q = j :: js) (runs : runJob j (popBarrier (headNumber s) (liftHeldPush (s.setQ js))) = .next t)
    (good : Safety.NoGhostFault t) : s.st.get s.ctx.sel = .ready ∧ LineOn t (bytes ++ nextChunk s) := by
  obtain ⟨on, sending⟩ := h
  generalize side : sendingChannel s = d at sending
  obtain ⟨busy, rptr, noLatch, wpend, wireOld, reencode, words, position⟩ := sending
  obtain ⟨rfl, rfl, latch, armed, handler⟩ := reencode_queued reencode queue
  have pend : s.wpend.get d.other = true := by
    refine Bool.ne_false_iff.mp fun encoded => ?_
    exact absurd ((reencode_encoded reencode encoded).2.2.1.symm.trans queue) nofun
  have done := setupDone_of_enabled inv (on d)
  have valid := config_valid inv done
  obtain ⟨old, -, kept, consumes⟩ := popped_consumes inv idle done handler queue runs
  rw [jobChannel_jobOf] at consumes
  obtain ⟨ready, settled⟩ := consume_found_ready kept consumes good
  have place : AtByte { s with q := [], pcmOld := old } bytes.length := position
  obtain ⟨moved, stream⟩ := consume_goes_on (by exact valid) place settled consumes
  obtain ⟨oldKept, sent⟩ := consume_sending (by exact valid) (place.cursorLegal (by exact valid))
    (other_idle inv busy) consumes
  rw [pend, if_pos rfl, List.append_nil] at words
  rw [Machine.Side.other_other] at sent
  refine ⟨ready, ?_⟩
  have chunk : nextChunk { s with q := [], pcmOld := old } = nextChunk s := rfl
  rw [chunk] at moved stream
  have line : t.line = s.line ∧ t.cfg = s.cfg ∧ t.ch = s.ch := by
    obtain ⟨_, _, _, _, _, rfl⟩ := consume_frame consumes
    exact ⟨rfl, rfl, rfl⟩
  obtain ⟨line, cfg, ch⟩ := line
  have sending : SendingFrom d (s.line.length % s.cfg.wireWords) t (bytes ++ nextChunk s) := by
    obtain ⟨x, st, wire, wold, n, rfl⟩ := consume_frame consumes
    refine ⟨busy, rptr, noLatch, ?_, (congrArg (Pair.get · d) oldKept).trans wireOld, ?_, ?_, moved⟩
    · exact (Pair.get_set_ne _ (Machine.Side.ne_other d) _).trans wpend
    · simp [ReencodeUnderWay, latch, armed, handler]
    · rw [stream, ← words]
      refine congr (congrArg _ (congrArg _ (sent _ _))) ?_
      exact if_neg (by simp)
  refine sending.lineOn (by rw [ch]; exact on) ?_ ?_ <;> rw [line, cfg]
  exact side.symm

/-- With the channels off a job is one that a stop waits for, and `LINE` stays. -/
theorem LineOff.pop {j : Job} {js : List Job} (h : LineOff s bytes) (idle : s.wk = .idle) (queue : s.q = j :: js)
    (runs : runJob j (popBarrier (headNumber s) (liftHeldPush (s.setQ js))) = .next t) : LineOff t bytes := by
  obtain ⟨off, irq, line, jobs⟩ := h
  obtain ⟨_, _, _, _, _, _, _, _, _, rfl⟩ := popped_frame idle runs
  refine ⟨off, irq, line, (or_assoc.mpr jobs).elim (fun stop => or_assoc.mp (.inl stop)) fun none => ?_⟩
  exact absurd (none.1.symm.trans queue) nofun

/-! The starts (42_dma_transmitter.md R134). -/

/-- Primed from settled fills, the wire buffers hold the encoding of the first two chunks of the two fills. -/
theorem primed_fills (valid : configValid s.cfg = true) (settled : ∀ b, s.pcmOld.get b = []) (h : Primed s t) :
    wireEntries t .A 0 s.cfg.wireWords ++ wireEntries t .B 0 s.cfg.wireWords =
      (encodeStream coldContext ((twoFills s).take (s.cfg.chunkBytes + s.cfg.chunkBytes))).1 := by
  obtain ⟨-, pos, size, nonempty, -⟩ := configValid_iff.mp valid
  obtain ⟨bytes0, bytes1, len0, reads0, len1, reads1, words⟩ := h.words
  have chunk0 := readsAs_settled (settled _) reads0
  have chunk1 := readsAs_settled (settled _) reads1
  rw [len0] at chunk0
  rw [len1] at chunk1
  have within : s.cfg.chunkBytes ≤ s.cfg.pcmBufBytes :=
    Nat.le_of_dvd (Nat.pos_of_ne_zero nonempty) (Nat.dvd_of_mod_eq_zero size)
  have first := twoFills_take (n := 0) valid (Nat.zero_mod _) (by omega)
  have second := twoFills_take valid (Nat.mod_self _) (by omega)
  rw [Nat.zero_add, Nat.zero_div, Nat.zero_mod, List.take_zero, List.nil_append] at first
  rw [words, second, first, chunk0, chunk1]
  rfl

theorem length_twoFills_take (within : n ≤ 2 * s.cfg.pcmBufBytes) : ((twoFills s).take n).length = n := by
  rw [List.length_take, twoFills, List.length_append, length_pcmBytes, length_pcmBytes]
  omega

theorem two_chunks_within (valid : configValid s.cfg = true) :
    s.cfg.chunkBytes + s.cfg.chunkBytes ≤ 2 * s.cfg.pcmBufBytes := by
  obtain ⟨-, -, size, nonempty, -⟩ := configValid_iff.mp valid
  have within := Nat.le_of_dvd (Nat.pos_of_ne_zero nonempty) (Nat.dvd_of_mod_eq_zero size)
  omega

/-- A start begins the stream with the first two chunks of the two fills. -/
theorem lineOn_started (inv : Safety.Inv s) (queue : s.q = []) (handler : s.handler = none)
    (runs : startTransmitter s = .next t) (good : Safety.NoGhostFault t) :
    LineOn t ((twoFills t).take (2 * s.cfg.chunkBytes)) := by
  obtain ⟨done, inactive, -⟩ := startTransmitter_eq_next runs
  have valid := config_valid inv done
  have readyA := startTransmitter_ready runs .A
  have readyB := startTransmitter_ready runs .B
  have primed := startTransmitter_primed valid runs
  have noRace := primed.unraced (channel_idle inv inactive .A).2 (channel_idle inv inactive .B).2
  have position := primed.position
  have len := length_twoFills_take (two_chunks_within valid)
  obtain ⟨x, st, wire, old, n, rfl⟩ := startTransmitter_frame runs
  obtain ⟨-, -, -, kept⟩ := good
  have settled : ∀ b, s.pcmOld.get b = [] := by
    obtain ⟨-, -, -, -, -, -, buffers, -⟩ := inv
    obtain ⟨-, settledA, settledB⟩ := buffers kept
    rintro (_ | _)
    exacts [settledA readyA, settledB readyB]
  have words := primed_fills valid settled primed
  show LineOn _ ((twoFills s).take (2 * s.cfg.chunkBytes))
  rw [two_mul]
  have sending : SendingFrom .A 0 _ ((twoFills s).take (s.cfg.chunkBytes + s.cfg.chunkBytes)) :=
    ⟨rfl, rfl, rfl, rfl, congrArg Pair.a noRace, ⟨rfl, rfl, queue, handler⟩, words, by rw [len]; exact position⟩
  refine sending.lineOn (by rintro (_ | _) <;> rfl) ?_ (Nat.zero_mod _).symm
  rw [List.length_nil, Nat.zero_div]
  rfl

/-! The stops (42_dma_transmitter.md R137). -/

/-- A request of a stop that does not wait at once comes to the test of the dispatcher. -/
theorem stop_cases (form : StopForm i w k) (h : exec i s = .next t) :
    t = s.setRes .waits ∨ s.handler = none ∧ ∃ x, StopAsks w s x ∧ endStop w k x = .next t := by
  cases form
  · rw [exec_stop] at h
    rcases onPrimary_eq_next h with ⟨free, h⟩ | ⟨-, rfl⟩
    · split at h
      · next poll =>
        obtain ⟨spare, h⟩ := unlessRejected_eq_next h
        exact .inr ⟨free, _, .inl ⟨poll, spare, rfl⟩, h⟩
      · next poll => exact .inr ⟨free, _, .inr ⟨poll, rfl⟩, h⟩
      all_goals exact .inl (next_inj.mp h).symm
    · exact .inl rfl
  · rw [exec_dmaStop] at h
    rcases onPrimary_eq_next h with ⟨free, h⟩ | ⟨-, rfl⟩
    · split at h
      · next poll =>
        obtain ⟨done, h⟩ := afterSetup_eq_next h
        exact .inr ⟨free, _, .inl ⟨poll, spared_iff.mpr (.inl done), rfl⟩, h⟩
      · next poll => exact .inr ⟨free, _, .inr ⟨poll, rfl⟩, h⟩
      all_goals exact .inl (next_inj.mp h).symm
    · exact .inl rfl

theorem stopForm_wait (form : StopForm i w k) : w = .inStop ∨ w = .inDmaStop := by
  cases form
  exacts [.inl rfl, .inr rfl]

/-- Where a stop asks for a quiet dispatcher the channels are off and `LINE` is as it was. -/
theorem stopAsks_off (wait : w = .inStop ∨ w = .inDmaStop) (inv : Safety.Inv s) (h : LineCarries s bytes)
    (asks : StopAsks w s u) : (∀ c, (u.ch.get c).en = false) ∧ u.irq = both false ∧ u.line = s.line ∧
      u.handler = s.handler := by
  obtain ⟨-, offA, offB⟩ := inv_stopAsks inv wait asks
  refine ⟨by rintro (_ | _); exacts [offA, offB], ?_⟩
  rcases asks with ⟨-, -, rfl⟩ | ⟨-, rfl⟩
  · rw [disableChannels_eq]
    exact ⟨rfl, rfl, rfl⟩
  · obtain ⟨-, -, -, off⟩ := h
    exact ⟨(off offA).1, rfl, rfl⟩

/-- A stop leaves `LINE` as it is, and no job but those that it waits for. -/
theorem lineCarries_stop (form : StopForm i w k) (inv : Safety.Inv s) (h : LineCarries s bytes)
    (runs : exec i s = .next t) : LineCarries t bytes := by
  rcases stop_cases form runs with rfl | ⟨free, x, asks, ends⟩
  · exact h
  · obtain ⟨off, irq, line, handler⟩ := stopAsks_off (stopForm_wait form) inv h asks
    obtain ⟨carried, -⟩ := h
    rw [← line] at carried
    by_cases quiet : x.q = [] ∧ jobRunning x = false
    · rw [endStop_quiet quiet.1 quiet.2] at ends
      have jobs : x.q = [] ∧ x.handler = none := ⟨quiet.1, handler.trans free⟩
      cases form <;> cases ends
      · exact LineOff.carries ⟨off, irq, carried, .inr (.inr jobs)⟩
      · exact LineOff.carries ⟨off, irq, carried, .inr (.inr jobs)⟩
    · rw [not_and_or, Bool.not_eq_false] at quiet
      rw [endStop_waits quiet] at ends
      cases ends
      exact LineOff.carries ⟨off, irq, carried, (stopForm_wait form).imp id .inl⟩

/-! `setup`, and the operations of POLL and STORAGE. -/

theorem lineCarries_configure (poll : pollRuns s = true)
    (h : LineCarries s bytes) : LineCarries (configure s) bytes := by
  obtain ⟨handler, -⟩ := pollRuns_iff.mp poll
  obtain ⟨line, -⟩ := h
  rw [configure_eq]
  exact LineOff.carries ⟨by rintro (_ | _) <;> rfl, rfl, line, .inr (.inr ⟨rfl, handler⟩)⟩

theorem startFill_pollCtx {src : Source} (fills : StartFill src s u) :
    s.pollCtx ≠ .inStop ∧ s.pollCtx ≠ .inDmaStop := by
  rcases fills with ⟨poll, -⟩ | ⟨r, poll, -⟩ <;> simp [poll]

theorem lineCarries_startFill {src : Source} (h : LineCarries s bytes) (fills : StartFill src s u) (p : PollCtx) :
    LineCarries { u with pollCtx := p } bytes := by
  obtain ⟨stop, dmaStop⟩ := startFill_pollCtx fills
  obtain ⟨_, _, _, _, _, rfl, -⟩ := fills.frame
  exact lineCarries_pollCtx h stop dmaStop p

theorem lineCarries_pollRead (h : LineCarries s bytes) (reads : PollRead s u) (p : PollCtx) :
    LineCarries { u with pollCtx := p } bytes := by
  have poll : s.pollCtx ≠ .inStop ∧ s.pollCtx ≠ .inDmaStop := by
    rcases reads with ⟨poll, -⟩ | ⟨r, poll, -⟩ <;> simp [poll]
  obtain ⟨stop, dmaStop⟩ := poll
  obtain ⟨_, _, _, _, _, rfl, -⟩ := reads.frame
  exact lineCarries_pollCtx h stop dmaStop p

/-- What an operation of the schedule may do to the bytes consumed. -/
def StreamMoves (s t : State) (bytes bytes' : List Byte) : Prop :=
  bytes' = bytes ∨
    (s.st.get s.ctx.sel = .ready ∧ bytes' = bytes ++ pcmBytes s s.ctx.sel s.ctx.cur s.cfg.chunkBytes) ∨
    (s.active = false ∧ t.active = true ∧ bytes' =
      (pcmBytes t .A 0 s.cfg.pcmBufBytes ++ pcmBytes t .B 0 s.cfg.pcmBufBytes).take (2 * s.cfg.chunkBytes))

/-- A start, of a block in the state `u` that `s` is but for the fills. -/
theorem streamMoves_started (inv : Safety.Inv u) (queue : u.q = []) (handler : u.handler = none)
    (inactive : s.active = false) (cfg : u.cfg = s.cfg) (runs : startTransmitter u = .next t)
    (good : Safety.NoGhostFault t) : ∃ bytes', LineOn t bytes' ∧ StreamMoves s t bytes bytes' := by
  have on := lineOn_started inv queue handler runs good
  have frame : t.cfg = u.cfg ∧ t.active = true := by
    obtain ⟨_, _, _, _, _, rfl⟩ := startTransmitter_frame runs
    exact ⟨rfl, rfl⟩
  obtain ⟨cfg', active⟩ := frame
  rw [cfg, twoFills, cfg', cfg] at on
  exact ⟨_, on, .inr (.inr ⟨inactive, active, rfl⟩)⟩

/-- Every operation of the schedule keeps the stream. -/
theorem exec_keepsStream (inv : Safety.Inv s) (h : LineCarries s bytes) (agent : issuedByAgent i = true)
    (runs : exec i s = .next t) (good : Safety.NoGhostFault t) :
    ∃ bytes', LineCarries t bytes' ∧ StreamMoves s t bytes bytes' := by
  have stays : LineCarries t bytes → ∃ bytes', LineCarries t bytes' ∧ StreamMoves s t bytes bytes' :=
    fun carries => ⟨bytes, carries, .inl rfl⟩
  cases exec_runs runs with
  | waits => exact stays h
  | configured poll =>
    have configured := lineCarries_configure poll h
    exact stays configured
  | configRejected => exact stays h
  | startWaits r fills => exact stays (lineCarries_startFill h fills _)
  | @started _ _ u v fills starts =>
    obtain ⟨kept, -, inactive⟩ := inv_startFill inv fills
    obtain ⟨stop, dmaStop⟩ := startFill_pollCtx fills
    obtain ⟨_, _, _, _, _, rfl, -⟩ := fills.frame
    obtain ⟨queue, handler⟩ := no_jobs_of_inactive inv inactive h stop dmaStop
    obtain ⟨bytes', on, moves⟩ := streamMoves_started (s := s) kept queue handler inactive rfl starts good
    exact ⟨bytes', (on.pollCtx .free).carries, moves⟩
  | stopWaits => exact stays (lineCarries_stop .stop inv h runs)
  | stopped => exact stays (lineCarries_stop .stop inv h runs)
  | pollWaits r reads => exact stays (lineCarries_pollRead h reads _)
  | polled v reads => exact stays (lineCarries_pollRead h reads _)
  | toldActive => exact stays h
  | acquired =>
    obtain ⟨st, x, e, -⟩ := acquireTarget_frame s
    rw [e]
    exact ⟨bytes, h, .inl rfl⟩
  | marked marks =>
    rcases markFirstFilling_eq_some marks with rfl | ⟨b, -, rfl⟩
    · exact stays h
    · exact stays h
  | dmaStarted poll starts =>
    obtain ⟨-, inactive, -⟩ := startTransmitter_eq_next starts
    obtain ⟨-, free⟩ := pollRuns_iff.mp poll
    obtain ⟨queue, handler⟩ := no_jobs_of_inactive inv inactive h (by simp [free]) (by simp [free])
    obtain ⟨bytes', on, moves⟩ := streamMoves_started (s := s) inv queue handler inactive rfl starts good
    exact ⟨bytes', on.carries, moves⟩
  | dmaStopWaits => exact stays (lineCarries_stop .dmaStop inv h runs)
  | dmaStopped => exact stays (lineCarries_stop .dmaStop inv h runs)
  | transferred enabled inside =>
    rcases lineCarries_cases h with on | off
    · exact stays (lineOn_transfer inv on enabled inside good).carries
    · rw [dmaEnabled, off.en] at enabled
      cases enabled
  | acknowledged => exact stays (lineCarries_served h (exec_runs runs))
  | handlerRearmed => exact stays (lineCarries_served h (exec_runs runs))
  | handlerPushed => exact stays (lineCarries_served h (exec_runs runs))
  | handlerPushes => exact stays (lineCarries_served h (exec_runs runs))
  | popped idle queue pops =>
    rcases lineCarries_cases h with on | off
    · obtain ⟨ready, moved⟩ := on.pop inv idle queue pops good
      exact ⟨_, moved.carries, .inr (.inl ⟨ready, rfl⟩)⟩
    · exact stays (off.pop idle queue pops).carries
  | fillWritten b v inside =>
    obtain ⟨pcm, old, x, e, -⟩ := storeFill_frame b _ v s
    rw [e]
    exact ⟨bytes, h, .inl rfl⟩
  | _ => cases agent

end Sys2Proof.Stream

namespace Sys2Proof.Proofs

open Sys2Proof.Machine
open Sys2Proof.Invariant
open Sys2Proof.Stream

/-! The statement about every schedule. -/

/-- Settles O60: the operation that a step runs, or none, keeps the stream. -/
theorem stepKeepsStream : Obligations.StepKeepsStream := by
  intro s t bytes inv carries agents stepped good
  rcases step_cases stepped with ⟨-, rfl⟩ | ⟨i, rest, decoded, runs⟩
  · exact ⟨bytes, carries, .inl rfl⟩
  · exact exec_keepsStream (s := s.setTrace rest) ((inv_setTrace rest).mpr inv) carries (agents i rest decoded) runs good

end Sys2Proof.Proofs

/-! The steady state of the chain (42_dma_transmitter.md R139): a buffer sent whole, half a cycle, and the schedule of
half cycles. -/

namespace Sys2Proof.Cycle

open Sys2Proof.Machine
open Sys2Proof.Invariant
open Sys2Proof.Effects
open Sys2Proof.Barrier
open Sys2Proof.Transfer
open Sys2Proof.Stops
open Sys2Proof.Stream

variable {s t : State} {c d : Side} {n : Nat} {rest : List Byte}

/-! A buffer sent whole (42_dma_transmitter.md R130 to R132). -/

theorem step_dmaWord (trace : s.trace = commandWord 0x0D c.bit :: rest) :
    step s = exec (.dmaWord c) { s with trace := rest } := by
  refine Proofs.stepRunsRequest s (.dmaWord c) rest ?_
  rw [trace]
  cases c <;> rfl

/-- The first `n` words of channel `c` on the line. -/
def wordsSent (c : Side) (n : Nat) (s : State) : State := { s with
  line := s.line ++ wireEntries s c (s.ch.get c).rptr n
  ch := s.ch.set c { s.ch.get c with rptr := (s.ch.get c).rptr + n } }

theorem wordsSent_chan (c : Side) (n : Nat) (s : State) :
    (wordsSent c n s).ch.get c = { s.ch.get c with rptr := (s.ch.get c).rptr + n } := Pair.get_set_same _ _ _

theorem wordsSent_zero (c : Side) (s : State) : wordsSent c 0 s = s := by
  have same : s.ch.set c { s.ch.get c with rptr := (s.ch.get c).rptr + 0 } = s.ch := Pair.set_get_self s.ch c
  rw [wordsSent, same]
  simp [wireEntries]

theorem wordsSent_succ (c : Side) (n : Nat) (s : State) :
    wordsSent c n (wordSent c (wireEntry s c (s.ch.get c).rptr) s.draws s) = wordsSent c (n + 1) s := by
  simp only [wordsSent, wordSent, Pair.get_set_same, Pair.set_set, wireEntries_succ, List.append_assoc,
    List.singleton_append]
  rw [Nat.add_comm n 1, ← Nat.add_assoc]
  rfl

/-- With no race, `n` transfers before the last entry hand over the entries in index order. -/
theorem run_transfers (en : (s.ch.get c).en = true) (busy : (s.ch.get c).busy = true)
    (settled : s.wireOld.get c = []) (inside : (s.ch.get c).rptr + n < s.cfg.wireWords)
    (trace : s.trace = List.replicate n (commandWord 0x0D c.bit) ++ rest) :
    ∃ r, core.run n s = .next { wordsSent c n s with trace := rest, res := r } := by
  induction n generalizing s with
  | zero =>
    refine ⟨s.res, congrArg Host.Outcome.next ?_⟩
    rw [List.replicate_zero, List.nil_append] at trace
    rw [wordsSent_zero, ← trace]
  | succ n ih =>
    obtain ⟨w, m, drawn, sends⟩ := exec_dmaWord_mid (s := { s with
      trace := List.replicate n (commandWord 0x0D c.bit) ++ rest }) en busy (by dsimp only; omega)
    obtain ⟨rfl, rfl⟩ := drawn_settled drawn settled
    have stepped := (step_dmaWord trace).trans sends
    have chan := Pair.get_set_same s.ch c { s.ch.get c with rptr := (s.ch.get c).rptr + 1 }
    have left : ((s.ch.set c { s.ch.get c with rptr := (s.ch.get c).rptr + 1 }).get c).rptr + n < s.cfg.wireWords := by
      rw [chan]
      dsimp only
      omega
    obtain ⟨r, ran⟩ := ih (s := { wordSent c (wireEntry s c (s.ch.get c).rptr) s.draws s with
      trace := List.replicate n (commandWord 0x0D c.bit) ++ rest, res := .none })
      ((congrArg Chan.en chan).trans en) ((congrArg Chan.busy chan).trans busy) settled left rfl
    refine ⟨r, (run_succ stepped).trans (ran.trans ?_)⟩
    rw [← wordsSent_succ]
    rfl

/-- The whole buffer of channel `c` on the line and the channel idle, before the trigger of the other channel. -/
def bufferSent (c : Side) (s : State) : State := { s with
  line := s.line ++ wireEntries s c 0 s.cfg.wireWords
  ch := s.ch.set c { s.ch.get c with rptr := s.cfg.wireWords, busy := false }
  wpend := s.wpend.set c true
  irq := if (s.ch.get c).irqEn then s.irq.set c true else s.irq
  wireOld := s.wireOld.set c [] }

theorem trigger_setRes (d : Side) (s : State) (r : Result) : (trigger d s).setRes r = trigger d (s.setRes r) := by
  cases en : (s.ch.get d).en
  · rw [trigger_disabled en, trigger_disabled (s := s.setRes r) en]
  · cases armed : (s.ch.get d).armed
    · rw [trigger_unarmed en armed, trigger_unarmed (s := s.setRes r) en armed]
      rfl
    · rw [trigger_armed en armed, trigger_armed (s := s.setRes r) en armed]
      rfl

theorem lastSent_wordsSent (start : (s.ch.get c).rptr = 0) (last : n + 1 = s.cfg.wireWords) :
    lastSent c (wireEntry s c n) s.draws (wordsSent c n s) = bufferSent c s := by
  have words : wireEntries s c 0 s.cfg.wireWords = wireEntries s c 0 n ++ [wireEntry s c n] := by
    rw [← last, wireEntries_add, Nat.zero_add]
    rfl
  simp only [lastSent, wordsSent, bufferSent, Pair.get_set_same, Pair.set_set, start, words, List.append_assoc]

/-- A triggered channel with no race sends its whole buffer and completes. -/
theorem run_buffer (pos : 0 < s.cfg.wireWords) (en : (s.ch.get c).en = true) (busy : (s.ch.get c).busy = true)
    (start : (s.ch.get c).rptr = 0) (settled : s.wireOld.get c = [])
    (trace : s.trace = List.replicate s.cfg.wireWords (commandWord 0x0D c.bit) ++ rest) :
    core.run s.cfg.wireWords s = .next (trigger c.other { bufferSent c s with trace := rest, res := .none }) := by
  obtain ⟨n, last⟩ : ∃ n, s.cfg.wireWords = n + 1 := Nat.exists_eq_succ_of_ne_zero (Nat.ne_of_gt pos)
  rw [last, List.replicate_succ', List.append_assoc] at trace
  obtain ⟨r, ran⟩ := run_transfers (n := n) en busy settled (by omega) trace
  have chan := wordsSent_chan c n s
  have place : ((wordsSent c n s).ch.get c).rptr = n := by rw [chan, start, Nat.zero_add]
  obtain ⟨w, m, drawn, sends⟩ := exec_dmaWord_last (s := { wordsSent c n s with trace := rest, res := r })
    ((congrArg Chan.en chan).trans en) ((congrArg Chan.busy chan).trans busy)
    ((congrArg (· + 1) place).trans last.symm)
  obtain ⟨word, undrawn⟩ := drawn_settled drawn settled
  have word : w = wireEntry s c n := word.trans (congrArg (wireEntry s c) place)
  have undrawn : m = s.draws := undrawn
  have whole := lastSent_wordsSent start last.symm
  subst word undrawn
  have stepped := (step_dmaWord (s := { wordsSent c n s with trace := [commandWord 0x0D c.bit] ++ rest, res := r })
    rfl).trans sends
  rw [trigger_setRes] at stepped
  have ended : lastSent c (wireEntry s c n) s.draws { wordsSent c n s with trace := rest, res := .none } =
      { bufferSent c s with trace := rest, res := .none } := by
    rw [← whole]
    rfl
  rw [last]
  refine (run_add ran).trans ((run_one stepped).trans ?_)
  rw [← ended]
  rfl

end Sys2Proof.Cycle

namespace Sys2Proof.Proofs

open Sys2Proof.Machine
open Sys2Proof.Effects
open Sys2Proof.Transfer
open Sys2Proof.Cycle

/-! The statement about one buffer. -/

/-- Settles O56: the transfers by induction on the entries, and the completion with the last. -/
theorem wholeBufferSent : Obligations.WholeBufferSent := by
  intro c s rest pos en busy start settled trace
  have ran := run_buffer pos en busy start settled trace
  have other : ({ bufferSent c s with trace := rest, res := .none } : State).ch.get c.other = s.ch.get c.other :=
    Pair.get_set_other _ _ _
  obtain ⟨x, g, triggered, -⟩ := trigger_frame c.other { bufferSent c s with trace := rest, res := .none }
  have started : (s.ch.get c.other).en = true → (s.ch.get c.other).armed = true →
      x = { s.ch.get c.other with armed := false, busy := true, rptr := 0 } := by
    intro on armed
    have started := trigger_armed (d := c.other) (s := { bufferSent c s with trace := rest, res := .none })
      ((congrArg Chan.en other).trans on) ((congrArg Chan.armed other).trans armed)
    have chans := congrArg (fun t : State => t.ch.get c.other) (triggered.symm.trans started)
    simpa [bufferSent] using chans
  refine ⟨_, ran.trans (congrArg Host.Outcome.next triggered), rfl, rfl, ?_, ?_, fun latch => ?_, fun on armed => ?_,
    rfl, rfl, rfl, rfl⟩
  · exact congrArg Chan.busy ((Pair.get_set_ne _ (Machine.Side.ne_other c) _).trans (Pair.get_set_same _ _ _))
  · exact Pair.get_set_same _ _ _
  · simp [bufferSent, latch]
  · rw [← started on armed]
    exact Pair.get_set_same _ _ _

end Sys2Proof.Proofs

/-! Half a cycle of the chain in steady state, and the schedule of half cycles (42_dma_transmitter.md R138, R139). -/

namespace Sys2Proof.Cycle

open Sys2Proof.Machine
open Sys2Proof.Invariant
open Sys2Proof.Effects
open Sys2Proof.Barrier
open Sys2Proof.Encoder
open Sys2Proof.Buffers
open Sys2Proof.Transfer
open Sys2Proof.Stops
open Sys2Proof.Stream

variable {s t : State} {c d : Side} {n : Nat} {rest : List Byte}

/-! The completion served in one step (60_exceptions.md R178). -/

theorem cutOr_uncut (p : HandlerAt) (k : State → Out) (uncut : ∀ x ∈ s.cuts, x = false) :
    cutOr p k s = k { s with cuts := s.cuts.drop 1 } := by
  rcases cutOr_cases p k s with ⟨cs, cuts, -⟩ | ⟨cs, cuts, e⟩ | ⟨cuts, e⟩
  · rw [cuts] at uncut
    exact absurd (uncut true (List.mem_cons_self ..)) nofun
  · rw [e, cuts]
    rfl
  · rw [e, cuts, List.drop_nil, ← cuts]

/-- A completion served as a whole: acknowledged, its channel rearmed, its job pushed. -/
theorem exec_irqService_whole (latch : s.irq.get c = true) (enabled : s.intEn = true) (free : s.handler = none)
    (uncut : ∀ x ∈ s.cuts, x = false) (idle : (s.ch.get c).busy = false) (unarmed : (s.ch.get c).armed = false)
    (slot : s.q.length < s.cfg.queueDepth) : exec (.irqService c) s = .next { s with
      irq := s.irq.set c false, ch := s.ch.set c { s.ch.get c with armed := true }, pushes := s.pushes + 1
      q := s.q ++ [jobOf c], cuts := s.cuts.drop 2, handler := none, res := .none } := by
  have takeable : irqTakeable c s = true := by simp [irqTakeable, latch, enabled, free]
  have first := cutOr_uncut (s := takeCompletion c s) (.acknowledged c) (handlerRearm c) uncut
  have able : rearmable c { takeCompletion c s with cuts := s.cuts.drop 1 } = true := rearmable_iff.mpr ⟨idle, unarmed⟩
  have second : cutOr (.rearmed c) (handlerPush c) (rearmChannel c { takeCompletion c s with cuts := s.cuts.drop 1 }) =
      handlerPush c { s with
        irq := s.irq.set c false, ch := s.ch.set c { s.ch.get c with armed := true }, cuts := s.cuts.drop 2 } := by
    have drop : s.cuts.drop 2 = (s.cuts.drop 1).drop 1 := by rw [List.drop_drop]
    rw [drop]
    exact cutOr_uncut _ _ fun x mem => uncut x (List.mem_of_mem_drop mem)
  have entered : exec (.irqService c) s = handlerRearm c { takeCompletion c s with cuts := s.cuts.drop 1 } := by
    simp only [exec_irqService, execIrqService, free, takeable, if_true]
    exact first
  exact entered.trans ((if_pos able).trans (second.trans (congrArg Host.Outcome.next (pushJob_free (jobOf c) slot))))

theorem step_irqService (trace : s.trace = commandWord 0x0E c.bit :: rest) :
    step s = exec (.irqService c) { s with trace := rest } := by
  refine Proofs.stepRunsRequest s (.irqService c) rest ?_
  rw [trace]
  cases c <;> rfl

/-- What every step keeps a run keeps. -/
theorem run_keeps {M : Host.Core} {P : M.State → Prop} (keeps : ∀ s t, P s → M.step s = .next t → P t) {n : Nat}
    {s t : M.State} (h : P s) (ran : M.run n s = .next t) : P t := by
  induction n generalizing s with
  | zero =>
    obtain rfl : s = t := Host.Outcome.next.inj ran
    exact h
  | succ n ih =>
    rw [Host.Core.run] at ran
    cases first : M.step s with
    | next v =>
      rw [first] at ran
      exact ih (keeps s v h first) ran
    | fault r =>
      rw [first] at ran
      cases ran
    | refused r =>
      rw [first] at ran
      cases ran

theorem run_keeps_inv (inv : Safety.Inv s) (ran : core.run n s = .next t) : Safety.Inv t :=
  run_keeps (M := core) Proofs.stepKeepsInvariant inv ran

/-! Half a cycle. -/

theorem set_set_other {α : Type} (p : Pair α) (c : Side) (x y z : α) :
    ((p.set c x).set c.other y).set c z = (p.set c z).set c.other y := by cases c <;> rfl

/-- The steady state in which channel `c` is to send its buffer (42_dma_transmitter.md R139). -/
structure Steady (c : Side) (s : State) : Prop where
  inv : Safety.Inv s
  active : s.active = true
  noHandler : s.handler = none
  uncut : ∀ x ∈ s.cuts, x = false
  queue : s.q = []
  depth : 1 ≤ s.cfg.queueDepth
  irq : s.irq = both false
  wpend : s.wpend = both false
  settled : s.wireOld.get c = []
  busy : (s.ch.get c).busy = true
  start : (s.ch.get c).rptr = 0
  en : (s.ch.get c.other).en = true
  armed : (s.ch.get c.other).armed = true

/-- Channel `c` has sent its buffer and handed over. -/
def handedOver (c : Side) (s : State) : State := { s with
  line := s.line ++ wireEntries s c 0 s.cfg.wireWords
  ch := (s.ch.set c { s.ch.get c with rptr := s.cfg.wireWords, busy := false }).set c.other
    { s.ch.get c.other with armed := false, busy := true, rptr := 0 }
  irq := s.irq.set c true
  wpend := s.wpend.set c true
  wireOld := s.wireOld.set c [] }

/-- Its completion is served, and its job is in the queue. -/
def completionServed (c : Side) (s : State) : State := { s with
  line := s.line ++ wireEntries s c 0 s.cfg.wireWords
  ch := (s.ch.set c { s.ch.get c with rptr := s.cfg.wireWords, busy := false, armed := true }).set c.other
    { s.ch.get c.other with armed := false, busy := true, rptr := 0 }
  wpend := s.wpend.set c true
  wireOld := s.wireOld.set c []
  pushes := s.pushes + 1
  q := [jobOf c]
  cuts := s.cuts.drop 2 }

theorem Steady.setupDone (h : Steady c s) : s.setupDone = true := by
  obtain ⟨-, -, -, -, ⟨setUp, -⟩, -⟩ := h.inv
  exact setUp h.active

theorem Steady.run_handedOver (h : Steady c s)
    (trace : s.trace = List.replicate s.cfg.wireWords (commandWord 0x0D c.bit) ++ rest) :
    core.run s.cfg.wireWords s = .next { handedOver c s with trace := rest, res := .none } := by
  obtain ⟨sends, -⟩ := channel_legal h.inv c
  obtain ⟨on, inside⟩ := sends h.busy
  have irqEn : (s.ch.get c).irqEn = true := by
    obtain ⟨-, -, -, -, ⟨-, -, -, -, enabled, -⟩, -⟩ := h.inv
    cases c
    exacts [(enabled h.setupDone).1, (enabled h.setupDone).2]
  have ran := run_buffer (Nat.zero_lt_of_lt inside) on h.busy h.start h.settled trace
  have chan : ({ bufferSent c s with trace := rest, res := .none } : State).ch.get c.other = s.ch.get c.other :=
    Pair.get_set_other _ _ _
  have pend : ({ bufferSent c s with trace := rest, res := .none } : State).wpend.get c.other = false := by
    refine (Pair.get_set_other _ _ _).trans ?_
    rw [h.wpend]
    cases c <;> rfl
  rw [trigger_armed ((congrArg Chan.en chan).trans h.en) ((congrArg Chan.armed chan).trans h.armed), chan, pend] at ran
  rw [bufferSent, if_pos irqEn] at ran
  exact ran

theorem handedOver_chan (c : Side) (s : State) :
    (handedOver c s).ch.get c = { s.ch.get c with rptr := s.cfg.wireWords, busy := false } :=
  (Pair.get_set_ne _ (Machine.Side.ne_other c) _).trans (Pair.get_set_same _ _ _)

/-- What the service of the completion makes of the state handed over. -/
theorem completionServed_eq (latch : s.irq.get c = false) (queue : s.q = []) (free : s.handler = none) :
    { handedOver c s with
      irq := (handedOver c s).irq.set c false
      ch := (handedOver c s).ch.set c { (handedOver c s).ch.get c with armed := true }
      pushes := s.pushes + 1, q := s.q ++ [jobOf c], cuts := s.cuts.drop 2, handler := none } =
    completionServed c s := by
  have latches : (handedOver c s).irq.set c false = s.irq := by
    rw [handedOver, Pair.set_set, ← latch, Pair.set_get_self]
  have chans : (handedOver c s).ch.set c { (handedOver c s).ch.get c with armed := true } =
      (completionServed c s).ch := by
    rw [handedOver_chan]
    exact set_set_other _ _ _ _ _
  rw [latches, chans, queue, ← free]
  rfl

theorem Steady.unarmed (h : Steady c s) : (s.ch.get c).armed = false := by
  obtain ⟨-, -, notBoth, -⟩ := channel_legal h.inv c
  exact Bool.eq_false_iff.mpr fun armed => notBoth ⟨armed, h.busy⟩

theorem Steady.step_served (h : Steady c s) :
    step { handedOver c s with trace := commandWord 0x0E c.bit :: rest, res := .none } =
      .next { completionServed c s with trace := rest, res := .none } := by
  have latch : s.irq.get c = false := by
    rw [h.irq]
    cases c <;> rfl
  have enabled : s.intEn = true := by
    obtain ⟨-, -, -, -, ⟨-, -, -, -, -, enabled, -⟩, -⟩ := h.inv
    exact enabled.trans h.setupDone
  have slot : s.q.length < s.cfg.queueDepth := by
    rw [h.queue]
    exact h.depth
  have chan := handedOver_chan c s
  have serves := exec_irqService_whole (s := { handedOver c s with trace := rest, res := .none })
    (Pair.get_set_same _ _ _) enabled h.noHandler h.uncut (congrArg Chan.busy chan)
    ((congrArg Chan.armed chan).trans h.unarmed) slot
  rw [← completionServed_eq latch h.queue h.noHandler]
  exact (step_irqService rfl).trans serves

theorem Steady.run_served (h : Steady c s) (trace : s.trace =
    List.replicate s.cfg.wireWords (commandWord 0x0D c.bit) ++ commandWord 0x0E c.bit :: rest) :
    core.run (s.cfg.wireWords + 1) s = .next { completionServed c s with trace := rest, res := .none } :=
  (run_add (h.run_handedOver trace)).trans (run_one h.step_served)

/-- The state in which the worker comes to the chunk: the completion is served and the job taken. -/
def jobTaken (c : Side) (old : Pair (Memory (List OldByte))) (rest : List Byte) (s : State) : State :=
  { completionServed c s with q := [], pcmOld := old, trace := rest, res := .none }

/-- Half a cycle: the buffer sent, its completion served, and the job. -/
theorem Steady.run_half (h : Steady c s) (trace : s.trace = halfCycle s.cfg.wireWords c ++ rest) :
    ∃ old t, (∀ b, s.pcmOld.get b = [] → old.get b = []) ∧ consume c (jobTaken c old rest s) = .next t ∧
      core.run (s.cfg.wireWords + 2) s = .next { t with res := .none } ∧ Safety.Inv { t with res := .none } := by
  rw [halfCycle, List.append_assoc] at trace
  have served := h.run_served (rest := commandWord 0x10 false :: rest) trace
  have kept := run_keeps_inv h.inv served
  obtain ⟨t, consumes, popped⟩ := step_workerPop kept h.setupDone h.noHandler rfl rfl
  rw [jobChannel_jobOf] at consumes
  refine ⟨_, t, fun b settled => ?_, consumes, (run_add served).trans (run_one popped),
    Proofs.stepKeepsInvariant _ _ kept popped⟩
  refine (popBarrier_pcmOld_get _ _ b).trans ?_
  exact congrArg (settleBefore _) settled

theorem completionServed_chan (c : Side) (s : State) : (completionServed c s).ch.get c =
    { s.ch.get c with rptr := s.cfg.wireWords, busy := false, armed := true } :=
  (Pair.get_set_ne _ (Machine.Side.ne_other c) _).trans (Pair.get_set_same _ _ _)

theorem completionServed_chan_other (c : Side) (s : State) : (completionServed c s).ch.get c.other =
    { s.ch.get c.other with armed := false, busy := true, rptr := 0 } := Pair.get_set_same _ _ _

/-- What half a cycle leaves: the roles of the channels exchanged, the buffer on the line, and the next chunk in its
place. -/
structure HalfCycled (c : Side) (s : State) (rest : List Byte) (t : State) : Prop where
  steady : Steady c.other t
  rearmed : (t.ch.get c).armed = true
  trace : t.trace = rest
  cfg : t.cfg = s.cfg
  line : t.line = s.line ++ wireEntries s c 0 s.cfg.wireWords
  encoded : wireEntries t c 0 s.cfg.wireWords = (encodeStream s.ctx (nextChunk s)).1
  other : ∀ q n, wireEntries t c.other q n = wireEntries s c.other q n
  ghost : t.ghost = s.ghost
  cuts : t.cuts = s.cuts.drop 2
  pcm : t.pcm = s.pcm
  pcmOld : ∀ b, s.pcmOld.get b = [] → t.pcmOld.get b = []
  moved : ∀ {n}, AtByte s n → AtByte t (n + s.cfg.chunkBytes)
  st : t.st = if s.ctx.cur + s.cfg.chunkBytes = s.cfg.pcmBufBytes then s.st.set s.ctx.sel .stale else s.st

/-- The job leaves the channels, the queue and the latches as its completion left them. -/
theorem Steady.after_job {old : Pair (Memory (List OldByte))} (h : Steady c s)
    (consumes : consume c (jobTaken c old rest s) = .next t) (kept : Safety.Inv { t with res := .none })
    (wireOld : t.wireOld = (jobTaken c old rest s).wireOld) : Steady c.other { t with res := .none } := by
  have idle := other_idle h.inv h.busy
  have chan := completionServed_chan c s
  have other := completionServed_chan_other c s
  have settled : t.wireOld.get c.other = [] := by
    rw [wireOld]
    exact (Pair.get_set_other _ _ _).trans (no_race h.inv idle)
  have pend : ((s.wpend.set c true).set c false) = both false := by
    rw [Pair.set_set, h.wpend]
    cases c <;> rfl
  obtain ⟨on, -⟩ := (channel_legal h.inv c).1 h.busy
  obtain ⟨_, _, _, _, _, rfl⟩ := consume_frame consumes
  refine ⟨kept, h.active, h.noHandler, fun x mem => h.uncut x (List.mem_of_mem_drop mem), rfl, h.depth, h.irq, pend,
    settled, congrArg Chan.busy other, congrArg Chan.rptr other, ?_, ?_⟩ <;> rw [Machine.Side.other_other]
  · exact (congrArg Chan.en chan).trans on
  · exact congrArg Chan.armed chan

theorem Steady.half_cycled (h : Steady c s) (ready : s.st.get s.ctx.sel = .ready)
    (settled : s.pcmOld.get s.ctx.sel = []) (trace : s.trace = halfCycle s.cfg.wireWords c ++ rest) :
    ∃ t, core.run (s.cfg.wireWords + 2) s = .next t ∧ HalfCycled c s rest t := by
  obtain ⟨old, t, settles, consumes, ran, kept⟩ := h.run_half trace
  have valid := config_valid h.inv h.setupDone
  have fits := chunk_in_buffer h.inv h.setupDone
  have chan := completionServed_chan c s
  obtain ⟨v, same, -, ⟨-, undisturbed⟩, -, written⟩ := consume_writes (s := jobTaken c old rest s) c valid fits
  obtain rfl := next_inj.mp (same.symm.trans consumes)
  have steady := h.after_job consumes kept (undisturbed (congrArg Chan.busy chan))
  have encoded := consume_stream_settled (s := jobTaken c old rest s) valid fits (settles _ settled) consumes
  have other := wireEntries_of_wire (consume_wire_other consumes (Machine.Side.other_ne c))
  have moved : ∀ {n}, AtByte s n → AtByte v (n + s.cfg.chunkBytes) := fun place =>
    AtByte.consume (s := jobTaken c old rest s) place valid consumes
  have st : v.st = if s.ctx.cur + s.cfg.chunkBytes = s.cfg.pcmBufBytes then s.st.set s.ctx.sel .stale else s.st := by
    rw [written]
    rfl
  obtain ⟨x, st', wire, wold, n, rfl⟩ := consume_frame consumes
  exact ⟨_, ran, steady, congrArg Chan.armed chan, rfl, rfl, rfl, encoded, other, if_pos ready, rfl, rfl, settles,
    moved, st⟩

end Sys2Proof.Cycle

namespace Sys2Proof.Proofs

open Sys2Proof.Machine
open Sys2Proof.Invariant
open Sys2Proof.Cycle

/-! The statements about the steady state. -/

/-- Settles O57: the buffer sent, the completion served, the job, one after the other. -/
theorem chainHalfCycle : Obligations.ChainHalfCycle := by
  intro c s rest inv active free uncut queue depth irq wpend settled busy start en armed ready published trace
  have steady : Steady c s := ⟨inv, active, free, uncut, queue, depth, irq, wpend, settled, busy, start, en, armed⟩
  obtain ⟨t, ran, half⟩ := steady.half_cycled ready published trace
  have next := half.steady
  have en' := next.en
  rw [Machine.Side.other_other] at en'
  have idle := other_idle next.inv next.busy
  rw [Machine.Side.other_other] at idle
  obtain ⟨-, -, -, -, ⟨-, -, worker, -⟩, -⟩ := id next.inv
  exact ⟨t, ran, half.trace, half.line, half.encoded, half.other _ _, half.ghost, next.wpend.trans wpend.symm,
    next.irq.trans irq.symm, next.queue, next.noHandler, half.cuts, worker next.setupDone, next.busy, next.start,
    next.settled, en', half.rearmed, idle⟩

end Sys2Proof.Proofs

/-! The steady-state schedule from the start on (42_dma_transmitter.md R138): half cycles, the channels in turn. -/

namespace Sys2Proof.Cycle

open Sys2Proof.Machine
open Sys2Proof.Invariant
open Sys2Proof.Effects
open Sys2Proof.RoundTrip
open Sys2Proof.Barrier
open Sys2Proof.Encoder
open Sys2Proof.Buffers
open Sys2Proof.Transfer
open Sys2Proof.Stops
open Sys2Proof.Stream

variable {s t : State} {c d : Side} {k n : Nat} {rest : List Byte}

/-- `k` half cycles after a start in `s`: `LINE` and the two wire buffers are the encoding of the first `k + 2` chunks
of the two fills of `s`, and what is left of the fills is Ready. -/
structure Streaming (s : State) (k : Nat) (t : State) : Prop where
  steady : Steady (turn k) t
  cfg : t.cfg = s.cfg
  pcm : t.pcm = s.pcm
  pcmOld : ∀ b, t.pcmOld.get b = []
  ghost : t.ghost = s.ghost
  length : t.line.length = k * s.cfg.wireWords
  words : t.line ++ wireEntries t (turn k) 0 s.cfg.wireWords ++ wireEntries t (turn (k + 1)) 0 s.cfg.wireWords =
    (encodeStream coldContext ((twoFills s).take ((k + 2) * s.cfg.chunkBytes))).1
  position : AtByte t ((k + 2) * s.cfg.chunkBytes)
  ready : ∀ n, (k + 2) * s.cfg.chunkBytes ≤ n → n < 2 * s.cfg.pcmBufBytes →
    t.st.get (turn (n / s.cfg.pcmBufBytes)) = .ready

/-- A chunk that ends its buffer leaves what is left of the fills in the other one. -/
theorem still_ready {st st' : Pair BufState} {m m' P C : Nat} (pos : 0 < P) (next : m' = m + C)
    (moved : st' = if m % P + C = P then st.set (turn (m / P)) .stale else st)
    (ready : ∀ n, m ≤ n → n < 2 * P → st.get (turn (n / P)) = .ready) :
    ∀ n, m' ≤ n → n < 2 * P → st'.get (turn (n / P)) = .ready := by
  intro n after within
  have before := ready n (by omega) within
  by_cases last : m % P + C = P
  · have wraps := (div_mod_wrap pos last).1
    have later : (m + C) / P ≤ n / P := Nat.div_le_div_right (by omega)
    have second : n / P < 2 := Nat.div_lt_of_lt_mul (by omega)
    rw [wraps] at later
    have sides : m / P = 0 ∧ n / P = 1 := by
      generalize m / P = x at later ⊢
      generalize n / P = y at later second ⊢
      omega
    rw [sides.2] at before ⊢
    rw [moved, if_pos last, sides.1, ← before]
    exact Pair.get_set_ne _ (by decide) _
  · rw [moved, if_neg last]
    exact before

/-- One half cycle more, while a chunk of the fills is left. -/
theorem Streaming.half_cycle (h : Streaming s k t) (within : (k + 3) * s.cfg.chunkBytes ≤ 2 * s.cfg.pcmBufBytes)
    (trace : t.trace = halfCycle s.cfg.wireWords (turn k) ++ rest) :
    ∃ u, core.run (s.cfg.wireWords + 2) t = .next u ∧ Streaming s (k + 1) u ∧ u.trace = rest := by
  obtain ⟨steady, cfg, pcm, pcmOld, ghost, length, words, position, ready⟩ := h
  have valid := config_valid steady.inv steady.setupDone
  rw [cfg] at valid
  obtain ⟨even, pos, size, nonempty, wireSize⟩ := configValid_iff.mp valid
  obtain ⟨aligned, cur, sel, sfcnt, inv⟩ := id position
  have next : (k + 3) * s.cfg.chunkBytes = (k + 2) * s.cfg.chunkBytes + s.cfg.chunkBytes := by
    rw [← Nat.succ_mul]
  rw [cfg] at aligned cur sel
  have readyNow : t.st.get t.ctx.sel = .ready := by
    rw [sel]
    exact ready _ (Nat.le_refl _) (by omega)
  rw [← cfg] at trace
  obtain ⟨u, ran, half⟩ := steady.half_cycled readyNow (pcmOld _) trace
  have chunk : nextChunk t = pcmBytes s (turn ((k + 2) * s.cfg.chunkBytes / s.cfg.pcmBufBytes))
      ((k + 2) * s.cfg.chunkBytes % s.cfg.pcmBufBytes) s.cfg.chunkBytes := by
    simp only [nextChunk, pcmBytes, pcmByte, pcm, cfg, cur, sel]
  have taken := twoFills_take valid aligned (by omega)
  rw [← chunk, ← next] at taken
  have moved := half.moved position
  rw [cfg, ← next] at moved
  rw [cfg] at ran
  have len : ((twoFills s).take ((k + 2) * s.cfg.chunkBytes)).length = (k + 2) * s.cfg.chunkBytes :=
    length_twoFills_take (by omega)
  refine ⟨u, ran, ⟨?_, half.cfg.trans cfg, half.pcm.trans pcm, fun b => half.pcmOld b (pcmOld b), half.ghost.trans ghost,
    ?_, ?_, moved, ?_⟩, half.trace⟩
  · rw [turn_succ]
    exact half.steady
  · rw [half.line, List.length_append, length, wireEntries, List.length_map, List.length_range, cfg, Nat.succ_mul]
  · have goesOn := encodeStream_goes_on (bytes := (twoFills s).take ((k + 2) * s.cfg.chunkBytes)) (more := nextChunk t)
      (x := t.ctx) (by rw [len]; exact chunk_even valid aligned) (by rw [len]; exact sfcnt) inv
    have lines := half.line
    have encoded := half.encoded
    have other := half.other 0 s.cfg.wireWords
    rw [cfg] at lines encoded
    rw [taken, goesOn, ← words, ← encoded, lines, turn_succ (k + 1), turn_succ k, Machine.Side.other_other, other]
  · exact still_ready (Nat.pos_of_ne_zero nonempty) (by omega) (by rw [half.st, cfg, cur, sel]) ready

/-- Half cycles in turn, by induction on their number. -/
theorem Streaming.run (h : Streaming s k t) (within : (k + n + 2) * s.cfg.chunkBytes ≤ 2 * s.cfg.pcmBufBytes)
    (trace : t.trace = halfCycles s.cfg.wireWords n (turn k) ++ rest) :
    ∃ u, core.run (n * (s.cfg.wireWords + 2)) t = .next u ∧ Streaming s (k + n) u ∧ u.trace = rest := by
  induction n generalizing k t with
  | zero => exact ⟨t, by rw [Nat.zero_mul]; rfl, h, trace⟩
  | succ n ih =>
    rw [halfCycles, List.append_assoc, ← turn_succ] at trace
    have first : (k + 3) * s.cfg.chunkBytes ≤ 2 * s.cfg.pcmBufBytes :=
      (Nat.mul_le_mul_right _ (by omega)).trans within
    obtain ⟨v, half, hv, vtrace⟩ := h.half_cycle first trace
    obtain ⟨u, ran, hu, utrace⟩ := ih hv (by rw [show k + 1 + n = k + (n + 1) by omega]; exact within) vtrace
    rw [show k + 1 + n = k + (n + 1) by omega] at hu
    refine ⟨u, ?_, hu, utrace⟩
    rw [Nat.succ_mul, Nat.add_comm]
    exact (run_add half).trans ran

/-- What is left of two Ready fills after their first two chunks is Ready. -/
theorem primed_ready {P C : Nat} (pos : 0 < P) :
    ∀ n, C + C ≤ n → n < 2 * P → (if P = C then both BufState.stale
      else if P = 2 * C then { a := .stale, b := .ready } else both .ready).get (turn (n / P)) = .ready := by
  intro n after within
  by_cases one : P = C
  · omega
  · rw [if_neg one]
    by_cases two : P = 2 * C
    · have second : n / P = 1 := (Nat.div_eq_iff pos).mpr (by omega)
      rw [if_pos two, second]
      rfl
    · rw [if_neg two]
      cases turn (n / P) <;> rfl

/-- The start of the schedule (42_dma_transmitter.md R134). -/
theorem streaming_start (inv : Safety.Inv s) (done : s.setupDone = true) (inactive : s.active = false)
    (poll : pollRuns s = true) (uncut : ∀ x ∈ s.cuts, x = false) (queue : s.q = []) (depth : 1 ≤ s.cfg.queueDepth)
    (ready : s.st = both .ready) (published : s.pcmOld = both []) (trace : s.trace = encode .dmaStart ++ rest) :
    ∃ t, step s = .next t ∧ Streaming s 0 t ∧ t.trace = rest := by
  obtain ⟨handler, -⟩ := pollRuns_iff.mp poll
  have valid := config_valid inv done
  obtain ⟨-, -, -, nonempty, -⟩ := configValid_iff.mp valid
  obtain ⟨-, -, -, -, ⟨-, -, worker, -⟩, -⟩ := id inv
  have free : jobRunning s = false := by simp [jobRunning, worker done]
  obtain ⟨t, starts⟩ := startTransmitter_runs (s := { s with trace := rest }) done inactive (congrArg Pair.a ready)
    (congrArg Pair.b ready) free valid
  have runs := (exec_dmaStart_runs (s := { s with trace := rest }) poll).trans
    (congrArg (andThen · fun t => .next (t.setRes .none)) starts)
  have stepped := (Proofs.stepRunsRequest s .dmaStart rest (by rw [trace, decode_encode rest rfl])).trans runs
  have kept := Proofs.stepKeepsInvariant s _ inv stepped
  have primed := startTransmitter_primed (by exact valid) starts
  have settled : ∀ b, s.pcmOld.get b = [] := by
    rw [published]
    rintro (_ | _) <;> rfl
  have words := primed_fills (s := { s with trace := rest }) valid settled primed
  have position := primed.position
  have left : t.st = if s.cfg.pcmBufBytes = s.cfg.chunkBytes then both .stale
    else if s.cfg.pcmBufBytes = 2 * s.cfg.chunkBytes then { a := .stale, b := .ready } else s.st := primed.st
  have remains := primed_ready (P := s.cfg.pcmBufBytes) (C := s.cfg.chunkBytes) (Nat.pos_of_ne_zero nonempty)
  have races := primed.unraced (channel_idle inv inactive .A).2 (channel_idle inv inactive .B).2
  have chunks : s.cfg.chunkBytes + s.cfg.chunkBytes = (0 + 2) * s.cfg.chunkBytes := by rw [Nat.zero_add, two_mul]
  rw [ready] at left
  rw [← left, chunks] at remains
  rw [chunks] at words position
  refine ⟨_, stepped, ?_⟩
  obtain ⟨x, st, wire, old, n, rfl⟩ := startTransmitter_frame starts
  exact ⟨⟨⟨kept, rfl, handler, uncut, queue, depth, rfl, rfl, congrArg Pair.a races, rfl, rfl, rfl, rfl⟩, rfl, rfl,
    settled, rfl, (Nat.zero_mul _).symm, words, position, remains⟩, rfl⟩

/-- The line alone is the encoding of the chunks before the two that the wire buffers hold. -/
theorem Streaming.line (h : Streaming s n t) (valid : configValid s.cfg = true)
    (within : (n + 2) * s.cfg.chunkBytes ≤ 2 * s.cfg.pcmBufBytes) :
    t.line = (encodeStream coldContext ((twoFills s).take (n * s.cfg.chunkBytes))).1 := by
  obtain ⟨even, -, -, -, wireSize⟩ := configValid_iff.mp valid
  have split : (twoFills s).take ((n + 2) * s.cfg.chunkBytes) = (twoFills s).take (n * s.cfg.chunkBytes) ++
      ((twoFills s).drop (n * s.cfg.chunkBytes)).take (2 * s.cfg.chunkBytes) := by
    rw [Nat.add_mul, List.take_add]
  have sent : n * s.cfg.chunkBytes ≤ 2 * s.cfg.pcmBufBytes := (Nat.mul_le_mul_right _ (by omega)).trans within
  have len : ((twoFills s).take (n * s.cfg.chunkBytes)).length = n * s.cfg.chunkBytes := length_twoFills_take sent
  have whole : n * s.cfg.chunkBytes % 2 = 0 := chunk_even valid (Nat.mul_mod_left _ _)
  have words := h.words
  rw [split, encodeStream_append (by rw [len]; exact whole), List.append_assoc] at words
  refine List.append_inj_left words ?_
  rw [h.length, length_encodeStream, len, wireSize, Nat.mul_left_comm]
  omega

end Sys2Proof.Cycle

namespace Sys2Proof.Proofs

open Sys2Proof.Machine
open Sys2Proof.Invariant
open Sys2Proof.Barrier
open Sys2Proof.Stops
open Sys2Proof.Cycle

/-! The statement about the steady-state schedule. -/

/-- Settles O58: the start, and the half cycles by induction on their number. -/
theorem lineIsEncodingOfTheStream : Obligations.LineIsEncodingOfTheStream := by
  intro s n rest inv done inactive poll uncut queue depth ready published within trace
  rw [List.append_assoc] at trace
  obtain ⟨v, started, hv, vtrace⟩ := streaming_start inv done inactive poll uncut queue depth ready published trace
  obtain ⟨t, ran, ht, ttrace⟩ := hv.run (n := n) (by rw [Nat.zero_add]; exact within) vtrace
  rw [Nat.zero_add] at ht
  exact ⟨t, (run_add (run_one started)).trans ran, ttrace, ht.ghost, ht.line (config_valid inv done) within⟩

end Sys2Proof.Proofs

/-! The dispatcher (43_core_dispatcher.md): a push that finds no slot, and a pop as the `consumeChunk` of its job. -/

namespace Sys2Proof.Dispatcher

open Sys2Proof.Machine
open Sys2Proof.Effects
open Sys2Proof.Barrier

variable {s : State} {j k : Job} {js : List Job}

/-- A push with no slot free. -/
theorem pushJob_full (j : Job) (full : s.cfg.queueDepth ≤ s.q.length) :
    pushJob j s = { s with handler := some (.held j), res := .waits } := by
  have slot : slotFree s = false := decide_eq_false (Nat.not_lt.mpr full)
  rw [pushJob, slot]
  rfl

/-! What a freed slot lets in (43_core_dispatcher.md R151, R152). -/

theorem liftHeldPush_lets_in (held : s.handler = some (.held k)) (slot : s.q.length < s.cfg.queueDepth) :
    liftHeldPush s = { s with q := s.q ++ [k], handler := none, pushes := s.pushes + 1 } := by
  rcases liftHeldPush_cases s with ⟨i, held', -, lifted⟩ | ⟨unheld | full, -⟩
  · cases held.symm.trans held'
    exact lifted
  · exact absurd held (unheld k)
  · exact absurd slot (of_decide_eq_false full)

theorem liftHeldPush_keeps (h : (∀ k, s.handler ≠ some (.held k)) ∨ ¬s.q.length < s.cfg.queueDepth) :
    liftHeldPush s = s := by
  rcases liftHeldPush_cases s with ⟨k, held, slot, -⟩ | ⟨-, kept⟩
  · rcases h with unheld | full
    · exact absurd held (unheld k)
    · exact absurd (of_decide_eq_true slot) full
  · exact kept

/-! A pop as its `consumeChunk` (43_core_dispatcher.md R152). -/

/-- The state that the popped job runs in: the job taken, a held push let in, and the writes before its push
settled (20_memory.md R58). -/
def poppedState (js : List Job) (s : State) : State :=
  popBarrier (s.pushes - js.length) (liftHeldPush (s.setQ js))

theorem poppedState_frame (js : List Job) (s : State) : ∃ n q x old,
    poppedState js s = { s with pushes := n, q := q, handler := x, pcmOld := old } := by
  obtain ⟨n, q, x, lifted⟩ := liftHeldPush_frame (s.setQ js)
  rw [poppedState, lifted]
  exact ⟨n, q, x, _, rfl⟩

theorem jobRunning_idle (idle : s.wk = .idle) : jobRunning s = false := by rw [jobRunning, idle]

theorem exec_consumeChunk_idle (c : Side) (done : s.setupDone = true) (idle : s.wk = .idle) :
    exec (.consumeChunk c) s = andThen (consume c s) fun t => .next (t.setRes .none) := by
  rw [exec_consumeChunk, execConsumeChunk, afterSetup_done done, encoderFree_free (jobRunning_idle idle)]

/-- The worker's pop is the `consumeChunk` of the head job's channel, whatever that answers. -/
theorem exec_workerPop_eq_consumeChunk (done : s.setupDone = true) (idle : s.wk = .idle) (queue : s.q = j :: js) :
    exec .workerPop s = exec (.consumeChunk (jobChannel j)) (poppedState js s) := by
  obtain ⟨n, q, x, old, frame⟩ := poppedState_frame js s
  have popped_idle : (poppedState js s).wk = .idle := by rw [frame]; exact idle
  have popped_done : (poppedState js s).setupDone = true := by rw [frame]; exact done
  have number : headNumber s = s.pushes - js.length := by simp [headNumber, queue]
  rw [exec_consumeChunk_idle _ popped_done popped_idle, ← runJob_idle popped_idle]
  simp only [exec_workerPop, execWorkerPop, idle, queue, number, poppedState]

/-- `consumeChunk` with a chunk left in the buffer ends, and it does not write `WK`. -/
theorem exec_consumeChunk_runs (c : Side) (done : s.setupDone = true) (idle : s.wk = .idle)
    (valid : configValid s.cfg = true) (fits : s.ctx.cur + s.cfg.chunkBytes ≤ s.cfg.pcmBufBytes) :
    ∃ t, exec (.consumeChunk c) s = .next t ∧ t.wk = .idle := by
  have runs := consume_runs c valid fits
  refine ⟨_, by rw [exec_consumeChunk_idle c done idle, runs, andThen_next], ?_⟩
  obtain ⟨_, _, _, _, _, written⟩ := consume_frame runs
  rw [written]
  exact idle

/-- The taking of the job leaves what its `consumeChunk` needs, so the pop ends where that ends. -/
theorem exec_workerPop_runs (done : s.setupDone = true) (idle : s.wk = .idle) (queue : s.q = j :: js)
    (valid : configValid s.cfg = true) (fits : s.ctx.cur + s.cfg.chunkBytes ≤ s.cfg.pcmBufBytes) :
    ∃ t, exec (.consumeChunk (jobChannel j)) (poppedState js s) = .next t ∧ exec .workerPop s = .next t ∧
      t.wk = .idle := by
  rw [exec_workerPop_eq_consumeChunk done idle queue]
  obtain ⟨n, q, x, old, frame⟩ := poppedState_frame js s
  rw [frame]
  obtain ⟨t, runs, worker⟩ := exec_consumeChunk_runs
    (s := { s with pushes := n, q := q, handler := x, pcmOld := old }) (jobChannel j) done idle valid fits
  exact ⟨t, runs, runs, worker⟩

end Sys2Proof.Dispatcher

namespace Sys2Proof.Proofs

open Sys2Proof.Machine
open Sys2Proof.Barrier
open Sys2Proof.Dispatcher

/-! The statements about the dispatcher. -/

/-- Settles O28, with a slot free and without one. -/
theorem push : Obligations.Push := by
  intro j s done free
  rw [exec_push_runs j done free]
  refine ⟨fun slot => ?_, fun full => ?_⟩
  · rw [pushJob_free j slot, ← free]
  · rw [pushJob_full j full]

/-- Settles O29: the pop as a `consumeChunk`, from the state that the place of the handler decides. -/
theorem workerPop : Obligations.WorkerPop := by
  intro s j js done idle queue valid fits settled taken c
  have popped : poppedState js s = taken := by
    dsimp only [taken, poppedState]
    split
    case h_4 k handler =>
      split
      · next slot => rw [liftHeldPush_lets_in (s := s.setQ js) handler slot]; rfl
      · next full => rw [liftHeldPush_keeps (.inr full)]; rfl
    all_goals next handler => rw [liftHeldPush_keeps (.inl (by simp [handler]))]; rfl
  rw [← popped]
  exact exec_workerPop_runs done idle queue valid fits

end Sys2Proof.Proofs

/-! The host operations (44_host_interface.md): the stores and the outcomes of a read, a `poll` begun or gone on with,
and the fill loop of `start` as polls. -/

namespace Sys2Proof.HostOps

open Sys2Proof.Machine
open Sys2Proof.Buffers

variable {s : State} {b : Side} {r : Reading} {cells : List Host.Cell} {reads : List ReadOutcome} {is : List Nat}

/-! `setup` and `isActive`. -/

theorem exec_setup_twice (poll : pollRuns s = true) (done : s.setupDone = true) :
    exec .setup s = .refused .setupTwice := by
  rw [exec_setup, execSetup, onPoll_runs poll, if_pos done]

theorem exec_setup_rejects (poll : pollRuns s = true) (fresh : s.setupDone = false)
    (invalid : configValid s.cfg = false) :
    exec .setup s = .next ((s.setRejected true).setRes .configRejected) := by
  rw [exec_setup, execSetup, onPoll_runs poll, if_neg (by simp [fresh]), if_neg (by simp [invalid])]

theorem exec_setup_configures (poll : pollRuns s = true) (fresh : s.setupDone = false)
    (valid : configValid s.cfg = true) : exec .setup s = .next ((configure s).setRes .ok) := by
  rw [exec_setup, execSetup, onPoll_runs poll, if_neg (by simp [fresh]), if_pos valid]

theorem exec_isActive_runs (poll : pollRuns s = true) (spare : spared s = true) :
    exec .isActive s = .next (s.setRes (.bool s.active)) := by
  rw [exec_isActive, execIsActive, onPoll_runs poll, unlessRejected_spared spare]

/-! The stores of a read (44_host_interface.md R165). -/

theorem storeCells_cons_inside {i : Nat} {w : Byte} (inside : i < s.cfg.pcmBufBytes) :
    storeCells b ((i, w) :: cells) s = storeCells b cells (storeFill b i w s) := by
  rw [storeCells, if_pos inside]

theorem storeCells_cons_outside {i : Nat} {w : Byte} (outside : ¬i < s.cfg.pcmBufBytes) :
    storeCells b ((i, w) :: cells) s = storeCells b cells s := by
  rw [storeCells, if_neg outside]

theorem pcmByte_storeFill (s : State) (b c : Side) (i j : Nat) (w : Byte) :
    pcmByte (storeFill b i w s) c j = if c = b ∧ j = i then w else pcmByte s c j := by
  rw [storeFill_eq]
  exact pcmByte_writePcm s b c i j w

theorem oldBytes_storeFill (s : State) (b c : Side) (i j : Nat) (w : Byte) :
    oldBytes (storeFill b i w s) c j =
      if c = b ∧ j = i then oldBytes s b i ++ [{ pushes := s.pushes, byte := pcmByte s b i }] else oldBytes s c j := by
  rw [storeFill_eq]
  exact oldBytes_writePcm s b c i j w

/-- Into a buffer that is Filling the stores of a read write its bytes and keep those they replace, and nothing else. -/
theorem storeCells_filling (cells : List Host.Cell) (filling : s.st.get b = .filling) : storeCells b cells s =
    { s with pcm := (storeCells b cells s).pcm, pcmOld := (storeCells b cells s).pcmOld } := by
  conv_lhs => rw [storeCells_frame, if_pos (.inl filling)]

theorem storeFill_pcmOld (i : Nat) (w : Byte) (m : Memory (List OldByte)) :
    (storeFill b i w s).pcmOld.set b m = s.pcmOld.set b m := by
  rw [storeFill_eq]
  exact Pair.set_set _ _ _ _

/-- The stores of a read keep bytes of their own buffer only. -/
theorem storeCells_pcmOld (cells : List Host.Cell) (m : Memory (List OldByte)) :
    (storeCells b cells s).pcmOld.set b m = s.pcmOld.set b m := by
  induction cells generalizing s with
  | nil => rfl
  | cons e cells ih =>
    by_cases inside : e.1 < s.cfg.pcmBufBytes
    · rw [storeCells_cons_inside inside, ih, storeFill_pcmOld]
    · rw [storeCells_cons_outside inside, ih]

/-- Where the source's bytes are stored at some indices, what was there is kept, once for each time its index comes. -/
theorem oldBytes_storeSource (g : Storage) (is : List Nat) (s : State) (i : Nat) :
    oldBytes (storeCells b (is.map (sourceCell g)) s) b i = oldBytes s b i ++
      if i ∈ is ∧ i < s.cfg.pcmBufBytes then
        (pcmByte s b i :: List.replicate (is.count i - 1) (sourceByteAt g (g.pos + i))).map
          fun w => { pushes := s.pushes, byte := w }
      else [] := by
  induction is generalizing s with
  | nil => simp [storeCells]
  | cons k is ih =>
    rw [List.map_cons, sourceCell]
    by_cases inside : k < s.cfg.pcmBufBytes
    · have kept : (storeFill b k (sourceByteAt g (g.pos + k)) s).cfg = s.cfg ∧
          (storeFill b k (sourceByteAt g (g.pos + k)) s).pushes = s.pushes := by
        rw [storeFill_eq]
        exact ⟨rfl, rfl⟩
      rw [storeCells_cons_inside inside, ih, kept.1, kept.2, oldBytes_storeFill, pcmByte_storeFill]
      by_cases same : i = k
      · subst same
        by_cases later : i ∈ is
        · obtain ⟨n, count⟩ : ∃ n, is.count i = n + 1 := Nat.exists_eq_add_one.mpr (List.count_pos_iff.mpr later)
          simp [later, inside, count, List.replicate_succ]
        · simp [later, inside, List.count_eq_zero_of_not_mem later]
      · simp [same, Ne.symm same]
    · rw [storeCells_cons_outside inside, ih]
      by_cases same : i = k
      · subst same
        simp [inside]
      · simp [same, Ne.symm same]

theorem pcmByte_storeSource_all (g : Storage) (is : List Nat) (s : State) (c : Side) (i : Nat) :
    pcmByte (storeCells b (is.map (sourceCell g)) s) c i = if c = b ∧ i ∈ is ∧ i < s.cfg.pcmBufBytes then
      sourceByteAt g (g.pos + i) else pcmByte s c i := by
  rcases Side.eq_or_eq_other b c with rfl | rfl
  · simp only [pcmByte_storeSource, true_and]
  · rw [if_neg fun h => Side.other_ne _ h.1]
    exact (storeCells_bytes _ _ _ i).1.1

/-! A read by its outcome (44_host_interface.md R163, R165). -/

/-- An outcome that fails a read: the cells that it wrote, and none where no outcome is left (log 17, log 33). -/
def FailsWith (s : State) (cells : List Host.Cell) : Prop :=
  s.storage.reads = [] ∧ cells = [] ∨ ∃ reads, s.storage.reads = .failure cells :: reads

theorem readInto_noReads (none : s.storage.reads = []) : readInto r s = (.did false, s) := by
  rw [readInto, none]

theorem readInto_fails (outcome : FailsWith s cells) :
    readInto r s = (.did false, storeCells r.target cells (nextReads s.storage.reads.tail s)) := by
  rcases outcome with ⟨none, rfl⟩ | ⟨reads, failure⟩
  · have same : nextReads s.storage.reads.tail s = s := by
      rw [none, List.tail_nil, ← none]
      rfl
    rw [readInto_noReads none, same, storeCells]
  · rw [readInto, failure]
    rfl

theorem readInto_pending (outcome : s.storage.reads = .pending is :: reads) : readInto r s =
    (.pending { r with written := r.written ++ is },
      storeCells r.target (is.map (sourceCell s.storage)) (nextReads reads s)) := by
  rw [readInto, outcome]

/-- The buffers after a read that writes what is left: every byte that was not written before is the source's. -/
def filledUp (r : Reading) (reads : List ReadOutcome) (s : State) : State :=
  storeCells r.target ((unwritten s.cfg.pcmBufBytes r.written).map (sourceCell s.storage)) (nextReads reads s)

theorem pcmByte_filledUp (r : Reading) (reads : List ReadOutcome) (s : State) (c : Side) (i : Nat) :
    pcmByte (filledUp r reads s) c i = if c = r.target ∧ i < s.cfg.pcmBufBytes ∧ i ∉ r.written then
      sourceByteAt s.storage (s.storage.pos + i) else pcmByte s c i := by
  rw [filledUp, pcmByte_storeSource_all]
  exact if_congr (and_congr_right' ⟨fun h => mem_unwritten.mp h.1, fun h => ⟨mem_unwritten.mpr h, h.1⟩⟩) rfl rfl

/-- A read that succeeds, into the first Filling buffer: that buffer is Ready and published. -/
theorem readInto_success (first : firstIn .filling s.st = some r.target)
    (outcome : s.storage.reads = .success :: reads) : readInto r s = (.did true, { s with
      st := s.st.set r.target .ready, pcm := (filledUp r reads s).pcm, pcmOld := s.pcmOld.set r.target []
      storage := { s.storage with reads := reads, pos := s.storage.pos + s.cfg.pcmBufBytes } }) := by
  have stored : filledUp r reads s = { nextReads reads s with
      pcm := (filledUp r reads s).pcm, pcmOld := (filledUp r reads s).pcmOld } :=
    storeCells_filling (s := nextReads reads s) _ (firstIn_eq_some first).1
  have kept : (filledUp r reads s).pcmOld.set r.target [] = s.pcmOld.set r.target [] := storeCells_pcmOld _ _
  have marks : markFirstFilling (advanceSource (filledUp r reads s)) =
      some (markReady r.target (advanceSource (filledUp r reads s))) :=
    markFirstFilling_some (by rw [stored]; exact first)
  rw [readInto, outcome]
  dsimp only
  rw [← filledUp, marks, markReady_eq]
  generalize filledUp r reads s = f at stored kept
  generalize f.pcm = m, f.pcmOld = old at stored kept
  subst stored
  exact congrArg (fun old => (Polled.did true, { s with
    st := s.st.set r.target .ready, pcm := m, pcmOld := old
    storage := { s.storage with reads := reads, pos := s.storage.pos + s.cfg.pcmBufBytes } })) kept

/-! A `poll` begun, or gone on with inside its read (log 16). -/

/-- A `poll` of `s` that runs goes to the read `r`: it begins one into its target, or stands in one. -/
def PollReads (s : State) (r : Reading) : Prop := s.handler = none ∧
  (s.pollCtx = .free ∧ spared s = true ∧ r.written = [] ∧ PollTarget s r.target ∨
    s.pollCtx = .inPoll r ∧ s.st.get r.target = .filling)

theorem setStOf_same {x : BufState} (same : s.st.get b = x) : setStOf b x s = s := by
  rw [setStOf, ← same, Pair.set_get_self, State.setSt_self]

theorem pollOnce_target (target : PollTarget s b) : pollOnce s = readInto (newReading b) (setStOf b .filling s) := by
  rcases target with filling | ⟨idle, stale⟩
  · rw [pollOnce, filling, setStOf_same (firstIn_eq_some filling).1]
  · rw [pollOnce, idle, claimTarget_some stale]

theorem st_ne_ready_iff : s.st ≠ { a := .ready, b := .ready } ↔ s.st.a ≠ .ready ∨ s.st.b ≠ .ready := by
  rw [← not_and_or]
  exact not_congr ⟨fun full => full ▸ ⟨rfl, rfl⟩, fun ⟨a, b⟩ => Pair.ext_get fun c => by cases c <;> assumption⟩

theorem unready_of_get (unready : s.st.get b ≠ .ready) : s.st.a ≠ .ready ∨ s.st.b ≠ .ready := by
  cases b
  exacts [.inl unready, .inr unready]

theorem unready_of_filling (filling : s.st.get b = .filling) : s.st.a ≠ .ready ∨ s.st.b ≠ .ready :=
  unready_of_get (b := b) (by rw [filling]; decide)

/-- A `poll` has a target as long as a buffer is not Ready. -/
theorem exists_pollTarget (unready : s.st.a ≠ .ready ∨ s.st.b ≠ .ready) : ∃ b, PollTarget s b := by
  rcases pollOnce_cases s with ⟨b, target, -⟩ | ⟨idle, full, -⟩
  · exact ⟨b, target⟩
  · obtain ⟨idleA, idleB⟩ := firstIn_eq_none.mp idle
    obtain ⟨fullA, fullB⟩ := firstIn_eq_none.mp full
    exact absurd unready (not_or.mpr ⟨fun a => (stale_or_filling_of_ne_ready a).elim fullA idleA,
      fun b => (stale_or_filling_of_ne_ready b).elim fullB idleB⟩)

theorem pollOnce_full (full : s.st = { a := .ready, b := .ready }) : pollOnce s = (.did false, s) := by
  have filling : firstIn .filling s.st = none := by rw [full]; rfl
  have stale : firstIn .stale s.st = none := by rw [full]; rfl
  rw [pollOnce, filling, claimTarget_none stale]

theorem exec_poll_free (free : s.handler = none) (idle : s.pollCtx = .free) :
    exec .poll s = unlessRejected s fun s => endPoll (pollOnce s) := by
  simp only [exec_poll, execPoll, onPrimary_runs free, idle]

theorem exec_poll_inside (free : s.handler = none) (inside : s.pollCtx = .inPoll r) :
    exec .poll s = endPoll (readInto r s) := by
  simp only [exec_poll, execPoll, onPrimary_runs free, inside]

theorem PollReads.exec (h : PollReads s r) : exec .poll s = endPoll (readInto r (setStOf r.target .filling s)) := by
  obtain ⟨free, ⟨idle, spare, fresh, target⟩ | ⟨inside, filling⟩⟩ := h
  · rw [exec_poll_free free idle, unlessRejected_spared spare, pollOnce_target target, newReading, ← fresh]
  · rw [exec_poll_inside free inside, setStOf_same filling]

/-- A poll whose read fails: its target is Filling, with what the read wrote. -/
theorem PollReads.fails (h : PollReads s r) (outcome : FailsWith s cells) :
    let stored := storeCells r.target cells (nextReads s.storage.reads.tail (setStOf r.target .filling s))
    Machine.exec .poll s = .next { s with
      st := s.st.set r.target .filling, pcm := stored.pcm, pcmOld := stored.pcmOld
      storage := { s.storage with reads := s.storage.reads.tail }, pollCtx := .free, res := .bool false } := by
  intro stored
  have frame := storeCells_filling (s := nextReads s.storage.reads.tail (setStOf r.target .filling s)) (b := r.target)
    cells (Pair.get_set_same _ _ _)
  rw [h.exec, readInto_fails (s := setStOf r.target .filling s) outcome]
  exact congrArg (fun u => Host.Outcome.next ((State.setPollCtx u .free).setRes (.bool false))) frame

/-- A poll whose read goes on: its target is Filling with the source's bytes at the indices written in this step; what
they replace is kept of the target alone. -/
theorem PollReads.goesOn (h : PollReads s r) (outcome : s.storage.reads = .pending is :: reads) :
    ∃ t, Machine.exec .poll s = .next t ∧
      (∀ c i, pcmByte t c i = if c = r.target ∧ i ∈ is ∧ i < s.cfg.pcmBufBytes then
        sourceByteAt s.storage (s.storage.pos + i) else pcmByte s c i) ∧
      (∀ i, oldBytes t r.target i = oldBytes s r.target i ++
        if i ∈ is ∧ i < s.cfg.pcmBufBytes then
          (pcmByte s r.target i :: List.replicate (is.count i - 1) (sourceByteAt s.storage (s.storage.pos + i))).map
            fun w => { pushes := s.pushes, byte := w }
        else []) ∧
      (∀ i, oldBytes t r.target.other i = oldBytes s r.target.other i) ∧
      t.pcmOld.set r.target [] = s.pcmOld.set r.target [] ∧
      t = { s with
        st := s.st.set r.target .filling, pcm := t.pcm, pcmOld := t.pcmOld
        storage := { s.storage with reads := reads }
        pollCtx := .inPoll { r with written := r.written ++ is }, res := .waits } := by
  have frame := storeCells_filling (s := nextReads reads (setStOf r.target .filling s)) (b := r.target)
    (is.map (sourceCell s.storage)) (Pair.get_set_same _ _ _)
  rw [h.exec, readInto_pending (s := setStOf r.target .filling s) outcome]
  exact ⟨_, rfl, pcmByte_storeSource_all s.storage is (nextReads reads (setStOf r.target .filling s)),
    oldBytes_storeSource s.storage is (nextReads reads (setStOf r.target .filling s)),
    fun i => (storeCells_bytes r.target _ (nextReads reads (setStOf r.target .filling s)) i).1.2,
    storeCells_pcmOld (s := nextReads reads (setStOf r.target .filling s)) _ _,
    congrArg (fun u => (State.setPollCtx u (.inPoll { r with written := r.written ++ is })).setRes .waits) frame⟩

/-- A poll whose read succeeds, where its target is the first Filling buffer. -/
theorem PollReads.succeeds (h : PollReads s r) (first : firstIn .filling (s.st.set r.target .filling) = some r.target)
    (outcome : s.storage.reads = .success :: reads) : ∃ t, Machine.exec .poll s = .next t ∧
      (∀ c i, pcmByte t c i = if c = r.target ∧ i < s.cfg.pcmBufBytes ∧ i ∉ r.written then
        sourceByteAt s.storage (s.storage.pos + i) else pcmByte s c i) ∧
      t = { s with
        st := s.st.set r.target .ready, pcm := t.pcm, pcmOld := s.pcmOld.set r.target []
        storage := { s.storage with reads := reads, pos := s.storage.pos + s.cfg.pcmBufBytes }
        pollCtx := .free, res := .bool true } := by
  rw [h.exec, readInto_success (s := setStOf r.target .filling s) first outcome]
  refine ⟨_, rfl, pcmByte_filledUp r reads (setStOf r.target .filling s), ?_⟩
  simp only [setStOf, State.st_setSt, Pair.set_set]
  rfl

end Sys2Proof.HostOps

namespace Sys2Proof.Proofs

open Sys2Proof.Machine
open Sys2Proof.Invariant
open Sys2Proof.Buffers
open Sys2Proof.HostOps

/-! The statements about `setup`, `poll` and `isActive`. -/

/-- Settles O31: the three answers of `setup`. -/
theorem setup : Obligations.Setup := by
  intro s poll P bad off
  have accepted : configValid P = true ↔ ¬bad := by
    simp only [configValid_iff, bad, not_or, ne_eq, not_not, Nat.mod_two_ne_one]
  refine ⟨exec_setup_twice poll, fun fresh broken => ?_, fun fresh sound => ?_⟩
  · exact exec_setup_rejects poll fresh (Bool.eq_false_iff.mpr fun valid => accepted.mp valid broken)
  · rw [exec_setup_configures poll fresh (accepted.mpr sound), configure_eq]
    rfl

/-- Settles O36: with both buffers Ready the poll has no target. -/
theorem pollNoTarget : Obligations.PollNoTarget := by
  intro s poll spare full
  obtain ⟨free, idle⟩ := pollRuns_iff.mp poll
  rw [exec_poll_free free idle, unlessRejected_spared spare, pollOnce_full full, endPoll, ← idle]
  rfl

/-- Settles O41: `isActive` where POLL runs. -/
theorem isActive : Obligations.IsActive := fun _ poll spare => exec_isActive_runs poll spare

/-- Settles O37, begun and gone on with at once: the read that the poll goes to succeeds. -/
theorem pollFills : Obligations.PollFills := by
  intro s b written reads free case outcome
  have reading : PollReads s { target := b, written := written } :=
    ⟨free, case.imp id fun ⟨inside, first⟩ => ⟨inside, (firstIn_eq_some first).1⟩⟩
  have target : PollTarget s b := by
    rcases case with ⟨-, -, -, target⟩ | ⟨-, first⟩
    exacts [target, .inl first]
  obtain ⟨t, ran, bytes, ended⟩ := reading.succeeds target.firstIn_filling outcome
  refine ⟨t, ran, fun i inside => ?_, fun c i other => ?_, ended⟩
  · simp only [bytes b i, inside, true_and, ite_not]
  · rw [bytes c i]
    exact if_neg fun h => other.elim (· h.1) (Nat.not_le.mpr h.2.1)

/-- Settles O38, begun and gone on with at once: the read that the poll goes to fails. -/
theorem pollReadFails : Obligations.PollReadFails := by
  intro s b cells free case outcome
  obtain ⟨r, rfl, reading⟩ : ∃ r : Reading, r.target = b ∧ PollReads s r := by
    rcases case with ⟨idle, spare, target⟩ | ⟨⟨r, inside, rfl⟩, filling⟩
    · exact ⟨newReading b, rfl, free, .inl ⟨idle, spare, rfl, target⟩⟩
    · exact ⟨r, rfl, free, .inr ⟨inside, filling⟩⟩
  have bytes := storeCells_bytes r.target cells (nextReads s.storage.reads.tail (setStOf r.target .filling s))
  refine ⟨_, reading.fails outcome, fun i => (bytes i).1, fun i untouched => ?_, fun i inside named => ?_, rfl⟩
  · refine (bytes i).2.1 fun e he same => ?_
    obtain ⟨listed, below⟩ := mem_cellsInside.mp he
    rcases untouched with above | unnamed
    · exact Nat.not_le.mpr below (same ▸ above)
    · exact unnamed e listed same
  · obtain ⟨e, listed, rfl⟩ := named
    obtain ⟨last, mids, between, kept⟩ := (bytes e.1).2.2 ⟨e, mem_cellsInside.mpr ⟨listed, inside⟩, rfl⟩
    exact ⟨(mem_cellsInside.mp last).1, mids, fun w hw => (mem_cellsInside.mp (between w hw)).1, kept⟩

/-- Settles O39, begun and gone on with at once: the read that the poll goes to goes on. -/
theorem pollReadGoesOn : Obligations.PollReadGoesOn := by
  intro s u r is reads free case filling outcome
  obtain ⟨reading, rfl⟩ : PollReads s r ∧ u = setStOf r.target .filling s := by
    rcases case with ⟨inside, rfl⟩ | ⟨idle, spare, rfl, fresh, target⟩
    · exact ⟨⟨free, .inr ⟨inside, filling⟩⟩, (setStOf_same filling).symm⟩
    · exact ⟨⟨free, .inl ⟨idle, spare, fresh, target⟩⟩, rfl⟩
  obtain ⟨t, ran, bytes, old, otherOld, -, held⟩ := reading.goesOn outcome
  refine ⟨t, ran, fun i => ?_, old, fun i => ⟨?_, otherOld i⟩, held⟩
  · simp only [bytes r.target i, true_and]
  · rw [bytes r.target.other i, if_neg fun h => Side.other_ne _ h.1]

/-- Settles O40: the three polls by their reads, and the bytes that the two reads of the cut one write between them. -/
theorem splitPollIsWholePoll : Obligations.SplitPollIsWholePoll := by
  intro s is reads poll spare unready outcome
  obtain ⟨free, idle⟩ := pollRuns_iff.mp poll
  obtain ⟨b, target⟩ := exists_pollTarget (st_ne_ready_iff.mp unready)
  have begun : PollReads s { target := b, written := [] } := ⟨free, .inl ⟨idle, spare, rfl, target⟩⟩
  obtain ⟨u, cut, early, -, -, kept, held⟩ := begun.goesOn outcome
  have inside : PollReads u { target := b, written := is } := by
    rw [held]
    exact ⟨free, .inr ⟨rfl, Pair.get_set_same _ _ _⟩⟩
  have claimed : u.st.set b .filling = s.st.set b .filling ∧ u.st.set b .ready = s.st.set b .ready := by
    rw [held]
    exact ⟨Pair.set_set _ _ _ _, Pair.set_set _ _ _ _⟩
  have source : u.cfg = s.cfg ∧ u.storage = { s.storage with reads := .success :: reads } := by
    rw [held]
    exact ⟨rfl, rfl⟩
  obtain ⟨t, finished, late, ended⟩ := inside.succeeds (by rw [claimed.1]; exact target.firstIn_filling)
    (by rw [source.2])
  have whole : PollReads { s with storage := { s.storage with reads := .success :: reads } }
      { target := b, written := [] } := ⟨free, .inl ⟨idle, spare, rfl, target⟩⟩
  obtain ⟨t', ran, bytes, ended'⟩ := whole.succeeds target.firstIn_filling rfl
  refine ⟨u, t, t', cut, finished, ran, by rw [ended], fun c i => ?_, ?_⟩
  · rw [late c i, early c i, source.1, source.2, bytes c i]
    by_cases cutOff : c = b ∧ i ∈ is ∧ i < s.cfg.pcmBufBytes
    · obtain ⟨same, written, below⟩ := id cutOff
      rw [if_neg fun h => h.2.2 written]
      exact (if_pos cutOff).trans (if_pos ⟨same, below, List.not_mem_nil⟩).symm
    · rw [if_neg cutOff]
      exact if_congr ⟨fun h => ⟨h.1, h.2.1, List.not_mem_nil⟩,
        fun h => ⟨h.1, h.2.1, fun written => cutOff ⟨h.1, written, h.2.1⟩⟩⟩ rfl rfl
  · have published : u.pcmOld.set b [] = s.pcmOld.set b [] := kept
    rw [ended, ended', published, claimed.2, held]

end Sys2Proof.Proofs

/-! The fill loop of `start` (44_host_interface.md R161): where POLL stands and the last result decide nothing in it, so
that each of its turns is a `poll` and its end is `dma_start`. -/

namespace Sys2Proof.HostOps

open Sys2Proof.Machine
open Sys2Proof.Effects
open Sys2Proof.Encoder
open Sys2Proof.Buffers
open Sys2Proof.Transfer

variable {s t u : State} {b : Side} {r : Reading} {src : Source} {p : PollCtx} {x : Result} {cells : List Host.Cell}
  {reads : List ReadOutcome}

/-! Where POLL stands and the last result: no job, start or fill reads them. -/

/-- `s` with POLL at another place, and another result before it (log 12, log 16). -/
def standAt (p : PollCtx) (x : Result) (s : State) : State := (s.setPollCtx p).setRes x

@[simp] theorem standAt_cfg : (standAt p x s).cfg = s.cfg := rfl
@[simp] theorem standAt_ctx : (standAt p x s).ctx = s.ctx := rfl
@[simp] theorem standAt_st : (standAt p x s).st = s.st := rfl
@[simp] theorem standAt_ch : (standAt p x s).ch = s.ch := rfl
@[simp] theorem standAt_wpend : (standAt p x s).wpend = s.wpend := rfl
@[simp] theorem standAt_storage : (standAt p x s).storage = s.storage := rfl

/-- The answer `o` with its next state standing elsewhere. -/
def answerAt (p : PollCtx) (x : Result) (o : Out) : Out := andThen o fun t => .next (standAt p x t)

theorem readPcm_standAt (b : Side) (i : Nat) :
    readPcm b i (standAt p x s) = ((readPcm b i s).1, standAt p x (readPcm b i s).2) := by
  have drawn : ∀ (olds : List Byte) (new : Byte), drawOf olds new (standAt p x s) =
      ((drawOf olds new s).1, standAt p x (drawOf olds new s).2) := fun olds new => by cases olds <;> rfl
  exact drawn _ _

theorem keepOldWire_eq (c : Side) (j : Nat) (s : State) : keepOldWire c j s = s.setWireOld
    (if (s.ch.get c).busy then
      s.wireOld.set c (Memory.write (s.wireOld.get c) j (oldEntries s c j ++ [wireEntry s c j]))
    else s.wireOld) := by
  unfold keepOldWire
  split <;> rfl

theorem writeWire_standAt (c : Side) (j : Nat) (w : WireWord) :
    writeWire c j w (standAt p x s) = standAt p x (writeWire c j w s) := by
  rw [writeWire, writeWire, keepOldWire_eq, keepOldWire_eq]
  rfl

theorem encodeStep_standAt (b : Side) (i : Nat) (c : Side) (j : Nat) :
    encodeStep b i c j (standAt p x s) = standAt p x (encodeStep b i c j s) := by
  have moved : ∀ (u : State) (y : Context), (standAt p x u).setCtx y = standAt p x (u.setCtx y) := fun _ _ => rfl
  simp only [encodeStep, storeWords, readPcm_standAt, standAt_ctx, moved, writeWire_standAt]

theorem encodeLoop_standAt (b c : Side) (n i j : Nat) :
    encodeLoop b c n i j (standAt p x s) = standAt p x (encodeLoop b c n i j s) := by
  induction n generalizing i j s with
  | zero => rfl
  | succ n ih => rw [encodeLoop, encodeStep_standAt, ih, encodeLoop]

theorem encodeRange_standAt (b : Side) (i : Nat) (c : Side) (j n : Nat) :
    encodeRange b i c j n (standAt p x s) = answerAt p x (encodeRange b i c j n s) := by
  simp only [encodeRange, encodeLoop_standAt, standAt_cfg]
  split
  · rfl
  · split <;> rfl

theorem consume_standAt (c : Side) : consume c (standAt p x s) = answerAt p x (consume c s) := by
  have unfolded : ∀ u, consume c u = andThen
      (encodeRange u.ctx.sel (underrunMarked u).ctx.cur c 0 (underrunMarked u).cfg.chunkBytes (underrunMarked u))
      fun w => .next (setWpendOf c false (advanceCursor w)) := fun _ => rfl
  have marked : underrunMarked (standAt p x s) = standAt p x (underrunMarked s) := by
    rw [underrunMarked_eq, underrunMarked_eq]
    rfl
  have ended : ∀ w, advanceCursor (standAt p x w) = standAt p x (advanceCursor w) := fun w => by
    rw [advanceCursor_eq, advanceCursor_eq]
    rfl
  simp only [unfolded, marked, standAt_ctx, standAt_cfg, encodeRange_standAt]
  cases encodeRange s.ctx.sel (underrunMarked s).ctx.cur c 0 (underrunMarked s).cfg.chunkBytes (underrunMarked s) with
  | next w => exact congrArg (fun w => Host.Outcome.next (setWpendOf c false w)) (ended w)
  | fault | refused => rfl

theorem trigger_standAt (d : Side) : trigger d (standAt p x s) = standAt p x (trigger d s) := by
  cases on : (s.ch.get d).en
  · rw [trigger_disabled on, trigger_disabled (s := standAt p x s) on]
  · cases armed : (s.ch.get d).armed
    · rw [trigger_unarmed on armed, trigger_unarmed (s := standAt p x s) on armed]
      rfl
    · rw [trigger_armed on armed, trigger_armed (s := standAt p x s) on armed]
      rfl

theorem launch_standAt : launch (standAt p x s) = standAt p x (launch s) :=
  trigger_standAt (s := ((s.setIrq (both false)).setCh
    { a := loadedChan s.ch.a, b := loadedChan s.ch.b }).setActive true) .A

theorem startTransmitter_ready (done : s.setupDone = true) (inactive : s.active = false) (a : s.st.a = .ready)
    (b : s.st.b = .ready) : startTransmitter s = encoderFree s fun s => andThen (consume .A (coldStart s)) fun s =>
      andThen (consume .B s) fun s => .next (launch s) := by
  rw [startTransmitter, if_neg (by simp [done, inactive]), if_neg (by simp [a, b])]

/-- A start takes its channels, buffers and context from `s`, and leaves POLL where it stands. -/
theorem startTransmitter_standAt : startTransmitter (standAt p x s) = answerAt p x (startTransmitter s) := by
  by_cases invalid : s.setupDone = false ∨ s.active = true
  · rw [startTransmitter_invalid invalid, startTransmitter_invalid (s := standAt p x s) invalid]
    rfl
  obtain ⟨done, inactive⟩ : s.setupDone = true ∧ s.active = false := by simpa using invalid
  by_cases unready : s.st.a ≠ .ready ∨ s.st.b ≠ .ready
  · rw [startTransmitter_notReady done inactive unready,
      startTransmitter_notReady (s := standAt p x s) done inactive unready]
    rfl
  obtain ⟨a, b⟩ : s.st.a = .ready ∧ s.st.b = .ready := by simpa using unready
  rw [startTransmitter_ready done inactive a b, startTransmitter_ready (s := standAt p x s) done inactive a b]
  by_cases busy : jobRunning s = true
  · rw [encoderFree_busy busy, encoderFree_busy (s := standAt p x s) busy]
    rfl
  have cold : consume .A (coldStart (standAt p x s)) = answerAt p x (consume .A (coldStart s)) :=
    consume_standAt (s := coldStart s) (p := p) (x := x) .A
  have idle := eq_false_of_ne_true busy
  rw [encoderFree_free idle, encoderFree_free (s := standAt p x s) idle, cold]
  cases consume .A (coldStart s) with
  | next u =>
    simp only [answerAt, andThen_next, consume_standAt]
    cases consume .B u with
    | next v => exact congrArg Host.Outcome.next launch_standAt
    | fault | refused => rfl
  | fault | refused => rfl

/-! The fill. -/

theorem storeCells_standAt (cells : List Host.Cell) :
    storeCells b cells (standAt p x s) = standAt p x (storeCells b cells s) := by
  have stored : ∀ (i : Nat) (w : Byte) (u : State),
      storeFill b i w (standAt p x u) = standAt p x (storeFill b i w u) := by
    intro i w u
    rw [storeFill_eq, storeFill_eq]
    rfl
  induction cells generalizing s with
  | nil => rfl
  | cons e cells ih =>
    by_cases inside : e.1 < s.cfg.pcmBufBytes
    · rw [storeCells_cons_inside inside, storeCells_cons_inside (s := standAt p x s) inside, stored, ih]
    · rw [storeCells_cons_outside inside, storeCells_cons_outside (s := standAt p x s) inside, ih]

theorem markFirstFilling_standAt :
    markFirstFilling (standAt p x s) = (markFirstFilling s).map (standAt p x) := by
  simp only [markFirstFilling, standAt_st, standAt_cfg]
  cases firstIn .filling s.st with
  | some b => rfl
  | none => cases s.cfg.markFilledIdle <;> rfl

theorem markFirstFilling_storage (h : markFirstFilling s = some u) : u.storage = s.storage := by
  rcases markFirstFilling_eq_some h with rfl | ⟨b, -, rfl⟩ <;> rfl

/-- What a read or a poll answers, with its state standing elsewhere. -/
def polledAt (p : PollCtx) (x : Result) (e : Polled × State) : Polled × State := (e.1, standAt p x e.2)

theorem endPoll_polledAt (e : Polled × State) : endPoll (polledAt p x e) = endPoll e := by
  obtain ⟨answer, u⟩ := e
  cases answer <;> rfl

theorem readInto_standAt : readInto r (standAt p x s) = polledAt p x (readInto r s) := by
  have next : ∀ reads, nextReads reads (standAt p x s) = standAt p x (nextReads reads s) := fun _ => rfl
  simp only [readInto, standAt_storage, standAt_cfg, next, storeCells_standAt]
  cases s.storage.reads with
  | nil => rfl
  | cons outcome reads =>
    cases outcome with
    | failure | pending => rfl
    | success =>
      have advanced : ∀ u, advanceSource (standAt p x u) = standAt p x (advanceSource u) := fun _ => rfl
      simp only [advanced, markFirstFilling_standAt]
      cases markFirstFilling (advanceSource (storeCells r.target
        ((unwritten s.cfg.pcmBufBytes r.written).map (sourceCell s.storage)) (nextReads reads s))) <;> rfl

theorem pollOnce_standAt : pollOnce (standAt p x s) = polledAt p x (pollOnce s) := by
  by_cases unready : s.st.a ≠ .ready ∨ s.st.b ≠ .ready
  · obtain ⟨b, target⟩ := exists_pollTarget unready
    rw [pollOnce_target target, pollOnce_target (s := standAt p x s) target]
    exact readInto_standAt (s := setStOf b .filling s)
  · have full : s.st = { a := .ready, b := .ready } := not_not.mp fun h => unready (st_ne_ready_iff.mp h)
    rw [pollOnce_full full, pollOnce_full (s := standAt p x s) full]
    rfl

theorem fillLoop_standAt (k : Nat) :
    fillLoop k (standAt p x s) = ((fillLoop k s).1, standAt p x (fillLoop k s).2) := by
  induction k generalizing s with
  | zero => rfl
  | succ k ih =>
    have test : bothReady (standAt p x s) = bothReady s := rfl
    rw [fillLoop, fillLoop, test, pollOnce_standAt]
    cases bothReady s with
    | true => rfl
    | false =>
      obtain ⟨answer, u⟩ := pollOnce s
      cases answer with
      | did v => exact ih
      | pending | refused => rfl

/-- What follows the fill loop does not see where POLL stood before, nor the last result. -/
theorem endStart_standAt {fill : FillEnd} : endStart (fill, standAt p x s) = endStart (fill, s) := by
  cases fill with
  | ready =>
    simp only [endStart, startTransmitter_standAt]
    cases startTransmitter s <;> rfl
  | waiting | refused => rfl

theorem endStart_fillBuffers_standAt : endStart (fillBuffers (standAt p x s)) = endStart (fillBuffers s) := by
  rw [fillBuffers, standAt_storage, fillLoop_standAt, endStart_standAt, fillBuffers]

/-- The end of the fill with both buffers Ready is `dma_start`, at whose end POLL is free as it was. -/
theorem endStart_ready (poll : pollRuns s = true) : endStart (.ready, s) = exec .dmaStart s := by
  obtain ⟨-, idle⟩ := pollRuns_iff.mp poll
  have stands : s = standAt .free s.res s := by
    rw [standAt, ← idle, State.setPollCtx_self, State.setRes_self]
  rw [exec_dmaStart_runs poll, endStart, stands, startTransmitter_standAt]
  cases startTransmitter s <;> rfl

/-! The turns of the fill loop (44_host_interface.md R161). -/

theorem bothReady_eq_false (unready : s.st.a ≠ .ready ∨ s.st.b ≠ .ready) : bothReady s = false :=
  eq_false_of_ne_true fun full => not_or.mpr ((bothReady_iff s).mp full |>.imp not_not.mpr not_not.mpr) unready

theorem fillBuffers_full (full : s.st = { a := .ready, b := .ready }) : fillBuffers s = (.ready, s) := by
  rw [fillBuffers, fillLoop, if_pos ((bothReady_iff s).mpr (by rw [full]; exact ⟨rfl, rfl⟩))]

/-- Where the fill loop goes on after a poll of it. -/
def goOn : Polled × State → FillEnd × State
  | (.did _, s) => fillBuffers s
  | (.pending r, s) => (.waiting (some r), s)
  | (.refused, s) => (.refused, s)

theorem resumeFill_read : resumeFill (some r) s = goOn (readInto r s) := by
  rw [resumeFill]
  obtain ⟨answer, u⟩ := readInto r s
  cases answer <;> rfl

/-- A read that ends or goes on has used up its outcome, and leaves the source bound. -/
theorem readInto_uses {answer : Polled} (h : readInto r s = (answer, u)) (taken : answer ≠ .refused) :
    u.storage.reads = s.storage.reads.tail ∧ u.storage.bound = s.storage.bound := by
  have stored : ∀ cells reads, (storeCells r.target cells (nextReads reads s)).storage =
      { s.storage with reads := reads } := fun _ _ => by rw [storeCells_frame]; rfl
  unfold readInto at h
  cases reads : s.storage.reads with
  | nil =>
    rw [reads] at h
    cases h
    rw [reads]
    exact ⟨rfl, rfl⟩
  | cons outcome reads' =>
    rw [reads] at h
    cases outcome with
    | failure | pending =>
      cases h
      rw [stored]
      exact ⟨rfl, rfl⟩
    | success =>
      dsimp only at h
      split at h
      · next marks =>
        cases h
        have kept := markFirstFilling_storage marks
        rw [kept, advanceSource, State.storage_setStorage, stored]
        exact ⟨rfl, rfl⟩
      · cases h
        exact absurd rfl taken

/-- With no outcome left the loop waits (log 17). -/
theorem fillBuffers_noReads (none : s.storage.reads = []) (left : firstIn .filling s.st = some b) :
    fillBuffers s = (.waiting Option.none, s) := by
  have filling := (firstIn_eq_some left).1
  rw [fillBuffers, none, fillLoop, bothReady_eq_false (unready_of_filling filling),
    pollOnce_target (.inl left), setStOf_same filling, readInto_noReads none]
  rfl

/-- With a buffer not Ready the loop is one poll, and the loop again where that ends. -/
theorem fillBuffers_unready (unready : s.st.a ≠ .ready ∨ s.st.b ≠ .ready) : fillBuffers s = goOn (pollOnce s) := by
  obtain ⟨b, target⟩ := exists_pollTarget unready
  rw [fillBuffers, fillLoop, bothReady_eq_false unready, pollOnce_target target]
  cases turn : readInto (newReading b) (setStOf b .filling s) with
  | mk answer u =>
    cases answer with
    | pending | refused => rfl
    | did v =>
      show fillLoop s.storage.reads.length u = fillBuffers u
      obtain ⟨used, -⟩ := readInto_uses turn nofun
      cases reads : s.storage.reads with
      | nil =>
        rw [readInto_noReads (s := setStOf b .filling s) reads] at turn
        cases turn
        rw [fillBuffers_noReads (s := setStOf b .filling s) reads target.firstIn_filling]
        rfl
      | cons outcome rest =>
        have left : u.storage.reads = rest := used.trans (congrArg List.tail reads)
        rw [fillBuffers, left]
        rfl

/-! `start` begun, or gone on with (log 16). -/

theorem exec_start_begins (poll : pollRuns s = true) (done : s.setupDone = true) (inactive : s.active = false) :
    exec (.start src) s = endStart (fillBuffers (bindSource src s)) := by
  obtain ⟨free, idle⟩ := pollRuns_iff.mp poll
  simp only [exec_start, execStart, onPrimary_runs free, idle]
  exact if_neg (by simp [done, inactive])

theorem exec_start_again {y : Option Reading} (free : s.handler = none) (inside : s.pollCtx = .inStart y)
    (bound : s.storage.bound = some src) : exec (.start src) s = endStart (resumeFill y s) := by
  simp only [exec_start, execStart, onPrimary_runs free, inside, if_pos bound]

/-- One turn of the loop by what its poll answers. -/
theorem endStart_goOn {e : Polled × State} (answered : endPoll e = .next u) :
    (∀ r, u.pollCtx = .inPoll r → endStart (goOn e) = .next { u with pollCtx := .inStart (some r) }) ∧
    (u.pollCtx = .free → endStart (goOn e) = endStart (fillBuffers u)) := by
  obtain ⟨answer, w⟩ := e
  cases answer with
  | did v =>
    cases answered
    exact ⟨nofun, fun _ => (endStart_fillBuffers_standAt (s := w)).symm⟩
  | pending r =>
    cases answered
    refine ⟨fun r' inside => ?_, nofun⟩
    cases inside
    rfl
  | refused => cases answered

/-- The poll of a turn keeps the source, and no handler runs after it. -/
theorem polled_keeps (answered : endPoll (readInto r s) = .next u) :
    u.handler = s.handler ∧ u.storage.bound = s.storage.bound := by
  obtain ⟨_, _, _, _, _, frame, -⟩ := fillKeeps_frame.readInto r s
  have handler : (readInto r s).2.handler = s.handler := by rw [frame]
  cases turn : readInto r s with
  | mk answer v =>
    rw [turn] at answered handler
    cases answer with
    | did | pending =>
      cases answered
      exact ⟨handler, (readInto_uses turn nofun).2⟩
    | refused => cases answered

/-- The `start` of `s` is a poll that answers `u`, and after it the loop. -/
def TurnsBy (src : Source) (s u : State) : Prop := ∃ e, endPoll e = .next u ∧
  exec (.start src) s = endStart (goOn e) ∧ u.handler = none ∧ u.storage.bound = some src

theorem start_turns_between (free : s.handler = none) (between : s.pollCtx = .inStart none)
    (bound : s.storage.bound = some src) (unready : s.st.a ≠ .ready ∨ s.st.b ≠ .ready)
    (polled : exec .poll (standAt .free s.res s) = .next u) : TurnsBy src s u := by
  obtain ⟨b, target⟩ := exists_pollTarget unready
  rw [exec_poll_free (s := standAt .free s.res s) free rfl] at polled
  have answered := (unlessRejected_eq_next polled).2
  rw [pollOnce_standAt, endPoll_polledAt] at answered
  refine ⟨pollOnce s, answered, ?_, ?_⟩
  · rw [exec_start_again free between bound, resumeFill, fillBuffers_unready unready]
  · rw [pollOnce_target target] at answered
    obtain ⟨handler, source⟩ := polled_keeps answered
    exact ⟨handler.trans free, source.trans bound⟩

theorem start_turns_inside (free : s.handler = none) (inside : s.pollCtx = .inStart (some r))
    (bound : s.storage.bound = some src) (polled : exec .poll (standAt (.inPoll r) s.res s) = .next u) :
    TurnsBy src s u := by
  rw [exec_poll_inside (s := standAt (.inPoll r) s.res s) free rfl, readInto_standAt, endPoll_polledAt] at polled
  obtain ⟨handler, source⟩ := polled_keeps polled
  exact ⟨readInto r s, polled, by rw [exec_start_again free inside bound, resumeFill_read],
    handler.trans free, source.trans bound⟩

/-! The loop while every read fails (log 16, log 17). -/

/-- Every outcome that is left fails its read. -/
def OnlyFails (reads : List ReadOutcome) : Prop := ∀ r ∈ reads, ∃ cells, r = .failure cells

theorem OnlyFails.failsWith (fails : OnlyFails s.storage.reads) : ∃ cells, FailsWith s cells := by
  cases reads : s.storage.reads with
  | nil => exact ⟨[], .inl ⟨reads, rfl⟩⟩
  | cons outcome rest =>
    obtain ⟨cells, rfl⟩ := fails outcome (by rw [reads]; exact List.mem_cons_self)
    exact ⟨cells, .inr ⟨rest, reads⟩⟩

theorem OnlyFails.tail (fails : OnlyFails reads) : OnlyFails reads.tail :=
  fun r later => fails r (List.mem_of_mem_tail later)

/-- From `s` to `u` reads have failed and fail still: a buffer is not Ready, and no more has changed than `ST`, bytes of
the PCM buffers, and the outcomes that are left. -/
def StillFilling (s u : State) : Prop :=
  (u.st.a ≠ .ready ∨ u.st.b ≠ .ready) ∧ OnlyFails u.storage.reads ∧ u = { s with
    st := u.st, pcm := u.pcm, pcmOld := u.pcmOld, storage := { s.storage with reads := u.storage.reads } }

theorem StillFilling.trans (h : StillFilling s t) (h' : StillFilling t u) : StillFilling s u := by
  obtain ⟨unready, fails, frame⟩ := h'
  exact ⟨unready, fails, frame.trans (by rw [h.2.2])⟩

/-- A failed read leaves its target Filling. -/
theorem readInto_stillFilling (filling : s.st.get r.target = .filling) (fails : OnlyFails s.storage.reads) :
    ∃ u, readInto r s = (.did false, u) ∧ u.storage.reads = s.storage.reads.tail ∧ StillFilling s u := by
  obtain ⟨cells, outcome⟩ := fails.failsWith
  have stored := storeCells_filling (s := nextReads s.storage.reads.tail s) cells filling
  have ran := readInto_fails (r := r) outcome
  generalize storeCells r.target cells (nextReads s.storage.reads.tail s) = u at stored ran
  have left : u.storage.reads = s.storage.reads.tail := by rw [stored]; rfl
  refine ⟨u, ran, left, unready_of_filling (b := r.target) ?_, left ▸ fails.tail, ?_⟩
  · rw [stored]
    exact filling
  · rw [stored]
    rfl

theorem pollOnce_stillFilling (unready : s.st.a ≠ .ready ∨ s.st.b ≠ .ready) (fails : OnlyFails s.storage.reads) :
    ∃ u, pollOnce s = (.did false, u) ∧ u.storage.reads = s.storage.reads.tail ∧ StillFilling s u := by
  obtain ⟨b, target⟩ := exists_pollTarget unready
  rw [pollOnce_target target]
  exact readInto_stillFilling (r := newReading b) (s := setStOf b .filling s) (Pair.get_set_same _ _ _) fails

/-- The loop ends between two reads, with none left and a buffer still not Ready. -/
theorem fillBuffers_stillFilling (unready : s.st.a ≠ .ready ∨ s.st.b ≠ .ready) (fails : OnlyFails s.storage.reads) :
    ∃ u, fillBuffers s = (.waiting none, u) ∧ u.storage.reads = [] ∧ StillFilling s u := by
  induction reads : s.storage.reads generalizing s with
  | nil =>
    obtain ⟨b, target⟩ := exists_pollTarget unready
    have waits := fillBuffers_noReads (s := setStOf b .filling s) reads target.firstIn_filling
    refine ⟨setStOf b .filling s, ?_, reads, unready_of_filling (b := b) (Pair.get_set_same _ _ _), fails, rfl⟩
    rw [fillBuffers_unready unready, pollOnce_target target, readInto_noReads (s := setStOf b .filling s) reads]
    exact waits
  | cons outcome rest ih =>
    obtain ⟨u, polled, left, still⟩ := pollOnce_stillFilling unready fails
    obtain ⟨v, ran, empty, still'⟩ := ih still.1 still.2.1 (by rw [left, reads]; rfl)
    exact ⟨v, by rw [fillBuffers_unready unready, polled]; exact ran, empty, still.trans still'⟩

/-! The loop while no read goes on. -/

/-- How many buffers are not Ready. -/
def unreadyCount (st : Pair BufState) : Nat := (if st.a = .ready then 0 else 1) + (if st.b = .ready then 0 else 1)

theorem unreadyCount_eq_zero : unreadyCount s.st = 0 ↔ s.st = { a := .ready, b := .ready } := by
  rw [← not_iff_not, ← ne_eq, ← ne_eq (a := s.st), st_ne_ready_iff, unreadyCount]
  by_cases a : s.st.a = .ready <;> by_cases b : s.st.b = .ready <;> simp [a, b]

theorem unreadyCount_set {x : BufState} (unready : s.st.get b ≠ .ready) :
    unreadyCount (s.st.set b x) + (if x = .ready then 1 else 0) = unreadyCount s.st := by
  have one : (if x = .ready then 0 else 1) + (if x = .ready then 1 else 0) = 1 := by split <;> rfl
  cases b
  · rw [unreadyCount, unreadyCount, Pair.set_A, if_neg (show s.st.a ≠ .ready from unready)]
    dsimp only
    omega
  · rw [unreadyCount, unreadyCount, Pair.set_B, if_neg (show s.st.b ≠ .ready from unready)]
    dsimp only
    omega

theorem pollTarget_unready (target : PollTarget s b) : s.st.get b ≠ .ready := by
  rcases target with first | ⟨-, first⟩ <;> rw [(firstIn_eq_some first).1] <;> decide

/-- The state of `ST` that a read of this outcome leaves its target in. -/
def afterRead (o : ReadOutcome) : BufState := if o = .success then .ready else .filling

/-- A poll whose read ends is a turn of the loop, and it writes `ST` of its target. -/
theorem exec_poll_ends {o : ReadOutcome} (poll : pollRuns s = true) (spare : spared s = true) (target : PollTarget s b)
    (outcome : s.storage.reads = o :: reads) (ends : o = .success ∨ ∃ cells, o = .failure cells) :
    ∃ t, exec .poll s = .next t ∧ endStart (fillBuffers s) = endStart (fillBuffers t) ∧ t.storage.reads = reads ∧
      t = { s with
        st := s.st.set b (afterRead o), pcm := t.pcm, pcmOld := t.pcmOld, storage := t.storage, res := t.res } := by
  obtain ⟨free, idle⟩ := pollRuns_iff.mp poll
  have reading : PollReads s (newReading b) := ⟨free, .inl ⟨idle, spare, rfl, target⟩⟩
  obtain ⟨t, ran, left, frame⟩ : ∃ t, exec .poll s = .next t ∧ t.storage.reads = reads ∧ t = { s with
      st := s.st.set b (afterRead o), pcm := t.pcm, pcmOld := t.pcmOld, storage := t.storage, pollCtx := .free
      res := t.res } := by
    rcases ends with rfl | ⟨cells, rfl⟩
    · obtain ⟨t, ran, -, frame⟩ := reading.succeeds target.firstIn_filling outcome
      exact ⟨t, ran, by rw [frame], by rw [frame]; rfl⟩
    · exact ⟨_, reading.fails (.inr ⟨reads, outcome⟩), by rw [outcome]; rfl, rfl⟩
  have answered : endPoll (pollOnce s) = .next t := by
    rwa [exec_poll_free free idle, unlessRejected_spared spare] at ran
  have turn := (endStart_goOn answered).2 (by rw [frame])
  rw [← fillBuffers_unready (unready_of_get (pollTarget_unready target))] at turn
  exact ⟨t, ran, turn, left, by rw [← idle] at frame; exact frame⟩

/-- As many successes as there are buffers not Ready, the last outcome among them: the polls fill both buffers, and the
loop comes to the same `dma_start`. -/
theorem repeatPoll_fills (front : List ReadOutcome) {rest : List ReadOutcome} (poll : pollRuns s = true)
    (spare : spared s = true) (outcomes : s.storage.reads = front ++ rest)
    (ends : ∀ r ∈ front, r = .success ∨ ∃ cells, r = .failure cells)
    (count : (front.filter fun r => decide (r = .success)).length = unreadyCount s.st)
    (last : front = [] ∨ front.getLast? = some .success) :
    ∃ t, repeatPoll front.length s = .next t ∧ t.st = { a := .ready, b := .ready } ∧ t.storage.reads = rest ∧
      endStart (fillBuffers s) = exec .dmaStart t ∧
      t = { s with st := t.st, pcm := t.pcm, pcmOld := t.pcmOld, storage := t.storage, res := t.res } := by
  induction front generalizing s with
  | nil =>
    have full := unreadyCount_eq_zero.mp count.symm
    exact ⟨s, rfl, full, outcomes, by rw [fillBuffers_full full, endStart_ready poll], rfl⟩
  | cons o front ih =>
    have success : .success ∈ o :: front := List.mem_of_getLast? (last.resolve_left nofun)
    have some_left : 0 < unreadyCount s.st := by
      rw [← count]
      exact List.length_pos_of_mem (List.mem_filter.mpr ⟨success, decide_eq_true rfl⟩)
    obtain ⟨b, target⟩ := exists_pollTarget (st_ne_ready_iff.mp (mt unreadyCount_eq_zero.mpr some_left.ne'))
    obtain ⟨t, ran, turn, left, frame⟩ := exec_poll_ends poll spare target outcomes (ends o List.mem_cons_self)
    have moved := unreadyCount_set (x := afterRead o) (pollTarget_unready target)
    have st : t.st = s.st.set b (afterRead o) := by rw [frame]
    rw [← st, ← count] at moved
    have count' : (front.filter fun r => decide (r = .success)).length = unreadyCount t.st := by
      rcases ends o List.mem_cons_self with rfl | ⟨cells, rfl⟩ <;> simpa [afterRead] using moved.symm
    have last' : front = [] ∨ front.getLast? = some .success := by
      cases front with
      | nil => exact .inl rfl
      | cons o' front => exact .inr (by simpa using last)
    obtain ⟨v, runs, full, left', launches, frame'⟩ := ih (by rw [frame]; exact poll) (by rw [frame]; exact spare) left
      (fun r later => ends r (List.mem_cons_of_mem _ later)) count' last'
    refine ⟨v, ?_, full, left', turn.trans launches, frame'.trans (by rw [frame])⟩
    rw [List.length_cons, repeatPoll, ← exec_poll, ran, andThen_next, runs]

end Sys2Proof.HostOps

namespace Sys2Proof.Proofs

open Sys2Proof.Machine
open Sys2Proof.Effects
open Sys2Proof.Encoder
open Sys2Proof.Buffers
open Sys2Proof.Transfer
open Sys2Proof.HostOps

/-! The statements about `start`. -/

/-- Settles O34: the loop begun and its end, and its turn by what the poll of it answers. -/
theorem startIsItsLoop : Obligations.StartIsItsLoop := by
  refine ⟨fun s src poll done inactive => ⟨?_, fun full => ?_⟩,
    fun s src y free inside bound => ⟨fun between full => ?_, fun turns => ?_⟩⟩
  · obtain ⟨free, -⟩ := pollRuns_iff.mp poll
    rw [exec_start_begins poll done inactive]
    exact endStart_fillBuffers_standAt.symm.trans
      (exec_start_again (s := standAt (.inStart none) s.res (bindSource src s)) free rfl rfl).symm
  · rw [exec_start_begins poll done inactive, fillBuffers_full (s := bindSource src s) full]
    exact endStart_ready (s := bindSource src s) poll
  · subst between
    rw [exec_start_again free inside bound, resumeFill, fillBuffers_full full]
    exact endStart_standAt.symm.trans (endStart_ready (s := standAt .free s.res s) (pollRuns_iff.mpr ⟨free, rfl⟩))
  · intro place
    have turn : ∀ u, exec .poll { s with pollCtx := place } = .next u → TurnsBy src s u := by
      intro u polled
      cases y with
      | none => exact start_turns_between free inside bound (st_ne_ready_iff.mp (turns.resolve_left (· rfl))) polled
      | some r => exact start_turns_inside free inside bound polled
    refine ⟨fun u r polled => ?_, fun u polled => ?_⟩
    · obtain ⟨e, answered, runs, -⟩ := turn u polled
      exact fun reading => runs.trans ((endStart_goOn answered).1 r reading)
    · obtain ⟨e, answered, runs, handler, source⟩ := turn u polled
      intro ended
      rw [runs, (endStart_goOn answered).2 ended]
      exact endStart_fillBuffers_standAt.symm.trans
        (exec_start_again (s := standAt (.inStart none) u.res u) handler rfl source).symm

/-- Settles O35: the loop from where the `start` enters it, with only failures to come. -/
theorem startWaitsForStorage : Obligations.StartWaitsForStorage := by
  intro s src inactive free place unready fails
  obtain ⟨w, runs, unready, fails, source, frame⟩ : ∃ w, exec (.start src) s = endStart (fillBuffers w) ∧
      (w.st.a ≠ .ready ∨ w.st.b ≠ .ready) ∧ OnlyFails w.storage.reads ∧ w.storage.bound = some src ∧
      w = { s with st := w.st, pcm := w.pcm, pcmOld := w.pcmOld, storage := w.storage } := by
    rcases place with ⟨idle, done⟩ | ⟨between, bound⟩ | ⟨r, inside, bound, filling⟩
    · have poll : pollRuns s = true := pollRuns_iff.mpr ⟨free, idle⟩
      exact ⟨bindSource src s, exec_start_begins poll done inactive, unready, fails, rfl, rfl⟩
    · exact ⟨s, exec_start_again free between bound, unready, fails, bound, rfl⟩
    · obtain ⟨u, read, -, unready, fails, frame⟩ := readInto_stillFilling filling fails
      refine ⟨u, by rw [exec_start_again free inside bound, resumeFill_read, read, goOn], unready, fails, ?_, ?_⟩
      · rw [frame]
        exact bound
      · rw [frame]
  obtain ⟨v, ran, left, unready, -, still⟩ := fillBuffers_stillFilling unready fails
  have kept : v = { s with
      st := v.st, pcm := v.pcm, pcmOld := v.pcmOld, storage := { w.storage with reads := v.storage.reads } } :=
    still.trans (by rw [frame])
  refine ⟨(v.setPollCtx (.inStart none)).setRes .waits, by rw [runs, ran, endStart], ?_⟩
  rw [kept]
  exact ⟨rfl, rfl, inactive, free, source, left, unready, rfl, rfl, rfl, rfl, rfl⟩

/-- Settles O33: the polls of the loop, and the `dma_start` that they come to. -/
theorem startFillsThenLaunches : Obligations.StartFillsThenLaunches := by
  intro s src front rest poll worker done inactive valid outcomes ends count last
  obtain ⟨v, ran, full, left, launches, frame⟩ := repeatPoll_fills (s := bindSource src s) front poll
    (spared_iff.mpr (.inl done)) outcomes ends count last
  have poll' : pollRuns v = true := by rw [frame]; exact poll
  obtain ⟨w, starts⟩ : ∃ w, startTransmitter v = .next w := by
    rw [frame] at full ⊢
    exact startTransmitter_runs done inactive (by rw [full]) (by rw [full]) worker valid
  have launched : exec .dmaStart v = .next (w.setRes .none) := by
    rw [exec_dmaStart_runs poll', starts, andThen_next]
  refine ⟨v, w.setRes .none, ran, full, left, launched, ?_, ?_⟩
  · rw [exec_start_begins poll done inactive, launches, launched]
  · exact ((exec_writes launched).start_done (.inl rfl) rfl).2


end Sys2Proof.Proofs

/-! The completion interrupt (60_exceptions.md): the handler's actions one by one, what its running keeps from the
primary core, and the writers of the latches. -/

namespace Sys2Proof.Handler

open Sys2Proof.Machine
open Sys2Proof.Effects
open Sys2Proof.Barrier
open Sys2Proof.Transfer
open Sys2Proof.Dispatcher

variable {i : Instr} {w : PollCtx} {c d : Side} {s t u : State} {k : State → Out}

/-! The input that cuts the handler (60_exceptions.md R177; log 36). -/

theorem cutOr_cut {cs : List Bool} (p : HandlerAt) (k : State → Out) (cut : s.cuts = true :: cs) :
    cutOr p k s = .next { s with cuts := cs, handler := some p, res := .waits } := by
  rw [cutOr, cut]
  rfl

theorem cutOr_goesOn (p : HandlerAt) (k : State → Out) (uncut : s.cuts.head? ≠ some true) :
    cutOr p k s = k { s with cuts := s.cuts.drop 1 } := by
  rcases cutOr_cases p k s with ⟨cs, cuts, -⟩ | ⟨cs, cuts, runs⟩ | ⟨cuts, runs⟩
  · exact absurd (by rw [cuts]; rfl) uncut
  · rw [runs, cuts]
    rfl
  · rw [runs, cuts, List.drop_nil, ← cuts]

/-- `n + 1` actions without a cut: the first one, and `n` more. -/
theorem uncut_succ {cuts : List Bool} {n : Nat} : (∀ b ∈ cuts.take (n + 1), b = false) ↔
    cuts.head? ≠ some true ∧ ∀ b ∈ (cuts.drop 1).take n, b = false := by
  cases cuts <;> simp

/-! The actions of the handler (60_exceptions.md R178). -/

theorem exec_irqService_enters (latch : s.irq.get c = true) (enabled : s.intEn = true) (free : s.handler = none) :
    exec (.irqService c) s = cutOr (.acknowledged c) (handlerRearm c) (takeCompletion c s) := by
  simp [execIrqService, irqTakeable, latch, enabled, free]

theorem exec_irqService_acknowledged (stands : s.handler = some (.acknowledged c)) :
    exec (.irqService c) s = handlerRearm c s := by
  simp [execIrqService, stands]

theorem exec_irqService_rearmed (stands : s.handler = some (.rearmed c)) :
    exec (.irqService c) s = handlerPush c s := by
  simp [execIrqService, stands]

theorem handlerRearm_idle (idle : (s.ch.get c).busy = false) (unarmed : (s.ch.get c).armed = false) :
    handlerRearm c s = cutOr (.rearmed c) (handlerPush c) (rearmChannel c s) :=
  if_pos (rearmable_iff.mpr ⟨idle, unarmed⟩)

theorem handlerRearm_notIdle (h : (s.ch.get c).busy = true ∨ (s.ch.get c).armed = true) :
    handlerRearm c s = .refused .rearmInvalid := by
  refine if_neg fun able => ?_
  obtain ⟨idle, unarmed⟩ := rearmable_iff.mp able
  simp [idle, unarmed] at h

theorem handlerPush_eq (c : Side) (s : State) : handlerPush c s = .next (if s.q.length < s.cfg.queueDepth then
      { s with q := s.q ++ [jobOf c], pushes := s.pushes + 1, handler := none, res := .none }
    else { s with handler := some (.held (jobOf c)), res := .waits }) := by
  rw [handlerPush]
  split
  · next slot => rw [pushJob_free (jobOf c) slot]
  · next full => rw [pushJob_full (jobOf c) (Nat.le_of_not_lt full)]

/-! What the primary core does not do (60_exceptions.md R177, R179, R180). -/

theorem onPoll_waits (h : s.handler ≠ none ∨ s.pollCtx ≠ .free) : onPoll s k = waits s := by
  refine if_neg fun runs => ?_
  obtain ⟨free, idle⟩ := pollRuns_iff.mp runs
  simp [free, idle] at h

theorem onPrimary_waits (running : s.handler ≠ none) : onPrimary s k = waits s :=
  if_neg (by simpa [Option.isNone_iff_eq_none] using running)

/-- What waits where no handler runs waits while one runs. -/
theorem onPrimary_waits_of (h : k s = waits s) : onPrimary s k = waits s := by
  by_cases free : s.handler = none
  · rw [onPrimary_runs free, h]
  · exact onPrimary_waits free

/-- The operations of POLL that are not cut need it free. -/
theorem exec_uncut_waits (h : s.handler ≠ none ∨ s.pollCtx ≠ .free)
    (op : i ∈ [Instr.setup, .isActive, .acquireFillTarget, .markFilled, .dmaStart]) : exec i s = waits s := by
  simp only [List.mem_cons, List.not_mem_nil, or_false] at op
  rcases op with rfl | rfl | rfl | rfl | rfl
  exacts [(exec_setup s).trans (onPoll_waits h), (exec_isActive s).trans (onPoll_waits h),
    (exec_acquireFillTarget s).trans (onPoll_waits h), (exec_markFilled s).trans (onPoll_waits h),
    (exec_dmaStart s).trans (onPoll_waits h)]

/-- While a handler runs the operations of POLL that are cut stay where they stand. -/
theorem exec_resumable_waits (running : s.handler ≠ none)
    (op : i ∈ [Instr.stop, .poll, .dmaStop] ∨ ∃ src, i = .start src) : exec i s = waits s := by
  simp only [List.mem_cons, List.not_mem_nil, or_false] at op
  rcases op with (rfl | rfl | rfl) | ⟨src, rfl⟩
  exacts [(exec_stop s).trans (onPrimary_waits running), (exec_poll s).trans (onPrimary_waits running),
    (exec_dmaStop s).trans (onPrimary_waits running), (exec_start src s).trans (onPrimary_waits running)]

theorem exec_push_waits (j : Job) (done : s.setupDone = true) (running : s.handler ≠ none) :
    exec (.push j) s = waits s := by
  rw [exec_push, execPush, afterSetup_done done, onPrimary_waits running]

theorem exec_rearm_waits (c : Side) (done : s.setupDone = true) (running : s.handler ≠ none) :
    exec (.rearm c) s = waits s := by
  rw [exec_rearm, execRearm, afterSetup_done done, onPrimary_waits running]

theorem exec_poll_elsewhere (inside : s.pollCtx ≠ .free) (other : ∀ r, s.pollCtx ≠ .inPoll r) :
    exec .poll s = waits s := by
  refine (exec_poll s).trans (onPrimary_waits_of ?_)
  cases stands : s.pollCtx with
  | free => exact absurd stands inside
  | inPoll r => exact absurd stands (other r)
  | _ => rfl

theorem exec_stop_elsewhere (inside : s.pollCtx ≠ .free) (other : s.pollCtx ≠ .inStop) :
    exec .stop s = waits s := by
  refine (exec_stop s).trans (onPrimary_waits_of ?_)
  cases stands : s.pollCtx with
  | free => exact absurd stands inside
  | inStop => exact absurd stands other
  | _ => rfl

theorem exec_dmaStop_elsewhere (inside : s.pollCtx ≠ .free) (other : s.pollCtx ≠ .inDmaStop) :
    exec .dmaStop s = waits s := by
  refine (exec_dmaStop s).trans (onPrimary_waits_of ?_)
  cases stands : s.pollCtx with
  | free => exact absurd stands inside
  | inDmaStop => exact absurd stands other
  | _ => rfl

theorem exec_start_elsewhere {src : Source} (inside : s.pollCtx ≠ .free)
    (other : (∀ r, s.pollCtx ≠ .inStart r) ∨ s.storage.bound ≠ some src) : exec (.start src) s = waits s := by
  refine (exec_start src s).trans (onPrimary_waits_of ?_)
  cases stands : s.pollCtx with
  | free => exact absurd stands inside
  | inStart r => exact if_neg (other.resolve_left fun elsewhere => elsewhere r stands)
  | _ => rfl

/-! Who writes the latches (60_exceptions.md R173, R174). -/

theorem trigger_keeps (d : Side) (s : State) :
    (trigger d s).irq = s.irq ∧ (trigger d s).ch.get d.other = s.ch.get d.other := by
  obtain ⟨x, g, started, -⟩ := trigger_frame d s
  rw [started]
  exact ⟨rfl, Pair.get_set_other _ _ _⟩

/-- A transfer leaves the latches, or it is the last one of a channel with its interrupt enabled, idle after it. -/
theorem transferWord_irq (c : Side) (s : State) : (transferWord c s).irq = s.irq ∨
    (s.ch.get c).irqEn = true ∧ ((transferWord c s).ch.get c).busy = false ∧
      (transferWord c s).irq = s.irq.set c true := by
  obtain ⟨w, n, -, sent⟩ := transferWord_drawn c s
  rw [sent]
  split
  · next last =>
    rw [complete_wordSent last]
    obtain ⟨irq, chan⟩ := trigger_keeps c.other (lastSent c w n s)
    rw [Side.other_other] at chan
    rw [irq, chan]
    cases enabled : (s.ch.get c).irqEn with
    | false => exact .inl (by simp [lastSent, enabled])
    | true => exact .inr ⟨rfl, by simp [lastSent], by simp [lastSent, enabled]⟩
  · exact .inl rfl

theorem exec_dmaWord_irq (runs : exec (.dmaWord c) s = .next t) : t.irq = s.irq ∨
    (s.ch.get c).irqEn = true ∧ (s.ch.get c).busy = true ∧ (t.ch.get c).busy = false ∧
      t.irq = s.irq.set c true := by
  cases exec_runs runs with
  | waits => exact .inl rfl
  | transferred on inside =>
    obtain ⟨-, busy⟩ := Bool.and_eq_true_iff.mp on
    exact (transferWord_irq c s).imp id fun ⟨enabled, idle, latch⟩ => ⟨enabled, busy, idle, latch⟩

theorem handlerEntered_irq (entered : HandlerEntered c s u) : u.irq = s.irq ∨ u.irq = s.irq.set c false := by
  rcases entered with ⟨-, cs, rfl⟩ | ⟨-, rfl⟩
  · exact .inr rfl
  · exact .inl rfl

theorem pushJob_irq (j : Job) (s : State) : (pushJob j s).irq = s.irq := by
  obtain ⟨n, q, x, r, pushed⟩ := pushJob_frame j s
  rw [pushed]

/-- The handler writes its own latch, in its acknowledge. -/
theorem exec_irqService_irq (runs : exec (.irqService c) s = .next t) :
    t.irq = s.irq ∨ t.irq = s.irq.set c false := by
  cases exec_runs runs with
  | waits => exact .inl rfl
  | acknowledged => exact .inr rfl
  | handlerRearmed entered => exact (handlerEntered_irq entered :)
  | handlerPushed entered =>
    rw [pushJob_irq]
    exact (handlerEntered_irq entered :)
  | handlerPushes => exact .inl (pushJob_irq _ _)

theorem stopAsks_irq (asks : StopAsks w s u) : u.irq = s.irq ∨ u.irq = both false := by
  rcases asks with ⟨-, -, rfl⟩ | ⟨-, rfl⟩
  · exact .inr rfl
  · exact .inl rfl

theorem exec_isStop_irq (stop : Safety.IsStop i) (runs : exec i s = .next t) :
    t.irq = s.irq ∨ t.irq = both false := by
  rcases stop with rfl | rfl
  · cases exec_runs runs with
    | waits => exact .inl rfl
    | dmaStopWaits asks | dmaStopped asks => exact (stopAsks_irq asks :)
  · cases exec_runs runs with
    | waits => exact .inl rfl
    | stopWaits asks | stopped asks => exact (stopAsks_irq asks :)

/-- The operations that may write a latch; `setup` and a start clear both. -/
theorem writes_irq (h : Writes i s t) : t.irq = s.irq ∨ (i = .setup ∨ Safety.IsStart i) ∧ t.irq = both false ∨
    Safety.IsStop i ∨ ∃ d, i = .dmaWord d ∨ i = .irqService d := by
  cases h with
  | configured => exact .inr (.inl ⟨.inl rfl, rfl⟩)
  | started src => exact .inr (.inl ⟨.inr (.inr ⟨src, rfl⟩), rfl⟩)
  | dmaStarted => exact .inr (.inl ⟨.inr (.inl rfl), rfl⟩)
  | stopWaits stop | stopped stop => exact .inr (.inr (.inl stop))
  | transferred d => exact .inr (.inr (.inr ⟨d, .inl rfl⟩))
  | served d => exact .inr (.inr (.inr ⟨d, .inr rfl⟩))
  | _ => exact .inl rfl

/-- What an operation does to the latches: nothing; it clears both, or one in its handler; or a completion sets one. -/
theorem exec_irq (runs : exec i s = .next t) : t.irq = s.irq ∨
    (i = .setup ∨ Safety.IsStart i ∨ Safety.IsStop i) ∧ t.irq = both false ∨
    (∃ d, i = .irqService d ∧ t.irq = s.irq.set d false) ∨
    ∃ d, i = .dmaWord d ∧ (s.ch.get d).irqEn = true ∧ (s.ch.get d).busy = true ∧ (t.ch.get d).busy = false ∧
      t.irq = s.irq.set d true := by
  rcases writes_irq (exec_writes runs) with kept | ⟨clears, cleared⟩ | stop | ⟨d, rfl | rfl⟩
  · exact .inl kept
  · exact .inr (.inl ⟨clears.imp id .inl, cleared⟩)
  · exact (exec_isStop_irq stop runs).imp id fun cleared => .inl ⟨.inr (.inr stop), cleared⟩
  · exact (exec_dmaWord_irq runs).imp id fun latched => .inr (.inr ⟨d, rfl, latched⟩)
  · exact (exec_irqService_irq runs).imp id fun cleared => .inr (.inl ⟨d, rfl, cleared⟩)

theorem get_set_cases {α : Type} (x : Pair α) (c d : Side) (y : α) :
    (x.set d y).get c = x.get c ∨ d = c ∧ (x.set d y).get c = y := by
  rcases Side.eq_or_eq_other d c with rfl | rfl
  · exact .inr ⟨rfl, Pair.get_set_same _ _ _⟩
  · exact .inl (Pair.get_set_other _ _ _)

/-- The same for the latch of one channel. -/
theorem exec_irq_get (c : Side) (runs : exec i s = .next t) : t.irq.get c = s.irq.get c ∨
    (i = .irqService c ∨ i = .setup ∨ Safety.IsStart i ∨ Safety.IsStop i) ∧ t.irq.get c = false ∨
    (i = .dmaWord c ∧ (s.ch.get c).irqEn = true ∧ (s.ch.get c).busy = true ∧ (t.ch.get c).busy = false) ∧
      t.irq.get c = true := by
  rcases exec_irq runs with kept | ⟨clears, cleared⟩ | ⟨d, rfl, cleared⟩ | ⟨d, rfl, enabled, busy, idle, latched⟩
  · exact .inl (by rw [kept])
  · exact .inr (.inl ⟨.inr clears, by rw [cleared]; cases c <;> rfl⟩)
  · rw [cleared]
    refine (get_set_cases s.irq c d false).imp id fun ⟨own, low⟩ => ?_
    exact .inl ⟨.inl (by rw [own]), low⟩
  · rw [latched]
    refine (get_set_cases s.irq c d true).imp id fun ⟨own, high⟩ => ?_
    subst own
    exact .inr ⟨⟨rfl, enabled, busy, idle⟩, high⟩

end Sys2Proof.Handler

namespace Sys2Proof.Proofs

open Sys2Proof.Machine
open Sys2Proof.Transfer
open Sys2Proof.Handler

/-! The statements about the completion interrupt. -/

/-- Settles O54, by what an operation can do to the latches. -/
theorem interruptLatchWriters : Obligations.InterruptLatchWriters := by
  intro i s t c runs
  rcases exec_irq_get c runs with kept | ⟨clears, low⟩ | ⟨completes, high⟩
  · rw [kept]
    exact ⟨fun low high => absurd (low.symm.trans high) nofun, fun high low => absurd (low.symm.trans high) nofun⟩
  · exact ⟨fun _ high => absurd (low.symm.trans high) nofun, fun _ _ => clears⟩
  · exact ⟨fun _ _ => completes, fun _ low => absurd (low.symm.trans high) nofun⟩

/-- Settles O42: the handler from its rearm on, and its entry before it. -/
theorem irqService : Obligations.IrqService := by
  intro c s j acked rearmed pushed cutAt
  have push (x : State) : handlerPush c x = .next (pushed x) := by cases c <;> exact handlerPush_eq _ x
  have rearm (x : State) (idle : (x.ch.get c).busy = false) (unarmed : (x.ch.get c).armed = false) :
      (x.cuts.head? ≠ some true → handlerRearm c x = .next (pushed { rearmed x with cuts := x.cuts.drop 1 })) ∧
      ∀ cs, x.cuts = true :: cs → handlerRearm c x = .next (cutAt (.rearmed c) (rearmed x) cs) := by
    rw [handlerRearm_idle idle unarmed]
    exact ⟨fun uncut => (cutOr_goesOn (s := rearmChannel c x) _ _ uncut).trans (push _),
      fun cs cut => cutOr_cut (s := rearmChannel c x) _ _ cut⟩
  refine ⟨fun idle unarmed => ⟨fun latch enabled free => ?_, fun stands => ?_⟩, fun stands => ?_⟩
  · rw [exec_irqService_enters latch enabled free]
    have after := rearm { acked with cuts := s.cuts.drop 1 } idle unarmed
    refine ⟨fun uncut => ?_, fun cs cut => cutOr_cut _ _ cut, fun cs cut => ?_⟩
    · obtain ⟨first, rest⟩ := uncut_succ.mp uncut
      have drop : s.cuts.drop 2 = (s.cuts.drop 1).drop 1 := by rw [List.drop_drop]
      rw [drop]
      exact (cutOr_goesOn (s := acked) _ _ first).trans (after.1 (uncut_succ.mp rest).1)
    · have first : s.cuts.head? ≠ some true := by simp [cut]
      exact (cutOr_goesOn (s := acked) _ _ first).trans (after.2 cs (congrArg (List.drop 1) cut))
  · rw [exec_irqService_acknowledged stands]
    exact ⟨fun uncut => (rearm s idle unarmed).1 (uncut_succ.mp uncut).1, (rearm s idle unarmed).2⟩
  · rw [exec_irqService_rearmed stands, push]

/-- Settles O43: the refusal of the rearm, which the acknowledge does not lift. -/
theorem irqServiceNotIdle : Obligations.IrqServiceNotIdle := by
  refine fun c s notIdle => ⟨fun latch enabled free uncut => ?_, fun stands => ?_⟩
  · rw [exec_irqService_enters latch enabled free]
    exact (cutOr_goesOn (s := takeCompletion c s) _ _ uncut).trans (handlerRearm_notIdle notIdle)
  · rw [exec_irqService_acknowledged stands, handlerRearm_notIdle notIdle]

/-- Settles O44: the running handler, and POLL inside an operation. -/
theorem heldHandlerStopsPrimaryCore : Obligations.HeldHandlerStopsPrimaryCore := by
  refine ⟨fun s h i stands op => ?_, fun s inside => ⟨fun i op => exec_uncut_waits (.inr inside) op,
    exec_poll_elsewhere inside, exec_stop_elsewhere inside, exec_dmaStop_elsewhere inside,
    fun src => exec_start_elsewhere inside⟩⟩
  have running : s.handler ≠ none := by simp [stands]
  rcases op with op | ⟨src, rfl⟩ | ⟨c, rfl, ack, re⟩ | ⟨done, ⟨j, rfl⟩ | ⟨c, rfl⟩⟩
  · by_cases resumable : i ∈ [Instr.stop, .poll, .dmaStop]
    · exact exec_resumable_waits running (.inl resumable)
    · exact exec_uncut_waits (.inl running) (by
        simp only [List.mem_cons, List.not_mem_nil, or_false] at op resumable ⊢
        tauto)
  · exact exec_resumable_waits running (.inr ⟨src, rfl⟩)
  · exact exec_irqService_elsewhere running (by simpa [stands] using ack) (by simpa [stands] using re)
  · exact exec_push_waits j done running
  · exact exec_rearm_waits c done running

end Sys2Proof.Proofs

/-! Reset and hazards (70_reset_and_hazards.md): the operations before `setup`, what a start takes from the state that
it finds, and the bytes of a Ready buffer. -/

namespace Sys2Proof.Hazards

open Sys2Proof.Machine
open Sys2Proof.Effects
open Sys2Proof.Buffers
open Sys2Proof.Stops
open Sys2Proof.Stream
open Sys2Proof.HostOps

variable {i : Instr} {s s' t t' u : State} {b : Side} {n : Nat}

/-! Before `setup` (R201, R212; log 19). -/

theorem exec_beforeSetup {k : State → Out} (fresh : s.setupDone = false) (tests : exec i s = afterSetup s k) :
    exec i s = .refused .startInvalid :=
  tests.trans (afterSetup_before fresh)

theorem exec_beforeSetup_poll (poll : pollRuns s = true) (fresh : s.setupDone = false) :
    ∀ i ∈ [Instr.acquireFillTarget, .markFilled, .dmaStart, .dmaStop], exec i s = .refused .startInvalid := by
  obtain ⟨free, idle⟩ := pollRuns_iff.mp poll
  simp only [List.forall_mem_cons]
  refine ⟨?_, ?_, ?_, ?_, nofun⟩
  · rw [exec_acquireFillTarget, execAcquireFillTarget, onPoll_runs poll, afterSetup_before fresh]
  · rw [exec_markFilled, execMarkFilled, onPoll_runs poll, afterSetup_before fresh]
  · rw [Transfer.exec_dmaStart_runs poll, Transfer.startTransmitter_invalid (.inl fresh), andThen_refused]
  · simp only [exec_dmaStop, execDmaStop, onPrimary_runs free, idle, afterSetup_before fresh]

theorem exec_rejected (poll : pollRuns s = true) (fresh : s.setupDone = false) (rejected : s.rejected = true) :
    ∀ i ∈ [Instr.isActive, .stop, .poll], exec i s = .refused .startInvalid := by
  obtain ⟨free, idle⟩ := pollRuns_iff.mp poll
  have unspared : spared s = false := by simp [spared, fresh, rejected]
  simp only [List.forall_mem_cons]
  refine ⟨?_, ?_, ?_, nofun⟩
  · rw [exec_isActive, execIsActive, onPoll_runs poll, unlessRejected_refused unspared]
  · simp only [exec_stop, execStop, onPrimary_runs free, idle, unlessRejected_refused unspared]
  · rw [exec_poll_free free idle, unlessRejected_refused unspared]

/-- A `poll` begun is never refused for its `markFilled`: its target is Filling (44_host_interface.md R163). -/
theorem exec_poll_answers (poll : pollRuns s = true) (spare : spared s = true) : ∃ t, exec .poll s = .next t := by
  obtain ⟨free, idle⟩ := pollRuns_iff.mp poll
  by_cases full : s.st = { a := .ready, b := .ready }
  · exact ⟨_, by rw [exec_poll_free free idle, unlessRejected_spared spare, pollOnce_full full, endPoll]⟩
  · obtain ⟨b, target⟩ := exists_pollTarget (st_ne_ready_iff.mp full)
    have reading : PollReads s (newReading b) := ⟨free, .inl ⟨idle, spare, rfl, target⟩⟩
    match outcome : s.storage.reads with
    | [] => exact ⟨_, reading.fails (.inl ⟨outcome, rfl⟩)⟩
    | .failure cells :: reads => exact ⟨_, reading.fails (.inr ⟨reads, outcome⟩)⟩
    | .pending is :: reads =>
      obtain ⟨t, ran, -⟩ := reading.goesOn outcome
      exact ⟨t, ran⟩
    | .success :: reads =>
      obtain ⟨t, ran, -⟩ := reading.succeeds target.firstIn_filling outcome
      exact ⟨t, ran⟩

/-! What a start takes from the state that it finds (R202, 42_dma_transmitter.md R134). -/

theorem dmaStart_completes (runs : exec .dmaStart s = .next t) (done : t.res = .none) :
    ∃ u, startTransmitter s = .next u ∧ t = u.setRes .none := by
  cases exec_runs runs with
  | waits => cases done
  | dmaStarted _ starts => exact ⟨_, starts, rfl⟩

theorem pcmBytes_congr {p : Nat} (h : ∀ i < p + n, pcmByte s b i = pcmByte s' b i) :
    pcmBytes s b p n = pcmBytes s' b p n :=
  List.map_congr_left fun i hi => h (p + i) (Nat.add_lt_add_left (List.mem_range.mp hi) p)

theorem twoFills_congr (cfg : s.cfg = s'.cfg) (h : ∀ b, ∀ i < s.cfg.pcmBufBytes, pcmByte s b i = pcmByte s' b i) :
    twoFills s = twoFills s' := by
  have fill : ∀ b, pcmBytes s b 0 s.cfg.pcmBufBytes = pcmBytes s' b 0 s'.cfg.pcmBufBytes := fun b => by
    rw [← cfg]
    exact pcmBytes_congr fun i hi => h b i (by omega)
  rw [twoFills, twoFills, fill, fill]

theorem wireEntry_of_wireEntries {c : Side} (h : wireEntries t c 0 n = wireEntries t' c 0 n) :
    ∀ j < n, wireEntry t c j = wireEntry t' c j := fun j hj => by
  have same := List.map_inj_left.mp h j (List.mem_range.mpr hj)
  rwa [Nat.zero_add] at same

theorem context_ext {x y : Context} (sfcnt : x.sfcnt = y.sfcnt) (inv : x.inv = y.inv) (sel : x.sel = y.sel)
    (cur : x.cur = y.cur) : x = y := by
  cases x
  cases y
  rw [Context.mk.injEq]
  exact ⟨sfcnt, inv, sel, cur⟩

/-- The place in the stream decides the whole context. -/
theorem atByte_ctx (h : AtByte t n) (h' : AtByte t' n) (cfg : t.cfg = t'.cfg) : t.ctx = t'.ctx := by
  obtain ⟨-, cur, sel, sfcnt, inv⟩ := h
  obtain ⟨-, cur', sel', sfcnt', inv'⟩ := h'
  rw [← cfg] at cur' sel'
  exact context_ext (BitVec.eq_of_toNat_eq (sfcnt.trans sfcnt'.symm)) (inv.trans inv'.symm) (sel.trans sel'.symm)
    (cur.trans cur'.symm)

/-- Primed from the same settled fills, two states hold the same words. -/
theorem primed_wire (valid : configValid s.cfg = true) (cfg : s.cfg = s'.cfg) (fills : twoFills s = twoFills s')
    (settled : ∀ b, s.pcmOld.get b = []) (settled' : ∀ b, s'.pcmOld.get b = []) (h : Primed s t) (h' : Primed s' t') :
    ∀ c, ∀ j < s.cfg.wireWords, wireEntry t c j = wireEntry t' c j := by
  have words := primed_fills valid settled h
  rw [fills, cfg, ← primed_fills (cfg ▸ valid) settled' h', ← cfg] at words
  obtain ⟨wordsA, wordsB⟩ := List.append_inj words (by simp [wireEntries])
  rintro (_ | _)
  exacts [wireEntry_of_wireEntries wordsA, wireEntry_of_wireEntries wordsB]

/-- Both starts found both buffers Ready, and release the same of them. -/
theorem primed_st_eq (cfg : s.cfg = s'.cfg) (starts : startTransmitter s = .next t)
    (starts' : startTransmitter s' = .next t') (h : Primed s t) (h' : Primed s' t') : t.st = t'.st := by
  have found : s.st = s'.st := Pair.ext_get fun b =>
    (Buffers.startTransmitter_ready starts b).trans (Buffers.startTransmitter_ready starts' b).symm
  rw [h.st, h'.st, found, cfg]

/-- Of the descriptors a start keeps the interrupt enables, and `BUSY` of channel B. -/
theorem launchedChans_congr {x y : Pair Chan} (irqEn : ∀ c, (x.get c).irqEn = (y.get c).irqEn)
    (busy : x.b.busy = y.b.busy) : launchedChans x = launchedChans y := by
  simp only [launchedChans, loadedChan, busy]
  rw [show x.a.irqEn = y.a.irqEn from irqEn .A, show x.b.irqEn = y.b.irqEn from irqEn .B]

/-! The bytes of a Ready buffer (R211, 41_buffer_pipeline.md R119). -/

/-- From `s` to `t`, if `F_PROTOCOL` is not marked, a Ready buffer stayed Ready and kept its bytes. -/
def SparesReady (s t : State) : Prop := t.ghost.protocol = false → s.ghost.protocol = false ∧
  ∀ b, s.st.get b = .ready → t.st.get b = .ready ∧ ∀ j, pcmByte t b j = pcmByte s b j

theorem SparesReady.trans (h : SparesReady s t) (h' : SparesReady t u) : SparesReady s u := by
  intro good
  obtain ⟨good, kept'⟩ := h' good
  obtain ⟨good, kept⟩ := h good
  refine ⟨good, fun b ready => ?_⟩
  obtain ⟨readyT, bytes⟩ := kept b ready
  obtain ⟨readyU, bytes'⟩ := kept' b readyT
  exact ⟨readyU, fun j => (bytes' j).trans (bytes j)⟩

/-- A store into a Ready buffer marks `F_PROTOCOL`, and any other store leaves the Ready buffers alone. -/
theorem sparesReady_storeFill (b : Side) (i : Nat) (v : Byte) (s : State) : SparesReady s (storeFill b i v s) := by
  intro good
  have filling : s.st.get b = .filling := by
    by_contra other
    rw [storeFill_eq, State.ghost_setGhost, if_neg other] at good
    cases good
  have unmarked : storeFill b i v s = writePcm b i v s := by rw [storeFill, if_pos filling]
  rw [unmarked] at good ⊢
  refine ⟨good, fun c ready => ⟨ready, fun j => ?_⟩⟩
  rw [pcmByte_writePcm, if_neg]
  rintro ⟨rfl, -⟩
  exact absurd (ready.symm.trans filling) nofun

/-- `ST` of a buffer that is not Ready is written. -/
theorem sparesReady_setSt {x : BufState} (unready : s.st.get b ≠ .ready) (st : t.st = s.st.set b x) (pcm : t.pcm = s.pcm)
    (ghost : t.ghost = s.ghost) : SparesReady s t := by
  intro good
  refine ⟨ghost ▸ good, fun c ready => ⟨?_, fun j => by rw [pcmByte, pcm, pcmByte]⟩⟩
  have other : c ≠ b := by
    rintro rfl
    exact unready ready
  rw [st, Pair.get_set_ne _ other, ready]

theorem fillKeeps_sparesReady : FillKeeps SparesReady where
  refl := fun _ good => ⟨good, fun _ ready => ⟨ready, fun _ => rfl⟩⟩
  trans := fun _ _ _ => SparesReady.trans
  storage := fun _ _ good => ⟨good, fun _ ready => ⟨ready, fun _ => rfl⟩⟩
  store := fun s b i v _ => sparesReady_storeFill b i v s
  mark := fun _ _ filling => sparesReady_setSt (by rw [(firstIn_eq_some filling).1]; decide) rfl rfl rfl
  claim := fun _ _ _ stale => sparesReady_setSt (by rw [(firstIn_eq_some stale).1]; decide) rfl rfl rfl

theorem startFill_sparesReady {src : Source} (h : StartFill src s u) : SparesReady s u := by
  rcases h with ⟨-, -, -, rfl⟩ | ⟨r, -, rfl⟩
  · exact (fillKeeps_sparesReady.storage s _).trans (fillKeeps_sparesReady.fillLoop _ _)
  · exact fillKeeps_sparesReady.resumeFill r s

theorem pollRead_sparesReady (h : PollRead s u) : SparesReady s u := by
  rcases h with ⟨-, -, rfl⟩ | ⟨r, -, rfl⟩
  · exact fillKeeps_sparesReady.pollOnce s
  · exact fillKeeps_sparesReady.readInto r s

/-- Where an operation writes PCM bytes, it does so in a fill that spares the Ready buffers. -/
theorem runs_pcm (h : Runs i s t) :
    t.pcm = s.pcm ∨ ∃ u, SparesReady s u ∧ t.pcm = u.pcm ∧ t.ghost = u.ghost := by
  refine or_iff_not_imp_left.mpr fun written => ?_
  obtain ⟨-, writers, -⟩ := h.writes.fields
  rcases writers written with (rfl | ⟨src, rfl⟩) | ⟨b, k, v, rfl⟩
  · cases h with
    | waits => exact absurd rfl written
    | pollWaits _ reads => exact ⟨_, pollRead_sparesReady reads, rfl, rfl⟩
    | polled _ reads => exact ⟨_, pollRead_sparesReady reads, rfl, rfl⟩
  · cases h with
    | waits => exact absurd rfl written
    | startWaits _ fills => exact ⟨_, startFill_sparesReady fills, rfl, rfl⟩
    | started fills starts =>
      obtain ⟨_, _, _, _, _, rfl⟩ := startTransmitter_frame starts
      exact ⟨_, startFill_sparesReady fills, rfl, rfl⟩
  · cases h with
    | waits => exact absurd rfl written
    | fillWritten => exact ⟨_, sparesReady_storeFill b k v s, rfl, rfl⟩

end Sys2Proof.Hazards

namespace Sys2Proof.Proofs

open Sys2Proof.Machine
open Sys2Proof.Effects
open Sys2Proof.Stops
open Sys2Proof.Stream
open Sys2Proof.HostOps
open Sys2Proof.Hazards

/-! The statements about reset and hazards. -/

/-- Settles O46, register by register; no buffer lists a value that was written. -/
theorem resetState : Obligations.ResetState := by
  refine ⟨rfl, rfl, fun c => ?_, rfl, rfl, rfl, rfl, rfl, rfl, ⟨rfl, rfl, rfl, rfl⟩, rfl, rfl, fun b i => ?_,
    fun c j => ?_⟩
  · cases c <;> rfl
  · cases b <;> rfl
  · cases c <;> rfl

/-- Settles O32: the refusals by the test for `setup`, the answers by the operations where they are spared. -/
theorem beforeSetupRefused : Obligations.BeforeSetupRefused := by
  intro s fresh
  refine ⟨fun c => ⟨exec_beforeSetup fresh (exec_consumeChunk c s), exec_beforeSetup fresh (exec_rearm c s)⟩,
    fun b p c q n => exec_beforeSetup fresh (exec_encode b p c q n s),
    fun j => exec_beforeSetup fresh (exec_push j s), fun b k v => exec_beforeSetup fresh (exec_fillWrite b k v s),
    fun lo hi => exec_beforeSetup fresh (exec_encodeSample lo hi s),
    fun poll => ⟨exec_beforeSetup_poll poll fresh, fun src => Transfer.exec_start_invalid poll (.inl fresh),
      fun unrejected => ?_, fun rejected => ⟨exec_rejected poll fresh rejected, fun invalid => ?_⟩⟩⟩
  · obtain ⟨free, idle⟩ := pollRuns_iff.mp poll
    have spare : spared s = true := spared_iff.mpr (.inr unrejected)
    refine ⟨exec_isActive_runs poll spare, fun queue worker => ?_, exec_poll_answers poll spare⟩
    rw [exec_stop_begins free idle spare]
    exact ⟨_, endStop_quiet (s := disableChannels s) queue worker, rfl⟩
  · rw [exec_setup_rejects poll fresh invalid, ← rejected]
    rfl

/-- Settles O55: the two starts by their priming, which reads nothing but the two fills. -/
theorem restartForgetsThePast : Obligations.RestartForgetsThePast := by
  intro s s' t t' cfg valid settled settled' bytes chans runs done runs' done'
  obtain ⟨u, starts, rfl⟩ := dmaStart_completes runs done
  obtain ⟨u', starts', rfl⟩ := dmaStart_completes runs' done'
  have primed := startTransmitter_primed valid starts
  have primed' := startTransmitter_primed (cfg ▸ valid) starts'
  have noOld : ∀ b, s.pcmOld.get b = [] := by rw [settled]; rintro (_ | _) <;> rfl
  have noOld' : ∀ b, s'.pcmOld.get b = [] := by rw [settled']; rintro (_ | _) <;> rfl
  have wire := primed_wire valid cfg (twoFills_congr cfg bytes) noOld noOld' primed primed'
  have st := primed_st_eq cfg starts starts' primed primed'
  have place' := primed'.position
  rw [← cfg] at place'
  obtain ⟨_, busyB, busyB'⟩ := chans .B
  have ch := launchedChans_congr (fun c => (chans c).1) (busyB.trans busyB'.symm)
  obtain ⟨_, _, _, _, _, rfl⟩ := startTransmitter_frame starts
  obtain ⟨_, _, _, _, _, rfl⟩ := startTransmitter_frame starts'
  exact ⟨atByte_ctx primed.position place' cfg, rfl, rfl, rfl, rfl, ch, st, rfl, rfl, rfl, wire⟩

/-- Settles O59: only a fill writes PCM bytes, and none of a Ready buffer without marking `F_PROTOCOL`. -/
theorem readyBytesStay : Obligations.ReadyBytesStay := by
  intro i s t b runs ready good j
  rcases runs_pcm (exec_runs runs) with kept | ⟨u, spares, pcm, ghost⟩
  · rw [pcmByte, kept, pcmByte]
  · obtain ⟨-, bytes⟩ := (spares (ghost ▸ good)).2 b ready
    rw [pcmByte, pcm, ← bytes j, pcmByte]

end Sys2Proof.Proofs
